-- ==== Sys2Proof/Word.lean ====
section
/-! DEFINITION. The word types of the A96 (R2: a word is 64 bits, a half-word 32 bits, a byte 8 bits). -/
namespace Sys2Proof

/-- A word: 64 bits (R2). -/
abbrev Word := BitVec 64

/-- A half-word: 32 bits (R2). -/
abbrev Half := BitVec 32

/-- A byte: 8 bits (R2). -/
abbrev Byte := BitVec 8

end Sys2Proof
end

