-- ==== Sys2Proof/Syntax.lean ====
section
/-! DEFINITION. The instructions and events of the A96: one constructor of Instr per row of spec/opcode_table.json.
Rows 0-192 are instruction forms (chapters 04 to 21); the later rows are steps that a unit other than an issuing thread
takes, or messages that reach Imago: they have no word and come from the agenda of the state (log 2). -/
namespace Sys2Proof

/-- The three kinds of instruction-executing engine (R125: L, C and S). -/
inductive EngineKind where
  | lane | cond | stew
  deriving DecidableEq, Repr

/-- The fields every full and long word carries beside its operation (R98): dist, wait, set and guard. -/
structure Hdr where
  dist  : BitVec 3
  wait  : BitVec 12
  set   : BitVec 4
  guard : BitVec 4
  deriving DecidableEq, Repr

/-- A source operand (R99, R122). -/
inductive Src where
  | w (n : BitVec 8)
  | b (n : BitVec 2)
  | zero
  | lane
  | k (n : BitVec 5)
  deriving DecidableEq, Repr

/-- A destination operand (R100, R122); sup is the suppressed destination, S = 1. -/
inductive Dst where
  | w (n : BitVec 8)
  | k (n : BitVec 5)
  | sup
  deriving DecidableEq, Repr

/-- Integer type codes (R103). -/
inductive IntTy where
  | i8 | n8 | i16 | n16 | i32 | n32 | i64 | n64 | i8x8 | n8x8 | i16x4 | n16x4 | i32x2 | n32x2 | b32 | b64
  deriving DecidableEq, Repr

/-- Floating-point type codes (R103). -/
inductive FpTy where
  | f32 | f32x2 | f16 | f16x4 | bf16 | bf16x4 | e4m3x8 | e5m2x8
  deriving DecidableEq, Repr

/-- Rounding modes (R48). -/
inductive Rm where
  | rn | rz | ru | rd
  deriving DecidableEq, Repr

/-- The four comparison and atomic types (R164, R217). -/
inductive CmpTy where
  | i32 | n32 | i64 | n64
  deriving DecidableEq, Repr

/-- Conditions of setp (R164). -/
inductive Cond where
  | eq | ne | lt | le | gt | ge | tst
  deriving DecidableEq, Repr

/-- Conditions of fsetp (R168). -/
inductive FCond where
  | eq | ne | lt | le | gt | ge | ord | uno
  deriving DecidableEq, Repr

/-- Types of fsetp (R168). -/
inductive FCmpTy where
  | f32 | f16 | bf16
  deriving DecidableEq, Repr

/-- Types of fclass (R169). -/
inductive FClassTy where
  | f32 | f16 | bf16 | e4m3 | e5m2
  deriving DecidableEq, Repr

/-- Special registers of mov (R162). -/
inductive SReg where
  | lane | warp | tid | block | nblock | core | cluster | launch | job | phase | stk | status
  deriving DecidableEq, Repr

/-- Conversions of fcvt (R174), destination named first. -/
inductive FCvt where
  | f16f32 | bf16f32 | e4m3f32 | e5m2f32 | f32f16 | f32bf16 | f32e4m3 | f32e5m2
  deriving DecidableEq, Repr

/-- Conversions of icvt (R175), destination named first. -/
inductive ICvt where
  | f32i32 | f32n32 | f32i64 | f32n64 | i32f32 | n32f32 | i64f32 | n64f32
  deriving DecidableEq, Repr

/-- Types of pdot with their modifier (R179). -/
inductive PdotTy where
  | i8x8 (sat : Bool) | n8x8 (sat : Bool) | i16x4 (sat : Bool) | n16x4 (sat : Bool)
  | e4m3x8 (rm : Rm) | e5m2x8 (rm : Rm) | bf16x4 (rm : Rm)
  deriving DecidableEq, Repr

/-- Views of nzmask and nzcnt (R180). -/
inductive NzView where
  | b64 | b32x2 | b16x4 | b8x8 | f32x2 | f16x4 | bf16x4 | e4m3x8 | e5m2x8 | bfp8 | bfp4
  deriving DecidableEq, Repr

/-- Operations of a pair half (R116). -/
inductive HalfOp where
  | addI64 | subI64 | and | or | xor | andn | shl | shr | sar | minI64 | maxI64 | minN64 | maxN64 | mov
  | addI32 | subI32 | mulI32 | mulI64 | faddF32 | fsubF32 | fmulF32 | fminF32 | fmaxF32 | faddF16x4 | fmulF16x4
  | addI32x2 | addI16x4
  deriving DecidableEq, Repr

/-- One half of a pair word (R113, R114): empty, or d := d op s. -/
inductive PairHalf where
  | empty
  | op (o : HalfOp) (d : BitVec 8) (s : Src)
  deriving DecidableEq, Repr

/-- Operations of poll with their destination (R199). -/
inductive PollOp where
  | mask (d : Dst) | count (d : Dst) | ge (p : BitVec 3) | le (p : BitVec 3)
  deriving DecidableEq, Repr

/-- Operations of lred and scan (R200). -/
inductive RedOp where
  | add (ty : CmpTy) | min (ty : CmpTy) | max (ty : CmpTy)
  | and (w64 : Bool) | or (w64 : Bool) | xor (w64 : Bool)
  | fadd | fmin | fmax
  deriving DecidableEq, Repr

/-- Address spaces (R73). -/
inductive Space where
  | g | s | a | p
  deriving DecidableEq, Repr

/-- Access types of ld and st (R213). -/
inductive LdTy where
  | b8 | i8 | b16 | i16 | b32 | i32 | b64 | b128
  deriving DecidableEq, Repr

/-- Operations of atom (R217). -/
inductive AtomOp where
  | add | min | max | and | or | xor | xchg | cas
  deriving DecidableEq, Repr

/-- Types of atom.fadd (R219). -/
inductive AfTy where
  | f32 | f16 | bf16
  deriving DecidableEq, Repr

/-- Types of sproj (R283). -/
inductive SprojTy where
  | f16x4 | bf16x4 | f32x2
  deriving DecidableEq, Repr

/-- Fields of fib.get (R283). -/
inductive FibField where
  | coord | pos | lim | status
  deriving DecidableEq, Repr

/-! ### Messages and other inputs (chapters 21 to 23) -/

/-- The four header words of a message and the connection it came on (R404, R405). -/
structure MsgHdr where
  conn : Nat
  w0 : Word
  w1 : Word
  w2 : Word
  w3 : Word
  deriving DecidableEq, Repr

/-- The end of an OPER body (R417): the counter, r and s; and the key that the message names. -/
structure OperSig where
  counter : Word
  key     : List Byte
  r       : List Byte
  s       : List Byte
  deriving DecidableEq, Repr

/-- What an OPER message configures (R406): contexts, partitions, window entries, connections, run lists, slices in
milliseconds, reservations; and the request for the identity certificate (R418). -/
inductive OperCmd where
  | createContext (asid : Nat) (w : List Word)
  | setPartition (n : Nat) (word : Word)
  | setWindow (idx : Nat) (w0 w1 : Word)
  | bindConn (conn asid : Nat)
  | runList (part : Nat) (asids : List Nat)
  | slice (part asid ms : Nat)
  | certificate
  | reserve (asid frames : Nat)
  deriving DecidableEq, Repr

/-- What a fuse message blows (R412). -/
inductive FuseCmd where
  | opkey (digest : List Byte)
  | svnmin (v : BitVec 32)
  | nodebug
  deriving DecidableEq, Repr

/-- The bodies of operator messages, whose layout no chapter gives (R406). -/
inductive OperBody where
  | command (cmd : OperCmd)
  | attest (nonce : List Byte)
  | fuse (cmd : FuseCmd)
  | map (asid : Nat) (va : Word) (len : Nat) (rights : BitVec 3)
  | join (parts remote : List Nat)
  deriving DecidableEq, Repr

/-- The bytes of an operator message's body before its counter, the key it names among them (R417): their layout is open,
and free here. Log 7. -/
opaque Config.operBytes : OperBody → List Byte → List Byte

/-- Body of a SEQ message (R406). -/
structure SeqBody where
  job : Nat
  state : Nat
  wsize : Nat
  lend : Nat
  wbase : Nat
  mode : Bool
  prio : Nat
  thf : BitVec 16
  tht : BitVec 16
  thr : BitVec 16
  key : Word
  kvroot : Word
  fmap : Word
  pen : Word
  penlen : Nat
  deriving DecidableEq, Repr

/-- A request that admission takes (R409), as the message holds it. -/
inductive Request where
  | job (m : MsgHdr) (words : List Word) (graph : Word) (record : Bool) (qdist : Nat)
  | seq (m : MsgHdr) (body : SeqBody)
  deriving DecidableEq, Repr

/-- A record of a recording (R396): a choice (R397); a placement; an egress digest; a phase, with the jobs taking part and
every batch record; an admission, with its request, the ASID, the job number and the KEY of an admitted sequence; an
object's digest, a data image; and the configuration: context words and job words, and graph and launch records. -/
inductive Rec where
  | edgePush (lid block tid t : Nat)
  | fork (lid block tid c f : Nat)
  | seqReq (seq lid block tid op : Nat)
  | cancelZero (lid block tid : Nat)
  | cbind (cluster lid block : Nat)
  | addOrder (lid : Nat)
  | placement (lid block core slot : Nat)
  | phase (phase : Nat) (jobs : List Nat) (batches : List (Nat × List Nat))
  | egress (phase job : Nat) (digest : List Byte)
  | admission (req : Request) (asid job : Nat) (keys : List Word)
  | object (asid : Nat) (digest : List Byte)
  | data (asid : Nat) (va : Word) (bytes : List Byte)
  | config (asid : Nat) (ctx job : List Word)
  | records (words : List Word)
  deriving DecidableEq, Repr

/-- One memory access of another device of the Silk domain (R401): the requester, and what it does. Where phase is given,
it is no access but the requester's word on that phase's boundary (R402): step 0, its close conditions hold; 1, it has
completed steps 1 and 2 of R88; 2, it has finished step 5 of R328. -/
structure RemoteReq where
  dev   : Nat
  asid  : Nat
  dpa   : Nat
  write : Option (List Byte)
  len   : Nat
  phase : Option Word := none
  step  : Nat := 1
  deriving DecidableEq, Repr

/-- What a scrub or an access finds in an array entry (R386, R387). -/
inductive ErrKind where
  | clean | corrected | recovered | uncorrectable
  deriving DecidableEq, Repr

/-- The instructions and events, one constructor per row of spec/opcode_table.json. -/
inductive Instr where
  -- integer arithmetic (R156, R157)
  | add (h : Hdr) (ty : IntTy) (sat : Bool) (d : Dst) (a b : Src)
  | sub (h : Hdr) (ty : IntTy) (sat : Bool) (d : Dst) (a b : Src)
  | addc (h : Hdr) (w64 : Bool) (c : BitVec 3) (d : Dst) (a b : Src)
  | subb (h : Hdr) (w64 : Bool) (c : BitVec 3) (d : Dst) (a b : Src)
  | mul (h : Hdr) (ty : IntTy) (sat : Bool) (d : Dst) (a b : Src)
  | mulh (h : Hdr) (ty : IntTy) (d : Dst) (a b : Src)
  | mad (h : Hdr) (ty : IntTy) (sat : Bool) (d : Dst) (a b : Src)
  | madh (h : Hdr) (ty : IntTy) (d : Dst) (a b : Src)
  | min (h : Hdr) (ty : IntTy) (d : Dst) (a b : Src)
  | max (h : Hdr) (ty : IntTy) (d : Dst) (a b : Src)
  | abs (h : Hdr) (ty : IntTy) (sat : Bool) (d : Dst) (a : Src)
  | neg (h : Hdr) (ty : IntTy) (sat : Bool) (d : Dst) (a : Src)
  -- logic, shifts, bit fields (R158-R161)
  | and (h : Hdr) (w64 : Bool) (d : Dst) (a b : Src)
  | or (h : Hdr) (w64 : Bool) (d : Dst) (a b : Src)
  | xor (h : Hdr) (w64 : Bool) (d : Dst) (a b : Src)
  | not (h : Hdr) (w64 : Bool) (d : Dst) (a : Src)
  | andn (h : Hdr) (w64 : Bool) (d : Dst) (a b : Src)
  | shl (h : Hdr) (w64 : Bool) (d : Dst) (a b : Src)
  | shr (h : Hdr) (w64 : Bool) (d : Dst) (a b : Src)
  | sar (h : Hdr) (w64 : Bool) (d : Dst) (a b : Src)
  | rotl (h : Hdr) (w64 : Bool) (d : Dst) (a b : Src)
  | bfx (h : Hdr) (ty : CmpTy) (d : Dst) (a b : Src)
  | bfi (h : Hdr) (w64 : Bool) (d : Dst) (a b : Src)
  | popc (h : Hdr) (w64 : Bool) (d : Dst) (a : Src)
  | clz (h : Hdr) (w64 : Bool) (d : Dst) (a : Src)
  | ctz (h : Hdr) (w64 : Bool) (d : Dst) (a : Src)
  | brev (h : Hdr) (w64 : Bool) (d : Dst) (a : Src)
  | bsel (h : Hdr) (d : Dst) (a b : Src)
  -- moves, selection, comparison, addresses (R162-R165)
  | lea (h : Hdr) (sgn : Bool) (k : BitVec 3) (d : Dst) (a b : Src)
  | mov (h : Hdr) (w64 : Bool) (d : Dst) (a : Src)
  | movSpecial (h : Hdr) (sr : SReg) (d : Dst)
  | sel (h : Hdr) (p : BitVec 3) (d : Dst) (a b : Src)
  | setp (h : Hdr) (c : Cond) (ty : CmpTy) (p : BitVec 3) (a b : Src)
  -- immediate forms (R155)
  | addImm (h : Hdr) (d : Dst) (a : Src) (imm : BitVec 13)
  | subImm (h : Hdr) (d : Dst) (a : Src) (imm : BitVec 13)
  | mulImm (h : Hdr) (d : Dst) (a : Src) (imm : BitVec 13)
  | minImm (h : Hdr) (d : Dst) (a : Src) (imm : BitVec 13)
  | maxImm (h : Hdr) (d : Dst) (a : Src) (imm : BitVec 13)
  | andImm (h : Hdr) (d : Dst) (a : Src) (imm : BitVec 13)
  | orImm (h : Hdr) (d : Dst) (a : Src) (imm : BitVec 13)
  | xorImm (h : Hdr) (d : Dst) (a : Src) (imm : BitVec 13)
  | andnImm (h : Hdr) (d : Dst) (a : Src) (imm : BitVec 13)
  | shlImm (h : Hdr) (d : Dst) (a : Src) (imm : BitVec 13)
  | shrImm (h : Hdr) (d : Dst) (a : Src) (imm : BitVec 13)
  | sarImm (h : Hdr) (d : Dst) (a : Src) (imm : BitVec 13)
  | rotlImm (h : Hdr) (d : Dst) (a : Src) (imm : BitVec 13)
  | leaImm (h : Hdr) (d : Dst) (a : Src) (imm : BitVec 13)
  | movi (h : Hdr) (d : Dst) (imm : BitVec 13)
  | movl (h : Hdr) (d : Dst) (imm : Word)
  -- floating point (R166-R175)
  | fadd (h : Hdr) (ty : FpTy) (rm : Rm) (d : Dst) (a b : Src)
  | fsub (h : Hdr) (ty : FpTy) (rm : Rm) (d : Dst) (a b : Src)
  | fmul (h : Hdr) (ty : FpTy) (rm : Rm) (d : Dst) (a b : Src)
  | fma (h : Hdr) (ty : FpTy) (rm : Rm) (d : Dst) (a b : Src)
  | fmin (h : Hdr) (ty : FpTy) (d : Dst) (a b : Src)
  | fmax (h : Hdr) (ty : FpTy) (d : Dst) (a b : Src)
  | fsetp (h : Hdr) (c : FCond) (ty : FCmpTy) (p : BitVec 3) (a b : Src)
  | fclass (h : Hdr) (ty : FClassTy) (d : Dst) (a : Src)
  | frnd (h : Hdr) (ty : FpTy) (rm : Rm) (d : Dst) (a : Src)
  | fdiv (h : Hdr) (ty : FpTy) (rm : Rm) (d : Dst) (a b : Src)
  | fsqrt (h : Hdr) (ty : FpTy) (rm : Rm) (d : Dst) (a : Src)
  | frcp (h : Hdr) (x2 : Bool) (d : Dst) (a : Src)
  | frsqrt (h : Hdr) (x2 : Bool) (d : Dst) (a : Src)
  | fexp2 (h : Hdr) (x2 : Bool) (d : Dst) (a : Src)
  | flog2 (h : Hdr) (x2 : Bool) (d : Dst) (a : Src)
  | fscale (h : Hdr) (ty : FpTy) (rm : Rm) (d : Dst) (a b : Src)
  | fcvt (h : Hdr) (c : FCvt) (rm : Rm) (d : Dst) (a : Src)
  | icvt (h : Hdr) (c : ICvt) (rm : Rm) (d : Dst) (a : Src)
  -- narrow formats, flags, random numbers (R176-R183)
  | bfpPack (h : Hdr) (bfp4 : Bool) (rm : Rm) (d : Dst) (a b : Src)
  | bfpUnpack (h : Hdr) (bfp4 : Bool) (rm : Rm) (d : Dst) (a b : Src)
  | sacc (h : Hdr) (rm : Rm) (d : Dst) (a b : Src)
  | pdot (h : Hdr) (ty : PdotTy) (d : Dst) (a b : Src)
  | nzmask (h : Hdr) (v : NzView) (d : Dst) (a : Src)
  | nzcnt (h : Hdr) (v : NzView) (d : Dst) (a : Src)
  | flgRd (h : Hdr) (d : Dst)
  | flgClr (h : Hdr) (a : Src)
  | flgArm (h : Hdr) (a : Src)
  | rng (h : Hdr) (d : Dst) (a b : Src)
  -- pair words and dictionary codes (R113-R120)
  | pairWord (dist : BitVec 3) (wait : BitVec 12) (x y : PairHalf)
  | dictionaryCode (off : BitVec 6) (idx : BitVec 10)
  -- control flow (R185-R195)
  | bra (h : Hdr) (disp : BitVec 25)
  | call (h : Hdr) (disp : BitVec 25)
  | calli (h : Hdr) (a : Src)
  | ret (h : Hdr)
  | exit (h : Hdr)
  | nop (h : Hdr)
  | trap (h : Hdr) (a : Src)
  | rett (h : Hdr)
  | brk (h : Hdr)
  | suspendK (h : Hdr) (a b : Src)
  | suspendR (h : Hdr) (a b : Src)
  | evAdd (h : Hdr) (d : Dst) (a b : Src)
  | evRd (h : Hdr) (d : Dst) (a : Src)
  | switch (h : Hdr) (n : BitVec 3) (a : Src) (payload t0 t1 t2 t3 t4 : Word)
  -- cross-lane operations (R196-R201)
  | lxch (h : Hdr) (size : BitVec 2) (wrap : Bool) (d : Dst) (a b : Src)
  | bcast (h : Hdr) (d : Dst) (a b : Src)
  | poll (h : Hdr) (op : PollOp) (neg : Bool) (m : BitVec 3) (b : Src)
  | lred (h : Hdr) (op : RedOp) (d : Dst) (a b : Src)
  | scan (h : Hdr) (op : RedOp) (d : Dst) (a b : Src)
  | peer (h : Hdr) (w64 : Bool) (d : Dst) (a b : Src)
  | lead (h : Hdr) (hi : Bool) (p : BitVec 3) (b : Src)
  | csample (h : Hdr) (p : BitVec 3) (d : Dst) (a b : Src)
  -- barriers (R202-R208)
  | nbarArr (h : Hdr) (a b : Src)
  | nbarSync (h : Hdr) (a b : Src)
  | nbarWait (h : Hdr) (a : Src)
  | nbarRd (h : Hdr) (d : Dst) (a : Src)
  | pbarInit (h : Hdr) (a b : Src)
  | pbarArr (h : Hdr) (a : Src)
  | pbarWait (h : Hdr) (a b : Src)
  -- memory (R210-R239)
  | ld (h : Hdr) (sp : Space) (ty : LdTy) (d : Dst) (a : Src) (disp : BitVec 8)
  | st (h : Hdr) (sp : Space) (ty : LdTy) (v : Src) (a : Src) (disp : BitVec 8)
  | ldl (h : Hdr) (ty : LdTy) (d : Dst) (a : Src) (disp : BitVec 8)
  | pref (h : Hdr) (a : Src) (disp : BitVec 8)
  | atom (h : Hdr) (spad : Bool) (op : AtomOp) (ty : CmpTy) (d : Dst) (a b : Src)
  | atomFadd (h : Hdr) (ty : AfTy) (rm : Rm) (a b : Src)
  | cpa (h : Hdr) (dstS : Bool) (src : Space) (d a b : Src)
  | cpa2 (h : Hdr) (dstS : Bool) (src : Space) (d a b : Src)
  | fence (h : Hdr)
  | fenceOwn (h : Hdr) (d : Dst)
  | fenceSeize (h : Hdr) (k : BitVec 4) (d a b : Src)
  | fenceSpw (h : Hdr) (k : BitVec 2) (a : Src)
  | binCfg (h : Hdr) (a : Src)
  | binPut (h : Hdr) (e8 : Bool) (a b : Src)
  | binRun (h : Hdr) (d : Dst) (a : Src)
  | collPost (h : Hdr) (d : Dst) (a : Src)
  | collRd (h : Hdr) (d : Dst) (a : Src)
  | edgePush (h : Hdr) (d : Dst) (a b : Src)
  | accReq (h : Hdr) (p : BitVec 3) (a : Src)
  | accRel (h : Hdr) (a : Src)
  -- fibres (R274-R290)
  | fibOpen (h : Hdr) (spad : Bool) (kind : BitVec 4) (f : BitVec 3) (a b : Src)
  | fibAdvN (h : Hdr) (f : BitVec 3) (a b : Src)
  | fibAdvGe (h : Hdr) (f : BitVec 3) (a b : Src)
  | fibEnd (h : Hdr) (p : BitVec 3) (f : BitVec 3) (b : Src)
  | fibClose (h : Hdr) (f : BitVec 3) (b : Src)
  | fibIsect (h : Hdr) (p : BitVec 3) (d : Dst) (fa fb : BitVec 3) (b : Src)
  | fibMerge (h : Hdr) (p : BitVec 3) (d : Dst) (fa fb : BitVec 3) (b : Src)
  | fibSplit (h : Hdr) (f : BitVec 3) (a b : Src)
  | fibGet (h : Hdr) (fld : FibField) (d : Dst) (f : BitVec 3) (b : Src)
  | sproj (h : Hdr) (ty : SprojTy) (d : Dst) (a b : Src)
  -- slots and sequences (R296-R308)
  | slotRdWord (h : Hdr) (d : Dst) (a b : Src)
  | slotRdTok (h : Hdr) (d : Dst) (a b : Src)
  | slotRdBatch (h : Hdr) (d : Dst)
  | slotPut (h : Hdr) (a b : Src)
  | slotCfg (h : Hdr) (a b : Src)
  | seqStPause (h : Hdr) (a b : Src)
  | seqStResume (h : Hdr) (a b : Src)
  | seqStSwap (h : Hdr) (a b : Src)
  | seqStRelease (h : Hdr) (a b : Src)
  | seqStPriority (h : Hdr) (a b : Src)
  | seqFork (h : Hdr) (d : Dst) (a b : Src)
  -- system (R316-R340, R353, R372-R395)
  | csrr (h : Hdr) (d : Dst) (n : BitVec 12)
  | csrw (h : Hdr) (n : BitVec 12) (a : Src)
  | csrx (h : Hdr) (d : Dst) (n : BitVec 12) (a : Src)
  | cbindWrite (h : Hdr) (a : Src)
  | keyLoad (h : Hdr) (a : Src)
  | keyErase (h : Hdr) (a : Src)
  | contextCreate (h : Hdr) (a : Src)
  | tlbInvAll (h : Hdr) (b : Src)
  | tlbInvPage (h : Hdr) (a b : Src)
  | tlbInvRange (h : Hdr) (l a b : Src)
  | tlbInvDev (h : Hdr)
  | fragRdEntry (h : Hdr) (d : Dst) (a b : Src)
  | fragRdFrame (h : Hdr) (d : Dst) (b : Src)
  | fragResume (h : Hdr) (d : Dst) (a b : Src)
  | fragKill (h : Hdr) (d : Dst) (a b : Src)
  | ctxHaltTerm (h : Hdr) (a : Src)
  | ctxHaltSave (h : Hdr) (d : Dst) (a b : Src)
  | ctxHaltLoad (h : Hdr) (d : Dst) (a b : Src)
  | ctxHaltClear (h : Hdr) (a : Src)
  | probeRd (h : Hdr) (d : Dst) (a : Src)
  | logApp (h : Hdr) (d : Dst) (a b : Src)
  | cntCfg (h : Hdr) (a b : Src)
  | cntRd (h : Hdr) (d : Dst) (a : Src)
  | cancelBlock (h : Hdr) (d : Dst) (a b : Src)
  | cancelLaunch (h : Hdr) (d : Dst) (a : Src)
  | cancelGraph (h : Hdr) (d : Dst) (a : Src)
  | cancelPhase (h : Hdr) (d : Dst) (a : Src)
  | cancelJob (h : Hdr) (d : Dst) (a : Src)
  | phaseClose (h : Hdr) (a : Src)
  -- matrix array (R254-R267)
  | accFold (h : Hdr) (g : BitVec 2) (acc : Bool) (rm : Rm) (a b : Src)
  | accZero (h : Hdr) (a b : Src)
  | accCpy (h : Hdr) (toS : Bool) (d a b : Src)
  | dcpCfgStream (h : Hdr) (a : Src)
  | dcpCfgTable (h : Hdr) (a b : Src)
  | dcpCfgRedir (h : Hdr) (a : Src)
  | dcpStat (h : Hdr) (d : Dst)
  | ocInvAll (h : Hdr)
  | ocInvH (h : Hdr) (a : Src)
  | stepRd (h : Hdr) (d : Dst)
  | stepGoResume (h : Hdr)
  | stepGoAbandon (h : Hdr)
  | cimLdb (h : Hdr) (a : Src) (payload : Word)
  | cimRun (h : Hdr) (a b : Src) (payload : Word)
  | cimMv (h : Hdr) (b : Src) (payload : Word)
  -- events of cores and engines
  | instructionCompletion (thread flag : Nat)
  | copyRetirement (core idx : Nat)
  | planeStep (cluster : Nat)
  | drainStep (cluster : Nat)
  | loadStep (cluster : Nat)
  | foldStep (cluster : Nat)
  | accUnitStep (cluster : Nat)
  | deBlockDecode (cluster : Nat)
  | matrixStreamTrap (cluster : Nat)
  | decompressionTimeout (core slot : Nat)
  | faultPresentation (asid : Nat)
  | blockResume (block : Nat)
  | blockPlacement (part : Nat)
  | pendingBlockTimeout (part : Nat)
  | launchCompletion (asid lid : Nat)
  | phaseBoundary (dom : Nat)
  | requantisation (die : Nat)
  | engineStop (eng : Nat)
  | timeSliceExpiry (part : Nat)
  | thermalThrottle
  | thermalRecovery
  | thermalShutdown
  | bootSequence
  | scrub (array unit loc : Nat) (found : ErrKind) (synd : Word)
  | remoteAccess (r : RemoteReq)
  | remoteAccessTimeout (thread : Nat)
  -- messages to and from Imago
  | oper (m : MsgHdr) (sig : OperSig) (cmd : OperCmd)
  | operAttest (m : MsgHdr) (sig : OperSig) (nonce : List Byte)
  | operBlowFuse (m : MsgHdr) (sig : OperSig) (cmd : FuseCmd)
  | operMap (m : MsgHdr) (sig : OperSig) (asid : Nat) (va : Word) (len : Nat) (rights : BitVec 3)
  | operJoinDomain (m : MsgHdr) (sig : OperSig) (parts : List Nat) (remote : List Nat)
  | load (m : MsgHdr) (base total offset : Word) (bytes : List Byte)
  | job (m : MsgHdr) (words : List Word) (graph : Word) (record : Bool) (qdist : Nat)
  | seq (m : MsgHdr) (body : SeqBody)
  | ctrlJobHold (m : MsgHdr) (job : Nat)
  | ctrlJobResume (m : MsgHdr) (job : Nat)
  | ctrlJobCancel (m : MsgHdr) (job : Nat)
  | ctrlJobFinish (m : MsgHdr) (job : Nat)
  | ctrlSeqPause (m : MsgHdr) (seq : Nat)
  | ctrlSeqResume (m : MsgHdr) (seq : Nat)
  | ctrlSeqSwap (m : MsgHdr) (seq : Nat)
  | ctrlSeqRelease (m : MsgHdr) (seq : Nat)
  | dataWrite (m : MsgHdr) (va : Word) (bytes : List Byte)
  | dataRead (m : MsgHdr) (va : Word) (len : Nat)
  | replay (m : MsgHdr) (recs : List Rec)
  | logx (upTo : Nat)
  | malformedMessage (m : MsgHdr)
  | memberUnreachable (dom : Nat) (reachable : Bool)
  deriving DecidableEq, Repr

end Sys2Proof
end

