-- ==== Sys2Proof/Decode.lean ====
section
/-! DEFINITION. Decoding and encoding of instruction words (chapter 04 and the encoding tables of the instruction
chapters). Decoding is total and gives an instruction or the first cause of R124 that the word itself raises, for an
engine of kind k (R122) and, for a dictionary entry, with a register offset (R118). The causes that depend on the state
(budget R32, chain R112) are checked at issue (Machine/Issue.lean). -/
namespace Sys2Proof

/-! ### Fields of a full or long word (R98, R121) -/

/-- The fields of the first word. -/
structure Fields where
  kind : BitVec 2
  hdr  : Hdr
  op   : BitVec 9
  mod  : BitVec 5
  s    : BitVec 1
  dest : BitVec 8
  srca : BitVec 8
  srcb : BitVec 8
  deriving DecidableEq, Repr

/-- The word of R98 from its fields. -/
def Fields.pack (f : Fields) : Word :=
  f.kind ++ f.hdr.dist ++ f.hdr.wait ++ f.hdr.set ++ f.hdr.guard ++ f.op ++ f.mod ++ f.s ++ f.dest ++ f.srca ++ f.srcb

/-- The fields of a word (R98). -/
def Fields.unpack (w : Word) : Fields where
  kind := w.extractLsb' 62 2
  hdr := { dist := w.extractLsb' 59 3, wait := w.extractLsb' 47 12, set := w.extractLsb' 43 4, guard := w.extractLsb' 39 4 }
  op := w.extractLsb' 30 9
  mod := w.extractLsb' 25 5
  s := w.extractLsb' 24 1
  dest := w.extractLsb' 16 8
  srca := w.extractLsb' 8 8
  srcb := w.extractLsb' 0 8

/-- A result of decoding: the instruction, or the cause of R124. -/
abbrev Dec (α : Type) := Except (BitVec 8) α

/-! ### Type codes -/

def intTyOf (c : BitVec 4) : IntTy :=
  match c.toNat with
  | 0 => .i8 | 1 => .n8 | 2 => .i16 | 3 => .n16 | 4 => .i32 | 5 => .n32 | 6 => .i64 | 7 => .n64
  | 8 => .i8x8 | 9 => .n8x8 | 10 => .i16x4 | 11 => .n16x4 | 12 => .i32x2 | 13 => .n32x2 | 14 => .b32 | _ => .b64

def IntTy.code : IntTy → BitVec 4
  | .i8 => 0 | .n8 => 1 | .i16 => 2 | .n16 => 3 | .i32 => 4 | .n32 => 5 | .i64 => 6 | .n64 => 7
  | .i8x8 => 8 | .n8x8 => 9 | .i16x4 => 10 | .n16x4 => 11 | .i32x2 => 12 | .n32x2 => 13 | .b32 => 14 | .b64 => 15

def fpTyOf (c : BitVec 3) : FpTy :=
  match c.toNat with
  | 0 => .f32 | 1 => .f32x2 | 2 => .f16 | 3 => .f16x4 | 4 => .bf16 | 5 => .bf16x4 | 6 => .e4m3x8 | _ => .e5m2x8

def FpTy.code : FpTy → BitVec 3
  | .f32 => 0 | .f32x2 => 1 | .f16 => 2 | .f16x4 => 3 | .bf16 => 4 | .bf16x4 => 5 | .e4m3x8 => 6 | .e5m2x8 => 7

def rmOf (c : BitVec 2) : Rm :=
  match c.toNat with | 0 => .rn | 1 => .rz | 2 => .ru | _ => .rd

def Rm.code : Rm → BitVec 2
  | .rn => 0 | .rz => 1 | .ru => 2 | .rd => 3

def cmpTyOf (c : BitVec 2) : CmpTy :=
  match c.toNat with | 0 => .i32 | 1 => .n32 | 2 => .i64 | _ => .n64

def CmpTy.code : CmpTy → BitVec 2
  | .i32 => 0 | .n32 => 1 | .i64 => 2 | .n64 => 3

def condOf (c : BitVec 3) : Option Cond :=
  match c.toNat with
  | 0 => some .eq | 1 => some .ne | 2 => some .lt | 3 => some .le | 4 => some .gt | 5 => some .ge | 6 => some .tst | _ => none

def Cond.code : Cond → BitVec 3
  | .eq => 0 | .ne => 1 | .lt => 2 | .le => 3 | .gt => 4 | .ge => 5 | .tst => 6

def fcondOf (c : BitVec 3) : FCond :=
  match c.toNat with
  | 0 => .eq | 1 => .ne | 2 => .lt | 3 => .le | 4 => .gt | 5 => .ge | 6 => .ord | _ => .uno

def FCond.code : FCond → BitVec 3
  | .eq => 0 | .ne => 1 | .lt => 2 | .le => 3 | .gt => 4 | .ge => 5 | .ord => 6 | .uno => 7

def fcmpTyOf (c : BitVec 2) : Option FCmpTy :=
  match c.toNat with | 0 => some .f32 | 1 => some .f16 | 2 => some .bf16 | _ => none

def FCmpTy.code : FCmpTy → BitVec 2
  | .f32 => 0 | .f16 => 1 | .bf16 => 2

def fclassTyOf (c : BitVec 5) : Option FClassTy :=
  match c.toNat with | 0 => some .f32 | 1 => some .f16 | 2 => some .bf16 | 3 => some .e4m3 | 4 => some .e5m2 | _ => none

def FClassTy.code : FClassTy → BitVec 5
  | .f32 => 0 | .f16 => 1 | .bf16 => 2 | .e4m3 => 3 | .e5m2 => 4

def sregOf (c : BitVec 4) : Option SReg :=
  match c.toNat with
  | 0 => some .lane | 1 => some .warp | 2 => some .tid | 3 => some .block | 4 => some .nblock | 5 => some .core
  | 6 => some .cluster | 7 => some .launch | 8 => some .job | 9 => some .phase | 10 => some .stk | 11 => some .status
  | _ => none

def SReg.code : SReg → BitVec 4
  | .lane => 0 | .warp => 1 | .tid => 2 | .block => 3 | .nblock => 4 | .core => 5
  | .cluster => 6 | .launch => 7 | .job => 8 | .phase => 9 | .stk => 10 | .status => 11

def fcvtOf (c : BitVec 3) : FCvt :=
  match c.toNat with
  | 0 => .f16f32 | 1 => .bf16f32 | 2 => .e4m3f32 | 3 => .e5m2f32 | 4 => .f32f16 | 5 => .f32bf16 | 6 => .f32e4m3 | _ => .f32e5m2

def FCvt.code : FCvt → BitVec 3
  | .f16f32 => 0 | .bf16f32 => 1 | .e4m3f32 => 2 | .e5m2f32 => 3 | .f32f16 => 4 | .f32bf16 => 5 | .f32e4m3 => 6 | .f32e5m2 => 7

def icvtOf (c : BitVec 3) : ICvt :=
  match c.toNat with
  | 0 => .f32i32 | 1 => .f32n32 | 2 => .f32i64 | 3 => .f32n64 | 4 => .i32f32 | 5 => .n32f32 | 6 => .i64f32 | _ => .n64f32

def ICvt.code : ICvt → BitVec 3
  | .f32i32 => 0 | .f32n32 => 1 | .f32i64 => 2 | .f32n64 => 3 | .i32f32 => 4 | .n32f32 => 5 | .i64f32 => 6 | .n64f32 => 7

/-- pdot's mod (R179): type in [2:0], .sat or rm above. -/
def pdotOf (m : BitVec 5) : Option PdotTy :=
  let sat := m.getLsbD 3
  let rm := rmOf (m.extractLsb' 3 2)
  match (m.extractLsb' 0 3).toNat, m.getLsbD 4 with
  | 0, false => some (.i8x8 sat)
  | 1, false => some (.n8x8 sat)
  | 2, false => some (.i16x4 sat)
  | 3, false => some (.n16x4 sat)
  | 4, _ => some (.e4m3x8 rm)
  | 5, _ => some (.e5m2x8 rm)
  | 6, _ => some (.bf16x4 rm)
  | _, _ => none

def PdotTy.code : PdotTy → BitVec 5
  | .i8x8 s => (0 : BitVec 1) ++ BitVec.ofBool s ++ (0 : BitVec 3)
  | .n8x8 s => (0 : BitVec 1) ++ BitVec.ofBool s ++ (1 : BitVec 3)
  | .i16x4 s => (0 : BitVec 1) ++ BitVec.ofBool s ++ (2 : BitVec 3)
  | .n16x4 s => (0 : BitVec 1) ++ BitVec.ofBool s ++ (3 : BitVec 3)
  | .e4m3x8 r => r.code ++ (4 : BitVec 3)
  | .e5m2x8 r => r.code ++ (5 : BitVec 3)
  | .bf16x4 r => r.code ++ (6 : BitVec 3)

def nzOf (m : BitVec 5) : Option NzView :=
  match m.toNat with
  | 0 => some .b64 | 1 => some .b32x2 | 2 => some .b16x4 | 3 => some .b8x8 | 4 => some .f32x2 | 5 => some .f16x4
  | 6 => some .bf16x4 | 7 => some .e4m3x8 | 8 => some .e5m2x8 | 9 => some .bfp8 | 10 => some .bfp4 | _ => none

def NzView.code : NzView → BitVec 5
  | .b64 => 0 | .b32x2 => 1 | .b16x4 => 2 | .b8x8 => 3 | .f32x2 => 4 | .f16x4 => 5
  | .bf16x4 => 6 | .e4m3x8 => 7 | .e5m2x8 => 8 | .bfp8 => 9 | .bfp4 => 10

/-- The half operations of R116 by op7. -/
def halfOpOf (c : BitVec 7) : Option HalfOp :=
  match c.toNat with
  | 0x01 => some .addI64 | 0x02 => some .subI64 | 0x03 => some .and | 0x04 => some .or | 0x05 => some .xor
  | 0x06 => some .andn | 0x07 => some .shl | 0x08 => some .shr | 0x09 => some .sar | 0x0A => some .minI64
  | 0x0B => some .maxI64 | 0x0C => some .minN64 | 0x0D => some .maxN64 | 0x0E => some .mov | 0x0F => some .addI32
  | 0x10 => some .subI32 | 0x11 => some .mulI32 | 0x12 => some .mulI64 | 0x13 => some .faddF32 | 0x14 => some .fsubF32
  | 0x15 => some .fmulF32 | 0x16 => some .fminF32 | 0x17 => some .fmaxF32 | 0x18 => some .faddF16x4
  | 0x19 => some .fmulF16x4 | 0x1A => some .addI32x2 | 0x1B => some .addI16x4 | _ => none

def HalfOp.code : HalfOp → BitVec 7
  | .addI64 => 0x01 | .subI64 => 0x02 | .and => 0x03 | .or => 0x04 | .xor => 0x05 | .andn => 0x06 | .shl => 0x07
  | .shr => 0x08 | .sar => 0x09 | .minI64 => 0x0A | .maxI64 => 0x0B | .minN64 => 0x0C | .maxN64 => 0x0D | .mov => 0x0E
  | .addI32 => 0x0F | .subI32 => 0x10 | .mulI32 => 0x11 | .mulI64 => 0x12 | .faddF32 => 0x13 | .fsubF32 => 0x14
  | .fmulF32 => 0x15 | .fminF32 => 0x16 | .fmaxF32 => 0x17 | .faddF16x4 => 0x18 | .fmulF16x4 => 0x19
  | .addI32x2 => 0x1A | .addI16x4 => 0x1B

/-- The operation of lred and scan (R200) from mod. -/
def redOf (m : BitVec 5) : Option RedOp :=
  let lo := m.extractLsb' 0 2
  match (m.extractLsb' 2 3).toNat, lo.toNat with
  | 0, _ => some (.add (cmpTyOf lo))
  | 1, _ => some (.min (cmpTyOf lo))
  | 2, _ => some (.max (cmpTyOf lo))
  | 3, 0 => some (.and false) | 3, 1 => some (.and true)
  | 4, 0 => some (.or false) | 4, 1 => some (.or true)
  | 5, 0 => some (.xor false) | 5, 1 => some (.xor true)
  | 6, 0 => some .fadd | 6, 1 => some .fmin | 6, 2 => some .fmax
  | _, _ => none

def RedOp.code : RedOp → BitVec 5
  | .add t => (0 : BitVec 3) ++ t.code
  | .min t => (1 : BitVec 3) ++ t.code
  | .max t => (2 : BitVec 3) ++ t.code
  | .and w => (3 : BitVec 3) ++ (0 : BitVec 1) ++ BitVec.ofBool w
  | .or w => (4 : BitVec 3) ++ (0 : BitVec 1) ++ BitVec.ofBool w
  | .xor w => (5 : BitVec 3) ++ (0 : BitVec 1) ++ BitVec.ofBool w
  | .fadd => (6 : BitVec 3) ++ (0 : BitVec 2)
  | .fmin => (6 : BitVec 3) ++ (1 : BitVec 2)
  | .fmax => (6 : BitVec 3) ++ (2 : BitVec 2)

def spaceOf (c : BitVec 2) : Space :=
  match c.toNat with | 0 => .g | 1 => .s | 2 => .a | _ => .p

def Space.code : Space → BitVec 2
  | .g => 0 | .s => 1 | .a => 2 | .p => 3

def ldTyOf (c : BitVec 3) : LdTy :=
  match c.toNat with
  | 0 => .b8 | 1 => .i8 | 2 => .b16 | 3 => .i16 | 4 => .b32 | 5 => .i32 | 6 => .b64 | _ => .b128

def LdTy.code : LdTy → BitVec 3
  | .b8 => 0 | .i8 => 1 | .b16 => 2 | .i16 => 3 | .b32 => 4 | .i32 => 5 | .b64 => 6 | .b128 => 7

def atomOpOf (c : BitVec 3) : AtomOp :=
  match c.toNat with
  | 0 => .add | 1 => .min | 2 => .max | 3 => .and | 4 => .or | 5 => .xor | 6 => .xchg | _ => .cas

def AtomOp.code : AtomOp → BitVec 3
  | .add => 0 | .min => 1 | .max => 2 | .and => 3 | .or => 4 | .xor => 5 | .xchg => 6 | .cas => 7

def afTyOf (c : BitVec 3) : Option AfTy :=
  match c.toNat with | 0 => some .f32 | 2 => some .f16 | 4 => some .bf16 | _ => none

def AfTy.code : AfTy → BitVec 3
  | .f32 => 0 | .f16 => 2 | .bf16 => 4

def sprojTyOf (c : BitVec 5) : Option SprojTy :=
  match c.toNat with | 0 => some .f16x4 | 1 => some .bf16x4 | 2 => some .f32x2 | _ => none

def SprojTy.code : SprojTy → BitVec 5
  | .f16x4 => 0 | .bf16x4 => 1 | .f32x2 => 2

def fibFieldOf (c : BitVec 5) : Option FibField :=
  match c.toNat with | 0 => some .coord | 1 => some .pos | 2 => some .lim | 3 => some .status | _ => none

def FibField.code : FibField → BitVec 5
  | .coord => 0 | .pos => 1 | .lim => 2 | .status => 3

/-! ### Operand fields -/

/-- A source field (R99 on lane cores, after a dictionary offset R118; R122 elsewhere). Cause 7: reserved value; 9: the
offset sum passes 247. -/
def srcOf (k : EngineKind) (off : Nat) (v : BitVec 8) : Dec Src :=
  match k with
  | .lane =>
    if v.toNat < 248 then
      if v.toNat + off < 248 then .ok (.w (BitVec.ofNat 8 (v.toNat + off))) else .error 9
    else if v.toNat < 252 then .ok (.b (BitVec.ofNat 2 (v.toNat - 248)))
    else if v = 252 then .ok .zero
    else if v = 253 then .ok .lane
    else .error 7
  | _ => if v.toNat < 32 then .ok (.k (BitVec.ofNat 5 v.toNat)) else .error 7

def Src.field : Src → BitVec 8
  | .w n => n
  | .b n => BitVec.ofNat 8 (248 + n.toNat)
  | .zero => 252
  | .lane => 253
  | .k n => n.setWidth 8

/-- A destination register field (R100, R122). -/
def dstOf (k : EngineKind) (off : Nat) (sup : Bool) (v : BitVec 8) : Dec Dst :=
  if sup then .ok .sup
  else match k with
    | .lane =>
      if v.toNat < 248 then
        if v.toNat + off < 248 then .ok (.w (BitVec.ofNat 8 (v.toNat + off))) else .error 9
      else .error 7
    | _ => if v.toNat < 32 then .ok (.k (BitVec.ofNat 5 v.toNat)) else .error 7

def Dst.field : Dst → BitVec 8
  | .w n => n
  | .k n => n.setWidth 8
  | .sup => 0

def Dst.s : Dst → BitVec 1
  | .sup => 1
  | _ => 0

/-- How an entry uses one of the three register fields. -/
inductive FieldUse where
  | unused                  -- zero (R99)
  | src                     -- a source operand
  | evenSrc                 -- a source that must be an even register (R178, R213, R223, R227, R283)
  | dst                     -- a destination register
  | evenDst                 -- an even destination register (R213, R283)
  | pred                    -- a predicate 0-6 (R152)
  | pred8                   -- a predicate 0-7 as a source (R199)
  | fib                     -- a fibre number (R278)
  | fib2                    -- two fibre numbers (R283)
  | raw                     -- no register field: immediate, displacement, register number
  deriving DecidableEq, Repr

/-- The operands a format's fields give. -/
structure Opnds where
  d : Dst
  ds : Src
  a : Src
  b : Src
  deriving Repr

/-- An instruction format: which engines run it (R125), what its fields are, and the instruction it builds. build
answers none where the mod value is reserved (R103). -/
structure Fmt where
  l : Bool := true
  c : Bool := true
  st : Bool := true
  guardE : Bool := false
  set15 : Bool := false
  sOk : Bool := false       -- S may suppress the destination (R100)
  sRaw : Bool := false      -- bit 24 has a use of its own (R185, R218)
  d : FieldUse := .unused
  a : FieldUse := .unused
  b : FieldUse := .unused
  build : Opnds → Option Instr

/-- Whether a field use is satisfied as to reserved bits (cause 0x06). -/
def FieldUse.bitsOk (u : FieldUse) (v : BitVec 8) : Bool :=
  match u with
  | .unused => v == 0
  | .fib => v.toNat < 8
  | .fib2 => v.toNat < 64
  | _ => true

/-- The cause, if any, that a field use raises as to reserved register values (7) or the offset sum (9). -/
def FieldUse.regErr (u : FieldUse) (k : EngineKind) (off : Nat) (v : BitVec 8) : Option (BitVec 8) :=
  let even (n : Nat) : Option (BitVec 8) :=
    match k with
    | .lane => if 248 ≤ v.toNat then some 7 else if n % 2 = 1 then some 7 else if 247 < n then some 9 else none
    | _ => if 32 ≤ v.toNat then some 7 else if n % 2 = 1 then some 7 else none
  match u with
  | .src => match srcOf k off v with | .ok _ => none | .error e => some e
  | .dst => match dstOf k off false v with | .ok _ => none | .error e => some e
  | .evenSrc | .evenDst => even (v.toNat + off)
  | .pred => if v.toNat < 7 then none else some 7
  | .pred8 => if v.toNat < 8 then none else some 7
  | _ => none

def getOk (d : α) : Dec α → α
  | .ok x => x
  | .error _ => d

/-- The checks of R124 causes 0x05 to 0x07 and 0x09 on a word of a known format, and the instruction. -/
def Fmt.decode (m : Fmt) (k : EngineKind) (off : Nat) (f : Fields) : Dec Instr :=
  let sup := f.s == 1 && !m.sRaw
  let dErr := if sup then none else m.d.regErr k off f.dest
  let errs := [dErr, m.a.regErr k off f.srca, m.b.regErr k off f.srcb]
  let o : Opnds := { d := getOk .sup (dstOf k off sup f.dest), ds := getOk .zero (srcOf k off f.dest),
                     a := getOk .zero (srcOf k off f.srca), b := getOk .zero (srcOf k off f.srcb) }
  let runs := match k with | .lane => m.l | .cond => m.c | .stew => m.st
  if !runs then .error 5
  else match m.build o with
  | none => .error 6
  | some i =>
    if !(m.d.bitsOk f.dest && m.a.bitsOk f.srca && m.b.bitsOk f.srcb) then .error 6
    else if sup && (!m.sOk || f.dest != 0 || k != .lane) then .error 6
    else if m.set15 && f.hdr.set != 15 then .error 6
    else if f.hdr.guard == 0xF || (m.guardE && f.hdr.guard != 0xE) then .error 7
    else if errs.contains (some 7) then .error 7
    else if errs.contains (some 9) then .error 9
    else .ok i

/-! ### Formats by family -/

/-- Formats of an A- or M-class instruction d, a, b; d, a; and d, a, imm. -/
def fAB (build : Opnds → Option Instr) : Fmt := { sOk := true, d := .dst, a := .src, b := .src, build }
def fA (build : Opnds → Option Instr) : Fmt := { sOk := true, d := .dst, a := .src, build }
def fImm (build : Opnds → Option Instr) : Fmt := { sOk := true, d := .dst, a := .src, b := .raw, build }
/-- As fAB, but the destination is also read, so S is reserved (R154). -/
def fDAB (build : Opnds → Option Instr) : Fmt := { d := .dst, a := .src, b := .src, build }
/-- Lane-core only. -/
def Fmt.laneOnly (m : Fmt) : Fmt := { m with c := false, st := false }
def Fmt.condOnly (m : Fmt) : Fmt := { m with l := false, st := false, guardE := true }

/-- Integer types that conductors and stewards accept (R125). -/
def IntTy.scalarOk : IntTy → Bool
  | .i32 | .n32 | .i64 | .n64 | .b32 | .b64 => true
  | _ => false

def IntTy.isB : IntTy → Bool
  | .b32 | .b64 => true
  | _ => false

/-- Types of mad, and of .sat (R156): i32, n32, i64, n64, i32x2, n32x2. -/
def IntTy.wide : IntTy → Bool
  | .i32 | .n32 | .i64 | .n64 | .i32x2 | .n32x2 => true
  | _ => false

/-- Types of mulh and madh (R156). -/
def IntTy.word : IntTy → Bool
  | .i32 | .n32 | .i64 | .n64 => true
  | _ => false

/-- Types of abs and neg (R156). -/
def IntTy.signed : IntTy → Bool
  | .i8 | .i16 | .i32 | .i64 | .i8x8 | .i16x4 | .i32x2 => true
  | _ => false

/-- An integer type and .sat from mod, of the types ok and saturating only where satOk holds (R103, R156). -/
def intMod (k : EngineKind) (m : BitVec 5) (ok satOk : IntTy → Bool) : Option (IntTy × Bool) :=
  let t := intTyOf (m.extractLsb' 0 4)
  let s := m.getLsbD 4
  if ok t && (k == .lane || t.scalarOk) && (!s || satOk t) then some (t, s) else none

def noSat (_ : IntTy) : Bool := false

/-- b32 or b64 from mod (R158): true for b64. -/
def bMod (m : BitVec 5) : Option Bool :=
  if m = 14 then some false else if m = 15 then some true else none

/-- i32 or i64 from mod, for sar. -/
def sarMod (m : BitVec 5) : Option Bool :=
  if m = 4 then some false else if m = 6 then some true else none

/-- A floating-point type and rounding mode from mod (R103). -/
def fpMod (m : BitVec 5) : FpTy × Rm := (fpTyOf (m.extractLsb' 2 3), rmOf (m.extractLsb' 0 2))

def FpTy.isNarrow8 : FpTy → Bool
  | .e4m3x8 | .e5m2x8 => true
  | _ => false

/-- A floating-point type of codes 0-5 and a rounding mode (R170, R171, R173). -/
def fpMod5 (m : BitVec 5) : Option (FpTy × Rm) :=
  if (fpMod m).1.isNarrow8 then none else some (fpMod m)

/-- f32 or f32x2 with rm 0 (R172). -/
def x2Mod (m : BitVec 5) : Option Bool :=
  if m = 0 then some false else if m = 4 then some true else none

def onlyMod (m v : BitVec 5) (i : Instr) : Option Instr := if m = v then some i else none

/-- Integer formats: opcodes 0x001-0x020 (R156-R165). -/
def fmtInt (k : EngineKind) (f : Fields) : Option Fmt :=
  let h := f.hdr
  let m := f.mod
  let any := fun t : IntTy => !t.isB
  match f.op.toNat with
  | 0x001 => some (fAB fun o => (intMod k m any IntTy.wide).map fun (t, s) => .add h t s o.d o.a o.b)
  | 0x002 => some (fAB fun o => (intMod k m any IntTy.wide).map fun (t, s) => .sub h t s o.d o.a o.b)
  | 0x003 => some (fAB fun o => if m.getLsbD 1 then none else some (.addc h (m.getLsbD 0) (m.extractLsb' 2 3) o.d o.a o.b))
  | 0x004 => some (fAB fun o => if m.getLsbD 1 then none else some (.subb h (m.getLsbD 0) (m.extractLsb' 2 3) o.d o.a o.b))
  | 0x005 => some (fAB fun o => (intMod k m any IntTy.wide).map fun (t, s) => .mul h t s o.d o.a o.b)
  | 0x006 => some (fAB fun o => (intMod k m IntTy.word noSat).map fun (t, _) => .mulh h t o.d o.a o.b)
  | 0x007 => some (fDAB fun o => (intMod k m IntTy.wide IntTy.wide).map fun (t, s) => .mad h t s o.d o.a o.b)
  | 0x008 => some (fDAB fun o => (intMod k m IntTy.word noSat).map fun (t, _) => .madh h t o.d o.a o.b)
  | 0x009 => some (fAB fun o => (intMod k m any noSat).map fun (t, _) => .min h t o.d o.a o.b)
  | 0x00A => some (fAB fun o => (intMod k m any noSat).map fun (t, _) => .max h t o.d o.a o.b)
  | 0x00B => some (fA fun o => (intMod k m IntTy.signed fun t => t.signed && t.wide).map fun (t, s) => .abs h t s o.d o.a)
  | 0x00C => some (fA fun o => (intMod k m IntTy.signed fun t => t.signed && t.wide).map fun (t, s) => .neg h t s o.d o.a)
  | 0x00D => some (fAB fun o => (bMod m).map fun w => .and h w o.d o.a o.b)
  | 0x00E => some (fAB fun o => (bMod m).map fun w => .or h w o.d o.a o.b)
  | 0x00F => some (fAB fun o => (bMod m).map fun w => .xor h w o.d o.a o.b)
  | 0x010 => some (fA fun o => (bMod m).map fun w => .not h w o.d o.a)
  | 0x011 => some (fAB fun o => (bMod m).map fun w => .andn h w o.d o.a o.b)
  | 0x012 => some (fAB fun o => (bMod m).map fun w => .shl h w o.d o.a o.b)
  | 0x013 => some (fAB fun o => (bMod m).map fun w => .shr h w o.d o.a o.b)
  | 0x014 => some (fAB fun o => (sarMod m).map fun w => .sar h w o.d o.a o.b)
  | 0x015 => some (fAB fun o => (bMod m).map fun w => .rotl h w o.d o.a o.b)
  | 0x016 => some (fAB fun o => if m.toNat < 4 ∨ 7 < m.toNat then none else some (.bfx h (cmpTyOf (m.extractLsb' 0 2)) o.d o.a o.b))
  | 0x017 => some (fDAB fun o => (bMod m).map fun w => .bfi h w o.d o.a o.b)
  | 0x018 => some (fA fun o => (bMod m).map fun w => .popc h w o.d o.a)
  | 0x019 => some (fA fun o => (bMod m).map fun w => .clz h w o.d o.a)
  | 0x01A => some (fA fun o => (bMod m).map fun w => .ctz h w o.d o.a)
  | 0x01B => some (fA fun o => (bMod m).map fun w => .brev h w o.d o.a)
  | 0x01C => some (fDAB fun o => onlyMod m 15 (.bsel h o.d o.a o.b))
  | 0x01D => some (fAB fun o => if m.getLsbD 4 then none else some (.lea h (m.getLsbD 3) (m.extractLsb' 0 3) o.d o.a o.b))
  | 0x01E =>
    if m.getLsbD 4 then
      some { sOk := true, d := .dst, build := fun o => (sregOf (m.extractLsb' 0 4)).map fun r => .movSpecial h r o.d }
    else some (fA fun o => (bMod m).map fun w => .mov h w o.d o.a)
  | 0x01F => some (fAB fun o => if m.extractLsb' 0 2 ≠ 0 then none else some (.sel h (m.extractLsb' 2 3) o.d o.a o.b))
  | 0x020 => some { d := .pred, a := .src, b := .src,
                    build := fun o => (condOf (m.extractLsb' 2 3)).map fun c =>
                      .setp h c (cmpTyOf (m.extractLsb' 0 2)) (f.dest.setWidth 3) o.a o.b }
  | _ => none

/-- Immediate formats: opcodes 0x041-0x05E (R102, R155). -/
def fmtImm (f : Fields) : Option Fmt :=
  let h := f.hdr
  let imm : BitVec 13 := f.mod ++ f.srcb
  match f.op.toNat with
  | 0x041 => some (fImm fun o => some (.addImm h o.d o.a imm))
  | 0x042 => some (fImm fun o => some (.subImm h o.d o.a imm))
  | 0x045 => some (fImm fun o => some (.mulImm h o.d o.a imm))
  | 0x049 => some (fImm fun o => some (.minImm h o.d o.a imm))
  | 0x04A => some (fImm fun o => some (.maxImm h o.d o.a imm))
  | 0x04D => some (fImm fun o => some (.andImm h o.d o.a imm))
  | 0x04E => some (fImm fun o => some (.orImm h o.d o.a imm))
  | 0x04F => some (fImm fun o => some (.xorImm h o.d o.a imm))
  | 0x051 => some (fImm fun o => some (.andnImm h o.d o.a imm))
  | 0x052 => some (fImm fun o => some (.shlImm h o.d o.a imm))
  | 0x053 => some (fImm fun o => some (.shrImm h o.d o.a imm))
  | 0x054 => some (fImm fun o => some (.sarImm h o.d o.a imm))
  | 0x055 => some (fImm fun o => some (.rotlImm h o.d o.a imm))
  | 0x05D => some (fImm fun o => some (.leaImm h o.d o.a imm))
  | 0x05E => some { sOk := true, d := .dst, b := .raw, build := fun o => some (.movi h o.d imm) }
  | _ => none

/-- Floating-point and narrow formats: opcodes 0x080-0x0C9 (R166-R183), lane cores only. -/
def fmtFp (f : Fields) : Option Fmt :=
  let h := f.hdr
  let m := f.mod
  let t := (fpMod m).1
  let r := (fpMod m).2
  let p := f.dest.setWidth 3
  let v := fun (g : Fmt) => { g with sOk := false }
  (match f.op.toNat with
  | 0x080 => some (fAB fun o => some (.fadd h t r o.d o.a o.b))
  | 0x081 => some (fAB fun o => some (.fsub h t r o.d o.a o.b))
  | 0x082 => some (fAB fun o => some (.fmul h t r o.d o.a o.b))
  | 0x083 => some (fDAB fun o => some (.fma h t r o.d o.a o.b))
  | 0x084 => some (fAB fun o => if r = Rm.rn then some (.fmin h t o.d o.a o.b) else none)
  | 0x085 => some (fAB fun o => if r = Rm.rn then some (.fmax h t o.d o.a o.b) else none)
  | 0x086 => some { d := .pred, a := .src, b := .src, build := (fun o => (fcmpTyOf (m.extractLsb' 0 2)).map fun t =>
                      .fsetp h (fcondOf (m.extractLsb' 2 3)) t p o.a o.b) }
  | 0x087 => some (fA fun o => (fclassTyOf m).map fun t => .fclass h t o.d o.a)
  | 0x088 => some (fA fun o => (fpMod5 m).map fun (t, r) => .frnd h t r o.d o.a)
  | 0x089 => some (v (fAB fun o => (fpMod5 m).map fun (t, r) => .fdiv h t r o.d o.a o.b))
  | 0x08A => some (v (fA fun o => (fpMod5 m).map fun (t, r) => .fsqrt h t r o.d o.a))
  | 0x08B => some (v (fA fun o => (x2Mod m).map fun x => .frcp h x o.d o.a))
  | 0x08C => some (v (fA fun o => (x2Mod m).map fun x => .frsqrt h x o.d o.a))
  | 0x08D => some (v (fA fun o => (x2Mod m).map fun x => .fexp2 h x o.d o.a))
  | 0x08E => some (v (fA fun o => (x2Mod m).map fun x => .flog2 h x o.d o.a))
  | 0x08F => some (fAB fun o => (fpMod5 m).map fun (t, r) => .fscale h t r o.d o.a o.b)
  | 0x090 => some (fA fun o => if m.getLsbD 4 && r != Rm.rn then none else some (.fcvt h (fcvtOf (m.extractLsb' 2 3)) r o.d o.a))
  | 0x091 => some (fA fun o => some (.icvt h (icvtOf (m.extractLsb' 2 3)) r o.d o.a))
  | 0x0C0 => some (fAB fun o => if m.extractLsb' 3 2 ≠ 0 then none else some (.bfpPack h (m.getLsbD 2) r o.d o.a o.b))
  | 0x0C1 => some (fAB fun o => if m.extractLsb' 3 2 ≠ 0 then none else some (.bfpUnpack h (m.getLsbD 2) r o.d o.a o.b))
  | 0x0C2 => some { d := .dst, a := .evenSrc, b := .src,
                    build := fun o => if m.extractLsb' 2 3 ≠ 0 then none else some (.sacc h r o.d o.a o.b) }
  | 0x0C3 => some (fDAB fun o => (pdotOf m).map fun t => .pdot h t o.d o.a o.b)
  | 0x0C4 => some (fA fun o => (nzOf m).map fun v => .nzmask h v o.d o.a)
  | 0x0C5 => some (fA fun o => (nzOf m).map fun v => .nzcnt h v o.d o.a)
  | 0x0C6 => some { d := .dst, build := fun o => onlyMod m 0 (.flgRd h o.d) }
  | 0x0C7 => some { a := .src, build := fun o => onlyMod m 0 (.flgClr h o.a) }
  | 0x0C8 => some { a := .src, build := fun o => onlyMod m 0 (.flgArm h o.a) }
  | 0x0C9 => some (fAB fun o => onlyMod m 0 (.rng h o.d o.a o.b))
  | _ => none : Option Fmt).map Fmt.laneOnly

/-- Control, cross-lane and barrier formats: opcodes 0x100-0x126 (R185-R207). -/
def fmtCtl (f : Fields) : Option Fmt :=
  let h := f.hdr
  let m := f.mod
  let p := f.dest.setWidth 3
  let disp : BitVec 25 := f.s ++ f.dest ++ f.srca ++ f.srcb
  let braF : Fmt := { set15 := true, sRaw := true, d := .raw, a := .raw, b := .raw, build := fun _ => none }
  let warp : Fmt := { c := false, st := false, guardE := true, d := .dst, a := .src, b := .src, build := fun _ => none }
  match f.op.toNat with
  | 0x100 => some { braF with build := fun _ => onlyMod m 0 (.bra h disp) }
  | 0x101 => some { braF with build := fun _ => onlyMod m 0 (.call h disp) }
  | 0x102 => some { c := false, st := false, set15 := true, a := .src, build := fun o => onlyMod m 0 (.calli h o.a) }
  | 0x103 => some { set15 := true, build := fun _ => onlyMod m 0 (.ret h) }
  | 0x104 => some { set15 := true, guardE := true, build := fun _ => onlyMod m 0 (.exit h) }
  | 0x105 => some { set15 := true, build := fun _ => onlyMod m 0 (.nop h) }
  | 0x106 => some { set15 := true, a := .src, build := fun o => onlyMod m 0 (.trap h o.a) }
  | 0x107 => some { set15 := true, guardE := true, build := fun _ => onlyMod m 0 (.rett h) }
  | 0x108 => some { set15 := true, build := fun _ => onlyMod m 0 (.brk h) }
  | 0x109 => some { c := false, st := false, set15 := true, guardE := true, a := .src, b := .src, build := (fun o =>
      if m = 0 then some (.suspendK h o.a o.b) else if m = 1 then some (.suspendR h o.a o.b) else none) }
  | 0x10A => some { d := .dst, a := .src, b := .src, build := fun o => onlyMod m 0 (.evAdd h o.d o.a o.b) }
  | 0x10B => some { d := .dst, a := .src, build := fun o => onlyMod m 0 (.evRd h o.d o.a) }
  | 0x110 => some { warp with build := (fun o => if m.extractLsb' 3 2 ≠ 0 then none
      else some (.lxch h (m.extractLsb' 0 2) (m.getLsbD 2) o.d o.a o.b)) }
  | 0x111 => some { warp with build := fun o => onlyMod m 0 (.bcast h o.d o.a o.b) }
  | 0x112 => some { warp with
      d := if m.getLsbD 1 then .pred else .dst, a := .pred8, build := fun o =>
      if m.extractLsb' 3 2 ≠ 0 then none else
        let op : PollOp := match (m.extractLsb' 0 2).toNat with | 0 => .mask o.d | 1 => .count o.d | 2 => .ge p | _ => .le p
        some (.poll h op (m.getLsbD 2) (f.srca.setWidth 3) o.b) }
  | 0x113 => some { warp with build := fun o => (redOf m).map fun r => .lred h r o.d o.a o.b }
  | 0x114 => some { warp with build := fun o => (redOf m).map fun r => .scan h r o.d o.a o.b }
  | 0x115 => some { warp with build := fun o => if 1 < m.toNat then none else some (.peer h (m.getLsbD 0) o.d o.a o.b) }
  | 0x116 => some { warp with d := .pred, a := .unused, build := fun o => if 1 < m.toNat then none else some (.lead h (m.getLsbD 0) p o.b) }
  | 0x117 => some { warp with build := fun o => if m.extractLsb' 3 2 ≠ 0 then none else some (.csample h (m.extractLsb' 0 3) o.d o.a o.b) }
  | 0x120 => some { warp with d := .unused, build := fun o => onlyMod m 0 (.nbarArr h o.a o.b) }
  | 0x121 => some { warp with d := .unused, build := fun o => onlyMod m 0 (.nbarSync h o.a o.b) }
  | 0x122 => some { warp with d := .unused, b := .unused, build := fun o => onlyMod m 0 (.nbarWait h o.a) }
  | 0x123 => some { warp with b := .unused, build := fun o => onlyMod m 0 (.nbarRd h o.d o.a) }
  | 0x124 => some { warp with c := true, d := .unused, build := fun o => onlyMod m 0 (.pbarInit h o.a o.b) }
  | 0x125 => some { warp with c := true, d := .unused, b := .unused, build := fun o => onlyMod m 0 (.pbarArr h o.a) }
  | 0x126 => some { warp with c := true, d := .unused, build := fun o => onlyMod m 0 (.pbarWait h o.a o.b) }
  | _ => none

/-- Memory formats: opcodes 0x140-0x153 (R210-R239). -/
def fmtMem (k : EngineKind) (f : Fields) : Option Fmt :=
  let h := f.hdr
  let m := f.mod
  let sp := spaceOf (m.extractLsb' 3 2)
  let lt := ldTyOf (m.extractLsb' 0 3)
  let lane := fun (g : Fmt) => some g.laneOnly
  let spOk := match k, sp with
    | .lane, _ => true | .cond, .g => true | .cond, .s => true | .stew, .g => true | _, _ => false
  let wOk := k == .lane || lt != .b128
  let copyOk := !m.getLsbD 0 && !m.getLsbD 4 && m.extractLsb' 1 2 != 3
  match f.op.toNat with
  | 0x140 => some { d := if lt = .b128 then .evenDst else .dst, a := .src, b := .raw, build := (fun o =>
      if spOk && wOk then some (.ld h sp lt o.d o.a f.srcb) else none) }
  | 0x141 => some { d := if lt = .b128 then .evenSrc else .src, a := .src, b := .raw, build := (fun o =>
      if spOk && wOk && lt != .i8 && lt != .i16 && lt != .i32 then some (.st h sp lt o.ds o.a f.srcb) else none) }
  | 0x142 => lane { d := if lt = .b128 then .evenDst else .dst, a := .src, b := .raw, build := (fun o =>
      if sp = .s then some (.ldl h lt o.d o.a f.srcb) else none) }
  | 0x143 => lane { a := .src, b := .raw, build := fun o => onlyMod m 0 (.pref h o.a f.srcb) }
  | 0x144 => some { sRaw := true, d := .dst, a := .src, b := .src, build := (fun o =>
      let op := atomOpOf (m.extractLsb' 2 3)
      let ty := cmpTyOf (m.extractLsb' 0 2)
      let arith := op = .add ∨ op = .min ∨ op = .max
      if (arith ∨ ty = .n32 ∨ ty = .n64) ∧ (f.s = 0 ∨ k ≠ .stew) then some (.atom h (f.s == 1) op ty o.d o.a o.b) else none) }
  | 0x145 => lane { a := .src, b := .src, build := (fun o => (afTyOf (m.extractLsb' 2 3)).map fun t =>
      .atomFadd h t (rmOf (m.extractLsb' 0 2)) o.a o.b) }
  | 0x146 => lane { d := .src, a := .src, b := .src, build := (fun o =>
      if copyOk then some (.cpa h (m.getLsbD 3) (spaceOf (m.extractLsb' 1 2)) o.ds o.a o.b) else none) }
  | 0x147 => lane { d := .src, a := .src, b := .evenSrc, build := (fun o =>
      if copyOk then some (.cpa2 h (m.getLsbD 3) (spaceOf (m.extractLsb' 1 2)) o.ds o.a o.b) else none) }
  | 0x148 => some { build := fun _ => onlyMod m 0 (.fence h) }
  | 0x149 => some { d := .dst, build := fun o => onlyMod m 0 (.fenceOwn h o.d) }
  | 0x14A => some { d := .evenSrc, a := .src, b := .src, build := (fun o =>
      if m.getLsbD 4 then none else some (.fenceSeize h (m.extractLsb' 0 4) o.ds o.a o.b)) }
  | 0x14B => lane { a := .src, build := fun o => if m.extractLsb' 2 3 ≠ 0 then none else some (.fenceSpw h (m.extractLsb' 0 2) o.a) }
  | 0x14C => lane { a := .src, build := fun o => onlyMod m 0 (.binCfg h o.a) }
  | 0x14D => lane { a := .src, b := .src, build := fun o => if 1 < m.toNat then none else some (.binPut h (m.getLsbD 0) o.a o.b) }
  | 0x14E => lane { d := .dst, a := .src, build := fun o => onlyMod m 0 (.binRun h o.d o.a) }
  | 0x14F => lane { d := .dst, a := .src, build := fun o => onlyMod m 0 (.collPost h o.d o.a) }
  | 0x150 => lane { d := .dst, a := .src, build := fun o => onlyMod m 0 (.collRd h o.d o.a) }
  | 0x151 => lane { d := .dst, a := .src, b := .src, build := fun o => onlyMod m 0 (.edgePush h o.d o.a o.b) }
  | 0x152 => lane { d := .pred, a := .src, build := fun o => onlyMod m 0 (.accReq h (f.dest.setWidth 3) o.a) }
  | 0x153 => lane { a := .src, build := fun o => onlyMod m 0 (.accRel h o.a) }
  | _ => none

/-- Fibre formats: opcodes 0x180-0x188 (R283). -/
def fmtFib (f : Fields) : Option Fmt :=
  let h := f.hdr
  let m := f.mod
  let n := f.dest.setWidth 3
  let fa := f.srca.setWidth 3
  let fb := f.srca.extractLsb' 3 3
  let g : Fmt := { c := false, st := false, guardE := true, b := .src, build := fun _ => none }
  match f.op.toNat with
  | 0x180 => some { g with d := .fib, a := .evenSrc, build := (fun o =>
      if 11 < (m.extractLsb' 0 4).toNat then none else some (.fibOpen h (m.getLsbD 4) (m.extractLsb' 0 4) n o.a o.b)) }
  | 0x181 => some { g with d := .fib, a := .src, build := (fun o =>
      if m = 0 then some (.fibAdvN h n o.a o.b) else if m = 1 then some (.fibAdvGe h n o.a o.b) else none) }
  | 0x182 => some { g with d := .pred, a := .fib, build := fun o => onlyMod m 0 (.fibEnd h n fa o.b) }
  | 0x183 => some { g with d := .fib, build := fun o => onlyMod m 0 (.fibClose h n o.b) }
  | 0x184 => some { g with d := .evenDst, a := .fib2, build := (fun o =>
      if m.extractLsb' 3 2 ≠ 0 then none else some (.fibIsect h (m.extractLsb' 0 3) o.d fa fb o.b)) }
  | 0x185 => some { g with d := .evenDst, a := .fib2, build := (fun o =>
      if m.extractLsb' 3 2 ≠ 0 then none else some (.fibMerge h (m.extractLsb' 0 3) o.d fa fb o.b)) }
  | 0x186 => some { g with d := .fib, a := .src, build := fun o => onlyMod m 0 (.fibSplit h n o.a o.b) }
  | 0x187 => some { g with d := .dst, a := .fib, build := fun o => (fibFieldOf m).map fun x => .fibGet h x o.d fa o.b }
  | 0x188 => some { g with d := .dst, a := .src, build := fun o => (sprojTyOf m).map fun t => .sproj h t o.d o.a o.b }
  | _ => none

/-- The system-register number of csrr, csrw and csrx (R319). -/
def csrNum (f : Fields) : BitVec 12 := (f.mod.extractLsb' 0 4) ++ f.srcb

/-- Slot and system formats: opcodes 0x190-0x1AD (R297, R319, R325, R339, R353, R372, R378, R393, R395). The five
seq.st rows share one word, whose operation stands in a register: the decoder gives seqStPause, and issue renames it
(Machine/Issue.lean, log 8). -/
def fmtSys (f : Fields) : Option Fmt :=
  let h := f.hdr
  let m := f.mod
  let d3 : Fmt := { d := .dst, a := .src, b := .src, build := fun _ => none }
  let m2 := (m.extractLsb' 0 2).toNat
  let ls := fun (g : Fmt) => some { g with c := false }
  match f.op.toNat with
  | 0x190 => some ({ d := .dst, a := if m = 2 then .unused else .src, b := if m = 2 then .unused else .src, build := (fun o =>
      if m = 0 then some (.slotRdWord h o.d o.a o.b) else if m = 1 then some (.slotRdTok h o.d o.a o.b)
      else if m = 2 then some (.slotRdBatch h o.d) else none) } : Fmt).laneOnly
  | 0x191 => some ({ a := .src, b := .src, build := fun o => onlyMod m 0 (.slotPut h o.a o.b) } : Fmt).laneOnly
  | 0x192 => ls { a := .src, b := .src, build := fun o => onlyMod m 0 (.slotCfg h o.a o.b) }
  | 0x193 => ls { a := .src, b := .src, build := fun o => onlyMod m 0 (.seqStPause h o.a o.b) }
  | 0x194 => ls { d3 with build := fun o => onlyMod m 0 (.seqFork h o.d o.a o.b) }
  | 0x1A0 => some { d := .dst, b := .raw, build := fun o => if m.getLsbD 4 then none else some (.csrr h o.d (csrNum f)) }
  | 0x1A1 => some { a := .src, b := .raw, build := (fun o => if m.getLsbD 4 then none
      else if csrNum f = 0x0C0 then some (.cbindWrite h o.a) else some (.csrw h (csrNum f) o.a)) }
  | 0x1A2 => some { d := .dst, a := .src, b := .raw, build := fun o => if m.getLsbD 4 then none else some (.csrx h o.d (csrNum f) o.a) }
  | 0x1A3 => if m.extractLsb' 2 3 ≠ 0 then some { build := fun _ => none } else
      match m2 with
      | 0 => some { b := .src, build := fun o => some (.tlbInvAll h o.b) }
      | 1 => some { a := .src, b := .src, build := fun o => some (.tlbInvPage h o.a o.b) }
      | 2 => some { d := .src, a := .src, b := .src, build := fun o => some (.tlbInvRange h o.ds o.a o.b) }
      | _ => some { build := fun _ => some (.tlbInvDev h) }
  | 0x1A4 => some { d3 with a := if m = 1 then .unused else .src, build := (fun o =>
      if m = 0 then some (.fragRdEntry h o.d o.a o.b) else if m = 1 then some (.fragRdFrame h o.d o.b) else none) }
  | 0x1A5 => some { d3 with build := fun o => onlyMod m 0 (.fragResume h o.d o.a o.b) }
  | 0x1A6 => some { d3 with build := fun o => onlyMod m 0 (.fragKill h o.d o.a o.b) }
  | 0x1A7 => if m.extractLsb' 2 3 ≠ 0 then some { build := fun _ => none } else
      match m2 with
      | 0 => some { a := .src, build := fun o => some (.ctxHaltTerm h o.a) }
      | 1 => some { d3 with build := fun o => some (.ctxHaltSave h o.d o.a o.b) }
      | 2 => some { d3 with build := fun o => some (.ctxHaltLoad h o.d o.a o.b) }
      | _ => some { a := .src, build := fun o => some (.ctxHaltClear h o.a) }
  | 0x1A8 => some { d := .dst, a := .src, build := fun o => onlyMod m 0 (.probeRd h o.d o.a) }
  | 0x1A9 => some { d3 with build := fun o => onlyMod m 0 (.logApp h o.d o.a o.b) }
  | 0x1AA => some { a := .src, b := .src, build := fun o => onlyMod m 0 (.cntCfg h o.a o.b) }
  | 0x1AB => some { d := .dst, a := .src, build := fun o => onlyMod m 0 (.cntRd h o.d o.a) }
  | 0x1AC => match m.toNat with
      | 0 => some { d3 with build := fun o => some (.cancelBlock h o.d o.a o.b) }
      | 1 => some { d := .dst, a := .src, build := fun o => some (.cancelLaunch h o.d o.a) }
      | 2 => some { d := .dst, a := .src, build := fun o => some (.cancelGraph h o.d o.a) }
      | 3 => some { d := .dst, a := .src, build := fun o => some (.cancelPhase h o.d o.a) }
      | 4 => some { d := .dst, a := .src, build := fun o => some (.cancelJob h o.d o.a) }
      | _ => some { build := fun _ => none }
  | 0x1AD => some { a := .src, build := fun o => onlyMod m 0 (.phaseClose h o.a) }
  | _ => none

/-- The conductor's full-word matrix class: opcodes 0x1C0-0x1C7 (R256, R262, R267, R268). -/
def fmtMat (f : Fields) : Option Fmt :=
  let h := f.hdr
  let m := f.mod
  (match f.op.toNat with
  | 0x1C0 => some { a := .src, b := .src, build := (fun o =>
      some (.accFold h (m.extractLsb' 3 2) (m.getLsbD 2) (rmOf (m.extractLsb' 0 2)) o.a o.b)) }
  | 0x1C1 => some { a := .src, b := .src, build := fun o => onlyMod m 0 (.accZero h o.a o.b) }
  | 0x1C2 => some { d := .src, a := .src, b := .src, build := (fun o =>
      if 1 < m.toNat then none else some (.accCpy h (m.getLsbD 0) o.ds o.a o.b)) }
  | 0x1C3 => match m.toNat with
      | 0 => some { a := .src, build := fun o => some (.dcpCfgStream h o.a) }
      | 1 => some { a := .src, b := .src, build := fun o => some (.dcpCfgTable h o.a o.b) }
      | 2 => some { a := .src, build := fun o => some (.dcpCfgRedir h o.a) }
      | _ => some { build := fun _ => none }
  | 0x1C4 => some { d := .dst, build := fun o => onlyMod m 0 (.dcpStat h o.d) }
  | 0x1C5 => match m.toNat with
      | 0 => some { build := fun _ => some (.ocInvAll h) }
      | 1 => some { a := .src, build := fun o => some (.ocInvH h o.a) }
      | _ => some { build := fun _ => none }
  | 0x1C6 => some { d := .dst, build := fun o => onlyMod m 0 (.stepRd h o.d) }
  | 0x1C7 => some { build := fun _ => if m = 0 then some (.stepGoResume h) else if m = 1 then some (.stepGoAbandon h) else none }
  | _ => none : Option Fmt).map Fmt.condOnly

/-- The format of a full word (R125), or none where the cell is reserved or illegal. -/
def fmtFull (k : EngineKind) (f : Fields) : Option Fmt :=
  let n := f.op.toNat
  if n ≤ 0x020 then fmtInt k f
  else if n ≤ 0x07F then fmtImm f
  else if n ≤ 0x0FF then fmtFp f
  else if n ≤ 0x13F then fmtCtl f
  else if n ≤ 0x17F then fmtMem k f
  else if n ≤ 0x18F then fmtFib f
  else if n ≤ 0x1BF then fmtSys f
  else fmtMat f

/-- The cause of an unassigned cell: illegal at 0x000 and 0x1FF, reserved elsewhere (R125-R127). -/
def cellCause (op : BitVec 9) : BitVec 8 := if op = 0 ∨ op = 0x1FF then 3 else 4

/-- Decoding a full word (R98). -/
def decodeFull (k : EngineKind) (off : Nat) (w : Word) : Dec Instr :=
  let f := Fields.unpack w
  match fmtFull k f with
  | none => .error (cellCause f.op)
  | some m => m.decode k off f

/-! ### Pair words (R113-R116) -/

def HalfOp.isMul : HalfOp → Bool
  | .mulI32 | .mulI64 | .fmulF32 | .fmulF16x4 => true
  | _ => false

/-- The lane registers a half reads, for the bank rule (R115 rule 2). -/
def PairHalf.reads : PairHalf → List Nat
  | .empty => []
  | .op _ d s => d.toNat :: (match s with | .w n => [n.toNat] | _ => [])

/-- Rules 1-3 of R115. -/
def pairOk (x y : PairHalf) : Bool :=
  let rs := x.reads ++ y.reads
  let bank := fun b => (rs.filter fun r => r % 4 == b).length
  let d := match x, y with | .op _ d _, .op _ e _ => d != e | _, _ => true
  let mul := match x, y with | .op o _ _, .op p _ _ => !(o.isMul && p.isMul) | _, _ => true
  d && (bank 0 ≤ 2) && (bank 1 ≤ 2) && (bank 2 ≤ 2) && (bank 3 ≤ 2) && mul

/-- One half from its three fields. -/
def halfOf (off : Nat) (op : BitVec 7) (d s : BitVec 8) : Dec PairHalf :=
  match halfOpOf op with
  | none => if op = 0 then (if d = 0 ∧ s = 0 then .ok .empty else .error 6) else .error 4
  | some o =>
    match dstOf .lane off false d, srcOf .lane off s with
    | .error e, .error e' => .error (if e = 7 ∨ e' = 7 then 7 else 9)
    | .error e, _ => .error e
    | _, .error e => .error e
    | .ok (.w d'), .ok s' => .ok (.op o d' s')
    | .ok _, .ok _ => .error 7

/-- Decoding a pair word: causes 4, 6, 7, 8, 9 in that order (R115, R124). -/
def decodePair (k : EngineKind) (off : Nat) (w : Word) : Dec Instr :=
  let x := halfOf off (w.extractLsb' 39 7) (w.extractLsb' 31 8) (w.extractLsb' 23 8)
  let y := halfOf off (w.extractLsb' 16 7) (w.extractLsb' 8 8) (w.extractLsb' 0 8)
  let has := fun c : BitVec 8 => (match x with | .error e => e == c | .ok _ => false) || (match y with | .error e => e == c | .ok _ => false)
  let x0 := halfOf 0 (w.extractLsb' 39 7) (w.extractLsb' 31 8) (w.extractLsb' 23 8)
  let y0 := halfOf 0 (w.extractLsb' 16 7) (w.extractLsb' 8 8) (w.extractLsb' 0 8)
  if has 4 then .error 4
  else if k ≠ .lane then .error 5
  else if has 6 || w.getLsbD 46 then .error 6
  else if has 7 then .error 7
  else match x0, y0 with
  | .ok p, .ok q =>
    if !pairOk p q then .error 8
    else match x, y with
    | .ok p, .ok q => .ok (.pairWord (w.extractLsb' 59 3) (w.extractLsb' 47 12) p q)
    | _, _ => .error 9
  | _, _ => .error 7

/-- Decoding a dictionary entry, which must be a full word or a pair (R118, R120). -/
def decodeEntry (off : Nat) (w : Word) : Dec Instr :=
  match (w.extractLsb' 62 2).toNat with
  | 0 => decodeFull .lane off w
  | 1 => decodePair .lane off w
  | _ => .error 2

/-! ### Long words (R121, R126, R187, R258) -/

/-- Whether entries from byte j on of the payload are zero (R187). -/
def casesZero (n : Nat) (payload : Word) : Bool := payload >>> (8 * n) == 0

/-- Displacement entry j of the case table (R187): e_0 at the low half of t0. -/
def caseEntry (t : List Word) (j : Nat) : BitVec 32 := (t.getD (j / 2) 0).extractLsb' (32 * (j % 2)) 32

/-- The format of a long word, given its following words. -/
def fmtLong (f : Fields) (ws : List Word) : Option Fmt :=
  let h := f.hdr
  let p := ws.getD 0 0
  match f.op.toNat with
  | 0x001 => some { d := .dst, build := fun o => onlyMod f.mod 0 (.movl h o.d p) }
  | 0x002 =>
    let t := (ws.drop 1).take 5
    let n := (f.mod.extractLsb' 0 3).toNat + 1
    let tabOk := (List.range 8).all fun j => j < n || caseEntry t j == 0
    some { c := false, st := false, guardE := true, set15 := true, a := .src, build := (fun o =>
      if f.mod.extractLsb' 3 2 ≠ 0 ∨ !casesZero n p ∨ !tabOk ∨ caseEntry t 9 ≠ 0 then none
      else some (.switch h (f.mod.extractLsb' 0 3) o.a p (t.getD 0 0) (t.getD 1 0) (t.getD 2 0) (t.getD 3 0) (t.getD 4 0))) }
  | 0x010 => some ({ a := .src, build := fun o => onlyMod f.mod 0 (.cimLdb h o.a p) } : Fmt).condOnly
  | 0x011 => some ({ a := .src, b := .src, build := fun o => onlyMod f.mod 0 (.cimRun h o.a o.b p) } : Fmt).condOnly
  | 0x012 => some ({ b := .src, build := fun o => onlyMod f.mod 0 (.cimMv h o.b p) } : Fmt).condOnly
  | _ => none

/-- Words of a long instruction beyond its first (R121, R187). -/
def longExtra (op : BitVec 9) : Nat := if op = 2 then 6 else 1

/-! ### The decoder -/

/-- What decoding at a PC gives: an instruction and the distance in bytes to the next PC (R97, R119), the first cause of
R124, or too few words (the fetch of a further word is needed). -/
inductive Decoded where
  | ok (i : Instr) (next : Nat)
  | illegal (cause : BitVec 8)
  | truncated
  deriving Repr

def Decoded.ofDec (next : Nat) : Dec Instr → Decoded
  | .ok i => .ok i next
  | .error c => .illegal c

/-- Decoding the words at PC[63:3] for code slot pc[2:0] (R96, R119). -/
def decode (k : EngineKind) (slot : BitVec 3) (ws : List Word) : Decoded :=
  match ws with
  | [] => .truncated
  | w :: rest =>
    let kind := (w.extractLsb' 62 2).toNat
    if slot.getLsbD 0 then .illegal 1
    else if kind = 2 then
      let cnt := (w.extractLsb' 60 2).toNat + 1
      let c := (slot.extractLsb' 1 2).toNat
      let code : BitVec 16 := w.extractLsb' (16 * c) 16
      if cnt = 4 then .illegal 2
      else if cnt ≤ c then .illegal 1
      else if k ≠ .lane then .illegal 5
      else if w.extractLsb' 48 12 ≠ 0 ∨ (cnt < 3 ∧ w.extractLsb' 32 16 ≠ 0) ∨ (cnt < 2 ∧ w.extractLsb' 16 16 ≠ 0) then .illegal 6
      else .ok (.dictionaryCode (code.extractLsb' 10 6) (code.extractLsb' 0 10)) (if c + 1 < cnt then 2 else 8 - 2 * c)
    else if slot ≠ 0 then .illegal 1
    else if kind = 0 then .ofDec 8 (decodeFull k 0 w)
    else if kind = 1 then .ofDec 8 (decodePair k 0 w)
    else
      let f := Fields.unpack w
      if rest.length < longExtra f.op then .truncated
      else match fmtLong f rest with
        | none => .illegal (cellCause f.op)
        | some m => .ofDec 16 (m.decode k 0 f)

/-- The bytes of a word, lowest address first (R3). -/
def wordBytes (w : Word) : List Byte := (List.range 8).map fun i => w.extractLsb' (8 * i) 8

/-- The word of 8 bytes, lowest address first; missing bytes read zero (R3). -/
def bytesWord (bs : List Byte) : Word :=
  (List.range 8).foldl (fun acc i => acc ||| ((bs.getD i 0).setWidth 64 <<< (8 * i))) 0

/-- Full words of a byte list. -/
def bytesWords (n : Nat) (bs : List Byte) : List Word :=
  match n with
  | 0 => []
  | n + 1 => if bs.length < 8 then [] else bytesWord (bs.take 8) :: bytesWords n (bs.drop 8)

/-- Decoding any bytes: total, and rejecting by the cause of R124. -/
def decodeBytes (k : EngineKind) (slot : BitVec 3) (bs : List Byte) : Decoded := decode k slot (bytesWords 7 bs)

/-- The instruction my decoder reads from a row's bits, least significant word first: on a lane core, else on a
conductor, else on a steward. -/
def decodeTableWord (nbits w : Nat) : Option Instr :=
  let ws := (List.range 7).map fun i => BitVec.ofNat 64 ((w % 2 ^ nbits) >>> (64 * i))
  match decode .lane 0 ws with
  | .ok i _ => some i
  | _ => match decode .cond 0 ws with
    | .ok i _ => some i
    | _ => match decode .stew 0 ws with
      | .ok i _ => some i
      | _ => none

/-! ### The encoder -/

/-- A full word from the fields of R98. -/
def enc (h : Hdr) (op : BitVec 9) (mod : BitVec 5) (s : BitVec 1) (d a b : BitVec 8) : Word :=
  Fields.pack { kind := 0, hdr := h, op, mod, s, dest := d, srca := a, srcb := b }

/-- A long word's first word (R121). -/
def encL (h : Hdr) (op : BitVec 9) (mod : BitVec 5) (d a b : BitVec 8) : Word :=
  Fields.pack { kind := 3, hdr := h, op, mod, s := 0, dest := d, srca := a, srcb := b }

def encD (h : Hdr) (op : BitVec 9) (mod : BitVec 5) (d : Dst) (a b : BitVec 8) : Word := enc h op mod d.s d.field a b

/-- Immediate form: mod:srcb is the immediate (R102). -/
def encImm (h : Hdr) (op : BitVec 9) (d : Dst) (a : BitVec 8) (imm : BitVec 13) : Word :=
  enc h op (imm.extractLsb' 8 5) d.s d.field a (imm.extractLsb' 0 8)

/-- Displacement form (R185). -/
def encDisp (h : Hdr) (op : BitVec 9) (disp : BitVec 25) : Word :=
  enc h op 0 (disp.extractLsb' 24 1) (disp.extractLsb' 16 8) (disp.extractLsb' 8 8) (disp.extractLsb' 0 8)

def satCode (t : IntTy) (s : Bool) : BitVec 5 := BitVec.ofBool s ++ t.code
def bCode (w64 : Bool) : BitVec 5 := if w64 then 15 else 14
def fpCode (t : FpTy) (r : Rm) : BitVec 5 := t.code ++ r.code
def x2Code (x2 : Bool) : BitVec 5 := if x2 then 4 else 0
def p8 (p : BitVec 3) : BitVec 8 := p.setWidth 8
def m5 (b : Bool) : BitVec 5 := if b then 1 else 0
def csrMod (n : BitVec 12) : BitVec 5 := (n.extractLsb' 8 4).setWidth 5
def csrB (n : BitVec 12) : BitVec 8 := n.extractLsb' 0 8
def copyMod (dstS : Bool) (src : Space) : BitVec 5 := (0 : BitVec 1) ++ BitVec.ofBool dstS ++ src.code ++ (0 : BitVec 1)

def PairHalf.fields : PairHalf → BitVec 7 × BitVec 8 × BitVec 8
  | .empty => (0, 0, 0)
  | .op o d s => (o.code, d, s.field)

/-- The words of an instruction (R98, R113, R117, R121); an event has none. -/
def encode : Instr → List Word
  | .add h t s d a b => [encD h 0x001 (satCode t s) d a.field b.field]
  | .sub h t s d a b => [encD h 0x002 (satCode t s) d a.field b.field]
  | .addc h w c d a b => [encD h 0x003 (c ++ (0 : BitVec 1) ++ BitVec.ofBool w) d a.field b.field]
  | .subb h w c d a b => [encD h 0x004 (c ++ (0 : BitVec 1) ++ BitVec.ofBool w) d a.field b.field]
  | .mul h t s d a b => [encD h 0x005 (satCode t s) d a.field b.field]
  | .mulh h t d a b => [encD h 0x006 (satCode t false) d a.field b.field]
  | .mad h t s d a b => [encD h 0x007 (satCode t s) d a.field b.field]
  | .madh h t d a b => [encD h 0x008 (satCode t false) d a.field b.field]
  | .min h t d a b => [encD h 0x009 (satCode t false) d a.field b.field]
  | .max h t d a b => [encD h 0x00A (satCode t false) d a.field b.field]
  | .abs h t s d a => [encD h 0x00B (satCode t s) d a.field 0]
  | .neg h t s d a => [encD h 0x00C (satCode t s) d a.field 0]
  | .and h w d a b => [encD h 0x00D (bCode w) d a.field b.field]
  | .or h w d a b => [encD h 0x00E (bCode w) d a.field b.field]
  | .xor h w d a b => [encD h 0x00F (bCode w) d a.field b.field]
  | .not h w d a => [encD h 0x010 (bCode w) d a.field 0]
  | .andn h w d a b => [encD h 0x011 (bCode w) d a.field b.field]
  | .shl h w d a b => [encD h 0x012 (bCode w) d a.field b.field]
  | .shr h w d a b => [encD h 0x013 (bCode w) d a.field b.field]
  | .sar h w d a b => [encD h 0x014 (if w then 6 else 4) d a.field b.field]
  | .rotl h w d a b => [encD h 0x015 (bCode w) d a.field b.field]
  | .bfx h t d a b => [encD h 0x016 ((1 : BitVec 3) ++ t.code) d a.field b.field]
  | .bfi h w d a b => [encD h 0x017 (bCode w) d a.field b.field]
  | .popc h w d a => [encD h 0x018 (bCode w) d a.field 0]
  | .clz h w d a => [encD h 0x019 (bCode w) d a.field 0]
  | .ctz h w d a => [encD h 0x01A (bCode w) d a.field 0]
  | .brev h w d a => [encD h 0x01B (bCode w) d a.field 0]
  | .bsel h d a b => [encD h 0x01C 15 d a.field b.field]
  | .lea h g k d a b => [encD h 0x01D ((0 : BitVec 1) ++ BitVec.ofBool g ++ k) d a.field b.field]
  | .mov h w d a => [encD h 0x01E (bCode w) d a.field 0]
  | .movSpecial h r d => [encD h 0x01E ((1 : BitVec 1) ++ r.code) d 0 0]
  | .sel h p d a b => [encD h 0x01F (p ++ (0 : BitVec 2)) d a.field b.field]
  | .setp h c t p a b => [enc h 0x020 (c.code ++ t.code) 0 (p8 p) a.field b.field]
  | .addImm h d a i => [encImm h 0x041 d a.field i]
  | .subImm h d a i => [encImm h 0x042 d a.field i]
  | .mulImm h d a i => [encImm h 0x045 d a.field i]
  | .minImm h d a i => [encImm h 0x049 d a.field i]
  | .maxImm h d a i => [encImm h 0x04A d a.field i]
  | .andImm h d a i => [encImm h 0x04D d a.field i]
  | .orImm h d a i => [encImm h 0x04E d a.field i]
  | .xorImm h d a i => [encImm h 0x04F d a.field i]
  | .andnImm h d a i => [encImm h 0x051 d a.field i]
  | .shlImm h d a i => [encImm h 0x052 d a.field i]
  | .shrImm h d a i => [encImm h 0x053 d a.field i]
  | .sarImm h d a i => [encImm h 0x054 d a.field i]
  | .rotlImm h d a i => [encImm h 0x055 d a.field i]
  | .leaImm h d a i => [encImm h 0x05D d a.field i]
  | .movi h d i => [encImm h 0x05E d 0 i]
  | .movl h d i => [encL h 0x001 0 d.field 0 0, i]
  | .fadd h t r d a b => [encD h 0x080 (fpCode t r) d a.field b.field]
  | .fsub h t r d a b => [encD h 0x081 (fpCode t r) d a.field b.field]
  | .fmul h t r d a b => [encD h 0x082 (fpCode t r) d a.field b.field]
  | .fma h t r d a b => [encD h 0x083 (fpCode t r) d a.field b.field]
  | .fmin h t d a b => [encD h 0x084 (fpCode t .rn) d a.field b.field]
  | .fmax h t d a b => [encD h 0x085 (fpCode t .rn) d a.field b.field]
  | .fsetp h c t p a b => [enc h 0x086 (c.code ++ t.code) 0 (p8 p) a.field b.field]
  | .fclass h t d a => [encD h 0x087 t.code d a.field 0]
  | .frnd h t r d a => [encD h 0x088 (fpCode t r) d a.field 0]
  | .fdiv h t r d a b => [encD h 0x089 (fpCode t r) d a.field b.field]
  | .fsqrt h t r d a => [encD h 0x08A (fpCode t r) d a.field 0]
  | .frcp h x d a => [encD h 0x08B (x2Code x) d a.field 0]
  | .frsqrt h x d a => [encD h 0x08C (x2Code x) d a.field 0]
  | .fexp2 h x d a => [encD h 0x08D (x2Code x) d a.field 0]
  | .flog2 h x d a => [encD h 0x08E (x2Code x) d a.field 0]
  | .fscale h t r d a b => [encD h 0x08F (fpCode t r) d a.field b.field]
  | .fcvt h c r d a => [encD h 0x090 (c.code ++ r.code) d a.field 0]
  | .icvt h c r d a => [encD h 0x091 (c.code ++ r.code) d a.field 0]
  | .bfpPack h f r d a b => [encD h 0x0C0 ((0 : BitVec 2) ++ BitVec.ofBool f ++ r.code) d a.field b.field]
  | .bfpUnpack h f r d a b => [encD h 0x0C1 ((0 : BitVec 2) ++ BitVec.ofBool f ++ r.code) d a.field b.field]
  | .sacc h r d a b => [encD h 0x0C2 ((0 : BitVec 3) ++ r.code) d a.field b.field]
  | .pdot h t d a b => [encD h 0x0C3 t.code d a.field b.field]
  | .nzmask h v d a => [encD h 0x0C4 v.code d a.field 0]
  | .nzcnt h v d a => [encD h 0x0C5 v.code d a.field 0]
  | .flgRd h d => [encD h 0x0C6 0 d 0 0]
  | .flgClr h a => [enc h 0x0C7 0 0 0 a.field 0]
  | .flgArm h a => [enc h 0x0C8 0 0 0 a.field 0]
  | .rng h d a b => [encD h 0x0C9 0 d a.field b.field]
  | .pairWord di w x y =>
    let (o1, d1, s1) := x.fields
    let (o2, d2, s2) := y.fields
    [(1 : BitVec 2) ++ di ++ w ++ (0 : BitVec 1) ++ o1 ++ d1 ++ s1 ++ o2 ++ d2 ++ s2]
  | .dictionaryCode off idx => [(2 : BitVec 2) ++ (0 : BitVec 46) ++ off ++ idx]
  | .bra h d => [encDisp h 0x100 d]
  | .call h d => [encDisp h 0x101 d]
  | .calli h a => [enc h 0x102 0 0 0 a.field 0]
  | .ret h => [enc h 0x103 0 0 0 0 0]
  | .exit h => [enc h 0x104 0 0 0 0 0]
  | .nop h => [enc h 0x105 0 0 0 0 0]
  | .trap h a => [enc h 0x106 0 0 0 a.field 0]
  | .rett h => [enc h 0x107 0 0 0 0 0]
  | .brk h => [enc h 0x108 0 0 0 0 0]
  | .suspendK h a b => [enc h 0x109 0 0 0 a.field b.field]
  | .suspendR h a b => [enc h 0x109 1 0 0 a.field b.field]
  | .evAdd h d a b => [encD h 0x10A 0 d a.field b.field]
  | .evRd h d a => [encD h 0x10B 0 d a.field 0]
  | .switch h n a p t0 t1 t2 t3 t4 => [encL h 0x002 ((0 : BitVec 2) ++ n) 0 a.field 0, p, t0, t1, t2, t3, t4]
  | .lxch h s w d a b => [encD h 0x110 ((0 : BitVec 2) ++ BitVec.ofBool w ++ s) d a.field b.field]
  | .bcast h d a b => [encD h 0x111 0 d a.field b.field]
  | .poll h op n m b =>
    let (c, df) : BitVec 2 × BitVec 8 := match op with
      | .mask d => (0, d.field) | .count d => (1, d.field) | .ge p => (2, p8 p) | .le p => (3, p8 p)
    [enc h 0x112 ((0 : BitVec 2) ++ BitVec.ofBool n ++ c) 0 df (p8 m) b.field]
  | .lred h op d a b => [encD h 0x113 op.code d a.field b.field]
  | .scan h op d a b => [encD h 0x114 op.code d a.field b.field]
  | .peer h w d a b => [encD h 0x115 (m5 w) d a.field b.field]
  | .lead h hi p b => [enc h 0x116 (m5 hi) 0 (p8 p) 0 b.field]
  | .csample h p d a b => [encD h 0x117 ((0 : BitVec 2) ++ p) d a.field b.field]
  | .nbarArr h a b => [enc h 0x120 0 0 0 a.field b.field]
  | .nbarSync h a b => [enc h 0x121 0 0 0 a.field b.field]
  | .nbarWait h a => [enc h 0x122 0 0 0 a.field 0]
  | .nbarRd h d a => [encD h 0x123 0 d a.field 0]
  | .pbarInit h a b => [enc h 0x124 0 0 0 a.field b.field]
  | .pbarArr h a => [enc h 0x125 0 0 0 a.field 0]
  | .pbarWait h a b => [enc h 0x126 0 0 0 a.field b.field]
  | .ld h sp t d a x => [encD h 0x140 (sp.code ++ t.code) d a.field x]
  | .st h sp t v a x => [enc h 0x141 (sp.code ++ t.code) 0 v.field a.field x]
  | .ldl h t d a x => [encD h 0x142 (Space.s.code ++ t.code) d a.field x]
  | .pref h a x => [enc h 0x143 0 0 0 a.field x]
  | .atom h s op t d a b => [enc h 0x144 (op.code ++ t.code) (BitVec.ofBool s) d.field a.field b.field]
  | .atomFadd h t r a b => [enc h 0x145 (t.code ++ r.code) 0 0 a.field b.field]
  | .cpa h ds sp d a b => [enc h 0x146 (copyMod ds sp) 0 d.field a.field b.field]
  | .cpa2 h ds sp d a b => [enc h 0x147 (copyMod ds sp) 0 d.field a.field b.field]
  | .fence h => [enc h 0x148 0 0 0 0 0]
  | .fenceOwn h d => [encD h 0x149 0 d 0 0]
  | .fenceSeize h k d a b => [enc h 0x14A (k.setWidth 5) 0 d.field a.field b.field]
  | .fenceSpw h k a => [enc h 0x14B (k.setWidth 5) 0 0 a.field 0]
  | .binCfg h a => [enc h 0x14C 0 0 0 a.field 0]
  | .binPut h e a b => [enc h 0x14D (m5 e) 0 0 a.field b.field]
  | .binRun h d a => [encD h 0x14E 0 d a.field 0]
  | .collPost h d a => [encD h 0x14F 0 d a.field 0]
  | .collRd h d a => [encD h 0x150 0 d a.field 0]
  | .edgePush h d a b => [encD h 0x151 0 d a.field b.field]
  | .accReq h p a => [enc h 0x152 0 0 (p8 p) a.field 0]
  | .accRel h a => [enc h 0x153 0 0 0 a.field 0]
  | .fibOpen h s k f a b => [enc h 0x180 (BitVec.ofBool s ++ k) 0 (p8 f) a.field b.field]
  | .fibAdvN h f a b => [enc h 0x181 0 0 (p8 f) a.field b.field]
  | .fibAdvGe h f a b => [enc h 0x181 1 0 (p8 f) a.field b.field]
  | .fibEnd h p f b => [enc h 0x182 0 0 (p8 p) (p8 f) b.field]
  | .fibClose h f b => [enc h 0x183 0 0 (p8 f) 0 b.field]
  | .fibIsect h p d fa fb b => [encD h 0x184 ((0 : BitVec 2) ++ p) d ((0 : BitVec 2) ++ fb ++ fa) b.field]
  | .fibMerge h p d fa fb b => [encD h 0x185 ((0 : BitVec 2) ++ p) d ((0 : BitVec 2) ++ fb ++ fa) b.field]
  | .fibSplit h f a b => [enc h 0x186 0 0 (p8 f) a.field b.field]
  | .fibGet h x d f b => [encD h 0x187 x.code d (p8 f) b.field]
  | .sproj h t d a b => [encD h 0x188 t.code d a.field b.field]
  | .slotRdWord h d a b => [encD h 0x190 0 d a.field b.field]
  | .slotRdTok h d a b => [encD h 0x190 1 d a.field b.field]
  | .slotRdBatch h d => [encD h 0x190 2 d 0 0]
  | .slotPut h a b => [enc h 0x191 0 0 0 a.field b.field]
  | .slotCfg h a b => [enc h 0x192 0 0 0 a.field b.field]
  | .seqStPause h a b | .seqStResume h a b | .seqStSwap h a b | .seqStRelease h a b | .seqStPriority h a b =>
    [enc h 0x193 0 0 0 a.field b.field]
  | .seqFork h d a b => [encD h 0x194 0 d a.field b.field]
  | .csrr h d n => [encD h 0x1A0 (csrMod n) d 0 (csrB n)]
  | .csrw h n a => [enc h 0x1A1 (csrMod n) 0 0 a.field (csrB n)]
  | .csrx h d n a => [encD h 0x1A2 (csrMod n) d a.field (csrB n)]
  | .cbindWrite h a => [enc h 0x1A1 0 0 0 a.field 0xC0]
  | .keyLoad h a | .keyErase h a => [enc h 0x1A1 8 0 0 a.field 0x19]
  | .contextCreate h a => [enc h 0x1A1 8 0 0 a.field 0x30]
  | .tlbInvAll h b => [enc h 0x1A3 0 0 0 0 b.field]
  | .tlbInvPage h a b => [enc h 0x1A3 1 0 0 a.field b.field]
  | .tlbInvRange h l a b => [enc h 0x1A3 2 0 l.field a.field b.field]
  | .tlbInvDev h => [enc h 0x1A3 3 0 0 0 0]
  | .fragRdEntry h d a b => [encD h 0x1A4 0 d a.field b.field]
  | .fragRdFrame h d b => [encD h 0x1A4 1 d 0 b.field]
  | .fragResume h d a b => [encD h 0x1A5 0 d a.field b.field]
  | .fragKill h d a b => [encD h 0x1A6 0 d a.field b.field]
  | .ctxHaltTerm h a => [enc h 0x1A7 0 0 0 a.field 0]
  | .ctxHaltSave h d a b => [encD h 0x1A7 1 d a.field b.field]
  | .ctxHaltLoad h d a b => [encD h 0x1A7 2 d a.field b.field]
  | .ctxHaltClear h a => [enc h 0x1A7 3 0 0 a.field 0]
  | .probeRd h d a => [encD h 0x1A8 0 d a.field 0]
  | .logApp h d a b => [encD h 0x1A9 0 d a.field b.field]
  | .cntCfg h a b => [enc h 0x1AA 0 0 0 a.field b.field]
  | .cntRd h d a => [encD h 0x1AB 0 d a.field 0]
  | .cancelBlock h d a b => [encD h 0x1AC 0 d a.field b.field]
  | .cancelLaunch h d a => [encD h 0x1AC 1 d a.field 0]
  | .cancelGraph h d a => [encD h 0x1AC 2 d a.field 0]
  | .cancelPhase h d a => [encD h 0x1AC 3 d a.field 0]
  | .cancelJob h d a => [encD h 0x1AC 4 d a.field 0]
  | .phaseClose h a => [enc h 0x1AD 0 0 0 a.field 0]
  | .accFold h g c r a b => [enc h 0x1C0 (g ++ BitVec.ofBool c ++ r.code) 0 0 a.field b.field]
  | .accZero h a b => [enc h 0x1C1 0 0 0 a.field b.field]
  | .accCpy h s d a b => [enc h 0x1C2 (m5 s) 0 d.field a.field b.field]
  | .dcpCfgStream h a => [enc h 0x1C3 0 0 0 a.field 0]
  | .dcpCfgTable h a b => [enc h 0x1C3 1 0 0 a.field b.field]
  | .dcpCfgRedir h a => [enc h 0x1C3 2 0 0 a.field 0]
  | .dcpStat h d => [encD h 0x1C4 0 d 0 0]
  | .ocInvAll h => [enc h 0x1C5 0 0 0 0 0]
  | .ocInvH h a => [enc h 0x1C5 1 0 0 a.field 0]
  | .stepRd h d => [encD h 0x1C6 0 d 0 0]
  | .stepGoResume h => [enc h 0x1C7 0 0 0 0 0]
  | .stepGoAbandon h => [enc h 0x1C7 1 0 0 0 0]
  | .cimLdb h a p => [encL h 0x010 0 0 a.field 0, p]
  | .cimRun h a b p => [encL h 0x011 0 0 a.field b.field, p]
  | .cimMv h b p => [encL h 0x012 0 0 0 b.field, p]
  | .instructionCompletion .. | .copyRetirement .. | .planeStep .. | .drainStep .. | .loadStep .. | .foldStep ..
  | .accUnitStep .. | .deBlockDecode .. | .matrixStreamTrap .. | .decompressionTimeout .. | .faultPresentation ..
  | .blockResume .. | .blockPlacement .. | .pendingBlockTimeout .. | .launchCompletion .. | .phaseBoundary ..
  | .requantisation .. | .engineStop .. | .timeSliceExpiry .. | .thermalThrottle | .thermalRecovery | .thermalShutdown
  | .bootSequence | .scrub .. | .remoteAccess .. | .remoteAccessTimeout .. | .oper .. | .operAttest .. | .operBlowFuse ..
  | .operMap .. | .operJoinDomain .. | .load .. | .job .. | .seq .. | .ctrlJobHold .. | .ctrlJobResume ..
  | .ctrlJobCancel .. | .ctrlJobFinish .. | .ctrlSeqPause .. | .ctrlSeqResume .. | .ctrlSeqSwap .. | .ctrlSeqRelease ..
  | .dataWrite .. | .dataRead .. | .replay .. | .logx .. | .malformedMessage .. | .memberUnreachable .. => []

end Sys2Proof
end

