-- ==== Sys2Proof/Machine/Bits.lean ====
section
/-! DEFINITION. Bit fields, sign extension, sub-elements and integer narrowing (R2, R42-R45). -/
namespace Sys2Proof.Machine

open Sys2Proof

/-- Bits [lo+n-1 : lo] of a word, as a number. -/
def bits (w : Word) (lo n : Nat) : Nat := w.toNat >>> lo % 2 ^ n

/-- Bit i of a word. -/
def bit (w : Word) (i : Nat) : Bool := w.getLsbD i

/-- w with bits [lo+n-1 : lo] replaced by v. -/
def putBits (w : Word) (lo n v : Nat) : Word :=
  BitVec.ofNat 64 ((w.toNat >>> (lo + n)) <<< (lo + n) + (v % 2 ^ n) <<< lo + w.toNat % 2 ^ lo)

/-- The word of a number, modulo 2^64: wrap64 of R43. -/
def word (n : Nat) : Word := BitVec.ofNat 64 n

/-- The word of an integer, modulo 2^64. -/
def wordI (x : Int) : Word := BitVec.ofInt 64 x

/-- The n-bit pattern v read as two's complement (signed) or plain binary (R42). -/
def toInt (n : Nat) (signed : Bool) (v : Nat) : Int :=
  if signed && 2 ^ (n - 1) ≤ v then (v : Int) - 2 ^ n else v

/-- The low n bits of an exact integer (R43). -/
def wrapN (n : Nat) (x : Int) : Nat := (x % (2 ^ n : Int)).toNat

/-- The n-bit pattern v as a register image: filled with copies of bit n-1 when signed, else with zeros (R44). -/
def fill (n : Nat) (signed : Bool) (v : Nat) : Word :=
  if signed && 2 ^ (n - 1) ≤ v then BitVec.ofInt 64 ((v : Int) - 2 ^ n) else BitVec.ofNat 64 v

/-- Flag bits of the block status word (R58). -/
abbrev Flags := BitVec 4
def fSat : Flags := 1
def fInv : Flags := 2
def fDz : Flags := 4
def fFlush : Flags := 8
def fNone : Flags := 0

/-- sat_int of R43: the value clamped to the type's range, with SAT when the clamp acts. -/
def satInt (x : Int) (n : Nat) (signed : Bool) : Int × Flags :=
  let lo : Int := if signed then -(2 ^ (n - 1)) else 0
  let hi : Int := if signed then 2 ^ (n - 1) - 1 else 2 ^ n - 1
  if x < lo then (lo, fSat) else if hi < x then (hi, fSat) else (x, fNone)

/-- res_int of R155: saturates when narrower than 32 bits or when asked to, else wraps; the result is an n-bit pattern. -/
def resInt (x : Int) (n : Nat) (signed sat : Bool) : Nat × Flags :=
  if n < 32 || sat then let r := satInt x n signed; (wrapN n r.1, r.2) else (wrapN n x, fNone)

/-- Sub-element i of width n (R45). -/
def sub_ (w : Word) (n i : Nat) : Nat := bits w (n * i) n

/-- A register from its sub-elements of width n, element 0 lowest. -/
def packN (n : Nat) (vs : List Nat) : Word := word ((vs.zipIdx.map fun e => (e.1 % 2 ^ n) <<< (n * e.2)).sum)

/-- Width, number of sub-elements and signedness of an integer type (R103). -/
def intShape : IntTy → Nat × Nat × Bool
  | .i8 => (8, 1, true) | .n8 => (8, 1, false) | .i16 => (16, 1, true) | .n16 => (16, 1, false)
  | .i32 => (32, 1, true) | .n32 => (32, 1, false) | .i64 => (64, 1, true) | .n64 => (64, 1, false)
  | .i8x8 => (8, 8, true) | .n8x8 => (8, 8, false) | .i16x4 => (16, 4, true) | .n16x4 => (16, 4, false)
  | .i32x2 => (32, 2, true) | .n32x2 => (32, 2, false) | .b32 => (32, 1, false) | .b64 => (64, 1, false)

/-- Width and signedness of a comparison or atomic type (R164, R217). -/
def cmpShape : CmpTy → Nat × Bool
  | .i32 => (32, true) | .n32 => (32, false) | .i64 => (64, true) | .n64 => (64, false)

/-- Width of a b32 / b64 operation (R103). -/
def bW (w64 : Bool) : Nat := if w64 then 64 else 32

/-- Round x up to a multiple of k. -/
def alignUp (x k : Nat) : Nat := (x + k - 1) / k * k

/-- The bytes of a list taken k at a time. -/
def chunks {α : Type} (k : Nat) : Nat → List α → List (List α)
  | 0, _ => []
  | n + 1, l => l.take k :: chunks k n (l.drop k)

end Sys2Proof.Machine
end

