-- ==== Sys2Proof/Config.lean ====
section
/-! DEFINITION. What an implementation fixes, and the free values: constants without a body, of which nothing can be
proved. Each is named in a log entry (notes/assumptions/3.md lists them). A free value is read at the counter
State.ctr, which every reader advances, so that two reads are not forced to agree. -/
namespace Sys2Proof.Config

open Sys2Proof

/-- Which of two outcomes that a rule allows comes about (R6, R61, R82, R86, R352). Log 3. -/
opaque choice : Nat → Bool

/-- A 64-bit value that the manual leaves open or calls a timing value (R325, R377, R390, R394). Log 3. -/
opaque freeWord : Nat → Word

/-- A byte that another device holds, as this device first reads it (R87, R399). Log 3, log 12. -/
opaque freeByte : Nat → Byte

/-- Whether a remote device admits an access through its own window table, and answers in time (R401). Log 12. -/
opaque remoteAdmits : Nat → Bool

/-- The frame number (DPA[49:16]) that Imago takes next for a partition (R430), as an offset into its stacks. Log 13. -/
opaque freeFrame : Nat → Nat

/-- Whether an ECDSA P-384 signature (key, digest, r, s) verifies (R148, R413, R417). Log 7. -/
opaque ecdsaVerifies : List Byte → List Byte → List Byte → List Byte → Bool

/-- A signature by the device identity key over a digest: r and s (R392, R418, R419). Log 7. -/
opaque identitySign : List Byte → BitVec 384 × BitVec 384

/-- SHA-384 of the identity public key (R418, R419). Log 7. -/
opaque identityDigest : BitVec 384

/-- SHA-384 of Svadal's firmware-signing key, a factory fuse value (R412 w0-w5). Log 7. -/
opaque rootKey : BitVec 384

/-- The certificate over the identity public key that Svadal has signed (R418). Log 7. -/
opaque certificate : List Byte

/-- The line index of a home cache's stacks that stands at a byte offset of its array, by die, offset and time (R386,
R390): a cache is no state of the model. Log 14. -/
opaque cachedLine : Nat → Nat → Nat → Nat

/-- The ASID 0 virtual address to which the boot ROM copies the firmware body (R414 step 6). Log 6. -/
opaque firmwareBase : Word

/-- A probe.rd word of a structure whose word order no chapter gives (R325, R381), by address. Log 14. -/
opaque probeWord : Nat → Word → Word

/-- The STRUCT numbers of key slots, partitions and context entries in SPACE 4, which no chapter gives (R325). Log 14. -/
opaque probeKeys : Nat
opaque probeParts : Nat
opaque probeCtxs : Nat

/-- The die whose slot engine holds a sequence's entry (R299), modulo 4. Log 14. -/
opaque seqDie : Nat → Nat

/-- The number of a bin session in a stop record, by its descriptor's address (R377). Log 14. -/
opaque binSession : Word → Nat

/-- Words of a structure that R325 or R381 names and whose extent no chapter gives, by SPACE and STRUCT; 0 for a STRUCT
number of SPACE 3 or 4 that names none. Log 14. -/
opaque probeExtent : Nat → Nat → Nat

/-- The owner tag of an entry of a structure of SPACE 3 that carries its own (R325, R388), by address. Log 14. -/
opaque probeOwner : Nat → Word → Nat

/-- Lane cores of the device (R1). -/
def nCores : Nat := 768

/-- Clusters of the device (R1). -/
def nClusters : Nat := 96

/-- Stewards of the device (R1). -/
def nStewards : Nat := 8

/-- Warp slots of one core (R1). -/
def nSlots : Nat := 32

/-- Granules of one core's pool (R76). -/
def nGranules : Nat := 64

/-- Bytes of one granule (R76). -/
def granuleBytes : Nat := 16384

/-- Entries of a core's cocoon table (R24). -/
def nCocoon : Nat := 64

/-- Entries of a core's range scoreboard (R81). -/
def nScoreboard : Nat := 16

/-- Named-barrier states of one core (R202). -/
def nBarStates : Nat := 64

end Sys2Proof.Config
end

