-- ==== Sys2Proof/Machine/Map.lean ====
section
/-! DEFINITION. Finite maps as lists of (key, value) pairs in strictly rising key order: the plain-data form of every
table and memory of the state. A sparse map lists no entry equal to its default value, so that equal maps are equal
lists. -/
namespace Sys2Proof.Machine

/-- A table from numbers to values: pairs in strictly rising key order. -/
abbrev Tab (α : Type) := List (Nat × α)

/-- The value at key k, if listed. -/
def tget? {α : Type} : Tab α → Nat → Option α
  | [], _ => none
  | (j, v) :: m, k => if j = k then some v else tget? m k

/-- The value at key k, or d where none is listed. -/
def tget {α : Type} (d : α) (m : Tab α) (k : Nat) : α := (tget? m k).getD d

/-- m with v at key k. -/
def tset {α : Type} (k : Nat) (v : α) : Tab α → Tab α
  | [] => [(k, v)]
  | (j, u) :: m => if k < j then (k, v) :: (j, u) :: m else if k = j then (k, v) :: m else (j, u) :: tset k v m

/-- m without key k. -/
def tdel {α : Type} (k : Nat) (m : Tab α) : Tab α := m.filter fun e => e.1 != k

/-- m with f applied to the value at k, if one is listed. -/
def tmod {α : Type} (k : Nat) (f : α → α) (m : Tab α) : Tab α := m.map fun e => if e.1 = k then (e.1, f e.2) else e

/-- A sparse map's update: v at k, where an entry equal to the default d is not listed. -/
def tput {α : Type} [DecidableEq α] (d : α) (k : Nat) (v : α) (m : Tab α) : Tab α :=
  if v = d then tdel k m else tset k v m

/-- Keys in strictly rising order. -/
def tsorted {α : Type} : Tab α → Bool
  | [] => true
  | [_] => true
  | (j, _) :: (k, v) :: m => j < k && tsorted ((k, v) :: m)

/-- The canonical form of a sparse map: rising keys, and no entry equal to the default. -/
def twf {α : Type} [DecidableEq α] (d : α) (m : Tab α) : Bool := tsorted m && m.all fun e => e.2 != d

/-- A number put into a rising list, once. -/
def insertNat (n : Nat) : List Nat → List Nat
  | [] => [n]
  | m :: l => if n < m then n :: m :: l else if n = m then m :: l else m :: insertNat n l

/-- The members of a list, each once, in rising order. -/
def rising (l : List Nat) : List Nat := l.foldr insertNat []

/-- Pointwise combination of two clock tables (the later of the two counts at each key). -/
def tjoin (a b : Tab Nat) : Tab Nat := b.foldl (fun m e => tput 0 e.1 (max e.2 (tget 0 m e.1)) m) a

end Sys2Proof.Machine
end

