-- ==== Sys2Proof/Machine/State.lean ====
section
/-! DEFINITION. The state of an A96 as plain data, and its value at reset. INVENTORY.md lists every field with the rule
that names it. Tables are sparse (Map.lean): a unit that holds its reset value is not listed. -/
namespace Sys2Proof.Machine

open Sys2Proof

/-- A memory: the bytes that differ from zero, by address. Every store of the part reads zero before anything writes it
(R78 for the pool, R414 step 1 for HBM). -/
abbrev Memory := List Host.Cell

/-- The canonical form of a memory: addresses strictly rising, no listed byte equal to zero. -/
def Memory.wf (m : Memory) : Bool := twf (0 : Byte) m

/-- A trap frame (R365). -/
structure TrapFrame where
  w0 : Word
  tpc : Word
  rpc : Word
  addr : Word
  deriving DecidableEq, Repr

/-- The four bypass latches (R110); and, of the latch chain under way, the values pushed by chain position and the
position of the next push (R111). -/
structure Latches where
  b0 : Word := 0
  b1 : Word := 0
  b2 : Word := 0
  b3 : Word := 0
  vals : Tab Word := []
  next : Nat := 0
  deriving DecidableEq, Repr

/-- The latch chain a thread is in (R111, R112): positions used, start PC, PC of the latest member, whether every member
may stand in a chain, and what the members read and wrote (registers by number, predicate p as 256 + p); the position of
the latest member; and the turn in which its first instruction issued, which its group shares (R14). -/
structure Chain where
  used : Nat := 0
  start : Word := 0
  last : Option Word := none
  ok : Bool := false
  reads : List Nat := []
  writes : List Nat := []
  pos : Nat := 0
  born : Nat := 0
  deriving DecidableEq, Repr

/-- Where a thread stands (R12, R16, R367). -/
inductive Run where
  | live
  | parked (entry : Nat)
  | held
  | suspended
  | escalated
  | stopped
  | exited
  deriving DecidableEq, Repr

/-- What an issued instruction of a live thread last waited for; the thread stays at its PC. -/
inductive Wait where
  | none
  | member
  | barrier
  | scoreboard (on : List Nat)     -- copies waited for, by identity (R81)
  | inval (on : List Nat)          -- copies that a tlb.inv waits for (R354)
  | ldl (addr : Nat)
  | cbind
  | edge
  | instar
  | poison
  deriving DecidableEq, Repr

/-- A thread: of a lane core, a conductor or a steward (R8, R122, R246). -/
structure Thread where
  block : Nat := 0                 -- key of its block; conductors: their bound block; stewards: noBlock
  pc : Word := 0
  regs : Tab Word := []            -- w or k registers, zero where not listed (R78)
  preds : BitVec 7 := 0
  flags : Tab Nat := []            -- counts of c0-c11, zero where not listed (R105)
  out : List Nat := []             -- flags whose instruction has acted and not yet counted down
  lat : Latches := {}
  chain : Chain := {}
  frames : List Word := []         -- call frames on chip, oldest first (R190)
  stk : Word := 0
  traps : List TrapFrame := []     -- top first
  lvl : BitVec 2 := 0
  empty : Bool := false
  absent : Bool := false
  resumed : Bool := false
  run : Run := .live
  wait : Wait := .none
  arrMask : Option Half := Option.none   -- held cross-lane arrival (R15)
  arrAt : Nat := 0                 -- its core's turn at which that arrival came (R16)
  sync : Tab (Nat × Nat) := []     -- by TDEPTH, the named barrier and phase an nbar.sync arrival waits on (R203)
  lastArr : Tab Nat := []          -- per named barrier, 1 + the phase of the latest arrival (R203)
  issued : Nat := 0                -- its core's turn at which it last issued (R16)
  since : Option Nat := Option.none -- its core's turn at which it was found eligible, while it stays so (R336)
  nFadd : Nat := 0
  nBin : Tab (Nat × Nat) := []     -- bin.put counters by session address, with the number of the session counted in (R231)
  tick : Nat := 0                  -- accesses of this thread that others may have to see (R85)
  vc : Tab Nat := []               -- per thread, how many of its ticks are ordered before this thread's next access
  rel : Tab Nat := []              -- vc and tick at this thread's latest fence (R85)
  acq : Tab Nat := []              -- clocks carried by stores this thread has read, for its next fence (R85)
  aclk : Tab Nat := []             -- clocks that its atomics have read, for its later atomics and releases (R91, R423)
  inc : Nat := 0                   -- which of the threads placed so far this is (R84, R424)
  landed : List (Nat × Nat) := []  -- retired copies of its own: set flag and identity (R271)
  vectored : Bool := false         -- it stands where a trap's delivery has sent it (R364)
  rewalk : Bool := false           -- its next accesses are translated by a new walk (R349, R374)
  deriving DecidableEq, Repr

/-- A change of a block's status word (R61, R182), with the threads that made it and their ticks, what was ordered before
it, and the threads to which no order carries it but that have seen it. -/
structure FlagRec where
  who : List (Nat × Nat)
  set : BitVec 4
  clr : BitVec 4
  arm : Option (BitVec 4)
  vc : Tab Nat := []
  seen : List Nat := []
  deriving DecidableEq, Repr

/-- A named-barrier state bound to a block (R204), with the clocks its phases carry (R85). -/
structure NBar where
  phase : Nat := 0
  expected : Nat := 0
  arrived : Nat := 0
  cur : Tab Nat := []
  done : Tab (Tab Nat) := []       -- by completed phase
  deriving DecidableEq, Repr

/-- The clocks of a phase-bit barrier word (R85, R207). -/
structure PClk where
  cur : Tab Nat := []
  done : Tab (Tab Nat) := []       -- by completed phase
  deriving DecidableEq, Repr

/-- A block's suspension (R37, R194). -/
structure Susp where
  release : Bool
  handle : Word
  target : Word
  cont : Word
  order : Nat
  dpa : Option Nat
  saved : List Word                -- the sixteen words of suspend.r
  met : Option Nat                 -- order in which its target was met, once met (R38)
  deriving DecidableEq, Repr

/-- A store to a block's scratchpad: the thread that made it, as Thread.me numbers threads, with its tick, for the bytes of
a copy also the copy's identity, and what the bytes held before (R271, R290). -/
structure PoolRec where
  who : Nat
  tick : Nat
  copy : Option Nat := none
  old : List (Nat × Byte)
  deriving DecidableEq, Repr

/-- A bin.run under way: thread, descriptor, the region that comes next (R232); and, as they were at its issue, the
descriptor's words and the DPAs of its spans, none where a restore must find them again (R324). -/
structure BinRun where
  tid : Nat
  desc : Word
  region : Nat
  words : List Word := []
  dpas : List (List Nat) := []
  deriving DecidableEq, Repr

/-- A placed block (R31, R34, R76). -/
structure Block where
  asid : Nat := 0
  lid : Nat := 0
  blk : Nat := 0
  edge : Option Word := none       -- edge record whose item the block consumes (R237)
  core : Nat := 0
  slots : List Nat := []           -- its warp slots, in warp order (R333)
  pool : Word := 0
  accg : Nat := 0                  -- accumulator granules held (R79)
  regHeld : Bool := true           -- register granules held (R38)
  spad : Memory := []
  acc : Memory := []
  srel : Tab (Tab Nat) := []       -- release clocks carried by scratchpad bytes (R85)
  arel : Tab (Tab Nat) := []       -- and by accumulator bytes
  past : List PoolRec := []        -- the scratchpad stores of its threads, oldest first (R290)
  flush : Bool := false
  bsw : Word := 0
  flagLog : List FlagRec := []     -- changes of bsw; the first flagDone have a settled order, the rest stand as issued
  flagDone : Nat := 0
  nbars : Tab NBar := []
  pbars : Tab PClk := []
  susp : Option Susp := none
  bin : Option Word := none        -- bound bin session's descriptor address (R230)
  binRun : Option BinRun := none
  uid : Nat := 0                   -- which of the blocks placed so far this is (R78)
  leaving : Bool := false          -- cancelled, and held until its copies have retired (R35, R224)
  deriving DecidableEq, Repr

/-- A span of bytes in a space; blk is the block key for .s and .a (R81). -/
structure Span where
  sp : Space
  blk : Nat
  lo : Nat
  hi : Nat
  deriving DecidableEq, Repr

/-- A cached leaf or node of a translation (R351, R352). -/
structure TlbEntry where
  asid : Nat
  lvl : Nat
  idx : Nat                        -- the virtual address above the level's span
  entry : Word
  deriving DecidableEq, Repr

/-- A copy in flight (R81, R224): its identity, the thread and the block that issued it, its source spans, the bounding
span of its rows at the destination (for global memory, page by page), the bytes it will write, and the flag it
releases. -/
structure Copy where
  id : Nat
  tid : Nat
  inc : Nat
  flag : Option Nat
  src : List Span
  toS : Bool
  dst : List Span
  blk : Nat
  uid : Nat
  lid : Nat
  asid : Nat
  seq : Nat
  rel : Tab Nat
  via : List TlbEntry              -- cached entries that may have translated it (R354)
  data : List (Nat × Byte)         -- scratchpad offset or DPA, and byte, in writing order
  deriving DecidableEq, Repr

/-- A cocoon-table entry (R23, R373): st 0 free, 1 parked, 2 resolved. -/
structure Cocoon where
  gen : BitVec 16 := 0
  st : Nat := 0
  slot : Nat := 0
  lanes : Half := 0
  pc : Word := 0
  rsn : BitVec 32 := 0
  tcode : Nat := 0
  level : Nat := 0
  acc : Nat := 0
  kind : Nat := 0
  va : Word := 0
  diff : Half := 0
  deriving DecidableEq, Repr

/-- State of a lane core beside its threads and blocks. -/
structure Core where
  accFree : Word := 0
  lastDead : Option Word := none   -- acc-free counter at the latest allocation-deadlock trap (R80)
  copies : List Copy := []
  cocoon : Tab Cocoon := []
  freed : Nat := 0                 -- cocoon entries freed so far (R371)
  turn : Nat := 31                 -- warp slot that took the latest turn (R336)
  turns : Nat := 0                 -- turns so far
  order : Nat := 0                 -- suspensions so far (R80)
  deriving DecidableEq, Repr

/-- A plain global store of an engine (R86, R89): the thread that made it, as Thread.me numbers threads, with its tick;
for the bytes of a copy also the copy's identity. data gives DPAs and bytes. -/
structure Store where
  seq : Nat
  tid : Nat
  tick : Nat
  copy : Option Nat := none
  single : Bool := false           -- single-copy atomic (R75)
  asid : Nat
  data : List (Nat × Byte)
  home : Bool                      -- written back already (R90)
  past : Bool := false             -- refreshed since by a collective's acquire, for its own thread (R94)
  rel : Tab Nat                    -- the storing thread's release clock (R85)
  deriving DecidableEq, Repr

/-- An event counter (R394, R395). -/
structure Counter where
  en : Bool := false
  src : Nat := 0
  val : Word := 0
  deriving DecidableEq, Repr

/-- What every instruction engine keeps of global memory, and its counters (R86, R89, R211, R394). -/
structure EngMem where
  seq : Nat := 0
  stores : List Store := []        -- oldest first
  fresh : Tab Byte := []            -- refreshed bytes by DPA (R86 rule 3)
  cnt : Tab Counter := []
  lastPc : Word := 0
  deriving DecidableEq, Repr

/-- A weight bank (R249): 64 columns of up to 64 bytes. -/
structure Bank where
  bfp4 : Bool := false
  data : Memory := []
  deriving DecidableEq, Repr

/-- Instar (R253-R256): st 0 idle, 1 running, 2 stopped; the held macro-op with the operand values it read. -/
structure Instar where
  st : Nat := 0
  op : Nat := 0
  total : Nat := 0
  step : Nat := 0
  word : Word := 0
  payload : Word := 0
  va : Word := 0
  vb : Word := 0
  vd : Word := 0
  flag : Option Nat := none
  sums : Tab Int := []             -- T of R251, nonzero sums only
  row : List Byte := []            -- the row whose plane steps are under way
  own : Bool := false              -- a cim.mv's row whose stream has been replaced since: it stays here until it is drained
  held : Bool := false             -- stopped by a halt: it runs on where the context does
  deriving DecidableEq, Repr

/-- The decompression engine (R264-R269): st 0 idle, 1 running, 2 stopped, 3 done. -/
structure Decomp where
  tabs : Tab (List Byte) := []
  st : Nat := 0
  cause : Nat := 0
  blk : Nat := 0
  landed : Nat := 0
  owner : Option Nat := none       -- key of the block whose stream it is
  sbase : Word := 0
  nblk : Nat := 0
  bstride : Nat := 0
  toReg : Bool := false
  bfp4 : Bool := false
  rbase : Nat := 0
  rsize : Nat := 0
  tmo : Nat := 0
  next : Nat := 0                  -- next block to decode
  skip : Nat := 0                  -- leading bytes of it delivered and consumed before (R269)
  buf : List Byte := []            -- row buffer: decoded bytes not yet consumed
  pos : Nat := 0                   -- stream position of the head of buf
  segs : List (Nat × Nat) := []    -- delivered blocks: stream position and index
  redir : Option (Nat × Word) := none
  moved : List (Nat × Word) := []  -- blocks read from a redirection, and where
  held : Bool := false             -- stopped by a halt: it runs on where the context does
  failAt : Word := 0
  trap : Bool := false             -- a matrix trap is due (R269)
  deriving DecidableEq, Repr

/-- A cluster's shared units. -/
structure Cluster where
  bound : Option Nat := none       -- key of the conductor's block (R246)
  bankAsid : Nat := 0
  banks : Tab Bank := []           -- key 16 × macro + bank
  gens : Tab Nat := []             -- operand-handle generations (R82)
  oc : Tab (List Byte) := []       -- cached units: key ((handle × 65536 + gen) × 65536 + unit)
  instar : Instar := {}
  de : Decomp := {}
  deriving DecidableEq, Repr

/-- WALK of R276: an instance that stopped between two moves (R281): its PC and mask; the moves made and the pairs assigned;
which of the two fibres is still to step; the cursor; and, inside a step of a dense fibre, the next position to look at. -/
structure FibWalk where
  pc : Word
  mask : Half
  moves : Nat := 0
  pairs : List (Nat × Nat × Nat) := []
  stepA : Bool := false
  stepB : Bool := false
  pos : Nat
  coord : Nat
  off : Nat
  elen : Nat
  scan : Option Nat
  deriving DecidableEq, Repr

/-- A fibre register (R276). -/
structure Fibre where
  opened : Bool := false
  bad : Bool := false
  spad : Bool := false
  kind : Nat := 0
  base : Word := 0
  len : Nat := 0
  origin : Nat := 0
  lim : Nat := 0
  pos : Nat := 0
  coord : Nat := 0
  off : Nat := 0
  elen : Nat := 0                  -- delta only: bytes of the element at POS
  scan : Option Nat := none        -- of a walk's cursor: the next position that a step under way looks at
  walk : Option FibWalk := none
  deriving DecidableEq, Repr

/-- A fault record waiting for presentation (R369, R370), with the core whose table it concerns. -/
structure FaultRec where
  kind : Nat
  core : Nat
  entry : Nat
  rsn : BitVec 32
  w0 : Word
  w1 : Word
  w2 : Word
  w3 : Word
  w4 : Word
  job : Option Nat := none         -- exhaustion only: the job whose fragment found no entry (R368)
  deriving DecidableEq, Repr

/-- A context entry (R321) and what the device keeps per context. -/
structure Context where
  w0 : Word := 0
  spill : Word := 0
  oarea : Word := 0
  tvec : Word := 0
  fpol : Word := 0
  admitW : Word := 0
  ptroot : Word := 0
  kvpool : Word := 0
  rsn : BitVec 32 := 1             -- next resolution sequence number (R25)
  inst : BitVec 32 := 1            -- next instance number (R330)
  faults : List FaultRec := []
  exh : List (Nat × Nat × Nat × Word × Option Nat) := []  -- presented exhaustion records: number, core, entries freed then, VA, job (R371)
  frames : List Nat := []          -- frames reserved for its fault service (R430)
  loaded : List Rec := []          -- objects and data images that its requests have brought (R396)
  lastPart : Nat := 0
  deriving DecidableEq, Repr

/-- A partition (R323) with its phase domain and halt line. -/
structure Part where
  en : Bool := false
  run : Bool := false
  rasid : Nat := 0
  gran : Byte := 0
  phase : Word := 0
  dom : Option Nat := none         -- the lowest partition of the domain it has joined (R327)
  snap : Memory := []              -- home as the phase began (R86)
  halt : Option Nat := none        -- TCAUSE while the halt line is raised (R375)
  haltAt : Option Nat := none      -- engine that raised it
  haltAddr : Word := 0             -- the address that caused the fault (R377)
  haltJob : Option Nat := none     -- the faulting job (R368)
  haltCtx : Option Nat := none     -- the context that ran when the line was raised (R376)
  saving : Option (Nat × Bool) := none  -- thread whose save or load is under way, and whether the line was raised before (R378)
  blocked : List (Nat × Nat × Nat × Option Word) := []  -- blocks that have been pending for 10 µs: context, launch, %block, edge (R333)
  runList : List Nat := []
  slices : Tab Nat := []           -- slice of each context in milliseconds (R409)
  lastAsid : Nat := 0
  deriving DecidableEq, Repr

/-- What a CTRL message asks of a job at the next boundary (R326). -/
inductive JobReq where
  | hold | resume | finish
  deriving DecidableEq, Repr

/-- A job-table entry (R326). -/
structure Job where
  state : Nat := 0
  seqctl : Bool := false
  kclose : Bool := false
  kcancel : Bool := false
  auto : Bool := false
  prio : Nat := 0
  asid : Nat := 0
  batchMax : Nat := 0
  graph : Word := 0
  brec : Word := 0
  scrbase : Word := 0
  kvstride : Nat := 0
  phcnt : Word := 0
  gcur : Nat := 0
  glast : Nat := 0                 -- its latest graph instance, whose status words are kept (R332)
  took : Bool := false             -- takes part in the current phase
  closed : Bool := false
  phaseCancelled : Bool := false
  closeSaved : Nat := 0            -- 1: its context has been saved since it closed its phase, 2: and restored after that (R341)
  batch : List Nat := []
  reqs : List JobReq := []         -- what CTRL messages ask of it at the next boundary, in order
  conn : Nat := 0
  record : Bool := false
  owesEnd : Bool := false          -- cancelled, and its JOBEND waits for launches that had completed before (R34, R35)
  qdist : Nat := 0
  out : List Byte := []            -- message bodies that it has released in the current phase (R396)
  deriving DecidableEq, Repr

/-- An ordered-add entry (R93, R219). -/
structure Fadd where
  blk : Nat
  tid : Nat
  n : Nat
  dpa : List Nat
  ty : AfTy
  rm : Rm
  val : Word
  asid : Nat
  deriving DecidableEq, Repr

/-- A launch instance (R40, R141, R331, R332): st 0 pending, 1 running, 2 complete, 3 cancelled, 4 refused. -/
structure Launch where
  job : Nat := 0
  gid : Nat := 0
  node : Nat := 0
  entry : Word := 0
  pool : Word := 0
  arm : BitVec 4 := 0
  drained : Bool := false
  flush : Bool := false
  nblock : Nat := 0
  param : Memory := []
  dict : Tab Word := []
  dlen : Nat := 0
  st : Nat := 0
  cause : Nat := 0
  flags : BitVec 4 := 0
  count : Nat := 0
  pending : List (Nat × Option Word) := []  -- %block, and the edge record that spawned it (R237)
  uncounted : List (Nat × Nat) := []  -- drained mode: blocks ended but not counted, with their core (R40)
  spawned : Nat := 0
  cancelledBlocks : List Nat := []
  doneBlocks : List Nat := []
  image : Memory := []             -- home when the launch was instantiated (R96)
  rimage : Tab Byte := []          -- the same of other devices: free values, fixed once read (R96, log 12)
  queue : List Fadd := []
  lastCore : Option Nat := none
  ended : Option Nat := none       -- its place in the order of launch completion, once it has completed (R34, R93)
  deriving DecidableEq, Repr

/-- A graph instance (R330, R331): st 1 running, 2 complete, 3 cancelled. -/
structure Graph where
  job : Nat := 0
  nodes : List Nat := []
  edges : List Word := []
  count : Nat := 0
  st : Nat := 1
  taken : Bool := false            -- its status words have been taken by Imago (R332)
  deriving DecidableEq, Repr

/-- A sequence-table entry (R291). -/
structure Seq where
  wbase : Nat := 0
  done : Bool := false
  mode : Bool := false
  prio : Nat := 0
  wsize : Nat := 8
  state : Nat := 0
  lend : Nat := 0
  job : Nat := 0
  asid : Nat := 0
  kvroot : Word := 0
  fmap : Word := 0
  forks : Nat := 0
  thr : BitVec 16 := 0
  tht : BitVec 16 := 0
  thf : BitVec 16 := 0
  key : Word := 0
  ctr : Word := 0
  pen : Word := 0
  penlen : Nat := 0
  smap : Tab Nat := []             -- slot states: 1 tentative, 2 final; masked where not listed
  tok : Tab (BitVec 32) := []
  conn : Nat := 0
  reserved : Bool := false         -- allocated by a fork that the next boundary creates (R308)
  admitted : Bool := false         -- admitted in the current phase, whose reads find the entry free (R293)
  inherit : List Nat := []         -- positions that were final already when a fork created it (R308)
  deriving DecidableEq, Repr

/-- A pending fork (R308). -/
structure Fork where
  parent : Nat
  child : Nat
  f : Nat
  fmap : Word
  pen : Word
  base : Seq                       -- the parent's entry as of the last boundary
  deriving DecidableEq, Repr

/-- A pending slot.cfg (R307). -/
structure Cfg where
  mode : Bool
  thf : BitVec 16
  tht : BitVec 16
  thr : BitVec 16
  deriving DecidableEq, Repr

/-- A participant of a collective's generation: its engine and context, the thread that posted, as Thread.me numbers
threads, and the engine's store sequence at the post (R94). -/
structure CollPost where
  eng : Nat
  asid : Nat
  me : Nat
  seq : Nat
  deriving DecidableEq, Repr

/-- An open generation of a collective (R234). npart is 0 where a post of another device has fixed its values, which no
post here has met yet (R403). -/
structure CollGen where
  npart : Nat
  bufs : List (Word × Word)
  posted : Nat
  who : List CollPost
  deriving DecidableEq, Repr

/-- A collective (R233-R235): generations completed, and the open one. -/
structure Coll where
  count : Word := 0
  gen : Option CollGen := none
  deriving DecidableEq, Repr

/-- The log state (R389) and its records. -/
structure Log where
  lbase : Word := 0
  lcap : Nat := 1024
  tail : Nat := 1
  exported : Nat := 0
  lost : Word := 0
  owed : Nat := 0                  -- losses not yet reported in a KIND 4 record (R391)
  head : List Byte := List.replicate 48 0
  hexp : List Byte := List.replicate 48 0  -- chain value of the last exported record (R392)
  recs : Tab (List Word) := []
  deriving DecidableEq, Repr

/-- Boot progress (R414, R415). -/
inductive BootStage where
  | reset | ready | recovery
  deriving DecidableEq, Repr

/-- Fuses, flash and what boot fixes (R412-R416). -/
structure Boot where
  stage : BootStage := .reset
  flash : Memory := []
  opkey : List Byte := List.replicate 48 0
  svnmin : BitVec 32 := 0
  nodebug : Bool := false
  failA : Nat := 0
  failB : Nat := 0
  slotB : Bool := false
  svn : BitVec 32 := 0
  devnum : Nat := 0
  wintab : Word := 0
  debug : Bool := false
  opctr : Word := 0
  image : List Byte := []
  config : List Byte := []
  deriving DecidableEq, Repr

/-- A partial object of a connection (R407). -/
structure Partial where
  conn : Nat
  base : Word
  total : Nat
  got : Tab Byte                   -- every byte received, by offset
  deriving DecidableEq, Repr

/-- A message that Imago sends (R406, R410). An unsolicited one carries Imago's own request counter and an ASID (R405). -/
inductive Egress where
  | status (conn : Nat) (reqid : Word) (code : Nat) (val : Word) (bytes : List Byte)
  | tokens (conn : Nat) (reqid : Word) (asid seq job : Nat) (mode : Bool) (phase : Word) (entries : List (Nat × BitVec 32))
  | jobend (conn : Nat) (reqid : Word) (asid job state : Nat) (words : List Word)
  | report (reqid : Word) (asid kind : Nat) (words : List Word)
  | logx (reqid : Word) (a b : Nat) (recs : List (List Word)) (sig : List Byte)
  deriving DecidableEq, Repr

/-- A page being requantised (R359). -/
structure Requant where
  asid : Nat
  old : Word
  new : Word
  ready : Bool
  seq : Nat
  used : Bool := false             -- a chain links the new page
  deriving DecidableEq, Repr

/-- A page in the swap store (R361): its virtual address, its leaf entry and its contents. -/
structure SwapPage where
  va : Word
  leaf : Word
  data : Memory
  deriving DecidableEq, Repr

/-- A boundary under way (R328, R358, R376): its phase; the stage: 1 to 3 the slot engine's passes, 4 what follows them up to
step 3 of R328, 5 steps 4 and 5, 6 step 6; and the number below which every sequence of the pass is done. -/
structure Bnd where
  phase : Word
  stage : Nat
  seq : Nat := 0
  deriving DecidableEq, Repr

/-- The image of a saved context (R381): the header words, and the structures it holds as plain data. -/
structure Image where
  addr : Nat
  asid : Nat
  gran : Byte
  halted : Bool
  phase : Word
  rsn : BitVec 32
  threads : Tab Thread
  blocks : Tab Block
  cores : Tab Core
  emem : Tab EngMem
  fibres : Tab Fibre
  clusters : Tab Cluster
  snap : Memory
  remote : Tab Byte
  bytes : List Byte                -- as it stands at home; none where Imago keeps it
  poisoned : Bool
  live : Bool                      -- the context stands in this image, not on a partition
  deriving DecidableEq, Repr

/-- One turn of the agenda: threads that issue together, an event of the table, the next try of a request or an access of another
device that has had to wait, or the host's read (from an offset, so many bytes) or write of the PCIe BAR (R411). -/
inductive Turn where
  | issue (tids : List Nat)
  | event (i : Instr)
  | retry (i : Instr)
  | hostRead (off n : Nat)
  | hostWrite (off : Nat) (bs : List Byte)
  deriving DecidableEq, Repr

/-- The group issuing now: its threads, and the distance to the next PC (R97, R119). -/
structure Cur where
  tids : List Nat := []
  next : Nat := 8
  noReply : Bool := false          -- its remote accesses get no reply (R401)
  newWalk : Bool := false          -- the access under way is translated by a new walk (R374)
  held : Bool := false             -- the message under way has waited in State.mail
  deriving DecidableEq, Repr

/-- The machine. -/
structure State where
  agenda : List Turn               -- what moves next (log 2)
  cur : Cur
  lastEng : Nat                    -- engine that issued last (log 2)
  ctr : Nat                        -- the free-value counter (log 3)
  uids : Nat                       -- blocks placed, conductors bound, copies issued and bin sessions begun so far
  threads : Tab Thread             -- key 1024 × core + 32 × slot + lane; conductors and stewards above (Ops.lean)
  blocks : Tab Block               -- key 32 × core + first slot
  cores : Tab Core
  emem : Tab EngMem                -- by device core number (R226)
  fibres : Tab Fibre               -- key 8 × (32 × core + slot) + fibre
  clusters : Tab Cluster
  home : Memory                    -- this device's HBM by DPA[38:0], as the home caches show it
  frames : List Nat                -- DPAs of the frames that Imago has taken (R430)
  owner : Tab Nat                  -- owner tag per 64-byte line (R388); ASID 0 where not listed
  poison : List Nat                -- poisoned lines (R388)
  poisonPool : List Nat            -- poisoned granules of blocks (R388), as granKey numbers them
  spare : Tab (List (Nat × Bool))  -- by core, its free granules that a block has held before, with the context of their tag and whether they are poisoned (R388)
  poisonBank : List Nat            -- poisoned weight banks: 1024 × cluster + 16 × macro + bank
  stewSnap : Memory                -- the stewards' snapshot of home (R86, R211)
  edgeDue : List (Nat × Word × Nat) -- context, edge record and rise of its FREE, held by a poisoned line (R237, R388)
  hrel : Tab (Tab Nat)             -- release clocks carried by bytes that atomics wrote, by DPA (R85)
  remote : Tab Byte                -- bytes of other devices fixed in this phase, as State.snapKey numbers them (R87)
  tlb : List TlbEntry
  walkc : List TlbEntry
  ctxs : Tab Context
  parts : Tab Part
  keyIdx : Byte
  keyStage : Tab Word
  keys : Tab (List Word)
  ctxSel : BitVec 10
  jobs : Tab Job
  graphs : Tab Graph               -- key asid × 2^32 + identifier
  launches : Tab Launch
  seqs : Tab Seq
  subs : Tab (BitVec 16 × BitVec 32) -- kept submissions: key 64 × SEQ + slot
  forks : List Fork
  cfgs : Tab Cfg
  sts : Tab Nat                    -- pending seq.st OP 0-3
  prios : Tab Nat                  -- pending seq.st OP 4
  ctls : Tab Nat                   -- pending sequence operations of CTRL messages (R406)
  colls : Tab Coll
  bins : Tab (Nat × Tab Nat)       -- a session's number and the entries in each of its bins: key asid × 2^64 + descriptor address (R231)
  requants : List Requant
  seLast : Tab Nat                 -- the sequence that each die's slot engine handled last (R377)
  swaps : Tab (List SwapPage)      -- swapped chains by SEQ
  log : Log
  stops : Tab (List Word)          -- stop records by engine (R377)
  boot : Boot
  clock : Nat                      -- core clock in MHz (R421)
  conns : Tab Nat                  -- connection to ASID (R404)
  partials : List Partial
  egress : List Egress             -- newest first
  imagoReq : Word                  -- Imago's own message counter (R405)
  mail : List Instr                -- requests that a poisoned line holds, and later ones of their connections (R388, R404)
  bar : Memory                     -- the 64 KiB of the PCIe BAR: the rings of the host and of the device (R411)
  barSeen : List (Nat × List Byte)  -- what the host has read of it, newest first: offset and bytes
  domRemote : Tab (List Nat)       -- other devices joined into a domain (R402)
  domDone : Tab (Word × Nat)       -- how far a member device is, phase and step: key 2048 × domain + device (R402)
  bnd : Tab Bnd                    -- boundaries under way, by domain
  unreachable : List Nat           -- domains with an unreachable member
  late : List Nat                  -- threads whose next remote accesses get no reply (R401)
  recording : Tab (List Rec)       -- by job, newest first
  replayed : Option (List Rec)     -- what a replay still enforces, oldest first
  images : List Image
  deriving DecidableEq, Repr

/-- Why the machine stops with a fault. No instruction of the manual ends so: every stop the manual describes is a trap,
a parked or held thread, or a halted partition, which are next states. -/
inductive Fault where
  /-- Raised by step when the agenda names a thread the part has no place for (R1): safe, since no such thread exists. -/
  | noSuchThread (tid : Nat)
  deriving DecidableEq, Repr

/-- Why the model gives an instruction no meaning. -/
inductive Refusal where
  /-- Raised by an arm of exec for an instruction not modelled yet: safe, it says nothing of the hardware. -/
  | notModelled (mnemonic : String)
  deriving DecidableEq, Repr

/-- The machine right after power-good and reset (R414): nothing placed, every table empty, the boot ROM about to run. -/
def State.reset : State where
  agenda := []
  cur := {}
  lastEng := 871
  ctr := 0
  uids := 0
  threads := []
  blocks := []
  cores := []
  emem := []
  fibres := []
  clusters := []
  home := []
  frames := []
  owner := []
  poison := []
  poisonPool := []
  spare := []
  poisonBank := []
  stewSnap := []
  edgeDue := []
  hrel := []
  remote := []
  tlb := []
  walkc := []
  ctxs := []
  parts := []
  keyIdx := 0
  keyStage := []
  keys := []
  ctxSel := 0
  jobs := []
  graphs := []
  launches := []
  seqs := []
  subs := []
  forks := []
  cfgs := []
  sts := []
  prios := []
  ctls := []
  colls := []
  bins := []
  requants := []
  seLast := []
  swaps := []
  log := {}
  stops := []
  boot := {}
  clock := 1250
  conns := []
  partials := []
  egress := []
  imagoReq := 0
  mail := []
  bar := []
  barSeen := []
  domRemote := []
  domDone := []
  bnd := []
  unreachable := []
  late := []
  recording := []
  replayed := none
  images := []

end Sys2Proof.Machine
end

