-- ==== Sys2Proof/Machine/Operands.lean ====
section
/-! DEFINITION. The operand forms of R99-R102 and R122, the guard of R101, the latches of R110, completion counts of
R105, and the numbering of threads, engines and units. Every read and write of a register goes through here. -/
namespace Sys2Proof.Machine

open Sys2Proof

/-! ### Numbering (R1, R226, R323, R377) -/

/-- The key of the first conductor; conductor c is condBase + c. -/
def condBase : Nat := 786432

/-- The key of the first steward; steward k is stewBase + k. -/
def stewBase : Nat := 786528

/-- The block key of a steward, which belongs to no block (R122, R323): no placed block has it. -/
def noBlock : Nat := 1048576

/-- The number of threads the part has places for. -/
def threadLimit : Nat := 786536

/-- The kind of engine a thread runs on. -/
def kindOf (tid : Nat) : EngineKind := if tid < condBase then .lane else if tid < stewBase then .cond else .stew

/-- The device core number of a thread's engine (R226). -/
def engOf (tid : Nat) : Nat := if tid < condBase then tid / 1024 else 768 + (tid - condBase)

/-- SIMD lane, warp slot and warp base of a lane thread (R11). -/
def laneOf (tid : Nat) : Nat := tid % 32
def slotOf (tid : Nat) : Nat := tid / 32 % 32
def warpOf (tid : Nat) : Nat := tid / 32 * 32

/-- Device cluster of an engine (R323). -/
def clusterOf (eng : Nat) : Nat := if eng < 768 then eng / 8 else eng - 768

/-- Die of an engine (R323). -/
def dieOf (eng : Nat) : Nat := if eng < 864 then clusterOf eng / 24 else (eng - 864) / 2

/-- The number that tells a thread apart from every other one placed in its slot, now or before (R84, R424). -/
def Thread.me (th : Thread) (tid : Nat) : Nat := 1048576 * th.inc + tid

/-- Whether two engines share a core scope (R83): one core, or a conductor and a core of its cluster. -/
def sameScope (e f : Nat) : Bool := e == f || ((768 ≤ e || 768 ≤ f) && e < 864 && f < 864 && clusterOf e == clusterOf f)

/-- The clock key of a copy by an engine's thread, apart from every thread's own (R428). -/
def copyKey (eng id : Nat) : Nat := 1048576 * id + 1024 * 1000 + eng

/-- The engine that a clock key belongs to, and the part of a clock that orders at an engine's core scope (R83, R423). -/
def keyEng (k : Nat) : Nat := if 1024 * 1000 ≤ k % 1048576 then k % 1048576 - 1024 * 1000 else engOf (k % 1048576)
def scopeClock (eng : Nat) (c : Tab Nat) : Tab Nat := c.filter fun e => sameScope (keyEng e.1) eng

/-- The granule that holds a lane core or conductor (R323). -/
def granOf (eng : Nat) : Nat := clusterOf eng / 24 * 2 + clusterOf eng % 24 / 12

/-! ### Registers -/

/-- A lane or k register; k0 reads zero (R122), and every register reads zero until written (R78). -/
def Thread.reg (th : Thread) (n : Nat) : Word := tget 0 th.regs n

/-- A latch (R110). -/
def Latches.get (l : Latches) (n : Nat) : Word := match n with | 0 => l.b0 | 1 => l.b1 | 2 => l.b2 | _ => l.b3

/-- Latch bN as an instruction reads it (R111): at position i, the value pushed by the instruction at position i - 1 - N;
where that instruction pushed none, what the latch of R110 holds (log 56). -/
def Thread.latch (th : Thread) (n : Nat) : Word :=
  if n < th.chain.pos then (tget? th.lat.vals (th.chain.pos - 1 - n)).getD (th.lat.get n) else th.lat.get n

/-- A source operand (R99, R122), read by SIMD lane `lane`. -/
def readSrc (lane : Nat) (th : Thread) : Src → Word
  | .w n => th.reg n.toNat
  | .b n => th.latch n.toNat
  | .zero => 0
  | .lane => word lane
  | .k n => if n = 0 then 0 else th.reg n.toNat

/-- The register a destination names, for the reads of R154. -/
def dstNum : Dst → Nat
  | .w n => n.toNat
  | .k n => n.toNat
  | .sup => 0

/-- The register a source names, for register pairs. -/
def srcNum : Src → Nat
  | .w n => n.toNat
  | .k n => n.toNat
  | _ => 0

/-- A destination read as a source (R154). -/
def readDst (th : Thread) : Dst → Word
  | .w n => th.reg n.toNat
  | .k n => if n = 0 then 0 else th.reg n.toNat
  | .sup => 0

/-- Writing register n. -/
def Thread.setReg (th : Thread) (n : Nat) (v : Word) : Thread := { th with regs := tput 0 n v th.regs }

/-- Writing a destination: a suppressed one writes no register (R100), and k0 discards writes (R122). -/
def writeDst (d : Dst) (v : Word) (th : Thread) : Thread :=
  match d with
  | .w n => th.setReg n.toNat v
  | .k n => if n = 0 then th else th.setReg n.toNat v
  | .sup => th

/-- Register n + i of an operand that names a run of registers; a k0 among them reads zero. -/
def Thread.regAt (th : Thread) (kind : EngineKind) (n : Nat) : Word := if kind != .lane && n == 0 then 0 else th.reg n

/-- Writing register n of an engine of a kind; k0 discards writes. -/
def Thread.setRegAt (th : Thread) (kind : EngineKind) (n : Nat) (v : Word) : Thread :=
  if kind != .lane && n == 0 then th else th.setReg n v

/-! ### Predicates -/

/-- Predicate p; p7 reads true (R8). -/
def Thread.pred (th : Thread) (p : BitVec 3) : Bool := p == 7 || th.preds.getLsbD p.toNat

/-- Writing predicate p; p7 ignores writes (R8). -/
def Thread.setPred (th : Thread) (p : BitVec 3) (v : Bool) : Thread :=
  if p = 7 then th
  else { th with preds := if v then th.preds ||| BitVec.ofNat 7 (2 ^ p.toNat) else th.preds &&& ~~~ BitVec.ofNat 7 (2 ^ p.toNat) }

/-- The guard field of R101 holds for this thread: predicate [3:1] XOR negate bit [0]. -/
def Thread.guardTrue (th : Thread) (g : BitVec 4) : Bool := th.pred (g.extractLsb' 1 3) != g.getLsbD 0

/-! ### Latches, counts and the PC -/

/-- A push into the latches (R110), which is also the value of the pushing instruction's position (R111). -/
def Latches.push (l : Latches) (v : Word) : Latches :=
  { b0 := v, b1 := l.b0, b2 := l.b1, b3 := l.b2, vals := tset l.next v l.vals, next := l.next + 1 }
def Thread.push (th : Thread) (v : Word) : Thread := { th with lat := th.lat.push v }

/-- A push on a lane core; conductors and stewards have no latches (R122). -/
def pushOn (tid : Nat) (v : Word) (th : Thread) : Thread := if kindOf tid = .lane then th.push v else th

/-- Count of flag c (R105). -/
def Thread.flagCount (th : Thread) (c : Nat) : Nat := tget 0 th.flags c

/-- Issue of an instruction whose set field is s (R105), whose effect is complete: the count rises, and the count-down
is due (INSTRUCTION_COMPLETION). Values 12-15 name none. -/
def Thread.issue (th : Thread) (s : BitVec 4) : Thread :=
  if s.toNat < 12 then
    { th with flags := tput 0 s.toNat (th.flagCount s.toNat + 1) th.flags, out := th.out ++ [s.toNat] }
  else th

/-- Issue of an instruction that completes later (a copy, a macro-op): the count rises only. -/
def Thread.issueOpen (th : Thread) (s : BitVec 4) : Thread :=
  if s.toNat < 12 then { th with flags := tput 0 s.toNat (th.flagCount s.toNat + 1) th.flags } else th

/-- The flag named by a set field, if any. -/
def setFlag (s : BitVec 4) : Option Nat := if s.toNat < 12 then some s.toNat else none

/-- The next PC after an instruction that transfers no control (R97, R119). -/
def Thread.adv (n : Nat) (th : Thread) : Thread :=
  { th with pc := th.pc + word n, wait := .none, vectored := false, rewalk := false }

/-- A control transfer: the next instruction stands at chain position 0 (R111). -/
def Thread.jump (pc : Word) (th : Thread) : Thread :=
  { th with pc := pc, wait := .none, chain := {}, vectored := false, rewalk := false }

/-- A true-guard lane's ordinary end: the set flag is counted and the PC advances. -/
def Thread.finish (h : Hdr) (n : Nat) (th : Thread) : Thread := (th.issue h.set).adv n

/-! ### The issue group -/

/-- The thread with key tid (a thread at its defaults where none is listed). -/
def State.thread (s : State) (tid : Nat) : Thread := tget {} s.threads tid

/-- Replacing a listed thread. -/
def State.setThread (s : State) (tid : Nat) (th : Thread) : State := { s with threads := tset tid th s.threads }

/-- Changing one listed thread. -/
def State.modThread (s : State) (tid : Nat) (f : Thread → Thread) : State := { s with threads := tmod tid f s.threads }

/-- Changing every thread of the issue group. -/
def State.mapGroup (s : State) (f : Nat → Thread → Thread) : State :=
  { s with threads := s.threads.map fun e => if s.cur.tids.contains e.1 then (e.1, f e.1 e.2) else e }

/-- The first of a block's warp slots, and the warp index of one of them. -/
def Block.slot (b : Block) : Nat := b.slots.headD 0
def Block.warpNo (b : Block) (slot : Nat) : Nat := b.slots.findIdx (· == slot)

/-- The block with key b. -/
def State.block (s : State) (b : Nat) : Block := tget {} s.blocks b

def State.modBlock (s : State) (b : Nat) (f : Block → Block) : State := { s with blocks := tmod b f s.blocks }

/-- The issue group's first thread. -/
def State.lead_ (s : State) : Nat := s.cur.tids.headD 0

/-- The block of the issue group: all its threads belong to one (R12). -/
def State.curBlockKey (s : State) : Nat := (s.thread s.lead_).block
def State.curBlock (s : State) : Block := s.block s.curBlockKey

/-- The engine of the issue group. -/
def State.curEng (s : State) : Nat := engOf s.lead_

/-- Members of the issue group whose guard is true, in increasing lane number (R211). -/
def State.active (s : State) (g : BitVec 4) : List Nat := s.cur.tids.filter fun t => (s.thread t).guardTrue g

/-- Source operand a of thread t. -/
def State.src (s : State) (t : Nat) (a : Src) : Word := readSrc (laneOf t) (s.thread t) a

/-- False-guard members of the group only move to the next PC (R101); true-guard members take f and finish. -/
def State.endGroup (s : State) (h : Hdr) (f : Nat → Thread → Thread) : State :=
  s.mapGroup fun t th => if th.guardTrue h.guard then (f t th).finish h s.cur.next else th.adv s.cur.next

/-! ### Launches and contexts of a thread -/

/-- Key of launch or graph lid of context asid. -/
def gkey (asid lid : Nat) : Nat := asid * 2 ^ 32 + lid

/-- The context under which a thread's accesses are translated (R350): its block's, or ASID 0 for a steward. -/
def State.asidOf (s : State) (tid : Nat) : Nat :=
  match kindOf tid with
  | .stew => 0
  | _ => (s.block (s.thread tid).block).asid

def State.ctx (s : State) (asid : Nat) : Context := tget {} s.ctxs asid
def State.modCtx (s : State) (asid : Nat) (f : Context → Context) : State :=
  { s with ctxs := tset asid (f (s.ctx asid)) s.ctxs }
def State.part (s : State) (n : Nat) : Part := tget {} s.parts n
def State.modPart (s : State) (n : Nat) (f : Part → Part) : State := { s with parts := tset n (f (s.part n)) s.parts }
def State.launch (s : State) (k : Nat) : Launch := tget {} s.launches k
def State.modLaunch (s : State) (k : Nat) (f : Launch → Launch) : State := { s with launches := tmod k f s.launches }
def State.coreAt (s : State) (c : Nat) : Core := tget {} s.cores c
def State.modCore (s : State) (c : Nat) (f : Core → Core) : State := { s with cores := tset c (f (s.coreAt c)) s.cores }
def State.eng (s : State) (e : Nat) : EngMem := tget {} s.emem e
def State.modEng (s : State) (e : Nat) (f : EngMem → EngMem) : State := { s with emem := tset e (f (s.eng e)) s.emem }
def State.cluster (s : State) (c : Nat) : Cluster := tget {} s.clusters c
def State.modCluster (s : State) (c : Nat) (f : Cluster → Cluster) : State :=
  { s with clusters := tset c (f (s.cluster c)) s.clusters }
def State.job (s : State) (n : Nat) : Job := tget {} s.jobs n
def State.modJob (s : State) (n : Nat) (f : Job → Job) : State := { s with jobs := tset n (f (s.job n)) s.jobs }
def State.seqE (s : State) (n : Nat) : Seq := tget {} s.seqs n
def State.modSeq (s : State) (n : Nat) (f : Seq → Seq) : State := { s with seqs := tset n (f (s.seqE n)) s.seqs }

/-- VALID, ENC, KEY and PART of a context entry (R321). -/
def Context.valid (c : Context) : Bool := bit c.w0 63
def Context.enc (c : Context) : Bool := bit c.w0 62
def Context.key (c : Context) : Nat := bits c.w0 54 8
def Context.partNo (c : Context) : Nat := bits c.w0 51 3

/-- The phase domain of a partition: itself, unless it has joined one (R327, R402). -/
def State.domOf (s : State) (p : Nat) : Nat := (s.part p).dom.getD p

/-- The partition that holds a granule, among enabled ones (R323). -/
def State.partOfGran (s : State) (g : Nat) : Option Nat :=
  (s.parts.find? fun e => e.2.en && e.2.gran.getLsbD g).map (·.1)

/-- The partition of an engine: none for stewards (R323). -/
def State.partOfEng (s : State) (e : Nat) : Option Nat := if 864 ≤ e then none else s.partOfGran (granOf e)

/-- Lane cores of a partition, in increasing number. -/
def State.coresOf (s : State) (p : Nat) : List Nat :=
  (List.range Config.nCores).filter fun c => (s.part p).gran.getLsbD (granOf c)

/-- The value of the next free choice, and the state with the counter advanced (log 3). -/
def State.choose (s : State) : Bool × State := (Config.choice s.ctr, { s with ctr := s.ctr + 1 })

/-- The next free word (log 3). -/
def State.freeWord (s : State) : Word × State := (Config.freeWord s.ctr, { s with ctr := s.ctr + 1 })

end Sys2Proof.Machine
end

