-- ==== Sys2Proof/Machine/Flags.lean ====
section
/-! DEFINITION. The block status word (R58-R61, R181, R182): its changes, what a thread sees of it, and the lane step
that every computing instruction shares, with the flags it raises. -/
namespace Sys2Proof.Machine

open Sys2Proof

/-! ### The block status word -/

/-- The reserved bits of BSW read zero; [11:8] are the arm bits and [3:0] the flags (R58). -/
def bswOf (arm fl : Flags) : Word := word (arm.toNat * 256 + fl.toNat)
def bswArm (w : Word) : Flags := w.extractLsb' 8 4
def bswFlags (w : Word) : Flags := w.extractLsb' 0 4

/-- One change applied (R182). -/
def FlagRec.apply (r : FlagRec) (w : Word) : Word :=
  bswOf (match r.arm with | some a => a | none => bswArm w) ((bswFlags w &&& ~~~r.clr) ||| r.set)

/-- Whether what thread `other` did at tick k is ordered before what thread `own` does next at core scope (R85); threads
are numbered as Thread.me does. -/
def Thread.sees (th : Thread) (own other tick : Nat) : Bool := own == other || tick ≤ tget 0 th.vc other

/-- Whether thread tid sees a change: it made it, an order carries it, or it has seen it before (R61, R182). -/
def Thread.seesFlag (th : Thread) (tid : Nat) (r : FlagRec) : Bool :=
  (r.who.any fun w => th.sees (th.me tid) w.1 w.2) || r.seen.contains (th.me tid)

/-- Whether change r comes before change q: a thread that made q made r before, or had r ordered before it, or had seen
it (R61, R182). -/
def FlagRec.before (r q : FlagRec) : Bool :=
  r.who.any fun w => (q.who.any fun v => v.1 == w.1 || r.seen.contains v.1) || w.2 ≤ tget 0 q.vc w.1

/-- Whether the order of two changes shows: one sets a flag that the other clears, or they arm differently. -/
def FlagRec.clash (r q : FlagRec) : Bool :=
  r.set &&& q.clr != 0 || r.clr &&& q.set != 0 || (match r.arm, q.arm with | some a, some b => a != b | _, _ => false)

/-- A change takes its place in the settled order, behind all that come before it: where its order with a later one shows,
at a free place there (R61, R182). -/
def placeFlag (c : Nat) (l : List FlagRec) (q : FlagRec) : List FlagRec :=
  let lo := l.length - (l.reverse.takeWhile fun r => !r.before q).length
  if (l.drop lo).any fun r => r.clash q then
    let k := lo + (Config.freeWord c).toNat % (l.length - lo + 1)
    l.take k ++ q :: l.drop k
  else l ++ [q]

/-- The changes of a block in a settled order. -/
def Block.settleFlags (b : Block) (c : Nat) : Block :=
  { b with
    flagLog := ((b.flagLog.drop b.flagDone).zipIdx.foldl (fun l e => placeFlag (c + e.2) l e.1) (b.flagLog.take b.flagDone))
    flagDone := b.flagLog.length }

/-- Thread tid looks at the BSW: each change that no order carries to it is seen or not, as a free choice falls, and what
it has seen it sees from then on (R61). -/
def Block.look (b : Block) (tid : Nat) (th : Thread) (c : Nat) : Block :=
  { b with flagLog := b.flagLog.zipIdx.map fun e =>
      if !th.seesFlag tid e.1 && Config.choice (c + e.2) then { e.1 with seen := th.me tid :: e.1.seen } else e.1 }

/-- The BSW as thread tid has seen it (R61). -/
def Block.bswSeen (b : Block) (tid : Nat) (th : Thread) : Word :=
  b.flagLog.foldl (fun w r => if th.seesFlag tid r then r.apply w else w) b.bsw

/-- The BSW with every change applied. -/
def Block.bswAll (b : Block) : Word := b.flagLog.foldl (fun w r => r.apply w) b.bsw

/-- Threads of the group look at their block's BSW, each for itself. -/
def State.seeFlags (s : State) (ts : List Nat) : State :=
  let n := s.curBlock.flagLog.length
  if n = 0 then s
  else { s.modBlock s.curBlockKey fun b =>
      ts.zipIdx.foldl (fun b e => b.look e.1 (s.thread e.1) (s.ctr + n * (e.2 + 1))) (b.settleFlags s.ctr) with
    ctr := s.ctr + n * (ts.length + 1) }

/-- The threads of a group that arrive at a barrier look at their block's BSW together: what one of them sees, or made,
they all see (R60, R61). -/
def State.seeFlagsTogether (s : State) (ts : List Nat) : State :=
  let s := s.seeFlags ts
  if s.curBlock.flagLog.length = 0 then s
  else s.modBlock s.curBlockKey fun b => { b with flagLog := b.flagLog.map fun r =>
    let news := ts.filter fun t => !(s.thread t).seesFlag t r
    if news.length = ts.length ∨ news = [] then r else { r with seen := news.map (fun t => (s.thread t).me t) ++ r.seen } }

/-- Recording a change that threads of one block make together: their ticks rise. -/
def State.flagChange (s : State) (tids : List Nat) (set clr : Flags) (arm : Option Flags) : State :=
  let who := tids.map fun t => ((s.thread t).me t, (s.thread t).tick + 1)
  let vc := tids.foldl (fun c t => tjoin c (s.thread t).vc) []
  let s' := tids.foldl (fun s t => s.modThread t fun th => { th with tick := th.tick + 1 }) s
  s'.modBlock (s.thread (tids.headD 0)).block fun b => { b with flagLog := b.flagLog ++ [{ who, set, clr, arm, vc }] }

/-- Raising flags by the threads that execute an instruction together, as one change (R59): none where no flag is raised,
and none on a steward, which has no block (log 57). -/
def State.raise (s : State) (tids : List Nat) (fl : Flags) : State :=
  if fl = 0 ∨ kindOf (tids.headD 0) = .stew then s else s.flagChange tids fl 0 none

/-- The launch's flush bit for the issue group (R52). -/
def State.flushBit (s : State) : Bool := s.curBlock.flush

/-! ### The lane step of computing instructions (R101, R110, R153) -/

/-- What one lane of a computing instruction produces: a register value, a predicate, flags. -/
structure LaneRes where
  val : Option Word := none
  pred : Option (BitVec 3 × Bool) := none
  fl : Flags := 0
  deriving DecidableEq, Repr

def resVal (v : Word) : LaneRes := { val := some v }
def resFl (r : Word × Flags) : LaneRes := { val := some r.1, fl := r.2 }

/-- One lane of a computing instruction. push: the class is A or M and the instruction writes a lane register, so its
result, or zero under a false guard, enters the latches (R110). -/
def laneStep (h : Hdr) (push : Bool) (d : Dst) (next tid : Nat) (f : Thread → LaneRes) (th : Thread) : Thread :=
  if th.guardTrue h.guard then
    let r := f th
    let th := match r.val with | some v => writeDst d v th | none => th
    let th := match r.pred with | some (p, v) => th.setPred p v | none => th
    let th := if push then pushOn tid (r.val.getD 0) th else th
    let th := if r.fl = 0 then th else { th with tick := th.tick + 1 }
    th.finish h next
  else ((if push then pushOn tid 0 th else th).adv next)

/-- The flag records that one lane adds to its block (R59, R61). -/
def laneFlags (h : Hdr) (tid : Nat) (f : Thread → LaneRes) (th : Thread) : List FlagRec :=
  if th.guardTrue h.guard then
    let r := f th
    if r.fl = 0 then [] else [{ who := [(th.me tid, th.tick + 1)], set := r.fl, clr := 0, arm := none, vc := th.vc }]
  else []

/-- A computing instruction over the issue group: every lane computes from its own registers, and the flags of all
lanes enter the block's BSW; a steward has no block, and its flags go nowhere (log 57). -/
def compute (h : Hdr) (push : Bool) (d : Dst) (f : Nat → Thread → LaneRes) (s : State) : State :=
  let recs := s.cur.tids.flatMap fun t => match tget? s.threads t with
    | some th => laneFlags h t (f t) th
    | none => []
  let s' := s.mapGroup fun t th => laneStep h push d s.cur.next t (f t) th
  if recs.isEmpty ∨ kindOf s.lead_ = .stew then s' else s'.modBlock s.curBlockKey fun b => { b with flagLog := b.flagLog ++ recs }

end Sys2Proof.Machine
end

