-- ==== Sys2Proof/Machine/IntAlu.lean ====
section
/-! DEFINITION. Integer arithmetic, logic, shifts, bit fields, moves, selection, comparison and addresses
(R155-R165). -/
namespace Sys2Proof.Machine

open Sys2Proof

/-- What exec answers. -/
abbrev Out := Host.Outcome State Fault Refusal

/-- The loop of R156: op on every sub-element, through res_int; a is srca, b srcb, d the old destination. -/
def intMap (ty : IntTy) (sat : Bool) (op : Int → Int → Int → Int) (a b d : Word) : Word × Flags :=
  let (n, cnt, sg) := intShape ty
  if cnt = 1 then
    let r := resInt (op (toInt n sg (sub_ a n 0)) (toInt n sg (sub_ b n 0)) (toInt n sg (sub_ d n 0))) n sg sat
    (fill n sg r.1, r.2)
  else
    let rs := (List.range cnt).map fun i =>
      resInt (op (toInt n sg (sub_ a n i)) (toInt n sg (sub_ b n i)) (toInt n sg (sub_ d n i))) n sg sat
    (packN n (rs.map (·.1)), rs.foldl (fun f r => f ||| r.2) 0)

/-- floor(x × y / 2^n) of the type's integers (R156). -/
def mulHigh (n : Nat) (x y : Int) : Int := (x * y).fdiv (2 ^ n)

/-- mulh and madh: the low n bits, written exactly (R156). -/
def intHigh (ty : IntTy) (acc : Bool) (a b d : Word) : Word :=
  let (n, _, sg) := intShape ty
  let x := toInt n sg (sub_ a n 0)
  let y := toInt n sg (sub_ b n 0)
  let z := if acc then toInt n sg (sub_ d n 0) else 0
  fill n sg (wrapN n (z + mulHigh n x y))

/-- The b32 and b64 forms: a function of n-bit values, its result's low n bits zero-extended (R158, R44). -/
def bMap (w64 : Bool) (f : Nat → Nat → Nat) (a b : Word) : Word :=
  let n := bW w64
  word (f (bits a 0 n) (bits b 0 n) % 2 ^ n)

/-- The shift count of R158: b mod n. -/
def shiftCount (n : Nat) (b : Word) : Nat := b.toNat % n

def shlW (n : Nat) (a b : Word) : Word := word (bits a 0 n <<< shiftCount n b % 2 ^ n)
def shrW (n : Nat) (a b : Word) : Word := word (bits a 0 n >>> shiftCount n b)
def sarW (n : Nat) (a b : Word) : Word := fill n true (wrapN n ((toInt n true (bits a 0 n)).fdiv (2 ^ shiftCount n b)))
def rotlW (n : Nat) (a b : Word) : Word :=
  let v := bits a 0 n
  let k := shiftCount n b
  word ((v <<< k ||| v >>> (n - k)) % 2 ^ n)

/-- bfx of R159. -/
def bfxW (ty : CmpTy) (a b : Word) : Word :=
  let (n, sg) := cmpShape ty
  let pos := bits b 0 8
  let len := bits b 8 8
  if len = 0 ∨ n ≤ pos then 0
  else
    let len := min len (n - pos)
    let v := bits a pos len
    fill n sg (if sg && 2 ^ (len - 1) ≤ v then wrapN n ((v : Int) - 2 ^ len) else v)

/-- bfi of R159: the old destination with a field replaced. -/
def bfiW (w64 : Bool) (a b d : Word) : Word :=
  let n := bW w64
  let pos := bits b 0 8
  let len := bits b 8 8
  let d := word (bits d 0 n)
  if len = 0 ∨ n ≤ pos then d
  else let len := min len (n - pos); putBits d pos len (bits a 0 len)

/-- The bits of an n-bit value, lowest first. -/
def bitList (n : Nat) (v : Nat) : List Bool := (List.range n).map v.testBit

def popcW (n : Nat) (a : Word) : Word := word ((bitList n a.toNat).filter id).length
def ctzW (n : Nat) (a : Word) : Word := word ((bitList n a.toNat).takeWhile (!·)).length
def clzW (n : Nat) (a : Word) : Word := word ((bitList n a.toNat).reverse.takeWhile (!·)).length

/-- The number whose bits are listed, lowest first. -/
def ofBits (l : List Bool) : Nat := l.foldr (fun b acc => 2 * acc + b.toNat) 0

def brevW (n : Nat) (a : Word) : Word := word (ofBits (bitList n a.toNat).reverse)

/-- One result byte of bsel (R161). -/
def bselByte (a b : Word) (sel : Nat) : Nat :=
  let j := sel % 16
  let v := if j < 8 then sub_ a 8 j else sub_ b 8 (j - 8)
  let v := if sel.testBit 6 then ofBits (bitList 8 v).reverse else v
  if sel.testBit 4 then 0 else if sel.testBit 5 then (if v.testBit 7 then 255 else 0) else v

def bselW (a b d : Word) : Word := packN 8 ((List.range 8).map fun i => bselByte a b (sub_ d 8 i))

/-- addc and subb (R157): the result and the carry out. -/
def addcW (w64 : Bool) (a b : Word) (cin : Bool) : Word × Bool :=
  let n := bW w64
  let x := bits a 0 n + bits b 0 n + cin.toNat
  (word (x % 2 ^ n), 2 ^ n ≤ x)
def subbW (w64 : Bool) (a b : Word) (cin : Bool) : Word × Bool :=
  let n := bW w64
  let x : Int := (bits a 0 n : Int) - bits b 0 n - cin.toNat
  (word (wrapN n x), x < 0)

/-- The condition of setp (R164). -/
def setpCond (c : Cond) (ty : CmpTy) (a b : Word) : Bool :=
  let (n, sg) := cmpShape ty
  let x := toInt n sg (bits a 0 n)
  let y := toInt n sg (bits b 0 n)
  match c with
  | .eq => x == y | .ne => x != y | .lt => x < y | .le => x ≤ y | .gt => y < x | .ge => y ≤ x
  | .tst => bits a 0 n &&& bits b 0 n != 0

/-- lea of R165. -/
def leaW (sg : Bool) (k : Nat) (a b : Word) : Word := wordI (a.toNat + toInt 32 sg (bits b 0 32) * 2 ^ k)

/-- The sign-extended immediate of R102. -/
def immW (i : BitVec 13) : Word := i.signExtend 64

/-- %status as R10 lays it out; a conductor's holds TDEPTH only (R248). A steward's does too, which is the model's choice
(log 77). -/
def statusWord (s : State) (tid : Nat) : Word :=
  let th := s.thread tid
  let b := s.block th.block
  let warp := b.warpNo (slotOf tid)
  let copy := decide (warp < bits b.pool 43 5)
  if kindOf tid = .lane then
    word (th.frames.length * 2 ^ 13 + warp * 256 + copy.toNat * 128
      + th.resumed.toNat * 64 + th.empty.toNat * 32 + th.absent.toNat * 16 + th.traps.length)
  else word th.traps.length

/-- A special register (R9, R162). On a conductor %lane, %warp, %tid and %stk read zero and %core is its device core
number (R248). A steward belongs to no block: its %core is its device core number, %cluster its die, and the others read
zero (log 18). -/
def sregVal (s : State) (tid : Nat) (r : SReg) : Word :=
  let th := s.thread tid
  let b := if kindOf tid = .stew then {} else s.block th.block
  let lane := kindOf tid = .lane
  let warp := if lane then b.warpNo (slotOf tid) else 0
  let l := if kindOf tid = .stew then {} else s.launch (gkey b.asid b.lid)
  match r with
  | .lane => if lane then word (laneOf tid) else 0
  | .warp => word warp
  | .tid => if lane then word (32 * warp + laneOf tid) else 0
  | .block => word b.blk
  | .nblock => word l.nblock
  | .core => word (engOf tid)
  | .cluster => word (if kindOf tid = .stew then dieOf (engOf tid) else clusterOf (engOf tid))
  | .launch => word b.lid
  | .job => word l.job
  | .phase => (match s.partOfEng (engOf tid) with | some p => (s.part p).phase | none => 0)
  | .stk => if lane then th.stk else 0
  | .status => statusWord s tid

/-! ### Meanings -/

/-- add (R156). -/
def execAdd (h : Hdr) (ty : IntTy) (sat : Bool) (d : Dst) (a b : Src) (s : State) : Out :=
  .next (compute h true d (fun t th => resFl (intMap ty sat (fun x y _ => x + y) (readSrc (laneOf t) th a) (readSrc (laneOf t) th b) 0)) s)

/-- sub (R156). -/
def execSub (h : Hdr) (ty : IntTy) (sat : Bool) (d : Dst) (a b : Src) (s : State) : Out :=
  .next (compute h true d (fun t th => resFl (intMap ty sat (fun x y _ => x - y) (readSrc (laneOf t) th a) (readSrc (laneOf t) th b) 0)) s)

/-- addc (R157): the carry goes through predicate c. -/
def execAddc (h : Hdr) (w64 : Bool) (c : BitVec 3) (d : Dst) (a b : Src) (s : State) : Out :=
  .next (compute h true d (fun t th =>
    let r := addcW w64 (readSrc (laneOf t) th a) (readSrc (laneOf t) th b) (th.pred c); { val := some r.1, pred := some (c, r.2) }) s)

/-- subb (R157): the carry goes through predicate c. -/
def execSubb (h : Hdr) (w64 : Bool) (c : BitVec 3) (d : Dst) (a b : Src) (s : State) : Out :=
  .next (compute h true d (fun t th =>
    let r := subbW w64 (readSrc (laneOf t) th a) (readSrc (laneOf t) th b) (th.pred c); { val := some r.1, pred := some (c, r.2) }) s)

/-- mul (R156). -/
def execMul (h : Hdr) (ty : IntTy) (sat : Bool) (d : Dst) (a b : Src) (s : State) : Out :=
  .next (compute h true d (fun t th => resFl (intMap ty sat (fun x y _ => x * y) (readSrc (laneOf t) th a) (readSrc (laneOf t) th b) 0)) s)

/-- mulh (R156). -/
def execMulh (h : Hdr) (ty : IntTy) (d : Dst) (a b : Src) (s : State) : Out :=
  .next (compute h true d (fun t th => resVal (intHigh ty false (readSrc (laneOf t) th a) (readSrc (laneOf t) th b) 0)) s)

/-- mad (R156): reads its destination (R154). -/
def execMad (h : Hdr) (ty : IntTy) (sat : Bool) (d : Dst) (a b : Src) (s : State) : Out :=
  .next (compute h true d (fun t th => resFl (intMap ty sat (fun x y z => z + x * y) (readSrc (laneOf t) th a) (readSrc (laneOf t) th b) (readDst th d))) s)

/-- madh (R156): reads its destination (R154). -/
def execMadh (h : Hdr) (ty : IntTy) (d : Dst) (a b : Src) (s : State) : Out :=
  .next (compute h true d (fun t th => resVal (intHigh ty true (readSrc (laneOf t) th a) (readSrc (laneOf t) th b) (readDst th d))) s)

/-- min (R156). -/
def execMin (h : Hdr) (ty : IntTy) (d : Dst) (a b : Src) (s : State) : Out :=
  .next (compute h true d (fun t th => resFl (intMap ty false (fun x y _ => min x y) (readSrc (laneOf t) th a) (readSrc (laneOf t) th b) 0)) s)

/-- max (R156). -/
def execMax (h : Hdr) (ty : IntTy) (d : Dst) (a b : Src) (s : State) : Out :=
  .next (compute h true d (fun t th => resFl (intMap ty false (fun x y _ => max x y) (readSrc (laneOf t) th a) (readSrc (laneOf t) th b) 0)) s)

/-- abs (R156). -/
def execAbs (h : Hdr) (ty : IntTy) (sat : Bool) (d : Dst) (a : Src) (s : State) : Out :=
  .next (compute h true d (fun t th => resFl (intMap ty sat (fun x _ _ => (x.natAbs : Int)) (readSrc (laneOf t) th a) 0 0)) s)

/-- neg (R156). -/
def execNeg (h : Hdr) (ty : IntTy) (sat : Bool) (d : Dst) (a : Src) (s : State) : Out :=
  .next (compute h true d (fun t th => resFl (intMap ty sat (fun x _ _ => -x) (readSrc (laneOf t) th a) 0 0)) s)

/-- and (R158). -/
def execAnd (h : Hdr) (w64 : Bool) (d : Dst) (a b : Src) (s : State) : Out :=
  .next (compute h true d (fun t th => resVal (bMap w64 (fun x y => x &&& y) (readSrc (laneOf t) th a) (readSrc (laneOf t) th b))) s)

/-- or (R158). -/
def execOr (h : Hdr) (w64 : Bool) (d : Dst) (a b : Src) (s : State) : Out :=
  .next (compute h true d (fun t th => resVal (bMap w64 (fun x y => x ||| y) (readSrc (laneOf t) th a) (readSrc (laneOf t) th b))) s)

/-- xor (R158). -/
def execXor (h : Hdr) (w64 : Bool) (d : Dst) (a b : Src) (s : State) : Out :=
  .next (compute h true d (fun t th => resVal (bMap w64 (fun x y => x ^^^ y) (readSrc (laneOf t) th a) (readSrc (laneOf t) th b))) s)

/-- not (R158). -/
def execNot (h : Hdr) (w64 : Bool) (d : Dst) (a : Src) (s : State) : Out :=
  .next (compute h true d (fun t th => resVal (bMap w64 (fun x _ => x ^^^ (2 ^ bW w64 - 1)) (readSrc (laneOf t) th a) 0)) s)

/-- andn (R158). -/
def execAndn (h : Hdr) (w64 : Bool) (d : Dst) (a b : Src) (s : State) : Out :=
  .next (compute h true d (fun t th => resVal (bMap w64 (fun x y => x &&& (y ^^^ (2 ^ bW w64 - 1))) (readSrc (laneOf t) th a) (readSrc (laneOf t) th b))) s)

/-- shl (R158). -/
def execShl (h : Hdr) (w64 : Bool) (d : Dst) (a b : Src) (s : State) : Out :=
  .next (compute h true d (fun t th => resVal (shlW (bW w64) (readSrc (laneOf t) th a) (readSrc (laneOf t) th b))) s)

/-- shr (R158). -/
def execShr (h : Hdr) (w64 : Bool) (d : Dst) (a b : Src) (s : State) : Out :=
  .next (compute h true d (fun t th => resVal (shrW (bW w64) (readSrc (laneOf t) th a) (readSrc (laneOf t) th b))) s)

/-- sar (R158). -/
def execSar (h : Hdr) (w64 : Bool) (d : Dst) (a b : Src) (s : State) : Out :=
  .next (compute h true d (fun t th => resVal (sarW (bW w64) (readSrc (laneOf t) th a) (readSrc (laneOf t) th b))) s)

/-- rotl (R158). -/
def execRotl (h : Hdr) (w64 : Bool) (d : Dst) (a b : Src) (s : State) : Out :=
  .next (compute h true d (fun t th => resVal (rotlW (bW w64) (readSrc (laneOf t) th a) (readSrc (laneOf t) th b))) s)

/-- bfx (R159). -/
def execBfx (h : Hdr) (ty : CmpTy) (d : Dst) (a b : Src) (s : State) : Out :=
  .next (compute h true d (fun t th => resVal (bfxW ty (readSrc (laneOf t) th a) (readSrc (laneOf t) th b))) s)

/-- bfi (R159): reads its destination (R154). -/
def execBfi (h : Hdr) (w64 : Bool) (d : Dst) (a b : Src) (s : State) : Out :=
  .next (compute h true d (fun t th => resVal (bfiW w64 (readSrc (laneOf t) th a) (readSrc (laneOf t) th b) (readDst th d))) s)

/-- popc (R160). -/
def execPopc (h : Hdr) (w64 : Bool) (d : Dst) (a : Src) (s : State) : Out :=
  .next (compute h true d (fun t th => resVal (popcW (bW w64) (readSrc (laneOf t) th a))) s)

/-- clz (R160). -/
def execClz (h : Hdr) (w64 : Bool) (d : Dst) (a : Src) (s : State) : Out :=
  .next (compute h true d (fun t th => resVal (clzW (bW w64) (readSrc (laneOf t) th a))) s)

/-- ctz (R160). -/
def execCtz (h : Hdr) (w64 : Bool) (d : Dst) (a : Src) (s : State) : Out :=
  .next (compute h true d (fun t th => resVal (ctzW (bW w64) (readSrc (laneOf t) th a))) s)

/-- brev (R160). -/
def execBrev (h : Hdr) (w64 : Bool) (d : Dst) (a : Src) (s : State) : Out :=
  .next (compute h true d (fun t th => resVal (brevW (bW w64) (readSrc (laneOf t) th a))) s)

/-- bsel (R161): reads its destination (R154). -/
def execBsel (h : Hdr) (d : Dst) (a b : Src) (s : State) : Out :=
  .next (compute h true d (fun t th => resVal (bselW (readSrc (laneOf t) th a) (readSrc (laneOf t) th b) (readDst th d))) s)

/-- lea (R165). -/
def execLea (h : Hdr) (sgn : Bool) (k : BitVec 3) (d : Dst) (a b : Src) (s : State) : Out :=
  .next (compute h true d (fun t th => resVal (leaW sgn k.toNat (readSrc (laneOf t) th a) (readSrc (laneOf t) th b))) s)

/-- mov of a register (R162). -/
def execMov (h : Hdr) (w64 : Bool) (d : Dst) (a : Src) (s : State) : Out :=
  .next (compute h true d (fun t th => resVal (word (bits (readSrc (laneOf t) th a) 0 (bW w64)))) s)

/-- mov of a special register (R162). -/
def execMovSpecial (h : Hdr) (sr : SReg) (d : Dst) (s : State) : Out :=
  .next (compute h true d (fun t _ => resVal (sregVal s t sr)) s)

/-- sel (R163). -/
def execSel (h : Hdr) (p : BitVec 3) (d : Dst) (a b : Src) (s : State) : Out :=
  .next (compute h true d (fun t th => resVal (if th.pred p then readSrc (laneOf t) th a else readSrc (laneOf t) th b)) s)

/-- setp (R164). -/
def execSetp (h : Hdr) (c : Cond) (ty : CmpTy) (p : BitVec 3) (a b : Src) (s : State) : Out :=
  .next (compute h false .sup (fun t th => { pred := some (p, setpCond c ty (readSrc (laneOf t) th a) (readSrc (laneOf t) th b)) }) s)

/-- Immediate add.i64 (R155). -/
def execAddImm (h : Hdr) (d : Dst) (a : Src) (imm : BitVec 13) (s : State) : Out :=
  .next (compute h true d (fun t th => resFl (intMap .i64 false (fun x y _ => x + y) (readSrc (laneOf t) th a) (immW imm) 0)) s)

/-- Immediate sub.i64 (R155). -/
def execSubImm (h : Hdr) (d : Dst) (a : Src) (imm : BitVec 13) (s : State) : Out :=
  .next (compute h true d (fun t th => resFl (intMap .i64 false (fun x y _ => x - y) (readSrc (laneOf t) th a) (immW imm) 0)) s)

/-- Immediate mul.i64 (R155). -/
def execMulImm (h : Hdr) (d : Dst) (a : Src) (imm : BitVec 13) (s : State) : Out :=
  .next (compute h true d (fun t th => resFl (intMap .i64 false (fun x y _ => x * y) (readSrc (laneOf t) th a) (immW imm) 0)) s)

/-- Immediate min.i64 (R155). -/
def execMinImm (h : Hdr) (d : Dst) (a : Src) (imm : BitVec 13) (s : State) : Out :=
  .next (compute h true d (fun t th => resFl (intMap .i64 false (fun x y _ => min x y) (readSrc (laneOf t) th a) (immW imm) 0)) s)

/-- Immediate max.i64 (R155). -/
def execMaxImm (h : Hdr) (d : Dst) (a : Src) (imm : BitVec 13) (s : State) : Out :=
  .next (compute h true d (fun t th => resFl (intMap .i64 false (fun x y _ => max x y) (readSrc (laneOf t) th a) (immW imm) 0)) s)

/-- Immediate and.b64 (R155). -/
def execAndImm (h : Hdr) (d : Dst) (a : Src) (imm : BitVec 13) (s : State) : Out :=
  .next (compute h true d (fun t th => resVal (bMap true (fun x y => x &&& y) (readSrc (laneOf t) th a) (immW imm))) s)

/-- Immediate or.b64 (R155). -/
def execOrImm (h : Hdr) (d : Dst) (a : Src) (imm : BitVec 13) (s : State) : Out :=
  .next (compute h true d (fun t th => resVal (bMap true (fun x y => x ||| y) (readSrc (laneOf t) th a) (immW imm))) s)

/-- Immediate xor.b64 (R155). -/
def execXorImm (h : Hdr) (d : Dst) (a : Src) (imm : BitVec 13) (s : State) : Out :=
  .next (compute h true d (fun t th => resVal (bMap true (fun x y => x ^^^ y) (readSrc (laneOf t) th a) (immW imm))) s)

/-- Immediate andn.b64 (R155). -/
def execAndnImm (h : Hdr) (d : Dst) (a : Src) (imm : BitVec 13) (s : State) : Out :=
  .next (compute h true d (fun t th => resVal (bMap true (fun x y => x &&& (y ^^^ (2 ^ 64 - 1))) (readSrc (laneOf t) th a) (immW imm))) s)

/-- Immediate shl (R155): the count is the immediate's bits [5:0]. -/
def execShlImm (h : Hdr) (d : Dst) (a : Src) (imm : BitVec 13) (s : State) : Out :=
  .next (compute h true d (fun t th => resVal (shlW 64 (readSrc (laneOf t) th a) (immW imm))) s)

/-- Immediate shr (R155): the count is the immediate's bits [5:0]. -/
def execShrImm (h : Hdr) (d : Dst) (a : Src) (imm : BitVec 13) (s : State) : Out :=
  .next (compute h true d (fun t th => resVal (shrW 64 (readSrc (laneOf t) th a) (immW imm))) s)

/-- Immediate sar (R155): the count is the immediate's bits [5:0]. -/
def execSarImm (h : Hdr) (d : Dst) (a : Src) (imm : BitVec 13) (s : State) : Out :=
  .next (compute h true d (fun t th => resVal (sarW 64 (readSrc (laneOf t) th a) (immW imm))) s)

/-- Immediate rotl (R155): the count is the immediate's bits [5:0]. -/
def execRotlImm (h : Hdr) (d : Dst) (a : Src) (imm : BitVec 13) (s : State) : Out :=
  .next (compute h true d (fun t th => resVal (rotlW 64 (readSrc (laneOf t) th a) (immW imm))) s)

/-- Immediate lea.n64: a + imm × 8 (R155). -/
def execLeaImm (h : Hdr) (d : Dst) (a : Src) (imm : BitVec 13) (s : State) : Out :=
  .next (compute h true d (fun t th => resVal ((readSrc (laneOf t) th a) + (immW imm) * 8)) s)

/-- movi (R155). -/
def execMovi (h : Hdr) (d : Dst) (imm : BitVec 13) (s : State) : Out :=
  .next (compute h true d (fun _ _ => resVal (immW imm)) s)

/-- movl (R162): class V, so nothing enters the latches (R110). -/
def execMovl (h : Hdr) (d : Dst) (imm : Word) (s : State) : Out :=
  .next (compute h false d (fun _ _ => resVal imm) s)

end Sys2Proof.Machine
end

