-- ==== Sys2Proof/Machine/Home.lean ====
section
/-! DEFINITION. Memory at home and its owner tags (R344, R388), translation (R342-R352), what a plain load sees
(R86, R87), plain stores (R88, R89), and the block's own memories (R73, R78). -/
namespace Sys2Proof.Machine

open Sys2Proof

/-! ### Memories -/

/-- A byte of a memory: zero where none is listed. -/
def Memory.read (m : Memory) (a : Nat) : Byte := tget 0 m a

/-- Writing one byte keeps the canonical form: a zero is not listed. -/
def Memory.write (m : Memory) (a : Nat) (v : Byte) : Memory := tput 0 a v m

/-- n bytes from a on. -/
def Memory.readN (m : Memory) (a n : Nat) : List Byte := (List.range n).map fun i => m.read (a + i)

/-- Writing bytes one after the other: the later of two writes to one address wins. -/
def Memory.writeAll (m : Memory) (l : List (Nat × Byte)) : Memory := l.foldl (fun m e => m.write e.1 e.2) m

/-- Writing consecutive bytes from a on. -/
def Memory.writeN (m : Memory) (a : Nat) (bs : List Byte) : Memory := m.writeAll (bs.zipIdx.map fun e => (a + e.2, e.1))

/-- The number that bytes hold, lowest address first (R3). -/
def leNat (bs : List Byte) : Nat := bs.foldr (fun b acc => 256 * acc + b.toNat) 0

/-- The n bytes of a number, lowest first (R3). -/
def leBytes (n : Nat) (v : Nat) : List Byte := (List.range n).map fun i => BitVec.ofNat 8 (v >>> (8 * i))

/-- An 8-byte word of a memory. -/
def Memory.word (m : Memory) (a : Nat) : Word := BitVec.ofNat 64 (leNat (m.readN a 8))

/-! ### Domain physical addresses (R344) -/

/-- Bytes of one device's memory. -/
def devBytes : Nat := 2 ^ 39

/-- Whether a DPA's DEV is this device's number. -/
def State.isLocal (s : State) (dpa : Nat) : Bool := dpa / devBytes == s.boot.devnum

/-- The HBM stack of a local DPA, which is the number of its granule (R323). -/
def stackOf (dpa : Nat) : Nat := dpa / 2 ^ 36 % 8

def State.homeByte (s : State) (dpa : Nat) : Byte := s.home.read (dpa % devBytes)
def State.homeWord (s : State) (dpa : Nat) : Word := s.home.word (dpa % devBytes)

/-- Whether one of the bytes lies in a poisoned line (R388): an access to it is not ready. -/
def State.poisoned (s : State) (dpas : List Nat) : Bool :=
  dpas.any fun a => s.isLocal a && s.poison.contains (a % devBytes / 64)

/-- Whether bytes cover a line of this device whole. -/
def State.covers (s : State) (dpas : List Nat) (line : Nat) : Bool :=
  (List.range 64).all fun i => dpas.any fun a => s.isLocal a && a % devBytes == 64 * line + i

/-- Whether a write of these bytes is held: it meets a poisoned line and does not cover it whole (R388). -/
def State.heldBy (s : State) (dpas : List Nat) : Bool :=
  s.poison.any fun line => dpas.any (fun a => s.isLocal a && a % devBytes / 64 == line) && !s.covers dpas line

/-- A poisoned line all of whose bytes are written is clean again (R388). -/
def State.clean (s : State) (dpas : List Nat) : State := { s with poison := s.poison.filter fun line => !s.covers dpas line }

/-- A write at home under context asid: the bytes of this device change, their lines take the owner tag (R388), and a
poisoned line whose 64 bytes are all written is clean again. Bytes of other devices leave no effect here (log 12). -/
def State.homeWrite (s : State) (asid : Nat) (l : List (Nat × Byte)) : State :=
  let loc := (l.filter fun e => s.isLocal e.1).map fun e => (e.1 % devBytes, e.2)
  { s.clean (l.map (·.1)) with
    home := s.home.writeAll loc
    owner := loc.foldl (fun o e => tput 0 (e.1 / 64) asid o) s.owner }

/-! ### Translation (R346-R352) -/

/-- What an access does, for the rights of R347. -/
inductive Acc where
  | read | write | atomic | fetch
  deriving DecidableEq, Repr

/-- A translation: the DPA and its leaf, or TCODE and level (R348). -/
inductive Xl where
  | ok (dpa : Nat) (leaf : Word)
  | fail (tcode lvl : Nat)
  deriving DecidableEq, Repr

/-- The mark of a translation that must wait for a poisoned line of its tables (R388); R348 gives no such TCODE. -/
def notReadyCode : Nat := 8

/-- Bytes that an entry of level lvl covers (R342). -/
def spanOf (lvl : Nat) : Nat := match lvl with | 0 => 2 ^ 42 | 1 => 2 ^ 29 | _ => 2 ^ 16

/-- The 55 address bits of a canonical virtual address. -/
def vaBits (va : Word) : Nat := va.toNat % 2 ^ 55

/-- Canonical: bits [63:55] all equal bit [54] (R342). -/
def canonical (va : Word) : Bool := bits va 54 10 == 0 || bits va 54 10 == 1023

def pteV (e : Word) : Bool := bit e 0
def pteL (e : Word) : Bool := bit e 1
def pteW (e : Word) : Bool := bit e 2
def pteX (e : Word) : Bool := bit e 3
def pteU (e : Word) : Bool := bit e 4

/-- PA × 2^16 of an entry (R345). -/
def ptePa (e : Word) : Nat := bits e 16 34 * 2 ^ 16

/-- Reserved bits [63:50] and [11:5] of an entry (R345). -/
def pteRsv (e : Word) : Bool := bits e 50 14 != 0 || bits e 5 7 != 0

/-- Whether a local DPA lies in the stacks of the partition that runs the context; ASID 0, which no partition runs, may
use every stack (log 15). -/
def State.inStacks (s : State) (asid dpa : Nat) : Bool :=
  asid == 0 || (s.part (s.ctx asid).partNo).gran.getLsbD (stackOf dpa)

/-- A node must be local and in the partition's stacks (R346). -/
def State.nodeOk (s : State) (asid dpa : Nat) : Bool := s.isLocal dpa && s.inStacks asid dpa

/-- A leaf read at level lvl (R346, R399). -/
def State.leaf (s : State) (asid lvl : Nat) (e : Word) (va : Word) : Xl :=
  let span := spanOf lvl
  let dpa := ptePa e + vaBits va % span
  if pteRsv e ∨ ptePa e % span ≠ 0 ∨ 1536 ≤ dpa / devBytes ∨ (s.isLocal dpa ∧ ¬s.inStacks asid dpa) then .fail 5 lvl
  else .ok dpa e

/-- The values an entry read may give: the one at home first, none while its line is poisoned (R388); then cached copies
of non-leaf entries (R352). -/
def State.entryVals (s : State) (asid lvl : Nat) (va : Word) (node : Nat) : List (Option Word) :=
  let idx := vaBits va / spanOf lvl
  let a := node + 8 * (idx % 8192)
  let e := if s.poisoned [a] then none else some (s.homeWord a)
  e :: ((s.walkc.filter fun t => t.asid == asid && t.lvl == lvl && t.idx == idx && some t.entry != e).map fun t => some t.entry)

/-- Every walk of va from level lvl on, the one that reads home at every level first, each with the entries it read. A
walk that meets a poisoned line is not ready: it gives the TCODE notReadyCode, which no fault ever carries. -/
def State.walks (s : State) (asid : Nat) (va : Word) : Nat → Nat → Nat → List (Xl × List TlbEntry)
  | 0, _, _ => []
  | fuel + 1, lvl, node =>
    (s.entryVals asid lvl va node).flatMap fun v => match v with
    | none => [(.fail notReadyCode lvl, [])]
    | some e =>
      let t : TlbEntry := { asid, lvl, idx := vaBits va / spanOf lvl, entry := e }
      if !pteV e then [(.fail 1 lvl, [])]
      else if pteRsv e then [(.fail 5 lvl, [])]
      else if pteL e then [(s.leaf asid lvl e va, [t])]
      else if lvl = 2 ∨ pteU e ∨ pteX e ∨ pteW e ∨ ¬s.nodeOk asid (ptePa e) then [(.fail 5 lvl, [])]
      else (s.walks asid va fuel (lvl + 1) (ptePa e)).map fun r => (r.1, t :: r.2)

/-- Every result a translation may give (R352), the fresh walk first; where EN is 0 every translation fails (R343). -/
def State.xlats (s : State) (asid : Nat) (va : Word) : List (Xl × List TlbEntry) :=
  let root := (s.ctx asid).ptroot
  if !bit root 0 then [(Xl.fail 6 0, [])] else
  let fresh :=
    if !s.nodeOk asid (ptePa root) then [(Xl.fail 5 0, [])]
    else s.walks asid va 3 0 (ptePa root)
  let cached := s.tlb.filter fun t => t.asid == asid && t.idx == vaBits va / spanOf t.lvl
  let more := cached.map fun t => (s.leaf asid t.lvl t.entry va, [t])
  fresh ++ more.filter fun r => !fresh.any fun f => f.1 == r.1

/-- The rights check of R347 at privilege level lvl: 0, or the TCODE. -/
def rightsFail (acc : Acc) (lvl : Nat) (e : Word) : Nat :=
  if lvl = 0 ∧ ¬pteU e then 4
  else match acc with
    | .read => 0
    | .fetch => if pteX e then 0 else 3
    | _ => if pteW e then 0 else 2

/-- Adding what a walk read to the caches (R351). -/
def cacheAdd (l : List TlbEntry) (t : TlbEntry) : List TlbEntry := if l.contains t then l else l ++ [t]

/-- Choosing among the results a rule allows: the first, unless a free choice takes a later one that differs. -/
def pickFrom {α : Type} [DecidableEq α] (x : α) (rest : List α) (c : Nat) : α × Nat :=
  rest.foldl (fun (st : α × Nat) y => if y = st.1 then st else (if Config.choice st.2 then y else st.1, st.2 + 1)) (x, c)

/-- The translation of one access (R346, R347, R348, R352): its result, a failure with the level at which the walk stopped,
and the state with caches and counter advanced. A resumed fragment's access takes the walk that reads home (R374). -/
def State.xlate (s : State) (asid lvl : Nat) (acc : Acc) (va : Word) : Xl × State :=
  match s.xlats asid va with
  | [] => (.fail 6 0, s)
  | x :: rest =>
    let p := pickFrom x (if s.cur.newWalk then [] else rest) s.ctr
    let s := { s with
      ctr := p.2
      tlb := (p.1.2.filter fun t => pteL t.entry).foldl cacheAdd s.tlb
      walkc := (p.1.2.filter fun t => !pteL t.entry).foldl cacheAdd s.walkc }
    match p.1.1 with
    | .fail t l => (.fail t l, s)
    | .ok dpa e =>
      let k := match p.1.2.getLast? with | some t => t.lvl | none => 2
      let r := rightsFail acc lvl e
      if r ≠ 0 then (.fail r k, s)
      else if s.isLocal dpa then (.ok dpa e, s)
      else if s.cur.noReply then (.fail 7 k, s)
      else if asid = 0 then (.ok dpa e, s)
      else if Config.remoteAdmits s.ctr then (.ok dpa e, { s with ctr := s.ctr + 1 })
      else (.fail 7 k, { s with ctr := s.ctr + 1 })

/-- Bytes of a span that lie in one 64 KiB page, page after page: start address and length. -/
def pageParts (va : Word) (n : Nat) : List (Word × Nat) :=
  let off := va.toNat % 65536
  let cnt := if n = 0 then 0 else (off + n - 1) / 65536 + 1
  (List.range cnt).map fun i =>
    let st := if i = 0 then 0 else 65536 * i - off
    let en := min n (65536 * (i + 1) - off)
    (va + word st, en - st)

/-- The access codes of R373: 0 read, 1 write, 2 atomic. -/
def Acc.code : Acc → Nat | .write => 1 | .atomic => 2 | _ => 0

/-- A failed translation, with the address it failed at and the access. -/
structure XFault where
  tcode : Nat
  lvl : Nat
  va : Word
  acc : Nat := 0
  deriving DecidableEq, Repr

/-- Whether a failed translation is no fault: its walk waits for a poisoned line (R388). -/
def XFault.waits (x : XFault) : Bool := x.tcode == notReadyCode

/-- The DPAs of the n bytes at va, or the first failure (R346). -/
def State.xlateSpan (s : State) (asid lvl : Nat) (acc : Acc) (va : Word) (n : Nat) : Except XFault (List Nat) × State :=
  (pageParts va n).foldl (fun (r : Except XFault (List Nat) × State) p =>
    match r.1 with
    | .error e => (.error e, r.2)
    | .ok l =>
      match r.2.xlate asid lvl acc p.1 with
      | (.ok dpa _, s') => (.ok (l ++ (List.range p.2).map (dpa + ·)), s')
      | (.fail t l, s') => (.error { tcode := t, lvl := l, va := p.1, acc := acc.code }, s')) (.ok [], s)

/-- Whether the fault policy marks a TCODE as resolvable (R20, R348, R368). -/
def Context.resolvable (c : Context) (tcode : Nat) : Bool :=
  match tcode with | 1 => bit c.fpol 0 | 2 => bit c.fpol 1 | 4 => bit c.fpol 2 | _ => false

/-- Dropping the cached entries of tlb.inv (R353). -/
def State.tlbDrop (s : State) (p : TlbEntry → Bool) : State :=
  { s with tlb := s.tlb.filter fun t => !p t, walkc := s.walkc.filter fun t => !p t }

/-- Whether a cached entry's span overlaps [lo, hi) of a context's addresses. -/
def TlbEntry.overlaps (t : TlbEntry) (asid lo hi : Nat) : Bool :=
  t.asid == asid && t.idx * spanOf t.lvl < hi && lo < (t.idx + 1) * spanOf t.lvl

/-! ### What home holds, for reads and writes at home by engines and Imago -/

/-- Where the snapshot bytes of other devices' memory are kept: by the die and the partition of the engine that reads them,
the stewards of a die together (R87, R327). -/
def State.snapKey (s : State) (eng dpa : Nat) : Nat := (9 * dieOf eng + (s.partOfEng eng).getD 8) * 2 ^ 50 + dpa

/-- The partition, or 8 for the stewards, of a key of these bytes. -/
def snapPart (k : Nat) : Nat := k / 2 ^ 50 % 9

/-- A byte of global memory below every store, as an engine's die sees it: this device's home, or a remote byte, which is a
free value fixed for the die until the boundary (R87, log 12). -/
def State.peek (s : State) (eng dpa : Nat) : Byte × State :=
  if s.isLocal dpa then (s.homeByte dpa, s)
  else
    let k := s.snapKey eng dpa
    match tget? s.remote k with
    | some b => (b, s)
    | none => let b := Config.freeByte s.ctr; (b, { s with ctr := s.ctr + 1, remote := tset k b s.remote })

/-- A byte read at its home: this device's, or another device's, which is a free value each time (log 12). -/
def State.homePeek (s : State) (dpa : Nat) : Byte × State :=
  if s.isLocal dpa then (s.homeByte dpa, s) else (Config.freeByte s.ctr, { s with ctr := s.ctr + 1 })

def State.homeAll (s : State) (dpas : List Nat) : List Byte × State :=
  dpas.foldl (fun r a => let b := r.2.homePeek a; (r.1 ++ [b.1], b.2)) ([], s)

/-- n bytes at a virtual address, read at home under a context (R349): none where a byte does not translate. -/
def State.readHomeVa (s : State) (asid lvl : Nat) (va : Word) (n : Nat) : Option (List Byte) × State :=
  match s.xlateSpan asid lvl .read va n with
  | (.error _, s) => (none, s)
  | (.ok l, s) => let r := s.homeAll l; (some r.1, r.2)

/-- Whether a read of n bytes at home under a context is not ready: a poisoned line holds its walk or its data (R388). -/
def State.homeHeld (s : State) (asid lvl : Nat) (va : Word) (n : Nat) : Bool :=
  match s.xlateSpan asid lvl .read va n with
  | (.error x, _) => x.waits
  | (.ok l, s) => s.poisoned l

/-- The same for a write. -/
def State.homeWriteHeld (s : State) (asid lvl : Nat) (va : Word) (n : Nat) : Bool :=
  match s.xlateSpan asid lvl .write va n with
  | (.error x, _) => x.waits
  | (.ok l, s) => s.heldBy l

/-- Writing bytes at a virtual address at home under a context; false and no write where a byte does not translate. -/
def State.writeHomeVa (s : State) (asid lvl : Nat) (va : Word) (bs : List Byte) : Bool × State :=
  match s.xlateSpan asid lvl .write va bs.length with
  | (.error _, s) => (false, s)
  | (.ok l, s) => (true, s.homeWrite asid (l.zip bs))

/-- A word at a virtual address at home. -/
def State.readHomeWord (s : State) (asid lvl : Nat) (va : Word) : Option Word × State :=
  match s.readHomeVa asid lvl va 8 with
  | (none, s) => (none, s)
  | (some bs, s) => (some (BitVec.ofNat 64 (leNat bs)), s)

/-! ### Plain loads and stores (R86-R89) -/

/-- The stores of an engine that cover a byte, newest first. -/
def EngMem.storesOf (e : EngMem) (dpa : Nat) : List Store :=
  (e.stores.filter fun st => st.data.any fun b => b.1 == dpa).reverse

/-- The last value a store gives a byte. -/
def Store.byte (st : Store) (dpa : Nat) : Byte := ((st.data.reverse.find? fun b => b.1 == dpa).map (·.2)).getD 0

/-- The value below every store of the phase: a refresh, or the snapshot (R86 rules 3 and 4). The stewards' snapshot is
home as it stood at the latest phase boundary of the device (R211, log 16). -/
def State.snapByte (s : State) (eng dpa : Nat) : Byte × State :=
  match tget? (s.eng eng).fresh dpa with
  | some b => (b, s)
  | none =>
    if s.isLocal dpa then
      match s.partOfEng eng with
      | some p => ((s.part p).snap.read (dpa % devBytes), s)
      | none => (s.stewSnap.read (dpa % devBytes), s)
    else s.peek eng dpa

/-- Whether bytes at these addresses are one naturally aligned access of at most 8 bytes (R75). -/
def isSingle (dpas : List Nat) : Bool := [1, 2, 4, 8].contains dpas.length && dpas.headD 0 % dpas.length == 0

/-- Whether a store is ordered before what a thread of engine eng does next: through its thread's clock, or for a copy's
bytes through the copy's own (R85, R428). -/
def Thread.seesStore (th : Thread) (eng : Nat) (st : Store) : Bool :=
  match st.copy with
  | some id => tget 0 th.vc (copyKey eng id) != 0
  | none => st.tick ≤ tget 0 th.vc st.tid

/-- What a thread's own stores and those ordered before it give a load of a byte, newest first (R86 rules 1 and 2): its
latest own store, or a copy that has landed since and is ordered (R81, R84); where it has none, or where a collective's
acquire has refreshed those it has (R94), the newest ordered store made since. -/
def storeOrdered (eng me : Nat) (th : Thread) (l : List Store) : Option Store :=
  if l.any fun st => st.tid == me && !st.past then
    l.find? fun st => (st.tid == me && !st.past) || (st.copy.isSome && th.seesStore eng st)
  else (l.find? fun st => st.tid == me || th.seesStore eng st).filter fun st => st.tid != me

/-- The store that a load of a byte by the thread numbered me reads, if any (R86 rules 1 and 2): another thread's store
that is not ordered before the load where a free choice takes it, else what is its own or ordered. -/
def storeSeen (eng me : Nat) (th : Thread) (pick : Store → Bool) (l : List Store) : Option Store :=
  (l.find? fun st => st.tid != me && !th.seesStore eng st && pick st).or (storeOrdered eng me th l)

/-- The stores of the thread numbered me with a sequence number up to n lose, for the bytes that p selects, the precedence
that they have for their thread (R94). -/
def EngMem.yield (e : EngMem) (me n : Nat) (p : Nat → Bool) : EngMem :=
  { e with stores := e.stores.flatMap fun st =>
      if st.tid = me ∧ st.seq ≤ n ∧ !st.past then
        let inn := st.data.filter fun b => p b.1
        let rest := st.data.filter fun b => !p b.1
        (if rest.isEmpty then [] else [{ st with data := rest }]) ++ (if inn.isEmpty then [] else [{ st with past := true, data := inn }])
      else [st] }

/-- One byte of a plain load by thread tid (R86), with the free choices that pick makes. The clock that the store carries
reaches the reader's next fence (R85). -/
def State.loadByteBy (s : State) (tid : Nat) (pick : Store → Bool) (dpa : Nat) : Byte × State :=
  let eng := engOf tid
  let th := s.thread tid
  match storeSeen eng (th.me tid) th pick ((s.eng eng).storesOf dpa) with
  | some st =>
    (st.byte dpa, if st.tid = th.me tid then s else s.modThread tid fun th => { th with acq := tjoin th.acq st.rel })
  | none => s.snapByte eng dpa

/-- The free choice of a load from counter c on whether byte i sees a store: one choice for all bytes where both are
single-copy atomic (R75), else one for each byte. -/
def seeChoice (c n : Nat) (single : Bool) (i : Nat) (st : Store) : Bool :=
  Config.choice (c + (if single && st.single then 0 else n * (i + 1)) + st.seq)

/-- A plain load of one byte. -/
def State.loadByte (s : State) (tid dpa : Nat) : Byte × State :=
  s.loadByteBy tid (seeChoice s.ctr ((s.eng (engOf tid)).seq + 1) true 0) dpa

/-- A plain load of bytes (R75, R86). -/
def State.loadBytes (s : State) (tid : Nat) (dpas : List Nat) : List Byte × State :=
  let e := s.eng (engOf tid)
  let n := e.seq + 1
  let c := s.ctr
  let s := if e.stores.isEmpty then s else { s with ctr := c + n * (dpas.length + 1) }
  dpas.zipIdx.foldl (fun r a => let b := r.2.loadByteBy tid (seeChoice c n (isSingle dpas) a.2) a.1; (r.1 ++ [b.1], b.2)) ([], s)

/-- A plain global store by thread tid (R84, R89): numbered in its engine's store sequence. -/
def State.storeBytes (s : State) (tid asid : Nat) (data : List (Nat × Byte)) : State :=
  let eng := engOf tid
  let th := s.thread tid
  let seq := (s.eng eng).seq + 1
  let s := s.modEng eng fun e => { e with
    seq := seq
    stores := e.stores ++ [{ seq, tid := th.me tid, tick := th.tick + 1, single := isSingle (data.map (·.1)), asid, data,
                             home := false, rel := th.rel }] }
  s.modThread tid fun th => { th with tick := th.tick + 1 }

/-- Whether a later store of the engine to the byte has been written back already. -/
def EngMem.newerHome (e : EngMem) (seq dpa : Nat) : Bool :=
  e.stores.any fun st => st.home && seq < st.seq && st.data.any fun b => b.1 == dpa

/-- A store of which the bytes that p selects are home: the part written back, and the rest. -/
def Store.split (st : Store) (p : Nat → Bool) : List Store :=
  let inn := st.data.filter fun b => p b.1
  let rest := st.data.filter fun b => !p b.1
  (if inn.isEmpty then [] else [{ st with home := true, data := inn }]) ++ (if rest.isEmpty then [] else [{ st with data := rest }])

/-- The stores of an engine that q selects and that are not written back yet, with the DPAs among them that p selects. -/
def EngMem.due (e : EngMem) (q : Store → Bool) : List Store := e.stores.filter fun st => !st.home && q st
def EngMem.dueBytes (e : EngMem) (q : Store → Bool) (p : Nat → Bool) : List Nat :=
  ((e.due q).flatMap fun st => st.data.map (·.1)).filter p

/-- Whether a write-back is held: what it writes covers a poisoned line in part (R388). -/
def State.writeHeld (s : State) (eng : Nat) (q : Store → Bool) (p : Nat → Bool) : Bool :=
  s.heldBy ((s.eng eng).dueBytes q p)

/-- Writing an engine's stores back to home (R88, R90, R94), in order: those that q selects and that are not written
back yet, of them the bytes that p selects. A byte whose later store is home already keeps that value. The stores of one
write-back together may write a poisoned line whole (R388). -/
def State.writeBack (s : State) (eng : Nat) (q : Store → Bool) (p : Nat → Bool) : State :=
  let e := s.eng eng
  let s := (e.due q).foldl (fun s st => s.homeWrite st.asid (st.data.filter fun b => p b.1 && !e.newerHome st.seq b.1)) s
  let s := s.clean (e.dueBytes q p)
  s.modEng eng fun e => { e with stores := e.stores.flatMap fun st => if !st.home && q st then st.split p else [st] }

/-- A refresh (R86 rule 3, R90): the engine's snapshot of the given bytes becomes their values at home. Every thread of the
core sees them from then on, also one that no order carries the refresh to: R90 lets it reach others under R85, and this is
the model's choice for the rest (log 73). -/
def State.refresh (s : State) (eng : Nat) (dpas : List Nat) : State :=
  dpas.foldl (fun s a =>
    let s := if s.isLocal a then s else { s with remote := tdel (s.snapKey eng a) s.remote }
    let b := s.peek eng a
    b.2.modEng eng fun e => { e with fresh := tset a b.1 e.fresh }) s

/-! ### Scratchpad and accumulator (R73, R78): accesses act at once (log 17) -/

/-- Bytes of a block's scratchpad and of the accumulator it holds (R73, R79). -/
def Block.spadBytes (b : Block) : Nat := Config.granuleBytes * bits b.pool 30 7
def Block.accBytes (b : Block) : Nat := Config.granuleBytes * b.accg

def addrsOf (a n : Nat) : List Nat := (List.range n).map (a + ·)

/-- The key of a granule of a block in poisonPool: region 0 registers, 1 scratchpad, 2 accumulator, and its number there
(R76, R388). -/
def granKey (bk region g : Nat) : Nat := 512 * bk + 128 * region + g

/-- The region of a space of the pool. -/
def regionOf : Space → Nat | .s => 1 | .a => 2 | _ => 0

/-- Whether bytes of a block's scratchpad or accumulator lie in a poisoned granule (R388). -/
def State.poisonPoolAt (s : State) (bk : Nat) (sp : Space) (addrs : List Nat) : Bool :=
  (sp == .s || sp == .a) && !s.poisonPool.isEmpty &&
    addrs.any fun a => s.poisonPool.contains (granKey bk (regionOf sp) (a / Config.granuleBytes))

/-- Whether a write of bytes of a block's scratchpad is held: it covers a poisoned granule in part (R388, log 59). -/
def State.poolHeld (s : State) (bk : Nat) (addrs : List Nat) : Bool :=
  s.poisonPool.any fun k => k / 512 == bk && k / 128 % 4 == 1 &&
    addrs.any (fun a => a / Config.granuleBytes == k % 128) &&
    !(addrsOf (Config.granuleBytes * (k % 128)) Config.granuleBytes).all addrs.contains

/-- A granule written whole is clean again (R388). -/
def State.poolClean (s : State) (bk : Nat) (addrs : List Nat) : State :=
  { s with poisonPool := s.poisonPool.filter fun k => !(k / 512 == bk && k / 128 % 4 == 1 &&
      (addrsOf (Config.granuleBytes * (k % 128)) Config.granuleBytes).all addrs.contains) }

/-- The release clocks that bytes carry, joined into a reader's next fence (R85). -/
def gatherRel (m : Tab (Tab Nat)) (addrs : List Nat) : Tab Nat := addrs.foldl (fun c a => tjoin c (tget [] m a)) []

/-- Marking bytes with the writer's release clock. -/
def markRel (m : Tab (Tab Nat)) (addrs : List Nat) (rel : Tab Nat) : Tab (Tab Nat) := addrs.foldl (fun m a => tput [] a rel m) m

/-- A read of the pool by thread tid of block bk. -/
def State.poolRead (s : State) (tid bk : Nat) (acc : Bool) (a n : Nat) : List Byte × State :=
  let b := s.block bk
  let rel := gatherRel (if acc then b.arel else b.srel) (addrsOf a n)
  ((if acc then b.acc else b.spad).readN a n,
    if rel.isEmpty then s else s.modThread tid fun th => { th with acq := tjoin th.acq rel })

/-- A thread's store to scratchpad is noted, with what it overwrites. -/
def Block.noteStore (b : Block) (me tick : Nat) (addrs : List Nat) : Block :=
  { b with past := b.past ++ [{ who := me, tick, old := addrs.map fun a => (a, b.spad.read a) }] }

/-- Whether a store to scratchpad is ordered before what a thread numbered me of an engine does next (R85, R271). -/
def PoolRec.ordered (r : PoolRec) (th : Thread) (me eng : Nat) : Bool :=
  match r.copy with
  | some id => tget 0 th.vc (copyKey eng id) != 0
  | none => th.sees me r.who r.tick

/-- A byte of scratchpad as an unordered reader may find it (R290): back from the latest store of it, each store that is
not ordered before the reader is seen or not, as the free choices from counter c on fall. -/
def Block.byteSeen (b : Block) (th : Thread) (me c a : Nat) : Byte :=
  (b.past.zipIdx.reverse.foldl (fun (r : Byte × Bool) e =>
    match e.1.old.find? fun x => x.1 == a with
    | none => r
    | some x => if r.2 || e.1.ordered th me (engOf b.core) || !Config.choice (c + e.2) then (r.1, true) else (x.2, false))
    (b.spad.read a, false)).1

/-- A read of scratchpad by thread tid that may find earlier values of bytes (R290). -/
def State.poolReadBack (s : State) (tid bk a n : Nat) : List Byte × State :=
  let b := s.block bk
  let r := s.poolRead tid bk false a n
  ((addrsOf a n).map (b.byteSeen (s.thread tid) ((s.thread tid).me tid) s.ctr), { r.2 with ctr := r.2.ctr + b.past.length })

/-- A write of the pool by thread tid of block bk. -/
def State.poolWrite (s : State) (tid bk : Nat) (acc : Bool) (a : Nat) (bs : List Byte) : State :=
  let th := s.thread tid
  let rel := th.rel
  let s := if acc then s
    else (s.modThread tid fun th => { th with tick := th.tick + 1 }).modBlock bk fun b =>
      b.noteStore (th.me tid) (th.tick + 1) (addrsOf a bs.length)
  s.modBlock bk fun b =>
    if acc then { b with acc := b.acc.writeN a bs, arel := markRel b.arel (addrsOf a bs.length) rel }
    else { b with spad := b.spad.writeN a bs, srel := markRel b.srel (addrsOf a bs.length) rel }

end Sys2Proof.Machine
end

