-- ==== Sys2Proof/Machine/Work.lean ====
section
/-! DEFINITION. Blocks, launches, graphs and jobs as units: footprints (R76-R79), block completion (R34, R40), cancel
(R35, R339), and raising the halt line (R375, R376). -/
namespace Sys2Proof.Machine

open Sys2Proof

/-! ### The pool map word (R76, R77) -/

def poolRegc (w : Word) : Nat := bits w 56 8
def poolRege (w : Word) : Nat := bits w 48 8
def poolNcopy (w : Word) : Nat := bits w 43 5
def poolNwarp (w : Word) : Nat := bits w 37 6
def poolSpg (w : Word) : Nat := bits w 30 7
def poolAccg (w : Word) : Nat := bits w 23 7
def poolAccmax (w : Word) : Nat := bits w 16 7

/-- Granules that the registers take (R77). -/
def poolRegGran (w : Word) : Nat :=
  (poolNcopy w * poolRegc w + (poolNwarp w - poolNcopy w) * poolRege w + 63) / 64

/-- Registers of one thread of warp w, and where the warp's stand among those of the block's warps (R76, R77). -/
def regBudget (pool : Word) (w : Nat) : Nat := if w < poolNcopy pool then poolRegc pool else poolRege pool
def regBase (pool : Word) (w : Nat) : Nat := ((List.range w).map (regBudget pool)).sum

/-- The block footprint G of R77. -/
def poolG (w : Word) : Nat := poolRegGran w + poolSpg w + poolAccg w

/-- A register budget: 0, or 8-248 in steps of 8 (R76). -/
def budgetOk (n : Nat) : Bool := n % 8 == 0 && n ≤ 248

/-- The validity of R77, with the field limits of R76. -/
def poolValid (w : Word) : Bool :=
  1 ≤ poolNwarp w && poolNwarp w ≤ 32 && poolNcopy w ≤ poolNwarp w && (poolRegc w == 0) == (poolNcopy w == 0)
    && (poolRege w == 0) == (poolNcopy w == poolNwarp w) && budgetOk (poolRegc w) && budgetOk (poolRege w)
    && poolAccg w ≤ poolAccmax w && poolAccmax w ≤ 64 && poolSpg w ≤ 64 && bits w 0 16 == 0 && poolG w ≤ 64

/-- Granules that a placed block holds (R78, R38, R79). -/
def Block.granules (b : Block) : Nat := (if b.regHeld then poolRegGran b.pool else 0) + poolSpg b.pool + b.accg

/-- Free granules of a core (R78). -/
def State.freeGran (s : State) (c : Nat) : Nat :=
  Config.nGranules - ((s.blocks.filter fun e => e.2.core == c).map fun e => e.2.granules).sum

/-- The granules of a block, as region and number there: of its scratchpad and accumulator, and of its registers. -/
def Block.memSpots (b : Block) : List (Nat × Nat) :=
  ((List.range (poolSpg b.pool)).map fun i => (1, i)) ++ (List.range b.accg).map fun i => (2, i)
def Block.regSpots (b : Block) : List (Nat × Nat) := (List.range (if b.regHeld then poolRegGran b.pool else 0)).map fun i => (0, i)
def Block.spots (b : Block) : List (Nat × Nat) := b.memSpots ++ b.regSpots

/-- The granules of a core's pool that blocks hold, in the order in which the model lays them out in the array: scratchpad and
accumulator of every block in slot order, then the registers (log 14). -/
def memSpots (bs : Tab Block) (core : Nat) : List (Nat × Nat × Nat) :=
  (bs.filter fun e => e.2.core == core).flatMap fun e => e.2.memSpots.map fun x => (e.1, x)
def regSpots (bs : Tab Block) (core : Nat) : List (Nat × Nat × Nat) :=
  (bs.filter fun e => e.2.core == core).flatMap fun e => e.2.regSpots.map fun x => (e.1, x)

/-- The block, region and number of granule g of a core's pool; none where the granule is free. -/
def State.poolSpot (s : State) (core g : Nat) : Option (Nat × Nat × Nat) := (memSpots s.blocks core ++ regSpots s.blocks core)[g]?

/-- Granule g of a core's pool, which is free, as Core's spare granules number it: its tag and its poison. One that no block has
held carries ASID 0. -/
def State.spareNo (s : State) (core g : Nat) : Nat := g - (memSpots s.blocks core ++ regSpots s.blocks core).length
def State.spareAt (s : State) (core g : Nat) : Nat × Bool := (tget [] s.spare core).getD (s.spareNo core g) (0, false)

/-- Warp slots of a core that no placed block holds, in increasing number. -/
def State.freeSlots (s : State) (c : Nat) : List Nat :=
  (List.range Config.nSlots).filter fun i =>
    !s.blocks.any fun e => e.2.core == c && e.2.slots.contains i

/-- Register budget of a lane thread: its role's (R31). -/
def State.budget (s : State) (tid : Nat) : Nat :=
  let b := s.block (s.thread tid).block
  if b.warpNo (slotOf tid) < poolNcopy b.pool then poolRegc b.pool else poolRege b.pool

/-- Granules of a block are free: they keep the tag of its context, and their poison, until the next grant (R388). -/
def State.spareGran (s : State) (bk : Nat) (b : Block) (spots : List (Nat × Nat)) : State :=
  let key := fun (x : Nat × Nat) => granKey bk x.1 x.2
  { s with
    spare := tput [] b.core (tget [] s.spare b.core ++ spots.map fun x => (b.asid, s.poisonPool.contains (key x))) s.spare
    poisonPool := s.poisonPool.filter fun k => !spots.any fun x => key x == k }

/-- They return to the core's free pool: its acc-free counter rises by their number (R79). -/
def State.giveGran (s : State) (bk : Nat) (b : Block) (spots : List (Nat × Nat)) : State :=
  (s.spareGran bk b spots).modCore b.core fun k => { k with accFree := k.accFree + word spots.length }

/-- A core's n free granules that have been free longest are granted: a fresh grant is clean (R388). -/
def State.takeGran (s : State) (core n : Nat) : State := { s with spare := tput [] core ((tget [] s.spare core).drop n) s.spare }

/-- Stacks that a partition holds, in increasing number. -/
def Part.stacks (p : Part) : List Nat := (List.range 8).filter fun g => p.gran.getLsbD g

/-! ### Threads of a block -/

/-- Lane threads of a block, in increasing key. -/
def State.laneThreads (s : State) (bk : Nat) : List Nat :=
  (s.threads.filter fun e => e.2.block == bk && e.1 < condBase).map (·.1)

def isExited (th : Thread) : Bool := th.run == .exited

/-- A thread exits: it becomes absent (R16), and keeps nothing that another thread reads. -/
def Thread.exit (th : Thread) : Thread := { th with run := .exited, wait := .none, arrMask := none, sync := [] }

/-- Releasing the conductor of a cluster (R247): its thread ends. -/
def State.unbind (s : State) (cl : Nat) : State :=
  (s.modCluster cl fun c => { c with bound := none }).setThread (condBase + cl) { run := .exited }

/-- The cluster whose conductor is bound to a block. -/
def State.condOf (s : State) (bk : Nat) : Option Nat := (s.clusters.find? fun e => e.2.bound == some bk).map (·.1)

/-! ### Instar's place in a macro-op (R254, R255) -/

/-- A rows, or weight rows, of a cim.run or cim.mv. -/
def Instar.rows (i : Instar) : Nat := if i.op = 2 then bits i.payload 16 6 + 1 else bits i.payload 16 12 + 1

/-- Plane steps of one row: the streamed operand's magnitude bits. -/
def Instar.planes (i : Instar) : Nat := i.total / i.rows - 1

/-- Whether a row stands between a plane step and its drain. -/
def Instar.midRow (i : Instar) : Bool := (i.op == 2 || i.op == 3) && i.step % (i.planes + 1) != 0

/-- A row that stops between a plane step and its drain starts over (R255). -/
def Instar.rewind (i : Instar) : Instar :=
  if i.op = 2 ∨ i.op = 3 then
    { i with step := i.step - i.step % (i.planes + 1), sums := [], row := if i.own then i.row else [] }
  else i

/-- The job of a block's launch. -/
def State.jobOf (s : State) (b : Block) : Nat := (s.launch (gkey b.asid b.lid)).job

/-! ### Counting completed blocks (R34, R40) -/

/-- Whether asynchronous global stores of a launch are outstanding on a core (R40, R224). -/
def State.outstanding (s : State) (asid lid core : Nat) : Bool :=
  (s.coreAt core).copies.any fun c => c.asid == asid && c.lid == lid && !c.toS

/-- An edge's free-slot counter rises by n, atomically at home (R237); where a poisoned line is met, once it is written
(R388). -/
def State.edgeFree (s : State) (asid : Nat) (edge : Word) (n : Nat) : State :=
  let later := { s with edgeDue := s.edgeDue ++ [(asid, edge, n)] }
  if s.homeHeld asid 1 (edge + 16) 8 then later
  else match s.readHomeWord asid 1 (edge + 16) with
    | (none, s) => s
    | (some fa, s) =>
      if s.homeHeld asid 1 fa 8 || s.homeWriteHeld asid 1 fa 8 then later
      else match s.readHomeWord asid 1 fa with
        | (some w, s) => (s.writeHomeVa asid 1 fa (leBytes 8 (bits w 32 32 * 2 ^ 32 + (bits w 0 32 + n) % 2 ^ 32))).2
        | (none, s) => s

/-- The rises of FREE that are due are made, as far as no poisoned line holds them. -/
def State.edgeSettle (s : State) : State :=
  s.edgeDue.foldl (fun s e => s.edgeFree e.1 e.2.1 e.2.2) { s with edgeDue := [] }

/-- One more block of a launch counts. The counter reaches its final value as the last block exits, and what waits on it
may go on, before LAUNCH_COMPLETION applies the launch's ordered adds: an atomic in between finds them not yet applied.
R34 and R93 do not order the two; that is this model's choice (log 60). -/
def State.countBlock (s : State) (lk : Nat) : State := s.modLaunch lk fun l => { l with count := l.count + 1 }

/-- A block ended: it counts at once in early mode, and in drained mode when its core's outstanding counters for the
launch are zero (R40). -/
def State.blockDone (s : State) (asid lid blk core : Nat) : State :=
  let lk := gkey asid lid
  let l := s.launch lk
  let s := s.modLaunch lk fun l => { l with doneBlocks := l.doneBlocks ++ [blk] }
  if l.drained && s.outstanding asid lid core then
    s.modLaunch lk fun l => { l with uncounted := l.uncounted ++ [(blk, core)] }
  else s.countBlock lk

/-- Counting the drained blocks of a core whose outstanding counters have reached zero (R40). -/
def State.countDrained (s : State) (asid lid core : Nat) : State :=
  let lk := gkey asid lid
  if s.outstanding asid lid core then s
  else
    let n := ((s.launch lk).uncounted.filter fun u => u.2 == core).length
    s.modLaunch lk fun l => { l with count := l.count + n, uncounted := l.uncounted.filter fun u => u.2 != core }

/-- The operand cache drops every entry whose CORE is core c (R250). -/
def State.ocDrop (s : State) (c : Nat) : State :=
  { s with clusters := tmod (c / 8) (fun k => { k with oc := k.oc.filter fun e => e.1 / 2 ^ 45 != c % 8 }) s.clusters }

/-- Instar abandons the macro-op of a block that leaves, and the DE stream of the block is discarded (R255, R270). A
stream that is done keeps its state word where the block has completed. -/
def Cluster.leave (c : Cluster) (bk : Nat) (cancelled : Bool) : Cluster :=
  { c with
    instar := if c.bound == some bk then { (if c.instar.st = 0 then c.instar else c.instar.rewind) with
        st := 0, flag := none, sums := [], row := [], own := false, held := false } else c.instar
    de := if c.de.owner == some bk then
        (if c.de.st = 3 && !cancelled then { c.de with owner := none, buf := [], segs := [] } else { tabs := c.de.tabs })
      else c.de }

/-- Fibre registers without those of a block's warps. -/
def Block.dropFibres (b : Block) (m : Tab Fibre) : Tab Fibre :=
  m.filter fun e => !(e.1 / 256 == b.core && b.slots.contains (e.1 / 8 % 32))

/-- Threads held on a core issue again, once one of its cocoon entries has been freed (R29). -/
def State.wakeHeld (s : State) (core : Nat) : State :=
  { s with threads := s.threads.map fun e =>
      if engOf e.1 == core && e.2.run == .held then (e.1, { e.2 with run := .live }) else e }

/-- Freeing the cocoon entries of a core that p selects; those freed count, and held threads issue again (R29, R371). -/
def State.freeEntries (s : State) (core : Nat) (p : Nat → Cocoon → Bool) : State :=
  let n := ((s.coreAt core).cocoon.filter fun e => e.2.st != 0 && p e.1 e.2).length
  if n = 0 then s
  else (s.modCore core fun k => { k with
    cocoon := k.cocoon.map fun e => if e.2.st != 0 && p e.1 e.2 then (e.1, { gen := e.2.gen }) else e
    freed := k.freed + n }).wakeHeld core

/-- What a block does ends: its threads, fibre registers and cocoon entries (freed without presentation, R30), the
macro-op and the stream of its conductor, and that conductor's binding. -/
def State.stripBlock (s : State) (bk : Nat) (cancelled : Bool) : State :=
  let b := s.block bk
  let inBlock := fun slot => b.slots.contains slot
  let s := { s with clusters := tmod (b.core / 8) (fun c => c.leave bk cancelled) s.clusters }
  let s := match s.condOf bk with | some cl => s.unbind cl | none => s
  let gone : FaultRec → Bool := fun f => f.core == b.core && f.kind == 1 && (match tget? (s.coreAt b.core).cocoon f.entry with
    | some e => e.st != 0 && inBlock e.slot
    | none => false)
  let s := s.modCtx b.asid fun c => { c with faults := c.faults.filter fun f => !gone f }
  let s := { s with
    threads := s.threads.filter fun e => !(e.2.block == bk && e.1 < condBase)
    fibres := b.dropFibres s.fibres }
  s.freeEntries b.core fun _ e => inBlock e.slot

/-- The warp slots and granules of a block are free again (R78, R79), and the operand cache drops the core's entries
(R250). -/
def State.freeBlock (s : State) (bk : Nat) : State :=
  let b := s.block bk
  let s := { s with blocks := tdel bk s.blocks }
  (s.ocDrop b.core).giveGran bk b b.spots

/-- A block that has completed leaves the machine. -/
def State.removeBlock (s : State) (bk : Nat) : State := (s.stripBlock bk false).freeBlock bk

/-- Copies of a placed block that have not retired. -/
def State.copiesOf (s : State) (bk : Nat) : List Copy :=
  let b := s.block bk
  (s.coreAt b.core).copies.filter fun c => c.blk == bk && c.uid == b.uid

/-- A cancelled block ends at once, but its slots and granules are free only when its copies have retired, which cancel
lets them do first (R35, R224). -/
def State.endBlock (s : State) (bk : Nat) : State :=
  let s := s.stripBlock bk true
  if (s.copiesOf bk).isEmpty then s.freeBlock bk
  else s.modBlock bk fun b => { b with leaving := true, susp := none, bin := none, nbars := [] }

/-- A block that has only waited for its copies goes with the last of them. -/
def State.settleLeaving (s : State) (bk : Nat) : State :=
  if (s.block bk).leaving && (s.copiesOf bk).isEmpty then s.freeBlock bk else s

/-- A block has ended: its edge slot is free again (R237), and it counts. -/
def State.blockOver (s : State) (b : Block) : State :=
  let s := match b.edge with | some e => s.edgeFree b.asid e 1 | none => s
  s.blockDone b.asid b.lid b.blk b.core

/-- A block completes (R34): it leaves the machine, and counts. -/
def State.completeBlock (s : State) (bk : Nat) : State := (s.removeBlock bk).blockOver (s.block bk)

/-- A block completes when every thread has exited and no conductor is bound to it (R34, R247). -/
def State.blockEnds (s : State) (bk : Nat) : Bool :=
  (tget? s.blocks bk).isSome && !(s.block bk).leaving && ((s.laneThreads bk).all fun t => isExited (s.thread t)) && (s.condOf bk).isNone

def State.settleBlock (s : State) (bk : Nat) : State := if s.blockEnds bk then s.completeBlock bk else s

/-! ### Completion of launches and graphs (R34, R142, R331) -/

/-- Bytes as words, lowest first. -/
def wordsOf (n : Nat) (bs : List Byte) : List Word := (chunks 8 n bs).map fun l => word (leNat l)

def wordAt (ws : List Word) (i : Nat) : Word := ws.getD i 0

def edgeCap (w : List Word) : Nat := bits (wordAt w 1) 0 32
def edgeIsize (w : List Word) : Nat := bits (wordAt w 1) 32 16
def edgeDst (w : List Word) : Nat := bits (wordAt w 3) 16 16
def edgeSrc (w : List Word) : Nat := bits (wordAt w 3) 0 16

/-- The words of an edge record at home. -/
def State.edgeWords (s : State) (asid : Nat) (edge : Word) : List Word × State :=
  match s.readHomeVa asid 1 edge 32 with
  | (some bs, s) => (wordsOf 4 bs, s)
  | (none, s) => ([], s)

/-- Whether an edge is empty: FREE = CAP (R331). -/
def State.edgeEmpty (s : State) (asid : Nat) (edge : Word) : Bool :=
  let r := s.edgeWords asid edge
  match (r.2.readHomeWord asid 1 (wordAt r.1 2)).1 with
  | some v => bits v 0 32 == edgeCap r.1
  | none => false

/-- The edges of a graph into a node, and the nodes that feed it. -/
def State.edgesInto (s : State) (asid : Nat) (g : Graph) (node : Nat) : List (Word × Nat) :=
  (g.edges.map fun e => (e, (s.edgeWords asid e).1)).filterMap fun x =>
    if edgeDst x.2 = node ∧ x.2 ≠ [] then some (x.1, edgeSrc x.2) else none

/-- Whether a launch has done all its blocks (R331, R40). -/
def State.launchDone (s : State) (asid : Nat) (l : Launch) : Bool :=
  if l.nblock ≠ 0 then l.count == l.nblock
  else
    let g := tget {} s.graphs (gkey asid l.gid)
    let into := s.edgesInto asid g l.node
    l.pending.isEmpty && l.count == l.spawned
      && into.all fun e =>
        let p := s.launch (gkey asid (g.nodes.getD e.2 0))
        s.edgeEmpty asid e.1 && (2 ≤ p.st || p.ended.isSome)

/-- Whether a launch that no cancel has reached has completed (R34): LAUNCH_COMPLETION may still have to apply its ordered
adds (log 60). -/
def State.launchOver (s : State) (asid : Nat) (l : Launch) : Bool := l.ended.isSome || s.launchDone asid l

/-- Whether a node has completed, been cancelled or been refused. -/
def State.nodeOver (s : State) (asid lid : Nat) : Bool :=
  let l := s.launch (gkey asid lid)
  2 ≤ l.st || s.launchOver asid l

/-- Whether a graph that no cancel has reached has completed (R34): every node has, and every edge queue is empty. -/
def State.graphOver (s : State) (asid : Nat) (g : Graph) : Bool :=
  g.nodes.all (s.nodeOver asid) && g.edges.all fun e => s.edgeEmpty asid e

/-- The order in which launches complete is noted (R93). -/
def State.noteEnded (s : State) : State :=
  s.launches.foldl (fun s e =>
    if e.2.st < 2 && e.2.ended.isNone && s.launchDone (e.1 / 2 ^ 32) e.2 then
      let n := (s.launches.map fun x => x.2.ended.getD 0).foldl max 0
      s.modLaunch e.1 fun l => { l with ended := some (n + 1) }
    else s) s

/-! ### Cancel (R35, R339) -/

/-- Whether a block is launch lid's of a context, and has not been cancelled. -/
def Block.isOf (b : Block) (asid lid : Nat) : Bool := b.asid == asid && b.lid == lid && !b.leaving

/-- Blocks of a launch that are placed. -/
def State.placedOf (s : State) (asid lid : Nat) : List Nat := (s.blocks.filter fun e => e.2.isOf asid lid).map (·.1)

/-- A saved context's image without the blocks that p selects, which are cancelled (R35): their fragments are freed, and
the macro-op and the stream of their conductors end (R270). -/
def Image.dropBlocks (i : Image) (p : Block → Bool) : Image :=
  let gone := i.blocks.filter fun b => p b.2
  let out := fun bk => gone.any fun b => b.1 == bk
  let inGone := fun core slot => gone.any fun b => b.2.core == core && b.2.slots.contains slot
  let frees := fun core (e : Cocoon) => e.st != 0 && inGone core e.slot
  let freed := fun core (k : Core) => (k.cocoon.filter fun e => frees core e.2).length
  let wakes := fun core => i.cores.any fun c => c.1 == core && freed c.1 c.2 != 0
  { i with
    blocks := i.blocks.filter fun b => !out b.1
    threads := (i.threads.filter fun e => !out e.2.block).map fun e =>
      if e.2.run == .held && wakes (engOf e.1) then (e.1, { e.2 with run := .live }) else e
    fibres := i.fibres.filter fun e => !inGone (e.1 / 256) (e.1 / 8 % 32)
    cores := i.cores.map fun c => (c.1, { c.2 with
      cocoon := c.2.cocoon.map fun e => if frees c.1 e.2 then (e.1, { gen := e.2.gen }) else e
      freed := c.2.freed + freed c.1 c.2 })
    clusters := i.clusters.map fun c => (c.1,
      let k := gone.foldl (fun k b => k.leave b.1 true) c.2
      match c.2.bound with
      | some bk => if out bk then { k with bound := none } else k
      | none => k) }

/-- The blocks that the image in which a context stands holds. -/
def State.savedBlocks (s : State) (asid : Nat) : List Block :=
  (s.images.filter fun i => i.live && i.asid == asid).flatMap fun i => i.blocks.map (·.2)

/-- Cancelled blocks of a saved context leave its image. -/
def State.dropSaved (s : State) (asid : Nat) (p : Block → Bool) : State :=
  { s with images := s.images.map fun i => if i.live && i.asid == asid then i.dropBlocks p else i }

/-- One block cancelled on its own: it ends as if every live thread had executed exit, and counts as completed (R339),
whether it is placed, stands in its context's image, or is pending. A pending block is never placed; a claimed edge slot
of it is free again (R240). -/
def State.cancelBlock (s : State) (asid lid blk : Nat) : State :=
  let lk := gkey asid lid
  let note := s.modLaunch lk fun l => { l with cancelledBlocks := l.cancelledBlocks ++ [blk] }
  match s.blocks.find? fun e => e.2.isOf asid lid && e.2.blk == blk with
  | some e => (note.endBlock e.1).blockOver e.2
  | none =>
    match (s.savedBlocks asid).find? fun b => b.lid == lid && b.blk == blk with
    | some b => (note.dropSaved asid fun q => q.uid == b.uid).blockOver b
    | none =>
      match (s.launch lk).pending.find? fun p => p.1 == blk with
      | some p =>
        let s := match p.2 with | some e => note.edgeFree asid e 1 | none => note
        (s.modLaunch lk fun l => { l with
          pending := l.pending.erase p
          doneBlocks := l.doneBlocks ++ [blk] }).countBlock lk
      | none => s

/-- The final value of a launch's completion counter: its blocks (log 19). -/
def Launch.final (l : Launch) : Nat := if l.nblock = 0 then l.spawned else l.nblock

/-- A launch cancelled (R35): no block is placed any more, its placed and saved blocks end, the edge slots they held are
free again (R240), its ordered adds are discarded (R221), its counter takes its final value, and its status records the
cancellation. -/
def State.cancelOpen (s : State) (asid lid : Nat) : State :=
  let lk := gkey asid lid
  let l := s.launch lk
  let placed := s.placedOf asid lid
  let saved := (s.savedBlocks asid).filter fun b => b.lid == lid
  let edges := l.pending.filterMap (·.2) ++ (placed.map s.block ++ saved).filterMap (·.edge)
  let gone := l.pending.map (·.1) ++ (placed.map s.block ++ saved).map (·.blk)
  let s := (placed.foldl (fun s bk => s.endBlock bk) s).dropSaved asid fun b => b.lid == lid
  let s := edges.foldl (fun s e => s.edgeFree asid e 1) s
  s.modLaunch lk fun l => { l with
    st := 3, pending := [], queue := [], uncounted := [], count := l.final, cancelledBlocks := l.cancelledBlocks ++ gone }

/-- cancel.launch (R339): a launch that has completed is left as it is (R35). -/
def State.cancelLaunch (s : State) (asid lid : Nat) : State := if s.nodeOver asid lid then s else s.cancelOpen asid lid

/-- A graph instance cancelled, with every launch beneath it that has not completed (R35). -/
def State.cancelGraph (s : State) (asid gid : Nat) : State :=
  let gk := gkey asid gid
  match tget? s.graphs gk with
  | none => s
  | some g =>
    if g.st != 1 || s.graphOver asid g then s
    else
      let s := (g.nodes.filter fun lid => !s.nodeOver asid lid).foldl (fun s lid => s.cancelOpen asid lid) s
      { s with graphs := tset gk { g with st := 3, count := g.nodes.length } s.graphs }

/-- Sequences that belong to a job, waiting ones (STATE 0) among them. -/
def State.seqsOf (s : State) (job : Nat) : List Nat := (s.seqs.filter fun e => e.2.job == job).map (·.1)

/-- The phase's kept submissions, pending forks and requests of a job discarded (R313, R339). -/
def State.dropRequests (s : State) (job : Nat) : State :=
  let mine := fun q => (s.seqsOf job).contains q
  let kids := (s.forks.filter fun f => mine f.parent).map (·.child)
  { s with
    subs := s.subs.filter fun e => !mine (e.1 / 64)
    forks := s.forks.filter fun f => !mine f.parent
    cfgs := s.cfgs.filter fun e => !mine e.1
    sts := s.sts.filter fun e => !mine e.1
    prios := s.prios.filter fun e => !mine e.1
    seqs := s.seqs.filter fun e => !(kids.contains e.1 && e.2.reserved) }

/-- cancel.phase (R339): the graph instance is cancelled, the phase's requests are dropped, and the phase counts as
closed. -/
def State.cancelPhase (s : State) (job : Nat) : State :=
  let j := s.job job
  let s := (s.cancelGraph j.asid j.gcur).dropRequests job
  s.modJob job fun j => { j with closed := true, phaseCancelled := true }

/-- An unsolicited message that Imago sends (R405, R406), once the device is ready (R414). -/
def State.send (s : State) (e : Word → Egress) : State :=
  if s.boot.stage = .ready then { s with egress := e s.imagoReq :: s.egress, imagoReq := s.imagoReq + 1 } else s

/-- A REPORT message (R406). -/
def State.report (s : State) (asid kind : Nat) (ws : List Word) : State := s.send fun r => .report r asid kind ws

/-- What Imago reports beside ring records and stop records has the form of a stop record (R406, R377; log 30): the engine
and its kind, TCAUSE, PC, STATE1, STATE2 and FADDR. -/
def State.stopForm (s : State) (eng kind tcause : Nat) (pc st1 st2 addr : Word) (part asid : Nat) : List Word :=
  [word (eng * 2 ^ 48 + kind * 2 ^ 40 + tcause * 2 ^ 32), pc, st1, st2, addr, word (part * 2 ^ 16 + asid), (s.part part).phase, 0]

/-- A condition that Imago holds, reported. -/
def State.reportHeld (s : State) (eng kind tcause : Nat) (st1 addr : Word) (part asid : Nat) : State :=
  s.report asid 4 (s.stopForm eng kind tcause 0 st1 0 addr part asid)

/-- Words as bytes. -/
def bytesOf (ws : List Word) : List Byte := ws.flatMap fun w => leBytes 8 w.toNat

/-- A message body that a job releases, beside the message (R396). -/
def State.release (s : State) (job : Nat) (ws : List Word) : State := s.modJob job fun j => { j with out := j.out ++ bytesOf ws }

/-- A launch status word (R332). -/
def Launch.status (l : Launch) : Word := word (l.st % 8 * 2 ^ 61 + l.cause % 32 * 2 ^ 56 + l.flags.toNat)

/-- The status word of node k of a job, for its latest graph instance (R332); zero where there is none. -/
def State.launchWord (s : State) (j k : Nat) : Word :=
  let e := s.job j
  match tget? s.graphs (gkey e.asid e.glast) with
  | some g => if e.glast ≠ 0 ∧ k < g.nodes.length then (s.launch (gkey e.asid (g.nodes.getD k 0))).status else 0
  | none => 0

/-- The status words of a graph instance (R332). -/
def State.graphWords (s : State) (gk asid : Nat) : List Word :=
  match tget? s.graphs gk with
  | some g => g.nodes.map fun lid => (s.launch (gkey asid lid)).status
  | none => []

/-- The JOBEND message of a job that has finished or been cancelled (R406, R332). -/
def State.jobEnd (s : State) (job : Nat) : State :=
  let j := s.job job
  let ws := s.graphWords (gkey j.asid j.glast) j.asid
  (s.send fun r => .jobend j.conn r j.asid job j.state ws).release job (word job :: word j.state :: ws)

/-- Whether every launch of a job's graph instance has its final status: one that had completed before a cancel still
has its ordered adds to apply. -/
def State.allSettled (s : State) (j : Job) : Bool :=
  match tget? s.graphs (gkey j.asid j.gcur) with
  | some g => g.nodes.all fun lid => 2 ≤ (s.launch (gkey j.asid lid)).st
  | none => true

/-- JOBEND of a job that has been cancelled, once its launches have their final status words. -/
def State.endDue (s : State) (job : Nat) : State :=
  if (s.job job).owesEnd && s.allSettled (s.job job) then (s.modJob job fun j => { j with owesEnd := false }).jobEnd job else s

/-- cancel.job (R339): STATE 5, and everything beneath. -/
def State.cancelJob (s : State) (job : Nat) : State :=
  let j := s.job job
  if j.state = 4 ∨ j.state = 5 then s
  else ((s.cancelPhase job).modJob job fun j => { j with state := 5, owesEnd := true }).endDue job

/-! ### Terminating faults (R375, R376) -/

/-- Raising a partition's halt line, by an engine, with the address that caused the fault and the job that met it. A line
already raised keeps its TCAUSE. -/
def State.raiseHalt (s : State) (p tcause : Nat) (eng : Option Nat) (addr : Word := 0) (job : Option Nat := none) : State :=
  match (s.part p).halt with
  | some _ => s
  | none => s.modPart p fun q => { q with
      halt := some tcause, haltAt := eng, haltAddr := addr, haltJob := job, haltCtx := if q.run then some q.rasid else none }

/-- The test of R371: an exhaustion record that HEAD has passed, with no cocoon entry of its core freed since it was
written, raises the halt line with TCAUSE 2. HEAD is read at home,
once its line is readable (R388). -/
def State.checkHead (s : State) (asid : Nat) : State :=
  let c := s.ctx asid
  let ring := c.fpol &&& ~~~(0xFFFF : Word)
  if c.exh.isEmpty || ring == 0 || s.homeHeld asid 1 (ring + 8) 8 then s
  else match s.readHomeWord asid 1 (ring + 8) with
    | (none, s) => s
    | (some hd, s) =>
      let s := s.modCtx asid fun c => { c with exh := c.exh.filter fun e => hd.toNat ≤ e.1 }
      (c.exh.filter fun e => e.1 < hd.toNat).foldl (fun s e =>
        if (s.coreAt e.2.1).freed = e.2.2.1 then
          (match s.partOfEng e.2.1 with | some p => s.raiseHalt p 2 (some e.2.1) e.2.2.2.1 e.2.2.2.2 | none => s)
        else s) s

/-- The partition that runs a context, if any. -/
def State.partRunning (s : State) (asid : Nat) : Option Nat :=
  (s.parts.find? fun e => e.2.run && e.2.rasid == asid).map (·.1)

/-- Whether the halt line of an engine's partition is raised: nothing issues after it (R376). -/
def State.engHalted (s : State) (e : Nat) : Bool :=
  match s.partOfEng e with | some p => (s.part p).halt.isSome | none => false

/-- Whether an engine's partition runs a context, and none is being saved or restored there (R323, R379); stewards always
run. -/
def State.engRuns (s : State) (e : Nat) : Bool :=
  match s.partOfEng e with
  | some p => (s.part p).run && (s.part p).halt.isNone && (s.part p).saving.isNone
  | none => 864 ≤ e

/-- Whether a boundary of a partition's domain is under way. -/
def State.partBusy (s : State) (p : Nat) : Bool := (tget? s.bnd (s.domOf p)).isSome

/-- Whether a boundary of a context's domain is under way. -/
def State.ctxBusy (s : State) (asid : Nat) : Bool := (s.ctx asid).valid && s.partBusy (s.ctx asid).partNo

/-! ### Recording and replay (R396, R397) -/

/-- A record of a recorded job's run. -/
def State.record (s : State) (job : Nat) (r : Rec) : State :=
  if (s.job job).record then { s with recording := tset job (r :: tget [] s.recording job) s.recording } else s

/-- What a replay still demands at a choice point: the first remaining record that p selects. -/
def State.demanded {α : Type} (s : State) (p : Rec → Option α) : Option α :=
  match s.replayed with
  | some l => l.findSome? p
  | none => none

/-- A replayed record that has come about is passed. -/
def State.passRec (s : State) (r : Rec) : State := { s with replayed := s.replayed.map fun l => l.erase r }

end Sys2Proof.Machine
end

