-- ==== Sys2Proof/Machine/Ops.lean ====
section
/-! DEFINITION. Taking an exception and returning from one (R363-R367), fragment splits and cocoon exhaustion (R20-R30),
stop records (R377), and the shape that every memory instruction shares (R210, R211). -/
namespace Sys2Proof.Machine

open Sys2Proof

/-! ### Precise traps (R363-R366) -/

/-- Class, cause, sub-cause, INFO and address of a trap (R363, R365). -/
structure TrapInfo where
  cls : Nat
  cause : Nat
  sub : Nat := 0
  info : Nat := 0
  addr : Word := 0
  deriving DecidableEq, Repr

/-- The frame that a thread pushes (R365). -/
def trapFrame (ti : TrapInfo) (th : Thread) (rpc : Word) : TrapFrame where
  w0 := word (ti.cls * 2 ^ 56 + ti.cause * 2 ^ 48 + ti.sub * 2 ^ 40 + th.lvl.toNat * 2 ^ 32 + ti.info)
  tpc := th.pc
  rpc := rpc
  addr := ti.addr

/-- The handler PC for a class (R364, R366): word CLASS of the vector table, or word 0; 0 where there is none. The words
are read at home at supervisor level under the running context, for a steward under ASID 0 at level 2. -/
def State.handler (s : State) (tid cls : Nat) : Word × State :=
  let asid := s.asidOf tid
  let lvl := if kindOf tid = .stew then 2 else 1
  let vt := (s.ctx asid).tvec &&& ~~~(127 : Word)
  if vt = 0 then (0, s)
  else
    let r := s.readHomeWord asid lvl (vt + word (8 * cls))
    let h := r.1.getD 0
    if h ≠ 0 then (h, r.2)
    else
      let r0 := r.2.readHomeWord asid lvl vt
      (r0.1.getD 0, r0.2)

/-- Whether reading the vector table for a class is not ready: it lies in a poisoned line (R388). -/
def State.handlerHeld (s : State) (tid cls : Nat) : Bool :=
  let asid := s.asidOf tid
  let lvl := if kindOf tid = .stew then 2 else 1
  let vt := (s.ctx asid).tvec &&& ~~~(127 : Word)
  vt != 0 && !s.poison.isEmpty &&
    (s.homeHeld asid lvl (vt + word (8 * cls)) 8 ||
      ((s.readHomeWord asid lvl (vt + word (8 * cls))).1.getD 0 == 0 && s.homeHeld asid lvl vt 8))

/-- A stop record (R377), with a free SKID. -/
def State.stopRecord (s : State) (eng kind tcause : Nat) (pc st1 st2 faddr : Word) (part asid : Nat) : State :=
  let f := s.freeWord
  let w0 := word (eng * 2 ^ 48 + kind * 2 ^ 40 + tcause * 2 ^ 32 + f.1.toNat % 1025)
  let w5 := word (part * 2 ^ 16 + asid)
  { f.2 with stops := tset eng [w0, pc, st1, st2, faddr, w5, (s.part part).phase, 0] f.2.stops }

/-- A thread that escalates pushes no frame, is not ready, and is reported to Imago, which acts under ESC of the fault
policy (R367, R368). The report has the form of a stop record with TCAUSE 4: TPC as its PC, the frame's word 0 and RPC
as STATE1 and STATE2, ADDR as FADDR (log 30). A steward is reported in the same way, stops, and writes its stop record. -/
def State.escalate (s : State) (tid : Nat) (f : TrapFrame) : State :=
  let s := s.modThread tid fun th => { th with run := if kindOf tid = .stew then .stopped else .escalated, wait := .none }
  let kind := match kindOf tid with | .lane => 0 | .cond => 1 | .stew => 6
  let s := s.report (s.asidOf tid) 0
    (s.stopForm (engOf tid) kind 4 f.tpc f.w0 f.rpc f.addr ((s.partOfEng (engOf tid)).getD 0) (s.asidOf tid))
  if kindOf tid = .stew then s.stopRecord (engOf tid) 6 0 f.tpc 0 0 0 0 0
  else
    let b := s.block (s.thread tid).block
    let l := s.launch (gkey b.asid b.lid)
    match bits (s.ctx b.asid).fpol 5 2 with
    | 1 => s.cancelBlock b.asid b.lid b.blk
    | 2 => s.cancelJob l.job
    | 3 => (match s.partOfEng (engOf tid) with | some p => s.raiseHalt p 4 (some (engOf tid)) f.addr (some l.job) | none => s)
    | _ => s

/-- Delivering a trap to one thread (R364): the frame is pushed, the level rises, and the PC goes to the handler; with
four frames in use, or with no handler, the thread escalates. No register, predicate, flag or count changes. While the
vector table is not ready, the thread stays where it is, and meets its trap again (R388). -/
def State.deliver (s : State) (tid : Nat) (ti : TrapInfo) (rpc : Word) : State :=
  let th := s.thread tid
  let f := trapFrame ti th rpc
  if 4 ≤ th.traps.length then s.escalate tid f
  else if s.handlerHeld tid ti.cls then s.modThread tid fun th => { th with wait := .poison }
  else
    let h := s.handler tid ti.cls
    if h.1 = 0 then h.2.escalate tid f
    else h.2.modThread tid fun th =>
      { ({ th with traps := f :: th.traps, lvl := if kindOf tid = EngineKind.stew then 2 else 1 }).jump h.1 with vectored := true }

/-- Taking an exception: the trap is delivered to each thread named, in increasing lane number, with the return PC that
rpc gives (R364). A thread that an earlier delivery's policy has removed takes nothing. -/
def State.trapThreads (s : State) (tids : List Nat) (ti : TrapInfo) (rpc : Thread → Word) : State :=
  tids.foldl (fun s t => match tget? s.threads t with
    | some th => if th.run == .exited || th.run == .escalated || th.run == .stopped then s else s.deliver t ti (rpc th)
    | none => s) s

/-- A precise trap on the whole issue group; the return PC is the instruction's own (R364, R365). -/
def State.trapGroup (s : State) (ti : TrapInfo) : State := s.trapThreads s.cur.tids ti fun th => th.pc

/-- The same where the trap belongs to a latch chain that is under way: the return PC is the chain start (R30). -/
def State.trapChain (s : State) (ti : TrapInfo) : State :=
  s.trapThreads s.cur.tids ti fun th => if th.chain.used = 0 then th.pc else th.chain.start

/-- trap and brk: only the true-guard lanes trap, and return to the next PC; the others go there (R192). -/
def State.trapNext (s : State) (h : Hdr) (ti : Nat → TrapInfo) : State :=
  let act := s.active h.guard
  let n := s.cur.next
  let s := s.mapGroup fun t th => if act.contains t then th else th.adv n
  act.foldl (fun s t => s.trapThreads [t] (ti t) fun th => th.pc + word n) s

/-- Returning from an exception (R367): the top frame is popped, and the PC, the level and TDEPTH are as it says. -/
def Thread.returnFrom (th : Thread) (f : TrapFrame) (rest : List TrapFrame) : Thread :=
  ({ th with traps := rest, lvl := f.w0.extractLsb' 32 2 }).jump f.rpc

/-- Illegal instruction with a cause of R124. -/
def illegal (cause : Nat) : TrapInfo := { cls := 1, cause }

/-- Illegal mask (R16, R124 cause 0x0D): sub-cause 1 omitted lane, 2 mismatch. -/
def illegalMask (sub : Nat) : TrapInfo := { cls := 2, cause := 13, sub }

def controlTrap (cause : Nat) : TrapInfo := { cls := 4, cause }
def memTrap (cause : Nat) (addr : Word) : TrapInfo := { cls := 5, cause, addr }
def sysTrap (cause : Nat) : TrapInfo := { cls := 9, cause }

/-! ### Fragments (R20-R30) -/

/-- The next value of a context's resolution sequence counter (R25). -/
def rsnNext (r : BitVec 32) : BitVec 32 := if r = 0xFFFFFFFF then 1 else r + 1

/-- A lane's recoverable fault: what R23 records of it. -/
structure LaneFault where
  tid : Nat
  va : Word
  tcode : Nat
  lvl : Nat
  acc : Nat := 0
  deriving DecidableEq, Repr

/-- The lane mask of threads of one warp. -/
def maskOf (tids : List Nat) : Half := tids.foldl (fun m t => m ||| BitVec.ofNat 32 (2 ^ laneOf t)) 0

/-- The entry that a new fragment takes: the lowest free one, if any (R23, R29). R24 gives no order among the free entries
and shows the choice in the fragment's identity; the lowest is this model's choice (log 61). -/
def State.freeCocoon (s : State) (core : Nat) : Option Nat :=
  (List.range Config.nCocoon).find? fun i => (tget {} (s.coreAt core).cocoon i).st == 0

/-- Words 1 to 4 of a cocoon entry (R373); word 0 needs its number. -/
def Cocoon.word0 (e : Cocoon) (core n : Nat) : Word := word (e.lanes.toNat * 2 ^ 32 + core * 2 ^ 22 + n * 2 ^ 16 + e.gen.toNat)
def Cocoon.word1 (e : Cocoon) : Word :=
  word (e.rsn.toNat * 2 ^ 32 + e.st * 2 ^ 30 + e.slot * 2 ^ 16 + e.tcode * 2 ^ 12 + e.level * 2 ^ 10 + e.acc * 2 ^ 8 + e.kind)

/-- Parking faulting lanes in a new fragment (R21, R23, R25): kind 1 translation, 2 spill, 3 decompression timeout; the
record is the lowest faulting lane's. RESUMED is cleared (R10). The lanes stay at their PC. -/
def State.park (s : State) (core n : Nat) (fs : List LaneFault) (kind : Nat) : State :=
  match fs with
  | [] => s
  | f :: _ =>
    let b := s.block (s.thread f.tid).block
    let asid := b.asid
    let old := tget {} (s.coreAt core).cocoon n
    let rsn := (s.ctx asid).rsn
    let diff := maskOf ((fs.filter fun g => g.va.toNat / 65536 != f.va.toNat / 65536).map (·.tid))
    let e : Cocoon := { gen := old.gen + 1, st := 1, slot := slotOf f.tid, lanes := maskOf (fs.map (·.tid)),
                        pc := (s.thread f.tid).pc, rsn, tcode := f.tcode, level := f.lvl, acc := f.acc, kind, va := f.va, diff }
    let s := s.modCore core fun k => { k with cocoon := tset n e k.cocoon }
    let s := s.modCtx asid fun c => { c with
      rsn := rsnNext rsn
      faults := c.faults ++ [{ kind := 1, core, entry := n, rsn, w0 := 0, w1 := 0, w2 := 0, w3 := 0, w4 := 0 }] }
    fs.foldl (fun s g => s.modThread g.tid fun th => { th with run := .parked n, resumed := false, wait := .none }) s

/-- Cocoon exhaustion (R29, R370): the group is held, and a record is due for presentation. RESUMED of the faulting lanes
is cleared (R10). -/
def State.exhaust (s : State) (core : Nat) (fs : List LaneFault) (kind : Nat) : State :=
  match fs with
  | [] => s
  | f :: _ =>
    let asid := (s.block (s.thread f.tid).block).asid
    let rsn := (s.ctx asid).rsn
    let diff := maskOf ((fs.filter fun g => g.va.toNat / 65536 != f.va.toNat / 65536).map (·.tid))
    let e : Cocoon := { st := 0, slot := slotOf f.tid, lanes := maskOf s.cur.tids, pc := (s.thread f.tid).pc, rsn,
                        tcode := f.tcode, level := f.lvl, acc := f.acc, kind, va := f.va, diff }
    let w0 := word (e.lanes.toNat * 2 ^ 32 + core * 2 ^ 22)
    let r : FaultRec := { kind := 2, core, entry := 0, rsn, w0, w1 := e.word1, w2 := e.va, w3 := e.pc, w4 := word diff.toNat
                          job := some (s.jobOf (s.block (s.thread f.tid).block)) }
    let s := s.modCtx asid fun c => { c with rsn := rsnNext rsn, faults := c.faults ++ [r] }
    s.mapGroup fun t th => { th with run := .held, wait := .none, resumed := th.resumed && !fs.any fun g => g.tid == t }

/-- Freeing a cocoon entry in use; threads held on the core issue again (R29). -/
def State.freeEntry (s : State) (core n : Nat) : State := s.freeEntries core fun i _ => i == n

/-! ### The shape of a memory instruction (R21, R210, R211) -/

/-- What the address checks of a lane find: DPAs of its accesses, or the translation failure. -/
abbrev LaneX := Except XFault (List (List Nat))

/-- Whether the translations that follow walk anew (R374). -/
def State.walkAnew (s : State) (b : Bool) : State := { s with cur := { s.cur with newWalk := b } }

/-- Translating several spans for one lane under a context, in order; the first accesses of a resumed lane walk anew
(R374). -/
def State.xlateUnder (s : State) (tid asid : Nat) (l : List (Acc × Word × Nat)) : LaneX × State :=
  let r := l.foldl (fun (r : LaneX × State) e =>
    match r.1 with
    | .error x => (.error x, r.2)
    | .ok ds =>
      let q := r.2.xlateSpan asid (s.thread tid).lvl.toNat e.1 e.2.1 e.2.2
      (match q.1 with | .ok d => .ok (ds ++ [d]) | .error x => .error x, q.2))
    (.ok [], s.walkAnew ((s.thread tid).rewalk || s.cur.newWalk))
  (r.1, r.2.walkAnew s.cur.newWalk)

/-- The same under the lane's own context (R350). -/
def State.xlateSpans (s : State) (tid : Nat) (l : List (Acc × Word × Nat)) : LaneX × State := s.xlateUnder tid (s.asidOf tid) l

/-- Translations of the lanes of a group, lane by lane (R210 step 3). -/
def State.xlateLanes (s : State) (tids : List Nat) (spans : Nat → List (Acc × Word × Nat)) : List (Nat × LaneX) × State :=
  tids.foldl (fun r t => let q := r.2.xlateSpans t (spans t); (r.1 ++ [(t, q.1)], q.2)) ([], s)

def laneErr : LaneX → Option XFault | .error e => some e | .ok _ => none
def laneOk : LaneX → List (List Nat) | .ok l => l | .error _ => []

/-- Lanes that must wait: they stay at their PC, not ready for the reason given (R12). -/
def State.waitLanes (s : State) (tids : List Nat) (w : Wait) : State :=
  tids.foldl (fun s t => s.modThread t fun th => { th with wait := w }) s

/-- Whether a failed translation is a recoverable fault of a lane (R20): on a lane core (log 21), where the fault policy marks
it; a spill or refill of the call stack (kind 2) always (R191). -/
def State.recoverable (s : State) (kind tid : Nat) (x : XFault) : Bool :=
  kindOf tid == .lane && (kind == 2 || (s.ctx (s.asidOf tid)).resolvable x.tcode)

/-- The end of a memory instruction's translations. A lane's fault that is not recoverable makes the whole group trap
(R210). Else, while a lane's walk is not ready, the group waits (R388). With recoverable faults only, the faulting lanes
park and the others perform (R21), or the group is held where the cocoon table is full (R29). perform receives the lanes
that act, with their DPAs. -/
def State.splitGroup (s : State) (h : Hdr) (rs : List (Nat × LaneX)) (trap : XFault → TrapInfo) (kind : Nat)
    (perform : List (Nat × List (List Nat)) → State → State) : State :=
  let bad := rs.filterMap fun r => (laneErr r.2).map fun e => (r.1, e)
  let good := (rs.filter fun r => (laneErr r.2).isNone).map fun r => (r.1, laneOk r.2)
  let hard := bad.find? fun r => !r.2.waits && !s.recoverable kind r.1 r.2
  let idle := fun (s : State) => s.mapGroup fun _ th => if th.guardTrue h.guard then th else th.adv s.cur.next
  match hard with
  | some r => s.trapGroup (trap r.2)
  | none =>
    if bad.isEmpty then perform good (idle s)
    else if bad.any fun r => r.2.waits then (idle s).waitLanes (rs.map (·.1)) .poison
    else
      let fs := bad.map fun r =>
        ({ tid := r.1, va := r.2.va, tcode := r.2.tcode, lvl := r.2.lvl, acc := r.2.acc } : LaneFault)
      match s.freeCocoon s.curEng with
      | none => s.exhaust s.curEng fs kind
      | some n => perform good ((idle s).park s.curEng n fs kind)

/-- One lane performs its part and finishes. -/
def State.finishLane (s : State) (h : Hdr) (tid : Nat) (f : Thread → Thread) : State :=
  s.modThread tid fun th => (f th).finish h s.cur.next

/-- The first trap that a check finds over the true-guard lanes, cause by cause in table order: checks are pairs of a
trap and the lanes' test, and the first check that some lane fails decides (R210). -/
def firstTrap (tids : List Nat) (checks : List (Nat → Option TrapInfo)) : Option TrapInfo :=
  checks.findSome? fun c => tids.findSome? c

end Sys2Proof.Machine
end

