-- ==== Sys2Proof/Machine/Issue.lean ====
section
/-! DEFINITION. What comes before an instruction acts: its fetch (R96), dictionary entries (R118), the register budget
(R32), latch chains (R111, R112), eligibility (R12, R105, R106, R109) and the rejoining of resolved fragments (R26). -/
namespace Sys2Proof.Machine

open Sys2Proof

/-! ### Fetch (R96, R363 class 0x03) -/

/-- Instruction-fetch traps (R363): 1 translation, 2 non-canonical. -/
def fetchTrap (cause : Nat) (addr : Word) : TrapInfo := { cls := 3, cause, addr }

/-- The launch whose code a thread runs; a conductor's is its bound block's (R96). -/
def State.launchOf (s : State) (t : Nat) : Launch :=
  let b := s.block (s.thread t).block
  s.launch (gkey b.asid b.lid)

/-- Why a word of code cannot be had: a trap, or a poisoned line that holds it (R388). -/
inductive FetchErr where
  | trap (ti : TrapInfo)
  | wait
  deriving DecidableEq, Repr

/-- A byte of another device's memory as a launch's code image holds it: a free value, fixed for the launch once read
(R96, log 12). -/
def State.remoteCode (s : State) (lk dpa : Nat) : Byte × State :=
  match tget? (s.launch lk).rimage dpa with
  | some b => (b, s)
  | none =>
    let b := Config.freeByte s.ctr
    (b, { s with ctr := s.ctr + 1 }.modLaunch lk fun l => { l with rimage := tset dpa b l.rimage })

/-- One word of code at an 8-aligned address: from the launch's image of home, as it stood when the launch was
instantiated; a steward, which runs no launch, reads home. -/
def State.fetchWord (s : State) (t : Nat) (va : Word) : Except FetchErr Word × State :=
  if !canonical va then (.error (.trap (fetchTrap 2 va)), s)
  else match s.xlate (s.asidOf t) (s.thread t).lvl.toNat .fetch va with
    | (.fail c _, s) => (.error (if c = notReadyCode then .wait else .trap (fetchTrap 1 va)), s)
    | (.ok dpa _, s) =>
      let b := s.block (s.thread t).block
      let lk := gkey b.asid b.lid
      if s.poisoned (addrsOf dpa 8) then (.error .wait, s)
      else if kindOf t = .stew then let r := s.homeAll (addrsOf dpa 8); (.ok (word (leNat r.1)), r.2)
      else if s.isLocal dpa then (.ok ((s.launch lk).image.word (dpa % devBytes)), s)
      else
        let r := (addrsOf dpa 8).foldl (fun (r : List Byte × State) a => let q := r.2.remoteCode lk a; (r.1 ++ [q.1], q.2)) ([], s)
        (.ok (word (leNat r.1)), r.2)

/-- What a fetch gives: an instruction with the distance to the next PC; the illegal-instruction cause of R124, with the
word that raises it, which for a dictionary word is the entry of its code; a fetch trap; or nothing yet. -/
inductive Fetched where
  | ok (i : Instr) (next : Nat)
  | illegal (cause : Nat) (w : Word)
  | trap (ti : TrapInfo)
  | wait
  deriving Repr

/-- A dictionary entry of the launch that thread t runs. -/
def State.dictWord (s : State) (t : Nat) (idx : BitVec 10) : Word := tget 0 (s.launchOf t).dict idx.toNat

/-- The instruction that a dictionary code executes for thread t (R118, R120). -/
def State.dictEntry (s : State) (t : Nat) (off : BitVec 6) (idx : BitVec 10) : Dec Instr :=
  decodeEntry off.toNat (s.dictWord t idx)

/-- The code of a dictionary word in a slot: its offset and its index (R117). -/
def codeOf (slot : BitVec 3) (w : Word) : BitVec 6 × BitVec 10 :=
  let c : BitVec 16 := w.extractLsb' (16 * (slot.extractLsb' 1 2).toNat) 16
  (c.extractLsb' 10 6, c.extractLsb' 0 10)

/-- The first cause of R124 where the decoder gives c for a first word w: of a dictionary word whose reserved bits are set
(cause 6), an entry's causes 2 to 5 come before. -/
def State.firstCause (s : State) (t : Nat) (slot : BitVec 3) (w : Word) (c : Nat) : Nat :=
  if bits w 62 2 = 2 ∧ c = 6 then
    match s.dictEntry t (codeOf slot w).1 (codeOf slot w).2 with
    | .error e => min e.toNat c
    | .ok _ => c
  else c

/-- Fetching words at va until the decoder has what it needs. -/
def State.fetchFrom (s : State) (t : Nat) (slot : BitVec 3) (va : Word) : Nat → List Word → Fetched × State
  | 0, _ => (.illegal 4 0, s)
  | n + 1, ws =>
    match s.fetchWord t (va + word (8 * ws.length)) with
    | (.error .wait, s) => (.wait, s)
    | (.error (.trap ti), s) => (.trap ti, s)
    | (.ok w, s) =>
      match decode (kindOf t) slot (ws ++ [w]) with
      | .ok i next => (.ok i next, s)
      | .illegal c =>
        let w0 := (ws ++ [w]).headD 0
        let of := if bits w0 62 2 = 2 ∧ c ≠ 1 then s.dictWord t (codeOf slot w0).2 else w0
        (.illegal (s.firstCause t slot w0 c.toNat) of, s)
      | .truncated => s.fetchFrom t slot va n (ws ++ [w])

/-- The instruction at a thread's PC. -/
def State.fetch (s : State) (t : Nat) : Fetched × State :=
  let pc := (s.thread t).pc
  s.fetchFrom t (pc.extractLsb' 0 3) (pc &&& ~~~(7 : Word)) 7 []

/-- The instruction whose operation and scheduling fields count: a dictionary code's entry, else itself. -/
def State.effective (s : State) (t : Nat) : Instr → Dec Instr
  | .dictionaryCode off idx => s.dictEntry t off idx
  | i => .ok i

/-! ### What an instruction's fields name -/

/-- The three register fields of a full or long word with their uses. -/
def instrUses (i : Instr) : List (FieldUse × BitVec 8) :=
  match encode i with
  | [] => []
  | w :: ws =>
    let f := Fields.unpack w
    match (if w.getLsbD 63 then fmtLong f ws else fmtFull .lane f) with
    | some m => [(m.d, f.dest), (m.a, f.srca), (m.b, f.srcb)]
    | none => []

/-- A field that names a source may name a latch (R99). -/
def useSrc : FieldUse → Bool | .src | .evenSrc => true | _ => false

def isLatch (v : BitVec 8) : Bool := 248 ≤ v.toNat && v.toNat ≤ 251

/-- Whether a word that is no instruction names a latch among its sources, as far as its opcode gives its fields a use
(R99, R111). -/
def wordLatch (w : Word) : Bool :=
  let f := Fields.unpack w
  let names := fun (m : Option Fmt) => match m with
    | some m => [(m.d, f.dest), (m.a, f.srca), (m.b, f.srcb)].any fun u => useSrc u.1 && isLatch u.2
    | none => false
  match bits w 62 2 with
  | 0 => names (fmtFull .lane f)
  | 1 => (bits w 39 7 != 0 && isLatch (w.extractLsb' 23 8)) || (bits w 16 7 != 0 && isLatch (w.extractLsb' 0 8))
  | 3 => names (fmtLong f [])
  | _ => false

def useReg : FieldUse → Bool | .src | .evenSrc | .dst | .evenDst => true | _ => false

/-- What issue needs to know of an instruction: latches read, registers named, registers and predicates read and written
for the chain rule (predicate p as 256 + p), chain positions, whether it may stand in a chain, and its wait, set and
guard fields. -/
structure Info where
  lat : List Nat := []
  regs : List Nat := []
  reads : List Nat := []
  writes : List Nat := []
  pos : Nat := 1
  chainable : Bool := false
  wait : BitVec 12 := 0
  set : BitVec 4 := 15
  guard : BitVec 4 := 0xE
  deriving Repr

/-- Whether an opcode is of class A or M (R125). -/
def opChains (op : Nat) : Bool :=
  (1 ≤ op && op ≤ 0x88) || (0x8F ≤ op && op ≤ 0x91) || (0xC0 ≤ op && op ≤ 0xC5) || op == 0xC9

/-- Predicate p as a name in a chain's sets; p7 is a constant. -/
def predName (p : BitVec 3) : List Nat := if p = 7 then [] else [256 + p.toNat]

/-- The names of a source and a destination. -/
def srcName : Src → List Nat | .w n => [n.toNat] | _ => []
def dstName : Dst → List Nat | .w n => [n.toNat] | _ => []
def latName : Src → List Nat | .b n => [n.toNat] | _ => []

/-- Predicates that an instruction reads beside its guard, and those it writes. -/
def predsOf : Instr → List Nat × List Nat
  | .addc _ _ c _ _ _ | .subb _ _ c _ _ _ => (predName c, predName c)
  | .sel _ p _ _ _ => (predName p, [])
  | .setp _ _ _ p _ _ | .fsetp _ _ _ p _ _ => ([], predName p)
  | _ => ([], [])

/-- The destination that an instruction also reads (R154). -/
def ownRead : Instr → List Nat
  | .fma _ _ _ d _ _ | .mad _ _ _ d _ _ | .madh _ _ d _ _ | .bfi _ _ d _ _ | .bsel _ d _ _ | .sacc _ _ d _ _
  | .pdot _ _ d _ _ => dstName d
  | _ => []

/-- One half of a pair: latches read, registers read, register written, positions (R112, R114). -/
def halfInfo : PairHalf → List Nat × List Nat × List Nat × Nat
  | .empty => ([], [], [], 0)
  | .op o d s => (latName s, srcName s ++ (if o = .mov then [] else [d.toNat]), [d.toNat], 1)

/-- Registers that an instruction names beyond its fields: the ranges of fence.seize (R227). -/
def moreRegs : Instr → List Nat
  | .fenceSeize _ k d _ _ => [srcNum d + 2 * k.toNat + 1]
  | _ => []

/-- The information of an instruction. -/
def instrInfo (i : Instr) : Info :=
  match i with
  | .pairWord _ wait x y =>
    let a := halfInfo x
    let b := halfInfo y
    { lat := a.1 ++ b.1, regs := a.2.1 ++ a.2.2.1 ++ b.2.1 ++ b.2.2.1, reads := a.2.1 ++ b.2.1, writes := a.2.2.1 ++ b.2.2.1,
      pos := a.2.2.2 + b.2.2.2, chainable := true, wait }
  | _ =>
    let w := (encode i).headD 0
    let f := Fields.unpack w
    let us := instrUses i
    let srcs := (us.filter fun u => useSrc u.1).map fun u => u.2.toNat
    let dsts := (us.filter fun u => u.1 == .dst && f.s == 0).map fun u => u.2.toNat
    { lat := (srcs.filter fun n => 248 ≤ n && n ≤ 251).map (· - 248)
      regs := ((us.filter fun u => useReg u.1 && u.2.toNat < 248).map fun u => u.2.toNat) ++ moreRegs i
      reads := (srcs.filter (· < 248)) ++ ownRead i ++ (predsOf i).1 ++ predName (f.hdr.guard.extractLsb' 1 3)
      writes := dsts ++ (predsOf i).2
      chainable := !w.getLsbD 63 && opChains f.op.toNat
      wait := f.hdr.wait, set := f.hdr.set, guard := f.hdr.guard }

/-! ### Eligibility (R12, R105, R106, R109) -/

/-- exit and suspend issue only when every flag is done (R109). -/
def needsAll : Instr → Bool
  | .exit _ | .suspendK _ _ _ | .suspendR _ _ _ => true
  | _ => false

/-- Whether a thread is live on an engine that may issue (R12, R323, R376); a conductor with a matrix trap due takes that
trap first (R269). -/
def State.canIssue (s : State) (t : Nat) : Bool :=
  match tget? s.threads t with
  | none => false
  | some th =>
    th.run == .live && s.engRuns (engOf t) && !(kindOf t == .cond && (s.cluster (clusterOf (engOf t))).de.trap)

/-- The flags that an instruction waits on are done, and its own count has room. -/
def Thread.meets (th : Thread) (i : Instr) (f : Info) : Bool :=
  ((List.range 12).all fun c => !f.wait.getLsbD c || th.flagCount c == 0)
    && (12 ≤ f.set.toNat || !th.guardTrue f.guard || th.flagCount f.set.toNat < 63)
    && (!needsAll i || th.flags.isEmpty)

/-! ### The register budget and the chain rule (R32, R112) -/

/-- The granule of a block's registers in which register r of its warp w lies: the warps' registers in warp order, 64 to a
granule (R76, R77, log 59). -/
def regGranule (pool : Word) (w r : Nat) : Nat := (regBase pool w + r) / 64

/-- Whether an instruction names a register in a poisoned granule: it is not ready (R388). -/
def State.regsHeld (s : State) (t : Nat) (f : Info) : Bool :=
  kindOf t == .lane && !s.poisonPool.isEmpty &&
    (let bk := (s.thread t).block
     let b := s.block bk
     f.regs.any fun r => s.poisonPool.contains (granKey bk 0 (regGranule b.pool (b.warpNo (slotOf t)) r)))

/-- A register at or above the role's budget is named. -/
def State.overBudget (s : State) (t : Nat) (f : Info) : Bool := f.regs.any fun r => s.budget t ≤ r

/-- The chain after an instruction at pc, issued in its core's given turn: continued where it reads a latch, else begun
(R111). The latest member's own re-execution after a wait is no further position. -/
def Chain.add (c : Chain) (f : Info) (pc : Word) (turn : Nat) : Chain :=
  if f.lat.isEmpty then
    { used := f.pos, start := pc, last := some pc, ok := f.chainable, reads := f.reads, writes := f.writes, born := turn }
  else if c.last = some pc then c
  else
    { c with used := c.used + f.pos, last := some pc, ok := c.ok && f.chainable, reads := c.reads ++ f.reads
             writes := c.writes ++ f.writes, pos := c.used }

/-- The latches as an instruction of a chain meets them: the values pushed by position are kept from the chain's start on,
and its own push is the value of its position (R111). -/
def Latches.at_ (l : Latches) (pos : Nat) : Latches := { l with vals := if pos = 0 then [] else l.vals, next := pos }

/-- Rule 5 of R112 holds for the members so far. -/
def Chain.clean (c : Chain) : Bool := !c.writes.any fun w => c.reads.contains w

/-- Whether a latch reader at pc breaks a rule of R112 for a thread whose chain so far is c. -/
def Chain.broken (c : Chain) (f : Info) (pc : Word) : Bool :=
  let c' := c.add f pc 0
  c.last != some pc && (!(f.lat.all fun n => n < c.used) || 8 < c'.used || !c'.ok || f.wait != 0 || !c'.clean)

/-- The trap that issue finds for a group about to execute an instruction: cause 0x09, then 0x0A (R124). -/
def State.issueTrap (s : State) (ts : List Nat) (f : Info) : Option TrapInfo :=
  if kindOf (ts.headD 0) ≠ .lane then none
  else if ts.any fun t => s.overBudget t f then some (illegal 9)
  else if !f.lat.isEmpty && ts.any fun t => (s.thread t).chain.broken f (s.thread t).pc then some (illegal 10)
  else none

/-- An instruction that waits on flags, or on all of them, is ordered after the thread's retired copies that set them
(R271). -/
def Thread.joinLanded (eng : Nat) (wait : BitVec 12) (all : Bool) (th : Thread) : Thread :=
  let on := fun (e : Nat × Nat) => all || wait.getLsbD e.1
  { th with
    vc := (th.landed.filter on).foldl (fun m e => tput 0 (copyKey eng e.2) 1 m) th.vc
    landed := th.landed.filter fun e => !on e }

/-- An issue is a turn of its engine (R336), be it that the instruction performs or that its group traps. -/
def State.noteTurn (s : State) : State :=
  let e := s.curEng
  let s := { s with lastEng := e }
  if kindOf s.lead_ ≠ .lane then s
  else
    let n := (s.coreAt e).turns + 1
    (s.mapGroup fun _ th => { th with issued := n, since := none }).modCore e fun k => { k with turn := slotOf s.lead_, turns := n }

/-- What an issue changes beside the instruction's effect: the engine's last PC (R377), the turn, the order of retired
copies that it waits on, and the chains and latch positions of a lane core's threads. -/
def State.noteIssue (s : State) (i : Instr) (f : Info) : State :=
  let e := s.curEng
  let s := (s.modEng e fun m => { m with lastPc := (s.thread s.lead_).pc }).noteTurn
  if kindOf s.lead_ ≠ .lane then s
  else s.mapGroup fun _ th =>
    let c := th.chain.add f th.pc (s.coreAt e).turns
    { th.joinLanded e f.wait (needsAll i) with chain := c, lat := th.lat.at_ c.pos }

/-- Resolved entries of a core whose lanes are about to issue again are freed (R26). Where the lanes of one fragment issue
again in separate groups, the entry is freed as the first of them issues: R26 does not say, and this is the model's choice
(log 62). -/
def State.rejoin (s : State) : State :=
  if kindOf s.lead_ ≠ .lane then s
  else
    let m := maskOf s.cur.tids
    let back := (s.coreAt s.curEng).cocoon.filter fun e =>
      e.2.st == 2 && e.2.slot == slotOf s.lead_ && e.2.lanes &&& m != 0 && e.2.pc == (s.thread s.lead_).pc
    back.foldl (fun s e => s.freeEntry s.curEng e.1) s

/-- Whether a thread's next instruction reads a latch; none where the instruction cannot be fetched. -/
def State.chainNext (s : State) (t : Nat) : Option Bool :=
  match (s.fetch t).1 with
  | .ok i _ => some (match s.effective t i with
    | .ok j => !(instrInfo j).lat.isEmpty
    | .error _ => wordLatch (match i with | .dictionaryCode _ idx => s.dictWord t idx | _ => 0))
  | .illegal _ w => some (wordLatch w)
  | .trap _ | .wait => none

/-- Whether a thread's next instruction reads a latch of a chain that is under way (R30). -/
def State.inChain (s : State) (t : Nat) : Bool :=
  kindOf t == .lane && (s.thread t).chain.used != 0 && s.chainNext t == some true

/-- Where a thread goes on whose next instruction cannot be fetched (R30, R365): at the start of its chain where a latch
reader of it has issued; where only its first instruction has, what stands at the PC is not known, and a chain that could be
run again may go on there, so that a free choice c decides; else at the PC (log 58). -/
def Thread.fetchReturn (c : Bool) (th : Thread) : Word :=
  let k := th.chain
  if k.used = 0 then th.pc else if k.pos ≠ 0 ∨ (k.ok ∧ k.clean ∧ c) then k.start else th.pc

/-- Where a thread goes on that a forced switch stops: inside a latch chain at the chain's start (R30). -/
def State.switchPc (s : State) (c : Bool) (t : Nat) : Word :=
  let th := s.thread t
  if kindOf t ≠ .lane ∨ th.chain.used = 0 then th.pc
  else match s.chainNext t with
    | some r => if r then th.chain.start else th.pc
    | none => th.fetchReturn c

/-! ### One turn of an engine (R12, R14, R97, R123) -/

/-- The threads that issue with lead: of its warp or engine, at its PC and level, able to issue, and named by the turn;
the next member of a chain under way issues with the chain's group and with no other thread (R14). In increasing lane
number. -/
def State.groupOf (s : State) (lead : Nat) (tids : List Nat) : List Nat :=
  let th := s.thread lead
  let chained := s.inChain lead
  let same := fun (e : Nat × Thread) => s.canIssue e.1 && e.2.pc == th.pc && e.2.lvl == th.lvl
    && (if kindOf lead = .lane then e.1 / 32 == lead / 32 else e.1 == lead)
    && (if chained then e.2.chain == th.chain else tids.contains e.1 && !s.inChain e.1)
  (s.threads.filter same).map (·.1)

/-- The row of the table that an instruction of a shared word is (log 8): seq.st by the OP of the lowest lane's register
(R307), csrw by its register (R246, R321, R322). -/
def State.row (s : State) (i : Instr) : Instr :=
  match i with
  | .seqStPause h a b =>
    match bits (((s.active h.guard).head?.map fun t => s.src t a).getD 0) 16 3 with
    | 0 => .seqStPause h a b
    | 1 => .seqStResume h a b
    | 2 => .seqStSwap h a b
    | 3 => .seqStRelease h a b
    | _ => .seqStPriority h a b
  | .csrw h n a =>
    let v := ((s.active h.guard).head?.map fun t => s.src t a).getD 0
    if n = 0x0C0 then .cbindWrite h a
    else if n = 0x819 then (if bit v 0 then .keyLoad h a else .keyErase h a)
    else if n = 0x830 ∧ bit v 63 then .contextCreate h a
    else .csrw h n a
  | i => i

/-- What a turn comes to before the instruction acts: no thread of that number, a state (nothing issued, or a trap taken),
or an instruction that acts on the group in cur. -/
inductive Prepared where
  | noThread (tid : Nat)
  | done (s : State)
  | run (i : Instr) (s : State)
  deriving Repr

/-- An illegal instruction of R124, raised by word w: where the word reads a latch, the group may stand inside a latch
chain, and returns to its start (R30, R123). -/
def State.trapIllegal (s : State) (c : Nat) (w : Word) : State :=
  if wordLatch w then s.trapChain (illegal c) else s.trapGroup (illegal c)

/-- A trap that the fetch itself raises. -/
def State.trapFetch (s : State) (ti : TrapInfo) : State :=
  if kindOf s.lead_ ≠ .lane then s.trapGroup ti
  else s.choose.2.trapThreads s.cur.tids ti (Thread.fetchReturn s.choose.1)

/-- A PC that R119 forbids: an illegal instruction, code slot, except on the arrival that a trap's delivery has made,
where it is an instruction-fetch trap (R364); which of its causes, R363 does not say, and a free choice decides
(log 58). -/
def State.trapSlot (s : State) (w : Word) : State :=
  let sent := s.cur.tids.filter fun t => (s.thread t).vectored
  let rest := s.cur.tids.filter fun t => !(s.thread t).vectored
  let s := if rest.isEmpty then s else { s with cur := { s.cur with tids := rest } }.trapIllegal 1 w
  if sent.isEmpty then s
  else s.choose.2.trapThreads sent (fetchTrap (if s.choose.1 then 1 else 2) (s.thread (sent.headD 0)).pc) fun th => th.pc

/-- Whether the members of a chain under way must issue together: all of them, or none (R14). -/
def State.chainBound (s : State) (t : Nat) (f : Info) : Bool :=
  kindOf t == .lane && !f.lat.isEmpty && (s.thread t).chain.used != 0

/-- The issue of an instruction fetched at the group's PC: eligibility, then the traps that issue finds. -/
def State.prepareAt (s : State) (lead : Nat) (i : Instr) (n : Nat) : Prepared :=
  match s.effective lead i with
  | .error c => .done (s.noteTurn.trapIllegal c.toNat (match i with | .dictionaryCode _ idx => s.dictWord lead idx | _ => 0))
  | .ok j =>
    let f := instrInfo j
    let ts := s.cur.tids.filter fun t => (s.thread t).meets j f
    let all := s.cur.tids
    let s := { s with cur := { s.cur with tids := ts, next := n } }
    if ts.isEmpty ∨ (s.chainBound lead f ∧ ts ≠ all) then .done s
    else match s.issueTrap ts f with
      | some ti => .done (if f.lat.isEmpty then s.noteTurn.trapGroup ti else s.noteTurn.trapChain ti)
      | none =>
        if ts.any fun t => s.regsHeld t f then .done (s.waitLanes ts .poison)
        else .run (s.row i) (s.noteIssue j f).rejoin

/-- One turn of the threads named: the group forms, fetches, and issues. -/
def State.prepare (s : State) (tids : List Nat) : Prepared :=
  match tids.find? (threadLimit ≤ ·) with
  | some t => .noThread t
  | none =>
    match tids.find? s.canIssue with
    | none => .done { s with cur := {} }
    | some lead =>
      let cur : Cur := { tids := s.groupOf lead tids, noReply := s.late.contains lead }
      let s := { s with cur, late := s.late.filter (· != lead) }
      match s.fetch lead with
      | (.wait, s) => .done (s.waitLanes s.cur.tids .poison)
      | (.trap ti, s) => .done (s.noteTurn.trapFetch ti)
      | (.illegal c w, s) => .done (if c = 1 then s.noteTurn.trapSlot w else s.noteTurn.trapIllegal c w)
      | (.ok i n, s) => s.prepareAt lead i n

end Sys2Proof.Machine
end

