-- ==== Sys2Proof/Machine/Mem.lean ====
section
/-! DEFINITION. Loads, stores, atomics, copies and fences (R210-R228). -/
namespace Sys2Proof.Machine

open Sys2Proof

/-! ### Addresses and their checks (R74, R212) -/

/-- Bytes of an access type (R213). -/
def ldSize : LdTy → Nat
  | .b8 | .i8 => 1 | .b16 | .i16 => 2 | .b32 | .i32 => 4 | .b64 => 8 | .b128 => 16

/-- The effective address of R212. -/
def effAddr (a : Word) (disp : BitVec 8) (size : Nat) : Word := a + disp.signExtend 64 * word size

/-- The last byte's address of a span. -/
def lastByte (va : Word) (n : Nat) : Word := va + word (n - 1)

/-- Every byte of a global span is canonical (R74): both its ends are, and it is no longer than the canonical addresses. -/
def spanCanonical (va : Word) (n : Nat) : Bool := canonical va && canonical (lastByte va n) && n ≤ 2 ^ 55

/-- Valid bytes of a local space for a thread's block (R73). -/
def State.spaceBytes (s : State) (tid : Nat) (sp : Space) : Nat :=
  let b := s.block (s.thread tid).block
  match sp with | .s => b.spadBytes | .a => b.accBytes | .p => 4096 | .g => 0

/-- The address checks of one span of a lane, causes 0x01, 0x02, 0x03 of R210. -/
def State.chkAddr (_s : State) (sp : Space) (va : Nat → Word) (n : Nat → Nat) (t : Nat) : Option TrapInfo :=
  if sp = .g ∧ n t ≠ 0 ∧ ¬spanCanonical (va t) (n t) then some (memTrap 1 (va t)) else none
def State.chkBounds (s : State) (sp : Space) (va : Nat → Word) (n : Nat → Nat) (t : Nat) : Option TrapInfo :=
  if sp ≠ .g ∧ n t ≠ 0 ∧ s.spaceBytes t sp < (va t).toNat + n t then some (memTrap 2 (va t)) else none
def chkAlign (va : Nat → Word) (size : Nat) (t : Nat) : Option TrapInfo :=
  if (va t).toNat % size ≠ 0 then some (memTrap 3 (va t)) else none

/-! ### The range scoreboard (R81, R224) -/

def Span.hits (r : Span) (sp : Space) (blk : Nat) (addrs : List Nat) : Bool :=
  r.sp == sp && r.blk == blk && addrs.any fun a => r.lo ≤ a && a < r.hi

/-- A copy's destination range, which is the bounding span of its rows, holds one of the bytes (R81, R223). -/
def Copy.hitsDst (c : Copy) (sp : Space) (blk : Nat) (addrs : List Nat) : Bool := c.dst.any fun r => r.hits sp blk addrs

def Copy.hitsSrc (c : Copy) (sp : Space) (blk : Nat) (addrs : List Nat) : Bool :=
  c.src.any fun r => r.hits sp blk addrs

/-- Copies of the core that an access must wait for: those whose destination it overlaps, and for a write also those
whose source it overlaps. Only the core's threads and, for the pool, its conductor and engines are concerned. -/
def State.copiesAgainst (s : State) (core : Nat) (sp : Space) (blk : Nat) (writes : Bool) (addrs : List Nat) : List Nat :=
  ((s.coreAt core).copies.filter fun c => c.hitsDst sp blk addrs || (writes && c.hitsSrc sp blk addrs)).map (·.id)

/-- The core whose scoreboard an access of a thread meets: its own, and for a conductor's pool accesses its block's. -/
def State.scoreCore (s : State) (tid : Nat) : Nat := (s.block (s.thread tid).block).core

/-- Why a lane's access is not ready, if it is not: the scoreboard, or poison (R81, R388). -/
def State.notReady (s : State) (tid : Nat) (sp : Space) (writes : Bool) (addrs : List Nat) : Option Wait :=
  let bk := (s.thread tid).block
  let sb := if kindOf tid = .lane ∨ sp ≠ .g then
      s.copiesAgainst (s.scoreCore tid) sp (if sp = .g then 0 else bk) writes addrs else []
  if !sb.isEmpty then some (.scoreboard sb)
  else if (sp == .g && s.poisoned addrs) || s.poisonPoolAt bk sp addrs then some .poison
  else none

/-! ### The shared shape of one-access instructions -/

/-- Lanes perform in increasing number, each with the addresses of its access, or wait. -/
def State.eachLane (s : State) (sp : Space) (writes : Bool) (l : List (Nat × List Nat)) (body : Nat → List Nat → State → State) : State :=
  l.foldl (fun s e => match s.notReady e.1 sp writes e.2 with
    | some w => s.waitLanes [e.1] w
    | none => body e.1 e.2 s) s

/-- A one-access memory instruction: the checks of R210 in order over the true-guard lanes, translation lane by lane,
then each lane's access. more: the further causes of the entry, after 0x03. acc code as R373. -/
def State.memOp (s : State) (h : Hdr) (sp : Space) (ea : Nat → Word) (size : Nat) (aligned : Bool) (acc : Acc)
    (more : Option TrapInfo) (body : Nat → List Nat → State → State) : State :=
  let act := s.active h.guard
  let checks := [s.chkAddr sp ea fun _ => size, s.chkBounds sp ea fun _ => size] ++
    (if aligned || sp != .g then [chkAlign ea size] else [])
  match (firstTrap act checks).or more with
  | some ti => s.trapGroup ti
  | none =>
    let writes := acc == .write || acc == .atomic
    if sp = .g then
      let r := s.xlateLanes act fun t => [(acc, ea t, size)]
      r.2.splitGroup h r.1 (fun x => memTrap 4 x.va) 1 fun good s =>
        s.eachLane sp writes (good.map fun e => (e.1, e.2.headD [])) body
    else
      let s' := s.mapGroup fun _ th => if th.guardTrue h.guard then th else th.adv s.cur.next
      s'.eachLane sp writes (act.map fun t => (t, addrsOf (ea t).toNat size)) body

/-! ### ld and st (R213, R214) -/

/-- The register image of loaded bytes (R213). -/
def ldVal (ty : LdTy) (bs : List Byte) : Word :=
  let n := 8 * ldSize ty
  match ty with
  | .i8 | .i16 | .i32 => fill n true (leNat bs)
  | _ => word (leNat (bs.take 8))

/-- Bytes at addresses of a space, as the thread's load sees them. -/
def State.readSpace (s : State) (tid : Nat) (sp : Space) (addrs : List Nat) : List Byte × State :=
  let th := s.thread tid
  match sp with
  | .g => s.loadBytes tid addrs
  | .s => s.poolRead tid th.block false (addrs.headD 0) addrs.length
  | .a => s.poolRead tid th.block true (addrs.headD 0) addrs.length
  | .p =>
    let b := s.block th.block
    let l := s.launch (gkey b.asid b.lid)
    (addrs.map l.param.read, s)

/-- Writing a load's destination; b128 also writes the next register (R213). -/
def writeLd (ty : LdTy) (d : Dst) (bs : List Byte) (th : Thread) : Thread :=
  let th := writeDst d (ldVal ty bs) th
  match ty with
  | .b128 => th.setReg (dstNum d + 1) (word (leNat (bs.drop 8)))
  | _ => th

/-- The bytes that a store writes: low bytes of v, and of the next register for b128 (R214). -/
def stBytes (th : Thread) (lane : Nat) (ty : LdTy) (v : Src) : List Byte :=
  match ty with
  | .b128 => leBytes 8 (readSrc lane th v).toNat ++ leBytes 8 (th.reg (srcNum v + 1)).toNat
  | _ => leBytes (ldSize ty) (readSrc lane th v).toNat

/-- A lane's load of bytes already located. -/
def State.doLoad (h : Hdr) (sp : Space) (ty : LdTy) (d : Dst) (t : Nat) (addrs : List Nat) (s : State) : State :=
  let r := s.readSpace t sp addrs
  r.2.finishLane h t (writeLd ty d r.1)

/-- A lane's store to bytes already located. -/
def State.doStore (h : Hdr) (sp : Space) (bs : List Byte) (t : Nat) (addrs : List Nat) (s : State) : State :=
  let s := match sp with
    | .g => s.storeBytes t (s.asidOf t) (addrs.zip bs)
    | .a => s.poolWrite t (s.thread t).block true (addrs.headD 0) bs
    | _ => s.poolWrite t (s.thread t).block false (addrs.headD 0) bs
  s.finishLane h t id

/-- ld (R213, R214). -/
def execLd (h : Hdr) (sp : Space) (ty : LdTy) (d : Dst) (a : Src) (disp : BitVec 8) (s : State) : Out :=
  .next (s.memOp h sp (fun t => effAddr (s.src t a) disp (ldSize ty)) (ldSize ty) false .read none fun t l s => s.doLoad h sp ty d t l)

/-- st (R213, R214); a parameter store is an illegal instruction (R74, R124 cause 0x0B). -/
def execSt (h : Hdr) (sp : Space) (ty : LdTy) (v : Src) (a : Src) (disp : BitVec 8) (s : State) : Out :=
  if sp = .p then .next (s.trapGroup (illegal 11))
  else .next (s.memOp h sp (fun t => effAddr (s.src t a) disp (ldSize ty)) (ldSize ty) false .write none fun t l s =>
    s.doStore h sp (stBytes (s.thread t) (laneOf t) ty v) t l)

/-! ### ldl (R215) -/

/-- The DE-fed region of a block, while its stream is running, stopped or done: base, size and landed bytes (R266). -/
def State.deRegion (s : State) (bk : Nat) : Option (Nat × Nat × Nat × Nat) :=
  let de := (s.cluster ((s.block bk).core / 8)).de
  if de.owner == some bk && de.toReg && de.st != 0 then some (de.rbase, de.rsize, de.landed, de.st)
  else none

/-- Whether an access straddles the boundary of a DE-fed region (R215). -/
def State.straddles (s : State) (t : Nat) (ea size : Nat) : Bool :=
  match s.deRegion (s.thread t).block with
  | none => false
  | some (base, len, _, _) => !(base ≤ ea && ea + size ≤ base + len) && ea < base + len && base < ea + size

/-- Whether a lane must wait for bytes to land (R215). -/
def State.notLanded (s : State) (t : Nat) (addrs : List Nat) : Bool :=
  match s.deRegion (s.thread t).block with
  | none => false
  | some (base, len, landed, st) => st != 3 && addrs.any fun a => base ≤ a && a < base + len && base + landed ≤ a

/-- ldl (R215): as ld.s outside a DE-fed region; inside, the lane waits until its bytes have landed. -/
def execLdl (h : Hdr) (ty : LdTy) (d : Dst) (a : Src) (disp : BitVec 8) (s : State) : Out :=
  let size := ldSize ty
  let ea := fun t => effAddr (s.src t a) disp size
  let more := firstTrap (s.active h.guard) [fun t =>
    if s.straddles t (ea t).toNat size then some (memTrap 2 (ea t)) else none]
  let aligned := firstTrap (s.active h.guard) [s.chkBounds .s ea fun _ => size]
  .next (match aligned.or more with
    | some ti => s.trapGroup ti
    | none => s.memOp h .s ea size false .read none fun t l s =>
        if s.notLanded t l then s.waitLanes [t] (.ldl (l.headD 0)) else s.doLoad h .s ty d t l)

/-- pref (R216): no visible state changes. -/
def execPref (h : Hdr) (_a : Src) (_disp : BitVec 8) (s : State) : Out := .next (s.endGroup h fun _ th => th)

/-! ### Atomics (R217, R218) -/

/-- The new value of an atomic on n-bit values (R218); c is the compare value. -/
def atomNew (op : AtomOp) (ty : CmpTy) (old b c : Nat) : Nat :=
  let (n, sg) := cmpShape ty
  let lt := toInt n sg old < toInt n sg b
  match op with
  | .add => (old + b) % 2 ^ n
  | .min => if lt then old else b
  | .max => if lt then b else old
  | .and => old &&& b | .or => old ||| b | .xor => old ^^^ b
  | .xchg => b
  | .cas => if old = c then b else old

/-- An atomic has read a clock: its next fence acquires what orders on its core, and its later atomics and releases pass it
on (R85, R91, R423). -/
def Thread.readClock (eng : Nat) (rel : Tab Nat) (th : Thread) : Thread :=
  { th with acq := tjoin th.acq (scopeClock eng rel), aclk := tjoin th.aclk rel }

/-- A read and write of one location at its home, as one step of its coherence order (R91). A remote location's value is
free each time (log 12). What the location carries of the order of the thread's core reaches its next fence (R85), its
next release and its later atomics (R91, R423). -/
def State.atomicHome (s : State) (tid asid : Nat) (dpas : List Nat) (f : Nat → Nat) : Nat × State :=
  if dpas.all s.isLocal then
    let old := leNat (dpas.map s.homeByte)
    let th := s.thread tid
    let rel := gatherRel s.hrel dpas
    let s := s.homeWrite asid (dpas.zip (leBytes dpas.length (f old)))
    let s := { s with hrel := markRel s.hrel dpas (tjoin rel (tjoin th.rel th.aclk)) }
    (old, s.modThread tid (Thread.readClock (engOf tid) rel))
  else
    let old := leNat ((List.range dpas.length).map fun i => Config.freeByte (s.ctr + i))
    (old, { s with ctr := s.ctr + dpas.length })

/-- An atomic read at home (R195). -/
def State.atomicRead (s : State) (tid : Nat) (dpas : List Nat) : Nat × State :=
  if dpas.all s.isLocal then
    let rel := gatherRel s.hrel dpas
    (leNat (dpas.map s.homeByte), s.modThread tid (Thread.readClock (engOf tid) rel))
  else (leNat ((List.range dpas.length).map fun i => Config.freeByte (s.ctr + i)), { s with ctr := s.ctr + dpas.length })

/-- A read and write of one scratchpad location (R91). -/
def State.atomicPool (s : State) (tid : Nat) (addrs : List Nat) (f : Nat → Nat) : Nat × State :=
  let bk := (s.thread tid).block
  let old := leNat ((s.block bk).spad.readN (addrs.headD 0) addrs.length)
  let rel := gatherRel (s.block bk).srel addrs
  let th := s.thread tid
  let rel' := tjoin rel (tjoin th.rel th.aclk)
  let s := s.modBlock bk fun b => { b.noteStore (th.me tid) (th.tick + 1) addrs with
    spad := b.spad.writeN (addrs.headD 0) (leBytes addrs.length (f old)), srel := markRel b.srel addrs rel' }
  (old, s.modThread tid fun th => { th.readClock (engOf tid) rel with tick := th.tick + 1 })

/-- atom (R217, R218). -/
def execAtom (h : Hdr) (spad : Bool) (op : AtomOp) (ty : CmpTy) (d : Dst) (a b : Src) (s : State) : Out :=
  let (n, sg) := cmpShape ty
  let sp : Space := if spad then .s else .g
  .next (s.memOp h sp (fun t => s.src t a) (n / 8) true .atomic none fun t l s =>
    let f := fun old => atomNew op ty old (bits (s.src t b) 0 n) (bits (readDst (s.thread t) d) 0 n)
    let r := if spad then s.atomicPool t l f else s.atomicHome t (s.asidOf t) l f
    let s' := r.2.finishLane h t (writeDst d (fill n sg r.1))
    if spad then s' else s'.checkHead (s.asidOf t))

/-! ### Ordered floating-point adds (R219-R221) -/

def afSize : AfTy → Nat | .f32 => 4 | .f16 => 2 | .bf16 => 2

/-- Entries queued by every launch of a context (R221). -/
def State.queued (s : State) (asid : Nat) : Nat :=
  ((s.launches.filter fun e => e.1 / 2 ^ 32 == asid).map fun e => e.2.queue.length).sum

/-- Entries that the context's ordered-add area holds (R321). -/
def Context.fadds (c : Context) : Nat := 4096 * bits c.oarea 0 16

/-- %tid of a lane thread (R9). -/
def State.tidNo (s : State) (t : Nat) : Nat := 32 * (s.block (s.thread t).block).warpNo (slotOf t) + laneOf t

/-- atom.fadd (R219): the addend enters the launch's queue with key (%block, %tid, n). -/
def execAtomFadd (h : Hdr) (ty : AfTy) (rm : Rm) (a b : Src) (s : State) : Out :=
  let act := s.active h.guard
  let asid := s.asidOf s.lead_
  let full := if (s.ctx asid).fadds < s.queued asid + act.length ∧ act ≠ [] then some (memTrap 7 0) else none
  .next (s.memOp h .g (fun t => s.src t a) (afSize ty) true .atomic full fun t l s =>
    let bl := s.block (s.thread t).block
    let e : Fadd := { blk := bl.blk, tid := s.tidNo t, n := (s.thread t).nFadd, dpa := l, ty, rm, val := s.src t b, asid := bl.asid }
    (s.modLaunch (gkey bl.asid bl.lid) fun q => { q with queue := q.queue ++ [e] }).finishLane h t fun th => { th with nFadd := th.nFadd + 1 })

/-! ### Copies (R222-R224) -/

/-- One row of a copy: source, destination, length. -/
abbrev Row := Word × Word × Nat

/-- The rows that cpa2's operands describe (R223). -/
def cpa2Rows (d a b b1 : Word) : List Row :=
  let ss := toInt 32 true (bits b1 0 32)
  let ds := toInt 32 true (bits b1 32 32)
  (List.range (bits b 24 16)).map fun (r : Nat) => (a + wordI (r * ss), d + wordI (r * ds), bits b 0 24)

/-- The field limits of R223. -/
def cpa2Ok (b : Word) : Bool :=
  let rl := bits b 0 24
  let rows := bits b 24 16
  1 ≤ rl && rl ≤ 2 ^ 20 && 1 ≤ rows && bits b 40 24 == 0 && rl * rows ≤ 2 ^ 24

/-- Copies of a core whose destination ranges meet spans. -/
def State.copiesMeeting (s : State) (core : Nat) (l : List Span) : List Nat :=
  ((s.coreAt core).copies.filter fun c => c.dst.any fun r => l.any fun q =>
    r.sp == q.sp && r.blk == q.blk && r.lo < q.hi && q.lo < r.hi).map (·.id)

/-- Contiguous bytes as spans, for the source protection of R224. -/
def spansOf (sp : Space) (blk : Nat) (addrs : List (List Nat)) : List Span :=
  addrs.flatMap fun l => l.map fun a => { sp, blk, lo := a, hi := a + 1 }

/-- The frames in which a copy's bytes of the page of va stand, as its rows were translated: rows give virtual addresses,
dsts the DPAs of their bytes. -/
def pageFrames (rows : List Row) (dsts : List (List Nat)) (va : Word) : List Nat :=
  ((rows.zip dsts).flatMap fun e => e.2.zipIdx.filterMap fun b =>
    let a := vaBits (e.1.2.1 + word b.2)
    if a / 65536 = vaBits va / 65536 then some (b.1 - a % 65536) else none).eraseDups

/-- The bounding span of a copy's rows at the destination (R81, R223): in scratchpad one span; in global memory, page by
page, the part of it in each frame that the copy writes there, and in a page that holds none of its bytes in the frame that
a walk gives. -/
def State.dstSpans (s : State) (t : Nat) (dstS : Bool) (rows : List Row) (dsts : List (List Nat)) : List Span :=
  let rs := rows.filter fun r => r.2.2 != 0
  let lo := rs.foldl (fun m r => min m r.2.1.toNat) (2 ^ 64)
  let hi := rs.foldl (fun m r => max m (r.2.1.toNat + r.2.2)) 0
  if rs.isEmpty then []
  else if dstS then [{ sp := .s, blk := (s.thread t).block, lo, hi }]
  else (pageParts (word lo) (hi - lo)).flatMap fun p =>
    let off := vaBits p.1 % 65536
    match pageFrames rows dsts p.1 with
    | [] => (match (s.xlats (s.asidOf t) p.1).head? with
      | some (.ok dpa _, _) => [{ sp := .g, blk := 0, lo := dpa, hi := dpa + p.2 }]
      | _ => [])
    | fs => fs.map fun fr => { sp := .g, blk := 0, lo := fr + off, hi := fr + off + p.2 }

/-- The cached entries through which a copy's global accesses may have been translated (R354). -/
def State.viaOf (s : State) (t : Nat) (dstS : Bool) (src : Space) (rows : List Row) : List TlbEntry :=
  let spans := (if src = .g then rows.map fun r => (r.1, r.2.2) else []) ++ (if dstS then [] else rows.map fun r => (r.2.1, r.2.2))
  (s.tlb ++ s.walkc).filter fun e => spans.any fun x => e.overlaps (s.asidOf t) (vaBits x.1) (vaBits x.1 + x.2)

/-- A lane's copy, its addresses known: it waits for overlapping copies, for poison and for a scoreboard entry; else it
reads its sources as the thread's loads would, and enters (R81, R224). -/
def State.doCopy (s : State) (h : Hdr) (dstS : Bool) (src : Space) (t : Nat) (rows : List Row) (srcs dsts : List (List Nat)) :
    State :=
  let bk := (s.thread t).block
  let core := engOf t
  let sBlk := if src = .g then 0 else bk
  let dSp : Space := if dstS then .s else .g
  let dBlk := if dstS then bk else 0
  let span := s.dstSpans t dstS rows dsts
  if dsts.flatten.isEmpty then s.finishLane h t id
  else
    let hits := s.copiesAgainst core src sBlk false srcs.flatten ++ s.copiesAgainst core dSp dBlk true dsts.flatten ++
      s.copiesMeeting core span
    if !hits.isEmpty then s.waitLanes [t] (.scoreboard hits)
    else if (src == .g && s.poisoned srcs.flatten) || (if dstS then s.poolHeld bk dsts.flatten else s.heldBy dsts.flatten)
        || (src != .g && s.poisonPoolAt bk src srcs.flatten) then
      s.waitLanes [t] .poison
    else if Config.nScoreboard ≤ (s.coreAt core).copies.length then s.waitLanes [t] (.scoreboard [])
    else
      let r := srcs.foldl (fun (r : List Byte × State) l => let q := r.2.readSpace t src l; (r.1 ++ q.1, q.2)) ([], s)
      let s := r.2
      let th := s.thread t
      let b := s.block bk
      let seq := (s.eng core).seq + 1
      let c : Copy := { id := s.uids + 1, tid := t, inc := th.inc, flag := setFlag h.set, src := spansOf src sBlk srcs, toS := dstS,
                        dst := span, blk := bk, uid := b.uid, lid := b.lid, asid := b.asid, seq := if dstS then 0 else seq,
                        rel := th.rel, via := s.viaOf t dstS src rows, data := dsts.flatten.zip r.1 }
      let s := { s with uids := s.uids + 1 }.modCore core fun k => { k with copies := k.copies ++ [c] }
      let s := if dstS then s else s.modEng core fun e => { e with seq := seq }
      s.modThread t fun th => (th.issueOpen h.set).adv s.cur.next

/-- A copy instruction: causes 0x01, 0x02 and 0x06 over every lane, then translation of every page, then each lane's
copy (R210, R222). rows gives a lane's rows; ok says whether its fields keep their limits. -/
def State.copyOp (s : State) (h : Hdr) (dstS : Bool) (src : Space) (rows : Nat → List Row) (ok : Nat → Bool) : State :=
  let act := s.active h.guard
  let dSp : Space := if dstS then .s else .g
  let chk := fun (p : Nat → Row → Option TrapInfo) (t : Nat) => (rows t).findSome? (p t)
  let addr := chk fun t r =>
    ((s.chkAddr src (fun _ => r.1) (fun _ => r.2.2)) t).or ((s.chkAddr dSp (fun _ => r.2.1) (fun _ => r.2.2)) t)
  let bound := chk fun t r =>
    ((s.chkBounds src (fun _ => r.1) (fun _ => r.2.2)) t).or ((s.chkBounds dSp (fun _ => r.2.1) (fun _ => r.2.2)) t)
  let oper := fun t => if ok t then none else some (memTrap 6 0)
  match firstTrap act [addr, bound, oper] with
  | some ti => s.trapGroup ti
  | none =>
    let spans := fun t => (if src = .g then (rows t).map fun r => (Acc.read, r.1, r.2.2) else []) ++
      (if dstS then [] else (rows t).map fun r => (Acc.write, r.2.1, r.2.2))
    let r := s.xlateLanes act spans
    r.2.splitGroup h r.1 (fun x => memTrap 4 x.va) 1 fun good s =>
      good.foldl (fun s e =>
        let rs := rows e.1
        let n := rs.length
        let srcs := if src = .g then e.2.take n else rs.map fun r => addrsOf r.1.toNat r.2.2
        let dsts := if dstS then rs.map fun r => addrsOf r.2.1.toNat r.2.2 else if src = .g then e.2.drop n else e.2
        s.doCopy h dstS src e.1 rs srcs dsts) s

/-- cpa (R222). -/
def execCpa (h : Hdr) (dstS : Bool) (src : Space) (d a b : Src) (s : State) : Out :=
  .next (s.copyOp h dstS src (fun t => [(s.src t a, s.src t d, (s.src t b).toNat)]) fun t => (s.src t b).toNat ≤ 2 ^ 24)

/-- cpa2 (R223). -/
def execCpa2 (h : Hdr) (dstS : Bool) (src : Space) (d a b : Src) (s : State) : Out :=
  .next (s.copyOp h dstS src
    (fun t => cpa2Rows (s.src t d) (s.src t a) (s.src t b) ((s.thread t).reg (srcNum b + 1))) fun t => cpa2Ok (s.src t b))

/-- The destination bytes of a retiring copy: in the scratchpad of the block that issued it, if that block is still there
(R78); or as plain stores of the issuing thread, numbered at the copy's issue (R224). -/
def State.landCopy (s : State) (core : Nat) (c : Copy) : State :=
  if c.toS then
    if (tget? s.blocks c.blk).isSome && (s.block c.blk).uid == c.uid then
      (s.modBlock c.blk fun b => { b with
        past := b.past ++ [{ who := 1048576 * c.inc + c.tid, tick := 0, copy := some c.id, old := c.data.map fun e => (e.1, b.spad.read e.1) }]
        spad := b.spad.writeAll c.data, srel := markRel b.srel (c.data.map (·.1)) c.rel }).poolClean c.blk (c.data.map (·.1))
    else s
  else
    let st : Store := { seq := c.seq, tid := 1048576 * c.inc + c.tid, tick := 0, copy := some c.id, asid := c.asid, data := c.data,
                        home := false, rel := c.rel }
    s.modEng core fun e => { e with stores := e.stores ++ [st] }

/-- COPY_RETIREMENT (R81, R224): copy idx of a core writes its bytes, its flag's count-down is due, threads that waited
for it have it ordered before them, drained blocks may count (R40), and a cancelled block that waited for it goes. A write
into part of a poisoned granule is held (R388). -/
def execCopyRetirement (core idx : Nat) (s : State) : Out :=
  match (s.coreAt core).copies[idx]? with
  | none => .next s
  | some c =>
    if c.toS && s.poolHeld c.blk (c.data.map (·.1)) && (s.block c.blk).uid == c.uid && !(s.block c.blk).leaving then .next s
    else
      let s := (s.modCore core fun k => { k with copies := k.copies.eraseIdx idx }).landCopy core c
      let s := match c.flag with
        | some f => s.modThread c.tid fun th =>
            if th.inc = c.inc then { th with out := th.out ++ [f], landed := th.landed ++ [(f, c.id)] } else th
        | none => s
      let woken := fun (th : Thread) => match th.wait with
        | .scoreboard on =>
          if on.contains c.id then { th with vc := tput 0 (copyKey core c.id) 1 th.vc, wait := .none } else th
        | _ => th
      let s : State := { s with threads := s.threads.map fun e => (e.1, woken e.2) }
      .next ((if c.toS then s else s.countDrained c.asid c.lid core).settleLeaving c.blk)

/-- INSTRUCTION_COMPLETION (R105, R108): an instruction that has acted completes, and its flag's count falls by one. -/
def execInstructionCompletion (thread flag : Nat) (s : State) : Out :=
  .next (s.modThread thread fun th =>
    if th.out.contains flag then { th with out := th.out.erase flag, flags := tput 0 flag (th.flagCount flag - 1) th.flags } else th)

/-! ### Fences (R225-R228) -/

/-- The release and acquire of fence (R85): what the thread has read is ordered before its later accesses, and its own
accesses so far are what its later stores carry. A copy is none of them before its flag has been waited on (R428). -/
def Thread.fence (tid : Nat) (th : Thread) : Thread :=
  let vc := tjoin th.vc th.acq
  { th with vc := vc, acq := [], rel := tput 0 (th.me tid) th.tick vc }

/-- Whether a conductor instruction that needs every earlier macro-op complete may issue (R253): it waits while Instar
runs, and takes matrix cause 0x07 while Instar is stopped (R257). -/
def State.condGate (s : State) (h : Hdr) (k : State → State) : State :=
  let act := s.active h.guard
  if kindOf s.lead_ ≠ .cond ∨ act = [] then k s
  else match (s.cluster (clusterOf s.curEng)).instar.st with
    | 0 => k s
    | 1 => s.waitLanes act .instar
    | _ => s.trapGroup { cls := 6, cause := 7 }

/-- fence (R225). -/
def execFence (h : Hdr) (s : State) : Out := .next (s.condGate h fun s => s.endGroup h fun t th => th.fence t)

/-- fence.own (R226). -/
def execFenceOwn (h : Hdr) (d : Dst) (s : State) : Out :=
  let m := word (s.eng s.curEng).seq
  .next (s.endGroup h fun _ th => writeDst d m th)

/-- The (base, length) ranges of fence.seize in registers d to d + 2k - 1 (R227). -/
def seizeRanges (kind : EngineKind) (th : Thread) (d k : Nat) : List (Word × Nat) :=
  (List.range k).map fun i => (th.regAt kind (d + 2 * i), (th.regAt kind (d + 2 * i + 1)).toNat)

/-- Whether the executing engine may name core c (R227): one of its own partition, or, for a steward, any. -/
def State.seizeCoreOk (s : State) (eng c : Nat) : Bool :=
  if 864 ≤ eng then c ≤ 871 else c < 864 && s.partOfEng c == s.partOfEng eng

/-- The whole 64-byte lines of a range, as page parts. -/
def lineSpan (base : Word) (len : Nat) : Word × Nat :=
  let lo := base.toNat / 64 * 64
  (word lo, alignUp (base.toNat + len) 64 - lo)

/-- DPAs of the whole lines of a virtual range; pages that do not translate are passed over (R227). -/
def State.rangeDpas (s : State) (asid : Nat) (base : Word) (len : Nat) : List Nat × State :=
  let sp := lineSpan base len
  (pageParts sp.1 sp.2).foldl (fun r p => match r.2.xlate asid 1 .read p.1 with
    | (.ok dpa _, s) => (r.1 ++ addrsOf dpa p.2, s)
    | (.fail _ _, s) => (r.1, s)) ([], s)

/-- Refreshing the lines of a virtual range in an engine's snapshot (R227). -/
def State.refreshRange (s : State) (eng asid : Nat) (base : Word) (len : Nat) : State :=
  let r := s.rangeDpas asid base len
  r.2.refresh eng r.1

/-- Whether the lines of a virtual range cannot be read yet: a poisoned line is among them, or holds their walk (R388). -/
def State.refreshHeld (s : State) (asid : Nat) (base : Word) (len : Nat) : Bool :=
  let sp := lineSpan base len
  !s.poison.isEmpty && (pageParts sp.1 sp.2).any fun p => s.homeHeld asid 1 p.1 p.2

/-- fence.seize (R90, R227). -/
def execFenceSeize (h : Hdr) (k : BitVec 4) (d a b : Src) (s : State) : Out :=
  let act := s.active h.guard
  let eng := s.curEng
  let kind := kindOf s.lead_
  let rs := fun t => seizeRanges kind (s.thread t) (srcNum d) (k.toNat + 1)
  let noncan := fun t => (rs t).findSome? fun r => if r.2 ≠ 0 ∧ ¬spanCanonical r.1 r.2 then some (memTrap 1 r.1) else none
  let oper := fun t =>
    let c := bits (s.src t a) 0 10
    if bits (s.src t a) 10 54 ≠ 0 ∨ ¬s.seizeCoreOk eng c ∨ (s.eng c).seq < (s.src t b).toNat ∨ (rs t).any (fun r => r.2 = 0 ∨ 2 ^ 40 < r.2)
    then some (memTrap 5 0) else none
  .next (match firstTrap act [noncan, oper] with
    | some ti => s.trapGroup ti
    | none =>
      let s0 := s.mapGroup fun _ th => if th.guardTrue h.guard then th else th.adv s.cur.next
      act.foldl (fun s t =>
        let c := bits (s.src t a) 0 10
        let m := (s.src t b).toNat
        let due : Store → Bool := fun st => st.seq ≤ m
        if (s.coreAt c).copies.any fun q => !q.toS && q.seq ≤ m then s.waitLanes [t] (.scoreboard [])
        else if s.writeHeld c due (fun _ => true) || (rs t).any fun r =>
            (s.writeBack c due fun _ => true).refreshHeld (s.asidOf t) r.1 r.2 then s.waitLanes [t] .poison
        else
          let s := s.writeBack c due fun _ => true
          let s := (rs t).foldl (fun s r => s.refreshRange eng (s.asidOf t) r.1 r.2) s
          s.finishLane h t id) s0)

/-- Whether a handle names a tile of a block (R250): CORE is the block's core within the cluster, and the offset lies in
its scratchpad. -/
def handleOk (b : Block) (hd : Nat) : Bool := hd / 2 ^ 13 == b.core % 8 && hd % 2 ^ 13 * 128 < b.spadBytes

/-- One more generation of a handle (R82): when it wraps, every entry of the handle is dropped. -/
def Cluster.bump (c : Cluster) (hd : Nat) : Cluster :=
  let g := (tget 0 c.gens hd + 1) % 65536
  { c with gens := tput 0 hd g c.gens, oc := if g = 0 then c.oc.filter (fun e => e.1 / 2 ^ 32 != hd) else c.oc }

/-- fence.spw (R228). -/
def execFenceSpw (h : Hdr) (k : BitVec 2) (a : Src) (s : State) : Out :=
  let act := s.active h.guard
  let hs := fun t => (List.range (k.toNat + 1)).map fun i => bits (s.src t a) (16 * i) 16
  let bad := fun t => if (hs t).all (handleOk (s.block (s.thread t).block)) then none else some (memTrap 8 0)
  .next (match firstTrap act [bad] with
    | some ti => s.trapGroup ti
    | none =>
      let s := act.foldl (fun s t => (hs t).foldl (fun s hd => s.modCluster (clusterOf (engOf t)) fun c => c.bump hd) s) s
      s.endGroup h fun _ th => th)

end Sys2Proof.Machine
end

