-- ==== Sys2Proof/Machine/Coll.lean ====
section
/-! DEFINITION. The counters of collectives (R234, R403): the completion of a generation, and the posts of other
devices. -/
namespace Sys2Proof.Machine

open Sys2Proof

/-- Devices that share the phase domain of an engine's partition, beside this one (R402). -/
def State.domainDevs (s : State) (p : Nat) : List Nat := tget [] s.domRemote (s.domOf p)

/-- A collective exists where its home device belongs to the partition's domain (R403). -/
def State.cidOk (s : State) (eng cid : Nat) : Bool :=
  cid / 2 ^ 21 == s.boot.devnum || (match s.partOfEng eng with | some p => (s.domainDevs p).contains (cid / 2 ^ 21) | none => false)

/-- What an engine keeps of global memory for a context changes: on the engine, or in the image in which the context
stands. -/
def State.withMem (s : State) (asid : Nat) (act : State → State) : State :=
  match s.images.find? fun i => i.live && i.asid == asid with
  | none => act s
  | some i =>
    let r := act { s with emem := i.emem }
    { r with emem := s.emem, images := r.images.map fun x => if x = i then { i with emem := r.emem } else x }

/-- A participant's acquire of a buffer (R94): its core's snapshot of the lines becomes their values at home, and its own
stores there from before its post yield to them. -/
def State.collAcquire (s : State) (w : CollPost) (base : Word) (len : Nat) : State :=
  s.withMem w.asid fun s =>
    let r := s.rangeDpas w.asid base len
    (r.2.refresh w.eng r.1).modEng w.eng fun e => e.yield w.me w.seq r.1.contains

/-- Whether every post of a collective's generation has been counted; it has not completed yet, since a poisoned line keeps
a participant's refresh from being made (R234, R388). -/
def State.collFull (s : State) (cid : Nat) : Bool :=
  match (tget {} s.colls cid).gen with | some g => g.npart != 0 && g.npart ≤ g.posted | none => false

/-- The completion of a generation (R94, R234): every participant core's snapshot of the buffers is refreshed, and then
the counter advances. -/
def State.collDone (s : State) (cid : Nat) : State :=
  let c := tget {} s.colls cid
  match c.gen with
  | none => s
  | some g =>
    if g.npart = 0 ∨ g.posted < g.npart then s
    else if g.who.any fun w => g.bufs.any fun b => s.refreshHeld w.asid b.1 b.2.toNat then s
    else
      let s := g.who.foldl (fun s w => g.bufs.foldl (fun s b => s.collAcquire w b.1 b.2.toNat) s) s
      { s with colls := tset cid { count := c.count + 1 } s.colls }

/-- Generations that a poisoned line has held complete once it is written (R388). -/
def State.collSettle (s : State) : State := s.colls.foldl (fun s e => if s.collFull e.1 then s.collDone e.1 else s) s

/-- What other devices of the domain have posted since a collective was last looked at is free (R403, log 12): in a
generation that a post here has opened, how many posts have been counted; else how many generations have completed without
a post here, and how many posts of the next have been counted. -/
def State.collRemote (s : State) (eng cid : Nat) : State :=
  let c := tget {} s.colls cid
  match s.partOfEng eng with
  | none => s
  | some p =>
    if (s.domainDevs p).isEmpty then s
    else
      let f := s.freeWord
      let put := fun (c : Coll) => { f.2 with colls := tset cid c s.colls }
      let fresh : Nat → Option CollGen := fun n => if n = 0 then none else some { npart := 0, bufs := [], posted := n, who := [] }
      let lo := f.1.toNat % 2 ^ 20
      let hi := f.1.toNat / 2 ^ 20
      match c.gen with
      | some g =>
        if g.npart = 0 then
          if hi = 0 then put { c with gen := some { g with posted := g.posted + lo } }
          else put { count := c.count + word hi, gen := fresh lo }
        else (put { c with gen := some { g with posted := g.posted + f.1.toNat % (g.npart - g.posted + 1) } }).collDone cid
      | none => put { count := c.count + word hi, gen := fresh lo }

/-- The first post here of a generation that another device has opened (R234): whether it agrees with the values fixed there
is free (log 12); where it does, the posts counted so far are fewer than NPART. -/
def State.collMeet (s : State) (cid npart : Nat) (bufs : List (Word × Word)) : State :=
  let c := tget {} s.colls cid
  match c.gen with
  | some g =>
    if g.npart ≠ 0 then s
    else
      let f := s.choose
      if f.1 then { f.2 with colls := tset cid { c with gen := some { npart, bufs, posted := g.posted % npart, who := [] } } s.colls }
      else f.2
  | none => s

end Sys2Proof.Machine
end

