-- ==== Sys2Proof/Machine/Control.lean ====
section
/-! DEFINITION. Control flow: branches, switch, calls and returns with the call stack, exit, traps and rett, suspension
and event handles (R184-R195, R37-R39, R80). -/
namespace Sys2Proof.Machine

open Sys2Proof

/-! ### Branches and switch -/

/-- The target of a displacement: PC + 2 × sext(disp) (R185). -/
def dispTarget (pc : Word) (disp : BitVec 25) : Word := pc + disp.signExtend 64 * 2

/-- bra (R186). -/
def execBra (h : Hdr) (disp : BitVec 25) (s : State) : Out :=
  .next (s.mapGroup fun _ th => if th.guardTrue h.guard then th.jump (dispTarget th.pc disp) else th.adv s.cur.next)

/-- The case that a value selects (R188): the lowest j < n with v = sext(c_j), else 8. -/
def switchCase (n : Nat) (payload v : Word) : Nat :=
  ((List.range n).find? fun j => (payload.extractLsb' (8 * j) 8).signExtend 64 == v).getD 8

/-- switch (R188). -/
def execSwitch (h : Hdr) (n : BitVec 3) (a : Src) (payload t0 t1 t2 t3 t4 : Word) (s : State) : Out :=
  .next (s.mapGroup fun t th =>
    if th.guardTrue h.guard then
      let j := switchCase (n.toNat + 1) payload (readSrc (laneOf t) th a)
      th.jump (th.pc + (caseEntry [t0, t1, t2, t3, t4] j).signExtend 64 * 2)
    else th.adv s.cur.next)

/-! ### The call stack (R189-R191) -/

/-- Frames held on chip before a spill, or the whole stack of a conductor or steward (R189). -/
def stackFrames (t : Nat) : Nat := if kindOf t = .lane then 4 else 16

/-- The slot top of a lane thread of a context (R189). -/
def State.slotTopOf (s : State) (asid t : Nat) : Word :=
  let sp := (s.ctx asid).spill
  word (bits sp 16 48 * 65536) + word ((1024 * engOf t + 32 * slotOf t + laneOf t + 1) * bits sp 0 11)

/-- The slot top of a lane thread. -/
def State.slotTop (s : State) (t : Nat) : Word := s.slotTopOf (s.asidOf t) t

def State.slotBottom (s : State) (t : Nat) : Word := s.slotTop t - word (bits (s.ctx (s.asidOf t)).spill 0 11)

/-- Whether a call of this thread spills (R190). -/
def State.spills (s : State) (t : Nat) : Bool := kindOf t == .lane && 4 ≤ (s.thread t).frames.length

/-- Control trap 0x01 (R190). -/
def State.callOverflow (s : State) (t : Nat) : Option TrapInfo :=
  let th := s.thread t
  if th.frames.length < stackFrames t then none
  else if kindOf t ≠ .lane ∨ (th.stk - 8).toNat < (s.slotBottom t).toNat ∨ th.stk.toNat < 8 then some (controlTrap 1) else none

/-- call and calli (R190): the next PC is pushed, with a spill of the oldest frame where four are held. Where one lane
overflows and another's slot address is not canonical, R184 and R191 do not order the two traps: the control trap first is
this model's choice, here and for the underflow of ret (log 72). -/
def State.callOp (s : State) (h : Hdr) (target : Nat → Thread → Word) : State :=
  let act := s.active h.guard
  let slot := s.chkAddr .g (fun t => (s.thread t).stk - 8) fun t => if s.spills t then 8 else 0
  match firstTrap act [s.callOverflow, slot] with
  | some ti => s.trapGroup ti
  | none =>
    let n := s.cur.next
    let r := s.xlateLanes act fun t => if s.spills t then [(.write, (s.thread t).stk - 8, 8)] else []
    r.2.splitGroup h r.1 (fun x => memTrap 4 x.va) 2 fun good s =>
      good.foldl (fun s e =>
        let t := e.1
        let l := e.2.headD []
        match (if l.isEmpty then none else s.notReady t .g true l) with
        | some w => s.waitLanes [t] w
        | none =>
          let th := s.thread t
          let go := fun (th : Thread) => ({ th with frames := th.frames ++ [th.pc + word n] }).jump (target t th)
          if l.isEmpty then s.modThread t go
          else
            let s := s.storeBytes t (s.asidOf t) (l.zip (leBytes 8 (th.frames.headD 0).toNat))
            s.modThread t fun th => go { th with stk := th.stk - 8, frames := th.frames.drop 1 }) s

/-- call (R190). -/
def execCall (h : Hdr) (disp : BitVec 25) (s : State) : Out := .next (s.callOp h fun _ th => dispTarget th.pc disp)

/-- calli (R190). -/
def execCalli (h : Hdr) (a : Src) (s : State) : Out := .next (s.callOp h fun t th => readSrc (laneOf t) th a)

/-- Whether a return takes its PC from the spill region (R190). -/
def State.refills (s : State) (t : Nat) : Bool :=
  kindOf t == .lane && (s.thread t).frames.isEmpty && (s.thread t).stk.toNat < (s.slotTop t).toNat

/-- ret (R190). -/
def execRet (h : Hdr) (s : State) : Out :=
  let act := s.active h.guard
  let under := fun t => if (s.thread t).frames.isEmpty && !s.refills t then some (controlTrap 2) else none
  let slot := s.chkAddr .g (fun t => (s.thread t).stk) fun t => if s.refills t then 8 else 0
  .next (match firstTrap act [under, slot] with
    | some ti => s.trapGroup ti
    | none =>
      let r := s.xlateLanes act fun t => if s.refills t then [(.read, (s.thread t).stk, 8)] else []
      r.2.splitGroup h r.1 (fun x => memTrap 4 x.va) 2 fun good s =>
        good.foldl (fun s e =>
          let t := e.1
          let l := e.2.headD []
          if l.isEmpty then
            s.modThread t fun th => ({ th with frames := th.frames.dropLast }).jump (th.frames.getLast?.getD 0)
          else match s.notReady t .g false l with
            | some w => s.waitLanes [t] w
            | none =>
              let q := s.loadBytes t l
              q.2.modThread t fun th => ({ th with stk := th.stk + 8 }).jump (word (leNat q.1))) s)

/-! ### Suspension (R37, R38, R80, R193, R194) -/

def handleKind (hd : Word) : Nat := bits hd 59 5
def handleIndex (hd : Word) : Nat := bits hd 0 55
def handleVa (hd : Word) : Word := (hd.extractLsb' 0 55).signExtend 64

/-- Whether a handle is good for a thread (R193). -/
def State.handleGood (s : State) (t : Nat) (hd : Word) : Bool :=
  let asid := s.asidOf t
  let i := handleIndex hd
  bits hd 55 4 == 0 && (match handleKind hd with
    | 0 => i < 2 ^ 32 && (tget? s.launches (gkey asid i)).isSome
    | 1 => i < 2 ^ 32 && (tget? s.graphs (gkey asid i)).isSome
    | 2 => i == 0 && kindOf t != .stew
    | 3 => i < 256 && (s.job i).state != 0 && (s.job i).asid == asid
    | 4 => i == 0 && kindOf t == .lane
    | 5 => i < 2 ^ 32 && s.cidOk (engOf t) i
    | 6 => true
    | _ => false)

/-- A job's completion counter (R34, R326). -/
def Job.counter (j : Job) : Word := if j.state = 4 ∨ j.state = 5 then 0xFFFFFFFFFFFFFFFF else j.phcnt

/-- The value of a counter of kinds 0-5, as a thread of context asid, job and core names it (R193). -/
def State.counterVal (s : State) (asid job core : Nat) (hd : Word) : Word :=
  let i := handleIndex hd
  match handleKind hd with
  | 0 => word (s.launch (gkey asid i)).count
  | 1 => word (tget {} s.graphs (gkey asid i)).count
  | 2 => (s.job job).phcnt
  | 3 => (s.job i).counter
  | 4 => (s.coreAt core).accFree
  | _ => (tget {} s.colls i).count

/-- The value that a suspended block's counter has at home; an event word of another device has a free one (log 12). -/
def State.suspVal (s : State) (b : Block) (q : Susp) : Word :=
  match q.dpa with
  | some d => if s.isLocal d then s.homeWord d else Config.freeWord s.ctr
  | none => s.counterVal b.asid (s.jobOf b) b.core q.handle

/-- What other devices have posted to a collective that a block is suspended on is counted (R403). -/
def State.suspPosts (s : State) (b : Block) (q : Susp) : State :=
  if handleKind q.handle = 5 then s.collRemote b.core (handleIndex q.handle) else s

/-- Whether a suspended block's counter meets its target (R37). -/
def State.suspMet (s : State) (b : Block) (q : Susp) : Bool := q.target.toNat ≤ (s.suspVal b q).toNat

/-- A thread of a suspend.r block as it resumes (R37): everything but its trap stack, its level, its counters and the
continuation words is as at placement. -/
def Thread.resumeR (th : Thread) (stk : Word) (w0 : Option Word) : Thread :=
  { th with
    regs := match w0 with | some v => tput 0 0 v [] | none => []
    preds := 0, flags := [], out := [], lat := {}, frames := [], stk := stk
    resumed := false, absent := false, empty := false }

/-- The threads of a suspended block become live at the continuation; after suspend.r every fibre register is closed
(R290). -/
def State.resumeBlock (s : State) (bk : Nat) (q : Susp) : State :=
  let b := s.block bk
  let s := (if b.regHeld then s else s.takeGran b.core (poolRegGran b.pool)).modBlock bk fun b => { b with susp := none, regHeld := true }
  let s := if q.release then { s with fibres := b.dropFibres s.fibres } else s
  { s with threads := s.threads.map fun e =>
      if e.2.block == bk && e.1 < condBase && e.2.run == .suspended then
        let i := 32 * b.warpNo (slotOf e.1) + laneOf e.1
        let th := if q.release then e.2.resumeR (s.slotTop e.1) (if i < 16 then q.saved[i]? else none) else e.2
        (e.1, { th.jump q.cont with run := .live })
      else e }

/-- Whether a suspend.r block whose target has been met takes its register granules now (R38): its core has them free, and no
block whose target was met before waits for its own. -/
def State.takesRegs (s : State) (b : Block) : Bool :=
  match b.susp with
  | some q => (match q.met with
    | some n => poolRegGran b.pool ≤ s.freeGran b.core && !s.blocks.any fun e => e.2.core == b.core && (match e.2.susp with
        | some r => (match r.met with | some m => m < n | none => false)
        | none => false)
    | none => false)
  | none => false

/-- A block that is stuck for the test of R80: suspended on its core's acc-free counter with an unmet target, or waiting
for register granules that it cannot take (R38). -/
def State.stuckBlock (s : State) (b : Block) : Bool :=
  match b.susp with
  | some q => q.order != 0 && (if q.met.isSome then !s.takesRegs b else handleKind q.handle == 4 && !s.suspMet b q)
  | none => false

/-- The order of a block's suspension on its core. -/
def Block.suspOrder (b : Block) : Nat := match b.susp with | some q => q.order | none => 0

/-- The most recently suspended of some blocks. -/
def latest (l : List (Nat × Block)) : Option (Nat × Block) :=
  l.foldl (fun m e => match m with
    | some x => if x.2.suspOrder < e.2.suspOrder then some e else some x
    | none => some e) none

/-- The allocation-deadlock rule of R80, with R38: the most recently suspended block that holds its registers resumes
and takes the trap; where it repeats with no granule returned, or no block can, the halt line is raised, and the
faulting job is that of the block that suspended last (log 24). -/
def State.deadlock (s : State) (core : Nat) : State :=
  let bs := s.blocks.filter fun e => e.2.core == core
  if bs.isEmpty || !(bs.all fun e => s.stuckBlock e.2) then s
  else
    let k := s.coreAt core
    let best := latest (bs.filter fun e => e.2.regHeld)
    let halts := match s.partOfEng core with
      | some p => s.raiseHalt p 3 (some core) 0 ((latest bs).map fun e => s.jobOf e.2)
      | none => s
    match best with
    | none => halts
    | some e =>
      if k.lastDead = some k.accFree then halts
      else match e.2.susp with
        | none => s
        | some q =>
          let live := (s.laneThreads e.1).filter fun t => (s.thread t).run == .suspended
          if live.any fun t => s.handlerHeld t 13 then s else
          let s := s.modCore core fun k => { k with lastDead := some k.accFree }
          (s.resumeBlock e.1 q).trapThreads live { cls := 13, cause := 0 } fun th => th.pc

/-- Whether no thread of a block remains live and unsuspended, and one has suspended (R37). -/
def State.allSuspended (s : State) (bk : Nat) : Bool :=
  let ts := s.laneThreads bk
  (ts.all fun t => (s.thread t).run == .suspended || isExited (s.thread t)) && ts.any fun t => (s.thread t).run == .suspended

/-- suspend.r gives a block's registers back to its core's pool (R38). -/
def State.releaseRegs (s : State) (bk : Nat) : State :=
  let b := s.block bk
  let drop := fun (e : Nat × Thread) => if e.2.block == bk && e.1 < condBase then (e.1, { e.2 with regs := [] }) else e
  let s := s.modBlock bk fun b => { b with regHeld := false }
  ({ s with threads := s.threads.map drop }).giveGran bk b b.regSpots

/-- The block suspends (R37, R38, R80): with suspend.r its registers go back to the pool. -/
def State.suspendBlock (s : State) (bk : Nat) : State :=
  let b := s.block bk
  match b.susp with
  | none => s
  | some q =>
    if q.order ≠ 0 ∨ ¬s.allSuspended bk then s
    else
      let n := (s.coreAt b.core).order + 1
      let s := s.modCore b.core fun k => { k with order := n }
      let base := 1024 * b.core + 32 * b.slot
      let saved := (List.range 16).map fun i => (s.thread (base + i)).reg 0
      let q := { q with order := n, saved := if q.release then saved else [] }
      let s := s.modBlock bk fun b => { b with susp := some q }
      let s := if q.release then s.releaseRegs bk else s
      if !q.release && s.suspMet b q then s.resumeBlock bk q else s.deadlock b.core

/-- What follows when threads of a block have exited or suspended: the block completes, or suspends. -/
def State.settle (s : State) (bk : Nat) : State :=
  if s.blockEnds bk then s.completeBlock bk else s.suspendBlock bk

/-- suspend by a group of threads at one PC with handles and targets of their own (R37, R194). -/
def State.suspendOp (s : State) (h : Hdr) (release : Bool) (a b : Src) : State :=
  let act := s.active h.guard
  let kind6 := fun t => handleKind (s.src t a) == 6
  let va := fun t => handleVa (s.src t a)
  let len := fun t => if kind6 t then 8 else 0
  let bad := fun t => if s.handleGood t (s.src t a) then none else some (controlTrap 4)
  let mis := fun t => if kind6 t then chkAlign va 8 t else none
  match firstTrap act [bad, s.chkAddr .g va len, mis] with
  | some ti => s.trapGroup ti
  | none =>
    let before := fun t => (s.thread t).traps.length
    let r := s.xlateLanes act fun t => if kind6 t then [(.read, va t, 8)] else []
    r.2.splitGroup h r.1 (fun x => memTrap 4 x.va) 1 fun good s =>
      s.eachLane .g false (good.map fun e => (e.1, e.2.headD [])) fun t l s =>
        let s := if l.isEmpty then s else (s.atomicRead t l).2
        let th := s.thread t
        let bk := th.block
        let q : Susp := { release, handle := s.src t a, target := s.src t b, cont := th.pc + word s.cur.next, order := 0,
                          dpa := l.head?, saved := [], met := none }
        let mismatch := match (s.block bk).susp with
          | some p => !(p.handle == q.handle && p.target == q.target && p.cont == q.cont)
          | none => false
        if (tget? s.blocks bk).isNone || th.run != .live || th.traps.length != before t then s
        else if mismatch then
          let ts := (s.laneThreads bk).filter fun u => !isExited (s.thread u) && (s.thread u).run != .escalated
          if ts.any fun u => s.handlerHeld u 1 then s.waitLanes [t] .poison else
          let start := fun u => if (s.thread u).run == .live then s.switchPc (Config.choice (s.ctr + u)) u else (s.thread u).pc
          let s' := { s with ctr := s.ctr + threadLimit }.modBlock bk fun b => { b with susp := none }
          let s' := ts.foldl (fun s u => s.modThread u fun th => { th with
            run := if th.run = .suspended then .live else th.run, wait := .none, arrMask := none }) s'
          ts.foldl (fun s' u => s'.trapThreads [u] (illegal 12) fun _ => start u) s'
        else
          let s := s.modBlock bk fun b => { b with susp := some q }
          (s.modThread t fun th => { th with run := .suspended, wait := .none }).settle bk

/-- suspend.k (R194). -/
def execSuspendK (h : Hdr) (a b : Src) (s : State) : Out := .next (s.suspendOp h false a b)

/-- suspend.r (R194). -/
def execSuspendR (h : Hdr) (a b : Src) (s : State) : Out := .next (s.suspendOp h true a b)

/-- A list in an order that free choices fix from counter c on. -/
def shuffle {α : Type} (c : Nat) : List α → List α
  | [] => []
  | x :: l =>
    let r := shuffle (c + 1) l
    let k := (Config.freeWord c).toNat % (r.length + 1)
    r.take k ++ x :: r.drop k

/-- Whether a block waits for register granules of suspend.r, its target met but not yet noted (R38). -/
def State.metNow (s : State) (b : Block) : Bool :=
  match b.susp with
  | some q => q.release && q.order != 0 && q.met.isNone && s.suspMet b q
  | none => false

/-- The next number in a core's order of suspensions and met targets is given to a block whose target is met (R38). -/
def State.giveMet (s : State) (bk : Nat) : State :=
  let c := (s.block bk).core
  let n := (s.coreAt c).order + 1
  (s.modCore c fun k => { k with order := n }).modBlock bk fun b => { b with susp := b.susp.map fun q => { q with met := some n } }

/-- Targets of suspend.r blocks are noted as they are met (R38), before each turn; those that were met in one turn, in an
order that free choices fix (log 64). -/
def State.noteMet (s : State) : State :=
  let s := s.blocks.foldl (fun s e => match e.2.susp with
    | some q => if q.release && q.order != 0 && q.met.isNone then s.suspPosts e.2 q else s
    | none => s) s
  match (s.blocks.filter fun e => s.metNow e.2).map (·.1) with
  | [] => s
  | [bk] => s.giveMet bk
  | l => (shuffle s.ctr l).foldl State.giveMet { s with ctr := s.ctr + l.length }

/-- BLOCK_RESUME (R37, R38): a suspended block whose counter meets its target resumes; a suspend.r block does once the
core has its register granules free, in the order in which targets were met. -/
def execBlockResume (block : Nat) (s : State) : Out :=
  let b := s.block block
  .next (match b.susp with
    | none => s
    | some q =>
      if q.order = 0 then s
      else if q.release then
        match q.met with
        | none => { s.deadlock b.core with ctr := s.ctr + 1 }
        | some _ => if s.takesRegs b then s.resumeBlock block q else s.deadlock b.core
      else
        let s := s.suspPosts b q
        if s.suspMet b q then s.resumeBlock block q else { s.deadlock b.core with ctr := s.ctr + 1 })

/-! ### Exit, nop, trap, rett, brk (R192) -/

/-- exit (R192, R247): the threads become absent; a conductor waits for its macro-ops and then releases its block. -/
def execExit (h : Hdr) (s : State) : Out :=
  .next (s.condGate h fun s =>
    let act := s.active h.guard
    let s := s.mapGroup fun _ th => if th.guardTrue h.guard then th else th.adv s.cur.next
    match kindOf s.lead_ with
    | .cond =>
      let cl := clusterOf s.curEng
      let bk := s.curBlockKey
      act.foldl (fun s _ => (s.unbind cl).settle bk) s
    | .stew => act.foldl (fun s t => s.modThread t Thread.exit) s
    | .lane => act.foldl (fun s t => match tget? s.threads t with
        | some th => (s.setThread t th.exit).settle th.block
        | none => s) s)

/-- nop (R192). -/
def execNop (h : Hdr) (s : State) : Out := .next (s.endGroup h fun _ th => th)

/-- trap (R192): class software, cause a[7:0]. -/
def execTrap (h : Hdr) (a : Src) (s : State) : Out :=
  .next (s.trapNext h fun t => { cls := 10, cause := bits (s.src t a) 0 8 })

/-- brk (R192): class breakpoint. -/
def execBrk (h : Hdr) (s : State) : Out := .next (s.trapNext h fun _ => { cls := 11, cause := 0 })

/-- rett (R192, R367): control trap 0x03 at TDEPTH 0. -/
def execRett (h : Hdr) (s : State) : Out :=
  let act := s.active h.guard
  .next (if act.any fun t => (s.thread t).traps.isEmpty then s.trapGroup (controlTrap 3)
    else s.mapGroup fun _ th =>
      if th.guardTrue h.guard then (match th.traps with | f :: rest => th.returnFrom f rest | [] => th) else th.adv s.cur.next)

/-! ### Event handles (R195) -/

/-- ev.add (R195). -/
def execEvAdd (h : Hdr) (d : Dst) (a b : Src) (s : State) : Out :=
  let bad := fun t => if s.handleGood t (s.src t a) && handleKind (s.src t a) == 6 then none else some (controlTrap 4)
  .next (match firstTrap (s.active h.guard) [bad] with
    | some ti => s.trapGroup ti
    | none => s.memOp h .g (fun t => handleVa (s.src t a)) 8 true .atomic none fun t l s =>
        let r := s.atomicHome t (s.asidOf t) l fun old => (old + (s.src t b).toNat) % 2 ^ 64
        (r.2.finishLane h t (writeDst d (word r.1))).checkHead (s.asidOf t))

/-- ev.rd (R195): any valid handle; kind 6 is an atomic read at home. -/
def execEvRd (h : Hdr) (d : Dst) (a : Src) (s : State) : Out :=
  let act := s.active h.guard
  let kind6 := fun t => handleKind (s.src t a) == 6
  let va := fun t => handleVa (s.src t a)
  let len := fun t => if kind6 t then 8 else 0
  let bad := fun t => if s.handleGood t (s.src t a) then none else some (controlTrap 4)
  let mis := fun t => if kind6 t then chkAlign va 8 t else none
  .next (match firstTrap act [bad, s.chkAddr .g va len, mis] with
    | some ti => s.trapGroup ti
    | none =>
      let s := act.foldl (fun s t =>
        if handleKind (s.src t a) = 5 then s.collRemote (engOf t) (handleIndex (s.src t a)) else s) s
      let r := s.xlateLanes act fun t => if kind6 t then [(.read, va t, 8)] else []
      r.2.splitGroup h r.1 (fun x => memTrap 4 x.va) 1 fun good s =>
        good.foldl (fun s e =>
          let t := e.1
          let b := s.block (s.thread t).block
          if kind6 t then
            match s.notReady t .g false (e.2.headD []) with
            | some w => s.waitLanes [t] w
            | none =>
              let r := s.atomicRead t (e.2.headD [])
              r.2.finishLane h t (writeDst d (word r.1))
          else s.finishLane h t (writeDst d (s.counterVal (s.asidOf t) (s.jobOf b) (engOf t) (s.src t a)))) s)

end Sys2Proof.Machine
end

