-- ==== Sys2Proof/Machine/Barrier.lean ====
section
/-! DEFINITION. Named barriers (R202-R205) and phase-bit barriers (R206-R208), with the block-flag check of R60. -/
namespace Sys2Proof.Machine

open Sys2Proof

/-! ### The block-flag check (R60) -/

/-- The block-flag trap of a thread that arrives, if an armed flag is set in the BSW it sees. -/
def State.flagTrap (s : State) (t : Nat) : Option TrapInfo :=
  let th := s.thread t
  let w := (s.block th.block).bswSeen t th
  let c := bswFlags w &&& bswArm w
  if c = 0 then none else some { cls := 12, cause := c.toNat, info := bits w 0 12 }

/-- The clock that an arrival releases: what is ordered before it, what its atomics have read, and the thread's own
accesses (R85, R423). -/
def Thread.releaseClock (tid : Nat) (th : Thread) : Tab Nat :=
  tput 0 (th.me tid) th.tick (tjoin th.vc (scopeClock (engOf tid) th.aclk))

/-- The arrival of an nbar.sync under way at the thread's trap depth: its barrier and phase. A thread that a trap has taken
from an nbar.sync arrives anew at one in the handler, and only waits again at the first after rett; whether it would
arrive there once more R209 leaves open, and this is the model's choice (log 65). -/
def Thread.syncAt (th : Thread) : Option (Nat × Nat) := tget? th.sync th.traps.length

/-- An acquire of a clock. -/
def Thread.acquire (c : Tab Nat) (th : Thread) : Thread := { th with vc := tjoin th.vc c }

/-! ### Named barriers -/

/-- Named-barrier states bound on a core (R202). -/
def State.boundBars (s : State) (core : Nat) : Nat :=
  ((s.blocks.filter fun e => e.2.core == core).map fun e => e.2.nbars.length).sum

def State.barOf (s : State) (t n : Nat) : NBar := tget {} (s.block (s.thread t).block).nbars n

/-- The word of nbar.rd (R204). -/
def nbarWord (b : Option NBar) : Word :=
  match b with
  | none => 0
  | some b => word (2 ^ 63 + b.phase % 2 ^ 31 * 2 ^ 32 + (if b.arrived = 0 then 0 else b.expected) * 2 ^ 11 + b.arrived)

/-- One arrival with expected count c, releasing clock rel: the state after it, and the phase it is counted in (R205). -/
def NBar.arrive (b : NBar) (c : Nat) (rel : Tab Nat) : NBar × Nat :=
  let cur := tjoin b.cur rel
  if c ≤ b.arrived + 1 then
    ({ b with phase := b.phase + 1, expected := c, arrived := 0, cur := [], done := tset b.phase cur b.done }, b.phase)
  else ({ b with expected := c, arrived := b.arrived + 1, cur := cur }, b.phase)

/-- The control trap of a group's arrivals, if any: 0x05 exhaustion, 0x06 count, 0x07 mismatch, with INFO (R202, R203,
R205, R365). num and cnt give each lane's barrier and count. -/
def State.nbarTrap (s : State) (ts : List Nat) (num cnt : Nat → Nat) : Option TrapInfo :=
  let b := s.curBlock
  let fresh := fun t => (tget? b.nbars (num t)).isNone
  let news := ((ts.filter fresh).map num).eraseDups
  let room := Config.nBarStates - s.boundBars b.core
  let full := ts.find? fun t => fresh t && (news.drop room).contains (num t)
  let range := ts.find? fun t => cnt t = 0 || 1024 < cnt t
  let mis := ts.find? fun t =>
    (ts.any fun u => num u == num t && cnt u != cnt t) ||
      (let st := tget {} b.nbars (num t); st.arrived != 0 && st.expected != cnt t)
  let mk := fun (c : Nat) (t : Nat) => ({ cls := 4, cause := c, info := num t } : TrapInfo)
  (full.map (mk 5)).or ((range.map (mk 6)).or (mis.map (mk 7)))

/-- One lane's arrival on barrier n with count c: a release (R85). -/
def State.nbarArrive (s : State) (t n c : Nat) : State :=
  let th := s.thread t
  let r := (tget {} (s.block th.block).nbars n).arrive c (th.releaseClock t)
  let s := s.modBlock th.block fun b => { b with nbars := tset n r.1 b.nbars }
  s.modThread t fun th => { th with lastArr := tput 0 n (r.2 + 1) th.lastArr }

/-- Arrival of a group's lanes, checks first (R60, R205); k continues with the state after the arrivals. -/
def State.nbarGroup (s : State) (ts : List Nat) (a b : Src) (k : State → State) : State :=
  let num := fun t => bits (s.src t a) 0 6
  let cnt := fun t => bits (s.src t b) 0 11
  let s := s.seeFlagsTogether ts
  match (firstTrap ts [s.flagTrap]).or (s.nbarTrap ts num cnt) with
  | some ti => s.trapThreads ts ti fun th => th.pc
  | none => k (ts.foldl (fun s t => s.nbarArrive t (num t) (cnt t)) s)

/-- nbar.arr (R203). -/
def execNbarArr (h : Hdr) (a b : Src) (s : State) : Out :=
  .next (s.nbarGroup s.cur.tids a b fun s => s.mapGroup fun _ th => th.finish h s.cur.next)

/-- A lane that waits for a phase of a barrier completes when that phase has (R203): an acquire. -/
def State.nbarAwait (s : State) (h : Hdr) (t : Nat) : State :=
  match (s.thread t).syncAt with
  | none => s
  | some (n, p) =>
    let b := s.barOf t n
    if p < b.phase then
      s.finishLane h t fun th => { th.acquire (tget [] b.done p) with sync := tdel th.traps.length th.sync }
    else s.waitLanes [t] .barrier

/-- nbar.sync (R203): a thread that has already arrived only waits (R209). -/
def execNbarSync (h : Hdr) (a b : Src) (s : State) : Out :=
  let news := s.cur.tids.filter fun t => (s.thread t).syncAt.isNone
  .next (s.nbarGroup news a b fun s =>
    let s := news.foldl (fun s t =>
      let n := bits (s.src t a) 0 6
      s.modThread t fun th => { th with sync := tset th.traps.length (n, tget 0 th.lastArr n - 1) th.sync }) s
    s.cur.tids.foldl (fun s t => s.nbarAwait h t) s)

/-- nbar.wait (R203). -/
def execNbarWait (h : Hdr) (a : Src) (s : State) : Out :=
  .next (s.cur.tids.foldl (fun s t =>
    let n := bits (s.src t a) 0 6
    let k := tget 0 (s.thread t).lastArr n
    let b := s.barOf t n
    if k = 0 then s.finishLane h t id
    else if k ≤ b.phase then s.finishLane h t fun th => th.acquire (tget [] b.done (k - 1))
    else s.waitLanes [t] .barrier) s)

/-- nbar.rd (R203, R204): not an acquire. -/
def execNbarRd (h : Hdr) (d : Dst) (a : Src) (s : State) : Out :=
  let nb := s.curBlock.nbars
  .next (s.mapGroup fun t th =>
    (writeDst d (nbarWord (tget? nb (bits (readSrc (laneOf t) th a) 0 6))) th).finish h s.cur.next)

/-! ### Phase-bit barriers (R206, R207) -/

/-- PHASE, EXPECTED and PENDING of a barrier word (R206). -/
def pbPhase (w : Word) : Nat := bits w 32 16
def pbExpected (w : Word) : Nat := bits w 11 11
def pbPending (w : Word) : Nat := bits w 0 11

/-- A word on which pbar.arr raises cause 0x08 (R207). -/
def pbBad (w : Word) : Bool :=
  pbExpected w == 0 || bits w 48 16 != 0 || bits w 22 10 != 0 || pbPending w == 0 || pbExpected w < pbPending w

/-- The word after pbar.init with count n (R207). -/
def pbInit (n : Nat) : Word := word (n * 2 ^ 11 + n)

/-- The word after one arrival (R207). -/
def pbArrive (w : Word) : Word :=
  if pbPending w = 1 then word ((pbPhase w + 1) % 65536 * 2 ^ 32 + pbExpected w * 2 ^ 11 + pbExpected w)
  else w - 1

/-- Whether phase p has completed (R207): (PHASE - p) mod 65,536 lies in 1-32,768. -/
def pbDone (w : Word) (p : Nat) : Bool :=
  let k := (pbPhase w + 65536 - p % 65536) % 65536
  1 ≤ k && k ≤ 32768

/-- The barrier word at a scratchpad offset of a thread's block. -/
def State.pbWord (s : State) (t a : Nat) : Word := (s.block (s.thread t).block).spad.word a

/-- The first trap of the control class after the address checks, over the lanes. -/
def State.pbTrap (s : State) (ts : List Nat) (a : Src) (chk : List (Nat → Option TrapInfo)) : Option TrapInfo :=
  let ea := fun t => s.src t a
  firstTrap ts ([s.chkBounds .s ea fun _ => 8, chkAlign ea 8] ++ chk)

/-- pbar.init (R207). -/
def execPbarInit (h : Hdr) (a b : Src) (s : State) : Out :=
  let cnt := fun t => bits (s.src t b) 0 11
  .next (match s.pbTrap s.cur.tids a [fun t => if cnt t = 0 then some (controlTrap 6) else none] with
    | some ti => s.trapGroup ti
    | none => s.memOp h .s (fun t => s.src t a) 8 true .atomic none fun t l s =>
        let o := l.headD 0
        let s := s.poolWrite t (s.thread t).block false o (leBytes 8 (pbInit (bits (s.src t b) 0 11)).toNat)
        (s.modBlock (s.thread t).block fun b => { b with pbars := tset o {} b.pbars }).finishLane h t id)

/-- pbar.arr (R207): the block-flag check of R60, the address checks, cause 0x08 where no copy holds the word back (R81);
then one arrival per lane, a release. -/
def execPbarArr (h : Hdr) (a : Src) (s : State) : Out :=
  .next (s.condGate h fun s =>
    let s := s.seeFlagsTogether s.cur.tids
    let bad := fun t =>
      let o := (s.src t a).toNat
      if (s.notReady t .s true (addrsOf o 8)).isNone && pbBad (s.pbWord t o) then some (controlTrap 8) else none
    match (firstTrap s.cur.tids [s.flagTrap]).or (s.pbTrap s.cur.tids a [bad]) with
    | some ti => s.trapGroup ti
    | none => s.memOp h .s (fun t => s.src t a) 8 true .atomic none fun t l s =>
        let o := l.headD 0
        let th := s.thread t
        let w := s.pbWord t o
        let s := s.poolWrite t th.block false o (leBytes 8 (pbArrive w).toNat)
        let c := tget {} (s.block th.block).pbars o
        let cur := tjoin c.cur (th.releaseClock t)
        let c := if pbPending w = 1 then { c with cur := [], done := tset (pbPhase w) cur c.done } else { c with cur := cur }
        (s.modBlock th.block fun b => { b with pbars := tset o c b.pbars }).finishLane h t id)

/-- pbar.wait (R207): an acquire of the phase named. -/
def execPbarWait (h : Hdr) (a b : Src) (s : State) : Out :=
  .next (s.memOp h .s (fun t => s.src t a) 8 true .read none fun t l s =>
    let o := l.headD 0
    let p := bits (s.src t b) 0 16
    if pbDone (s.pbWord t o) p then
      let c := tget {} (s.block (s.thread t).block).pbars o
      s.finishLane h t fun th => th.acquire (tget [] c.done p)
    else s.waitLanes [t] .barrier)

end Sys2Proof.Machine
end

