-- ==== Sys2Proof/Machine/Sha.lean ====
section
/-! DEFINITION. SHA-384 (FIPS 180-4), the hash that R148, R325, R390, R392, R413, R417 and R419 name; its algorithm is
taken from the standard (log 7). -/
namespace Sys2Proof.Machine

open Sys2Proof

/-- The words of a digest constant table, each numeral holding four of them, highest first. -/
def quads (l : List Nat) : List Word := l.flatMap fun q => [192, 128, 64, 0].map fun n => word (q >>> n)

/-- The round constants. -/
def shaRounds : List Word := quads [
  0x428a2f98d728ae227137449123ef65cdb5c0fbcfec4d3b2fe9b5dba58189dbbc,
  0x3956c25bf348b53859f111f1b605d019923f82a4af194f9bab1c5ed5da6d8118,
  0xd807aa98a303024212835b0145706fbe243185be4ee4b28c550c7dc3d5ffb4e2,
  0x72be5d74f27b896f80deb1fe3b1696b19bdc06a725c71235c19bf174cf692694,
  0xe49b69c19ef14ad2efbe4786384f25e30fc19dc68b8cd5b5240ca1cc77ac9c65,
  0x2de92c6f592b02754a7484aa6ea6e4835cb0a9dcbd41fbd476f988da831153b5,
  0x983e5152ee66dfaba831c66d2db43210b00327c898fb213fbf597fc7beef0ee4,
  0xc6e00bf33da88fc2d5a79147930aa72506ca6351e003826f142929670a0e6e70,
  0x27b70a8546d22ffc2e1b21385c26c9264d2c6dfc5ac42aed53380d139d95b3df,
  0x650a73548baf63de766a0abb3c77b2a881c2c92e47edaee692722c851482353b,
  0xa2bfe8a14cf10364a81a664bbc423001c24b8b70d0f89791c76c51a30654be30,
  0xd192e819d6ef5218d69906245565a910f40e35855771202a106aa07032bbd1b8,
  0x19a4c116b8d2d0c81e376c085141ab532748774cdf8eeb9934b0bcb5e19b48a8,
  0x391c0cb3c5c95a634ed8aa4ae3418acb5b9cca4f7763e373682e6ff3d6b2b8a3,
  0x748f82ee5defb2fc78a5636f43172f6084c87814a1f0ab728cc702081a6439ec,
  0x90befffa23631e28a4506cebde82bde9bef9a3f7b2c67915c67178f2e372532b,
  0xca273eceea26619cd186b8c721c0c207eada7dd6cde0eb1ef57d4f7fee6ed178,
  0x06f067aa72176fba0a637dc5a2c898a6113f9804bef90dae1b710b35131c471b,
  0x28db77f523047d8432caab7b40c724933c9ebe0a15c9bebc431d67c49c100d4c,
  0x4cc5d4becb3e42b6597f299cfc657e2a5fcb6fab3ad6faec6c44198c4a475817]

/-- The initial hash value of SHA-384. -/
def shaStart : List Word := quads [
  0xcbbb9d5dc1059ed8629a292a367cd5079159015a3070dd17152fecd8f70e5939,
  0x67332667ffc00b318eb44a8768581511db0c2e0d64f98fa747b5481dbefa4fa4]

/-- The word that eight bytes hold, highest first. -/
def beWord (bs : List Byte) : Word := word (bs.foldl (fun a b => 256 * a + b.toNat) 0)

/-- The n bytes of a number, highest first. -/
def beNum (n v : Nat) : List Byte := (List.range n).reverse.map fun i => BitVec.ofNat 8 (v >>> (8 * i))

/-- The message padded to whole blocks of 128 bytes: a one bit, zeros, and the length in bits. -/
def shaPad (m : List Byte) : List Byte :=
  m ++ (0x80 : Byte) :: List.replicate ((239 - m.length % 128) % 128) 0 ++ beNum 16 (8 * m.length)

/-- A word's rotations by the amounts listed, combined. -/
def turns (w : Word) (ns : List Nat) : Word := ns.foldl (fun x n => x ^^^ w.rotateRight n) 0

/-- A block in progress: the sixteen schedule words that the coming rounds use, and the eight working variables. -/
structure Sha where
  window : List Word
  vars : List Word
  deriving DecidableEq, Repr

/-- The schedule word sixteen places on from the window's first. -/
def Sha.ahead (x : Sha) : Word :=
  let w := fun i => x.window.getD i 0
  ((turns (w 14) [19, 61] ^^^ (w 14 >>> 6)) + w 9) + ((turns (w 1) [1, 8] ^^^ (w 1 >>> 7)) + w 0)

/-- One round under its constant: the window moves on by a word; the variables move down by one, and a new first and a
new fifth come in. -/
def Sha.round (x : Sha) (k : Word) : Sha :=
  let v := fun i => x.vars.getD i 0
  let pick := v 6 ^^^ (v 4 &&& (v 5 ^^^ v 6))
  let vote := (v 0 &&& (v 1 ||| v 2)) ||| (v 1 &&& v 2)
  let mix := turns (v 4) [14, 18, 41] + pick + (v 7 + (k + x.window.headD 0))
  { window := x.window.drop 1 ++ [x.ahead]
    vars := (turns (v 0) [28, 34, 39] + vote + mix) :: x.vars.take 3 ++ (v 3 + mix) :: (x.vars.drop 4).take 3 }

/-- The hash value after one block of 128 bytes. -/
def shaBlock (h : List Word) (bs : List Byte) : List Word :=
  List.zipWith (· + ·) h (shaRounds.foldl Sha.round { window := (chunks 8 16 bs).map beWord, vars := h }).vars

/-- SHA-384 of a message: 48 bytes, first byte first. -/
def sha384 (m : List Byte) : List Byte :=
  let p := shaPad m
  (((chunks 128 (p.length / 128) p).foldl shaBlock shaStart).take 6).flatMap fun w => beNum 8 w.toNat

/-- A digest as words, byte 8i in bits [63:56] of word i (R325, R389). -/
def digestWords (d : List Byte) : List Word := (chunks 8 6 d).map beWord

end Sys2Proof.Machine
end

