-- ==== Sys2Proof/Machine/Log.lean ====
section
/-! DEFINITION. The append-only log (R389-R393): its words, appending a record, losses, and the LOG.APP instruction. -/
namespace Sys2Proof.Machine

open Sys2Proof

/-- The log is full (R389). -/
def Log.full (l : Log) : Bool := l.lcap ≤ l.tail - 1 - l.exported

/-- The sixteen words of the log state (R389). -/
def Log.words (l : Log) : List Word := [l.lbase, word l.lcap, word l.tail, word l.exported, l.lost] ++ digestWords l.head ++ List.replicate 5 0

/-- A record's sixteen words: the body, the chain value in digest order, and zeros (R390). -/
def recWords (body : List Word) (h : List Byte) : List Word :=
  body ++ ((chunks 8 6 h).map fun bs => word (leNat bs)) ++ [0, 0]

/-- Writing the next record: SEQ is TAIL, and the chain value covers the last one and the body (R390). -/
def Log.write (l : Log) (rest : List Word) : Log × List Word :=
  let body := word l.tail :: rest
  let h := sha384 (l.head ++ body.flatMap fun w => leBytes 8 w.toNat)
  let ws := recWords body h
  ({ l with tail := l.tail + 1, head := h, recs := tset (l.tail % l.lcap) ws l.recs }, ws)

/-- A record reaches its 128 bytes under ASID 0 (R389). -/
def State.logHome (s : State) (n : Nat) (ws : List Word) : State :=
  (s.writeHomeVa 0 2 (s.log.lbase + word (128 * (n % s.log.lcap))) (ws.flatMap fun w => leBytes 8 w.toNat)).2

/-- One record written to the log and at home. -/
def State.logWrite (s : State) (rest : List Word) : State :=
  let n := s.log.tail
  let r := s.log.write rest
  ({ s with log := r.1 } : State).logHome n r.2

/-- %phase of the partition that runs a context, 0 if none does (R390). -/
def State.phaseOf (s : State) (asid : Nat) : Word :=
  match s.partRunning asid with | some p => (s.part p).phase | none => 0

/-- Appending a record (R390, R391): after losses a KIND 4 record comes first; while the log is full the record is lost.
The SEQ, or 0 where it is lost. -/
def State.logAppend (s : State) (kind arr owner unit : Nat) (loc synd data : Word) : Word × State :=
  let s :=
    if s.log.owed ≠ 0 ∧ ¬s.log.full then
      let t := s.freeWord
      let s := t.2.logWrite [word (4 * 2 ^ 56), 0, 0, 0, word s.log.owed, t.1, 0]
      { s with log := { s.log with owed := 0 } }
    else s
  if s.log.full then (0, { s with log := { s.log with lost := s.log.lost + 1, owed := s.log.owed + 1 } })
  else
    let t := s.freeWord
    let n := s.log.tail
    let w1 := word (kind * 2 ^ 56 + arr * 2 ^ 48 + owner * 2 ^ 32 + unit)
    (word n, t.2.logWrite [w1, loc, synd, s.phaseOf owner, data, t.1, 0])

/-- A test of a system instruction, as a check of firstTrap (R318). -/
def sysChk (cause : Nat) (p : Nat → Bool) (t : Nat) : Option TrapInfo := if p t then some (sysTrap cause) else none

/-- Whether the next n records wait for a poisoned line of the log's tables (R388). -/
def State.logHeld (s : State) (n : Nat) : Bool :=
  !s.poison.isEmpty && (List.range (n + 1)).any fun i =>
    s.homeWriteHeld 0 2 (s.log.lbase + word (128 * ((s.log.tail + i) % s.log.lcap))) 128

/-- log.app (R393): one record per true-guard lane, in increasing lane number. -/
def execLogApp (h : Hdr) (d : Dst) (a b : Src) (s : State) : Host.Outcome State Fault Refusal :=
  let act := s.active h.guard
  .next (match firstTrap act [sysChk 1 fun t => (s.thread t).lvl == 0, sysChk 4 fun t => bits (s.src t a) 32 32 != 0] with
    | some ti => s.trapGroup ti
    | none =>
      if s.logHeld act.length then s.waitLanes s.cur.tids .poison else
      let s0 := s.mapGroup fun _ th => if th.guardTrue h.guard then th else th.adv s.cur.next
      act.foldl (fun s t =>
        let owner := if (s.thread t).lvl = 2 then 0 else s.asidOf t
        let r := s.logAppend 5 0 owner (engOf t) 0 (word (bits (s.src t a) 0 32)) (s.src t b)
        r.2.finishLane h t (writeDst d r.1)) s0)

end Sys2Proof.Machine
end

