-- ==== Sys2Proof/Machine/Csr.lean ====
section
/-! DEFINITION. System registers (R316-R324): their numbers, limits, reads and writes, CSRR, CSRW and CSRX, the key slots
(R322), and the rows that are writes of one register: CBIND_WRITE, KEY_LOAD, KEY_ERASE, CONTEXT_CREATE. -/
namespace Sys2Proof.Machine

open Sys2Proof

/-! ### Register numbers (R317, R320) -/

/-- Whether a number is assigned and the engine kind has the register. -/
def csrHas (k : EngineKind) (n : Nat) : Bool :=
  (n == 0x0C0 && k == .lane) || (n == 0x2C0 && k != .stew) || n == 0x2C1 || (0x400 ≤ n && n ≤ 0x406) || n == 0x600
    || (0x800 ≤ n && n ≤ 0x807) || (0x810 ≤ n && n ≤ 0x819) || n == 0x820 || (0x830 ≤ n && n ≤ 0x837)

/-- The lowest level that may access a number, and whether it is read-only (R317). -/
def csrLevel (n : Nat) : Nat := n / 1024 % 4
def csrRo (n : Nat) : Bool := n / 512 % 2 == 1

/-! ### Register values -/

/-- Word i of a context entry (R321). -/
def Context.word (c : Context) (asid i : Nat) : Word :=
  match i with
  | 0 => putBits c.w0 0 10 asid
  | 1 => c.spill | 2 => c.oarea | 3 => c.tvec | 4 => c.fpol | 5 => c.admitW | 6 => c.ptroot
  | _ => c.kvpool

/-- A partition register (R323); RASID reads zero while no context runs. -/
def Part.word (p : Part) : Word :=
  Machine.word (p.en.toNat * 2 ^ 63 + p.run.toNat * 2 ^ 62 + (if p.run then p.rasid % 1024 else 0) * 2 ^ 32 + p.gran.toNat)

/-- CSTAT as a thread of a block reads it (R246). -/
def State.cstat (s : State) (t : Nat) : Word :=
  match (s.cluster (clusterOf (engOf t))).bound with
  | none => 0
  | some bk => word ((s.block bk).core % 8 * 4 + (if bk = (s.thread t).block then 2 else 0) + 1)

/-- Register n as thread t reads it; a write-only register reads zero (R7, R319). -/
def State.csrRead (s : State) (t n : Nat) : Word :=
  let asid := s.asidOf t
  if n = 0x2C0 then s.cstat t
  else if n = 0x2C1 then word (s.thread t).lvl.toNat
  else if 0x400 ≤ n ∧ n ≤ 0x406 then (s.ctx asid).word asid (n - 0x3FF)
  else if n = 0x600 then (s.ctx asid).word asid 0
  else if 0x800 ≤ n ∧ n ≤ 0x807 then (s.part (n - 0x800)).word
  else if n = 0x810 then s.keyIdx.setWidth 64
  else if n = 0x820 then s.ctxSel.setWidth 64
  else if 0x830 ≤ n ∧ n ≤ 0x837 then (s.ctx s.ctxSel.toNat).word s.ctxSel.toNat (n - 0x830)
  else 0

/-! ### Limits of a write (cause 0x04) -/

/-- Whether word i of a context entry may take a value (R321, R343, R357, R366, R368, R408). -/
def ctxOk (i : Nat) (v : Word) : Bool :=
  match i with
  | 0 => bits v 10 41 == 0
  | 1 => canonical (v &&& ~~~(0xFFFF : Word)) && bits v 11 5 == 0 && bits v 0 11 ≤ 1024 && bits v 0 3 == 0
  | 3 => bits v 0 7 == 0
  | 4 => bits v 9 7 == 0 && !bit v 3 && bits v 7 2 != 3
  | 5 => bits v 2 6 == 0
  | 6 => bits v 50 14 == 0 && bits v 1 15 == 0
  | 7 => bits v 0 6 == 0
  | _ => true

/-- Whether partition n may take a value (R323). -/
def State.partOk (s : State) (n : Nat) (v : Word) : Bool :=
  let p := s.part n
  let g : Byte := v.extractLsb' 0 8
  bits v 42 20 == 0 && bits v 8 24 == 0 && !(bit v 63 && g == 0)
    && !(s.parts.any fun e => e.1 != n && e.2.en && e.2.gran &&& g != 0)
    && !(p.run && (bit v 63 != p.en || g != p.gran))

/-- Whether a written value meets its register's limits. -/
def State.csrOk (s : State) (n : Nat) (v : Word) : Bool :=
  if n = 0x0C0 then bits v 0 3 == 0
  else if 0x400 ≤ n ∧ n ≤ 0x406 then ctxOk (n - 0x3FF) v
  else if 0x800 ≤ n ∧ n ≤ 0x807 then s.partOk (n - 0x800) v
  else if n = 0x810 then bits v 8 56 == 0
  else if n = 0x819 then bits v 2 62 == 0 && bits v 0 2 != 3
  else if n = 0x820 then bits v 10 54 == 0
  else if 0x830 ≤ n ∧ n ≤ 0x837 then ctxOk (n - 0x830) v
  else true

/-! ### Keys (R322, cause 0x06) -/

/-- A slot's eight words; all zero where none is loaded. -/
def State.keyWords (s : State) (k : Nat) : List Word := tget (List.replicate 8 0) s.keys k

/-- Whether a valid entry with ENC = 1 names a slot. -/
def State.keyUsed (s : State) (k : Nat) : Bool := s.ctxs.any fun e => e.2.valid && e.2.enc && e.2.key == k

/-- A write of KEYCTL on a slot in use, or ENC := 1 on a slot that is all zero (R322). -/
def State.keyBusy (s : State) (n : Nat) (v : Word) : Bool :=
  (n == 0x819 && bits v 0 2 != 0 && s.keyUsed s.keyIdx.toNat)
    || (n == 0x830 && bit v 62 && (s.keyWords (bits v 54 8)).all (· == 0))

/-! ### Effects of a write -/

/-- A write of word i of a context entry (R321): writing VALID := 1 creates the context, with every other word zero and
its counters at 1 (R25, R330); the ASID field is read-only. -/
def Context.put (c : Context) (i : Nat) (v : Word) : Context :=
  match i with
  | 0 =>
    let c := if bit v 63 && !c.valid then { lastPart := c.lastPart } else c
    { c with w0 := putBits v 0 10 0 }
  | 1 => { c with spill := v }
  | 2 => { c with oarea := v }
  | 3 => { c with tvec := v }
  | 4 => { c with fpol := v }
  | 5 => { c with admitW := v }
  | 6 => { c with ptroot := v }
  | _ => { c with kvpool := v }

/-- The spill slots of a context's threads, of placed and of saved blocks, follow its SPILL word (R189): what a thread has
spilled lies as far below the new slot top as below the old one (R324, log 63). -/
def State.moveStacks (s : State) (asid : Nat) (old : Nat → Word) : State :=
  let move := fun (e : Nat × Thread) => if e.1 < condBase then (e.1, { e.2 with stk := e.2.stk + (s.slotTopOf asid e.1 - old e.1) }) else e
  { s with
    threads := s.threads.map fun e => if s.asidOf e.1 == asid then move e else e
    images := s.images.map fun (i : Image) => if i.asid = asid then { i with threads := i.threads.map move } else i }

/-- The weight banks that an earlier context of an ASID has left in a cluster read as zero (R249). -/
def State.dropBanks (s : State) (asid : Nat) : State :=
  { s with
    clusters := s.clusters.map fun e => if e.2.bankAsid = asid then (e.1, { e.2 with banks := [] }) else e
    poisonBank := s.poisonBank.filter fun k => (s.cluster (k / 1024)).bankAsid != asid }

/-- A write of word i of a context's entry, with what follows from it. -/
def State.ctxPut (s : State) (asid i : Nat) (v : Word) : State :=
  let fresh := i = 0 ∧ bit v 63 ∧ ¬(s.ctx asid).valid
  let t := s.modCtx asid fun c => c.put i v
  if i = 1 then t.moveStacks asid (s.slotTopOf asid)
  else if fresh then t.dropBanks asid else t

/-- A write of KEYCTL (R322). -/
def State.keyCtl (s : State) (v : Word) : State :=
  let k := s.keyIdx.toNat
  if bit v 0 then
    let ws := (List.range 8).map fun i => tget 0 s.keyStage i
    { s with keys := tput (List.replicate 8 0) k ws s.keys, keyStage := [] }
  else if bit v 1 then { s with keys := tdel k s.keys }
  else s

/-- The conductor of a cluster starts for a block (R246): its state is as at a start, banks of another context are
cleared (R249), and the write's release is its acquire. -/
def State.bindCond (s : State) (cl t : Nat) (v : Word) : State :=
  let th := s.thread t
  let asid := s.asidOf t
  let kept := (s.cluster cl).bankAsid = asid
  let s := s.modCluster cl fun c =>
    let c := if kept then c else { c with bankAsid := asid, banks := [] }
    { c with bound := some th.block }
  let c : Thread := { block := th.block, pc := v &&& ~~~(7 : Word), vc := th.releaseClock t, inc := s.uids + 1 }
  ({ s with
    uids := s.uids + 1
    poisonBank := if kept then s.poisonBank else s.poisonBank.filter fun k => k / 1024 != cl } : State).setThread (condBase + cl) c

/-- Writing register n (R320); the caller has checked the limits. CBIND is written in csrOp. -/
def State.csrWrite (s : State) (t n : Nat) (v : Word) : State :=
  let asid := s.asidOf t
  if 0x400 ≤ n ∧ n ≤ 0x406 then s.ctxPut asid (n - 0x3FF) v
  else if 0x800 ≤ n ∧ n ≤ 0x807 then s.modPart (n - 0x800) fun p => { p with en := bit v 63, gran := v.extractLsb' 0 8 }
  else if n = 0x810 then { s with keyIdx := v.extractLsb' 0 8 }
  else if 0x811 ≤ n ∧ n ≤ 0x818 then { s with keyStage := tput 0 (n - 0x811) v s.keyStage }
  else if n = 0x819 then s.keyCtl v
  else if n = 0x820 then { s with ctxSel := v.extractLsb' 0 10 }
  else if 0x830 ≤ n ∧ n ≤ 0x837 then s.ctxPut s.ctxSel.toNat (n - 0x830) v
  else s

/-! ### The register instructions (R318, R319) -/

/-- The checks of R318 over the true-guard lanes; the value checks concern the lowest lane's write alone (R319). -/
def State.csrTrap (s : State) (act : List Nat) (n : Nat) (val : Option (Nat → Word)) : Option TrapInfo :=
  let low := act.take 1
  match firstTrap act
      [sysChk 1 fun t => csrLevel n != 3 && (s.thread t).lvl.toNat < csrLevel n,
       sysChk 2 fun t => csrLevel n == 3 || !csrHas (kindOf t) n,
       sysChk 3 fun _ => val.isSome && csrRo n] with
  | some ti => some ti
  | none => match val with
    | none => none
    | some v => firstTrap low [sysChk 4 fun t => !s.csrOk n (v t), sysChk 6 fun t => s.keyBusy n (v t)]

/-- Whether a replay demands that another block binds the conductor next (R397). -/
def State.bindDenied (s : State) (cl t : Nat) : Bool :=
  let b := s.block (s.thread t).block
  match s.demanded fun r => match r with
    | .cbind c lid blk => if c = cl then some (lid, blk) else none
    | _ => none with
  | some x => x != (b.lid, b.blk)
  | none => false

/-- A CBIND write by thread t (R246): while the conductor is busy the thread is not ready. -/
def State.cbindOp (s : State) (t : Nat) (v : Word) (done : State → State) : State :=
  let cl := clusterOf (engOf t)
  if (s.cluster cl).bound.isSome || s.bindDenied cl t then s.waitLanes [t] .cbind
  else
    let b := s.block (s.thread t).block
    let r : Rec := .cbind cl b.lid b.blk
    let s := (s.record (s.launch (gkey b.asid b.lid)).job r).passRec r
    done (s.bindCond cl t v)

/-- csrr, csrw and csrx (R319): every true-guard lane reads the old value where the form reads, and the lowest one's
value is written where it writes. -/
def State.csrOp (s : State) (h : Hdr) (n : Nat) (rd : Option Dst) (wr : Option Src) : State :=
  let act := s.active h.guard
  match s.csrTrap act n (wr.map fun a t => s.src t a) with
  | some ti => s.trapGroup ti
  | none =>
    let olds := act.map fun t => (t, s.csrRead t n)
    let fin := fun (s : State) (t : Nat) => s.finishLane h t fun th =>
      match rd with | some d => writeDst d ((olds.lookup t).getD 0) th | none => th
    let s1 := s.mapGroup fun _ th => if th.guardTrue h.guard then th else th.adv s.cur.next
    match wr, act with
    | some a, t :: rest =>
      let v := s.src t a
      let s2 := rest.foldl fin s1
      if n = 0x0C0 then s2.cbindOp t v fun s => fin s t else fin (s2.csrWrite t n v) t
    | _, _ => act.foldl fin s1

/-- csrr (R319). -/
def execCsrr (h : Hdr) (d : Dst) (n : BitVec 12) (s : State) : Host.Outcome State Fault Refusal :=
  .next (s.csrOp h n.toNat (some d) none)

/-- csrw (R319). -/
def execCsrw (h : Hdr) (n : BitVec 12) (a : Src) (s : State) : Host.Outcome State Fault Refusal :=
  .next (s.csrOp h n.toNat none (some a))

/-- csrx (R319). -/
def execCsrx (h : Hdr) (d : Dst) (n : BitVec 12) (a : Src) (s : State) : Host.Outcome State Fault Refusal :=
  .next (s.csrOp h n.toNat (some d) (some a))

/-- A write of CBIND (R246). -/
def execCbindWrite (h : Hdr) (a : Src) (s : State) : Host.Outcome State Fault Refusal := .next (s.csrOp h 0x0C0 none (some a))

/-- A write of KEYCTL that loads a slot (R322). -/
def execKeyLoad (h : Hdr) (a : Src) (s : State) : Host.Outcome State Fault Refusal := .next (s.csrOp h 0x819 none (some a))

/-- A write of KEYCTL that erases a slot (R322). -/
def execKeyErase (h : Hdr) (a : Src) (s : State) : Host.Outcome State Fault Refusal := .next (s.csrOp h 0x819 none (some a))

/-- A write of CTXW0, the one by which Imago creates a context (R321). -/
def execContextCreate (h : Hdr) (a : Src) (s : State) : Host.Outcome State Fault Refusal := .next (s.csrOp h 0x830 none (some a))

end Sys2Proof.Machine
end

