-- ==== Sys2Proof/Machine/Fp.lean ====
section
/-! DEFINITION. Floating-point formats and exact arithmetic (R46-R57, R62-R68): values are exact dyadic numbers, and
every result is rounded once by roundMag. -/
namespace Sys2Proof.Machine

open Sys2Proof

/-- A floating-point format (R46): fraction width, bias, all-ones exponent, total width, whether it has infinities. -/
structure FpFmt where
  p : Nat
  bias : Nat
  emax : Nat
  w : Nat
  hasInf : Bool
  flush : Bool                     -- R52 applies (f32 and f16)
  deriving DecidableEq, Repr

def fmtF32 : FpFmt := { p := 23, bias := 127, emax := 255, w := 32, hasInf := true, flush := true }
def fmtF16 : FpFmt := { p := 10, bias := 15, emax := 31, w := 16, hasInf := true, flush := true }
def fmtBf16 : FpFmt := { p := 7, bias := 127, emax := 255, w := 16, hasInf := true, flush := false }
def fmtE4m3 : FpFmt := { p := 3, bias := 7, emax := 15, w := 8, hasInf := false, flush := false }
def fmtE5m2 : FpFmt := { p := 2, bias := 15, emax := 31, w := 8, hasInf := true, flush := false }

/-- Format and number of sub-elements of a floating-point type code (R103). -/
def fpShape : FpTy → FpFmt × Nat
  | .f32 => (fmtF32, 1) | .f32x2 => (fmtF32, 2) | .f16 => (fmtF16, 1) | .f16x4 => (fmtF16, 4)
  | .bf16 => (fmtBf16, 1) | .bf16x4 => (fmtBf16, 4) | .e4m3x8 => (fmtE4m3, 8) | .e5m2x8 => (fmtE5m2, 8)

/-- The value of an encoding (R46): a NaN, an infinity, or (-1)^neg × m × 2^e exactly (a zero keeps its sign). -/
inductive FVal where
  | nan (signalling : Bool)
  | inf (neg : Bool)
  | num (neg : Bool) (m : Nat) (e : Int)
  deriving DecidableEq, Repr

/-- Magnitude code of the largest finite value. -/
def FpFmt.maxMag (f : FpFmt) : Nat := if f.hasInf then f.emax <<< f.p - 1 else f.emax <<< f.p + 6

/-- Magnitude code of infinity (formats that have one). -/
def FpFmt.infMag (f : FpFmt) : Nat := f.emax <<< f.p

/-- The canonical NaN (R46, R47). -/
def FpFmt.nan (f : FpFmt) : Nat := if f.hasInf then f.emax <<< f.p + 2 ^ (f.p - 1) else f.emax <<< f.p + 7

/-- A magnitude code with its sign. -/
def FpFmt.signed (f : FpFmt) (neg : Bool) (mag : Nat) : Nat := if neg then 2 ^ (f.w - 1) + mag else mag

/-- Exponent of the smallest subnormal: 1 - bias - p. -/
def FpFmt.qmin (f : FpFmt) : Int := 1 - (f.bias : Int) - f.p

/-- Reading an encoding (R46). -/
def FpFmt.decode (f : FpFmt) (v : Nat) : FVal :=
  let neg := v.testBit (f.w - 1)
  let mag := v % 2 ^ (f.w - 1)
  let e := mag >>> f.p
  let frac := mag % 2 ^ f.p
  if f.hasInf && e == f.emax then (if frac = 0 then .inf neg else .nan (frac < 2 ^ (f.p - 1)))
  else if !f.hasInf && mag == f.emax <<< f.p + 7 then .nan false
  else if e = 0 then .num neg frac f.qmin
  else .num neg (2 ^ f.p + frac) (f.qmin + (e - 1))

/-- m × 2^e (plus a little more when sticky) in units of 2^q, rounded to an integer under rm (R48): the one rounding of
the model. sticky is used only where e < q. -/
def roundUnits (rm : Rm) (neg : Bool) (m : Nat) (e : Int) (sticky : Bool) (q : Int) : Nat :=
  if q ≤ e then m <<< (e - q).toNat
  else
    let s := min (q - e).toNat (m.log2 + 3)
    let u := m >>> s
    let r := m % 2 ^ s
    let inexact := r != 0 || sticky
    let half := 2 ^ s
    let up := match rm with
      | .rn => half < 2 * r || (2 * r == half && (sticky || u % 2 == 1))
      | .rz => false
      | .ru => inexact && !neg
      | .rd => inexact && neg
    if up then u + 1 else u

/-- Rounding to the format's precision as if its exponent range had no upper bound: the magnitude code, which passes
maxMag where the rounded magnitude does. -/
def FpFmt.roundMag (f : FpFmt) (rm : Rm) (neg : Bool) (m : Nat) (e : Int) (sticky : Bool) : Nat :=
  if m = 0 then 0
  else
    let q := max f.qmin (m.log2 + e - f.p)
    roundUnits rm neg m e sticky q + ((q - f.qmin).toNat <<< f.p)

/-- round_f32 for f32 and the sat_ helpers for the others (R49, R50, res_fp of R155), of an exact value. -/
def FpFmt.round (f : FpFmt) (rm : Rm) (x : FVal) (sticky : Bool := false) : Nat × Flags :=
  match x with
  | .nan _ => (f.nan, fNone)
  | .inf neg => if f.hasInf then (f.signed neg f.infMag, fNone) else (f.signed neg f.maxMag, fSat)
  | .num neg m e =>
    let mag := f.roundMag rm neg m e sticky
    if mag ≤ f.maxMag then (f.signed neg mag, fNone)
    else if f.p == 23 then
      let toMax := match rm with | .rn => false | .rz => true | .ru => neg | .rd => !neg
      (f.signed neg (if toMax then f.maxMag else f.infMag), fNone)
    else (f.signed neg f.maxMag, fSat)

/-- flush_in (R52), applied where the launch's flush bit fl is 1 and the format is f32 or f16: fin of R155. -/
def FpFmt.fin (f : FpFmt) (fl : Bool) (v : Nat) : FVal × Flags :=
  match f.decode v with
  | .num neg m e =>
    if fl && f.flush && m != 0 && m < 2 ^ f.p then (.num neg 0 e, fFlush) else (.num neg m e, fNone)
  | x => (x, fNone)

/-- flush_out (R52) under the same condition: fout of R155. -/
def FpFmt.fout (f : FpFmt) (fl : Bool) (v : Nat) : Nat × Flags :=
  let mag := v % 2 ^ (f.w - 1)
  if fl && f.flush && mag != 0 && mag < 2 ^ f.p then (v - mag, fFlush) else (v, fNone)

/-- fout(res_fp(x)). -/
def FpFmt.result (f : FpFmt) (fl : Bool) (rm : Rm) (x : FVal) (sticky : Bool := false) : Nat × Flags :=
  let r := f.round rm x sticky
  let o := f.fout fl r.1
  (o.1, r.2 ||| o.2)

/-- The canonical NaN with INV when one of the operands is signalling (R47). -/
def FpFmt.nanRes (f : FpFmt) (sig : Bool) : Nat × Flags := (f.nan, if sig then fInv else fNone)

def FVal.isNan : FVal → Bool | .nan _ => true | _ => false
def FVal.isSig : FVal → Bool | .nan s => s | _ => false
def FVal.isInf : FVal → Bool | .inf _ => true | _ => false
def FVal.isZero : FVal → Bool | .num _ 0 _ => true | _ => false
def FVal.neg? : FVal → Bool | .nan _ => false | .inf n => n | .num n _ _ => n
def FVal.negate : FVal → FVal | .nan s => .nan s | .inf n => .inf !n | .num n m e => .num (!n) m e

/-- m × 2^e with a sign, as an integer in units of 2^q, for q ≤ e. -/
def FVal.units (q : Int) : FVal → Int
  | .num n m e => let u : Int := (m <<< (e - q).toNat : Nat); if n then -u else u
  | _ => 0

def FVal.exp : FVal → Int | .num _ _ e => e | _ => 0

/-- A number from an integer of units of 2^q; zero takes the sign given. -/
def ofUnits (zneg : Bool) (u : Int) (q : Int) : FVal :=
  if u = 0 then .num zneg 0 q else .num (u < 0) u.natAbs q

/-- The exact sum of numbers and infinities, not of both signs; the sign of an exact zero is IEEE 754's (R49). -/
def exactAdd (rm : Rm) (x y : FVal) : FVal :=
  match x, y with
  | .inf n, _ => .inf n
  | _, .inf n => .inf n
  | .nan s, _ => .nan s
  | _, .nan s => .nan s
  | .num nx mx ex, .num ny my ey =>
    let q := min ex ey
    let zneg := if nx == ny then nx else rm == Rm.rd
    if mx = 0 ∧ my = 0 then .num zneg 0 q
    else ofUnits (rm == Rm.rd) (FVal.units q (.num nx mx ex) + FVal.units q (.num ny my ey)) q

/-- The exact product, of operands that are not 0 and ∞. -/
def exactMul (x y : FVal) : FVal :=
  match x, y with
  | .nan s, _ => .nan s
  | _, .nan s => .nan s
  | .num nx mx ex, .num ny my ey => .num (nx != ny) (mx * my) (ex + ey)
  | x, y => .inf (x.neg? != y.neg?)

/-- 0 × ∞ (R47). -/
def zeroInf (x y : FVal) : Bool := (x.isZero && y.isInf) || (x.isInf && y.isZero)

/-- ∞ - ∞ in the sum x + y (R47). -/
def infInf (x y : FVal) : Bool := x.isInf && y.isInf && x.neg? != y.neg?

/-- fadd of decoded operands (R166). -/
def FpFmt.add (f : FpFmt) (fl : Bool) (rm : Rm) (x y : FVal) : Nat × Flags :=
  if x.isNan || y.isNan then f.nanRes (x.isSig || y.isSig)
  else if infInf x y then (f.nan, fInv)
  else f.result fl rm (exactAdd rm x y)

/-- fmul of decoded operands (R166). -/
def FpFmt.mul (f : FpFmt) (fl : Bool) (rm : Rm) (x y : FVal) : Nat × Flags :=
  if x.isNan || y.isNan then f.nanRes (x.isSig || y.isSig)
  else if zeroInf x y then (f.nan, fInv)
  else f.result fl rm (exactMul x y)

/-- fma of decoded operands, x × y + z with one rounding; the 0 × ∞ test comes first (R166). -/
def FpFmt.fma (f : FpFmt) (fl : Bool) (rm : Rm) (x y z : FVal) : Nat × Flags :=
  if zeroInf x y then (f.nan, fInv)
  else if x.isNan || y.isNan || z.isNan then f.nanRes (x.isSig || y.isSig || z.isSig)
  else if infInf (exactMul x y) z then (f.nan, fInv)
  else f.result fl rm (exactAdd rm (exactMul x y) z)

/-- x < y, with -0 below +0 when zeroSign is asked for. -/
def fLt (zeroSign : Bool) (x y : FVal) : Bool :=
  match x, y with
  | .nan _, _ => false
  | _, .nan _ => false
  | .inf n, .inf k => n && !k
  | .inf n, _ => n
  | _, .inf k => !k
  | .num nx mx ex, .num ny my ey =>
    let q := min ex ey
    let a := FVal.units q (.num nx mx ex)
    let b := FVal.units q (.num ny my ey)
    a < b || (zeroSign && a == 0 && b == 0 && nx && !ny)

/-- fmin and fmax of encodings a, b (R167): an operand's bits, or its flushed zero. -/
def FpFmt.minMax (f : FpFmt) (fl isMax : Bool) (a b : Nat) : Nat × Flags :=
  let (x, fx) := f.fin fl a
  let (y, fy) := f.fin fl b
  let ax := (f.fout fl a).1
  let bx := (f.fout fl b).1
  let inv := if x.isSig || y.isSig then fInv else fNone
  let r :=
    if x.isNan && y.isNan then f.nan
    else if x.isNan then bx
    else if y.isNan then ax
    else if isMax then (if fLt true x y then bx else ax)
    else (if fLt true y x then bx else ax)
  (r, fx ||| fy ||| inv)

/-- fsetp's condition (R168). -/
def FpFmt.cmp (f : FpFmt) (fl : Bool) (c : FCond) (a b : Nat) : Bool × Flags :=
  let (x, fx) := f.fin fl a
  let (y, fy) := f.fin fl b
  let un := x.isNan || y.isNan
  let lt := fLt false x y
  let gt := fLt false y x
  let r := match c with
    | .eq => !un && !lt && !gt | .ne => un || lt || gt | .lt => !un && lt | .le => !un && !gt
    | .gt => !un && gt | .ge => !un && !lt | .ord => !un | .uno => un
  (r, fx ||| fy ||| (if x.isSig || y.isSig then fInv else fNone))

/-- fclass's result (R169). -/
def FpFmt.classify (f : FpFmt) (v : Nat) : Word :=
  match f.decode v with
  | .nan s => if s then 0x100 else 0x200
  | .inf n => if n then 1 else 0x80
  | .num n m _ =>
    if m = 0 then (if n then 8 else 0x10)
    else if m < 2 ^ f.p then (if n then 4 else 0x20)
    else (if n then 2 else 0x40)

/-- round_int (R49) of a number, as a magnitude. -/
def roundInt (rm : Rm) (neg : Bool) (m : Nat) (e : Int) : Nat := roundUnits rm neg m e false 0

/-- frnd of an encoding (R170). -/
def FpFmt.toIntegral (f : FpFmt) (fl : Bool) (rm : Rm) (v : Nat) : Nat × Flags :=
  let (x, fx) := f.fin fl v
  match x with
  | .nan s => (f.nan, fx ||| if s then fInv else fNone)
  | .inf _ => (v, fx)
  | .num n m e =>
    if m = 0 then (f.signed n 0, fx)
    else let r := f.round rm (.num n (roundInt rm n m e) 0); (r.1, fx ||| r.2)

/-- fdiv of decoded operands (R171, R68). -/
def FpFmt.div (f : FpFmt) (fl : Bool) (rm : Rm) (x y : FVal) : Nat × Flags :=
  match x, y with
  | .nan s, y => f.nanRes (s || y.isSig)
  | _, .nan s => f.nanRes s
  | .inf _, .inf _ => (f.nan, fInv)
  | .inf n, .num k _ _ => f.result fl rm (.inf (n != k))
  | .num n _ _, .inf k => f.result fl rm (.num (n != k) 0 0)
  | .num n mx ex, .num k my ey =>
    if my = 0 then
      (if mx = 0 then (f.nan, fInv) else let r := f.result fl rm (.inf (n != k)); (r.1, r.2 ||| fDz))
    else
      let sh := 64 + my.log2
      f.result fl rm (.num (n != k) ((mx <<< sh) / my) (ex - ey - sh)) ((mx <<< sh) % my != 0)

/-- The integer square root of n, one result bit per unit of fuel, high bit first. -/
def isqrt : Nat → Nat → Nat → Nat
  | 0, _, r => r
  | b + 1, n, r => isqrt b n (if (r + 2 ^ b) * (r + 2 ^ b) ≤ n then r + 2 ^ b else r)

/-- fsqrt of a decoded operand (R171, R68). -/
def FpFmt.sqrt (f : FpFmt) (fl : Bool) (rm : Rm) (x : FVal) : Nat × Flags :=
  match x with
  | .nan s => f.nanRes s
  | .inf n => if n then (f.nan, fInv) else f.result fl rm (.inf false)
  | .num n m e =>
    if m = 0 then f.result fl rm (.num n 0 e)
    else if n then (f.nan, fInv)
    else
      let sh := if e % 2 = 0 then 64 else 65
      let v := m <<< sh
      let r := isqrt 52 v 0
      f.result fl rm (.num false r ((e - sh) / 2)) (r * r != v)

/-- fscale: x × 2^k (R173). -/
def FpFmt.scale (f : FpFmt) (fl : Bool) (rm : Rm) (v : Nat) (k : Int) : Nat × Flags :=
  let (x, fx) := f.fin fl v
  match x with
  | .nan s => (f.nan, fx ||| if s then fInv else fNone)
  | .inf _ => (v, fx)
  | .num n m e =>
    if m = 0 then (f.signed n 0, fx)
    else let r := f.result fl rm (.num n m (e + k)); (r.1, fx ||| r.2)

/-- fcvt between formats (R174). -/
def fConvert (src dst : FpFmt) (fl : Bool) (rm : Rm) (v : Nat) : Nat × Flags :=
  let (x, fx) := src.fin fl v
  match x with
  | .nan s => (dst.nan, fx ||| if s then fInv else fNone)
  | x => let r := dst.result fl rm x; (r.1, fx ||| r.2)

/-- f32 of an integer (R175). -/
def intToF32 (rm : Rm) (x : Int) : Nat := (fmtF32.round rm (.num (x < 0) x.natAbs 0)).1

/-- An integer type of n bits from an f32 value (R51). -/
def f32ToInt (rm : Rm) (n : Nat) (signed : Bool) (x : FVal) : Nat × Flags :=
  match x with
  | .nan _ => (0, fInv)
  | .inf neg =>
    let b : Int := if neg then (if signed then -(2 ^ (n - 1)) else 0) else (if signed then 2 ^ (n - 1) - 1 else 2 ^ n - 1)
    (wrapN n b, fSat)
  | .num neg m e =>
    let u : Int := roundInt rm neg m e
    let r := satInt (if neg then -u else u) n signed
    (wrapN n r.1, r.2)

/-! ### Special functions (R63-R66): every step is a named f32 operation rounded to nearest -/

/-- An f32 constant as a value. -/
def f32v (b : Nat) : FVal := fmtF32.decode b

/-- round_f32(x, rn) as a value. -/
def r32 (x : FVal) : FVal := fmtF32.decode (fmtF32.round .rn x).1

def fma32 (x y z : FVal) : FVal := r32 (exactAdd .rn (exactMul x y) z)
def mul32 (x y : FVal) : FVal := r32 (exactMul x y)
def add32 (x y : FVal) : FVal := r32 (exactAdd .rn x y)

/-- x × 2^n exactly. -/
def FVal.scaleBy (n : Int) : FVal → FVal
  | .num s m e => .num s m (e + n)
  | x => x

/-- R63: T[j], the f32 nearest to 2^(j/64). -/
def tabT : List Nat :=
  [0x3F800000, 0x3F8164D2, 0x3F82CD87, 0x3F843A29, 0x3F85AAC3, 0x3F871F62, 0x3F88980F, 0x3F8A14D5] ++
  [0x3F8B95C2, 0x3F8D1ADF, 0x3F8EA43A, 0x3F9031DC, 0x3F91C3D3, 0x3F935A2B, 0x3F94F4F0, 0x3F96942D] ++
  [0x3F9837F0, 0x3F99E046, 0x3F9B8D3A, 0x3F9D3EDA, 0x3F9EF532, 0x3FA0B051, 0x3FA27043, 0x3FA43516] ++
  [0x3FA5FED7, 0x3FA7CD94, 0x3FA9A15B, 0x3FAB7A3A, 0x3FAD583F, 0x3FAF3B79, 0x3FB123F6, 0x3FB311C4] ++
  [0x3FB504F3, 0x3FB6FD92, 0x3FB8FBAF, 0x3FBAFF5B, 0x3FBD08A4, 0x3FBF179A, 0x3FC12C4D, 0x3FC346CD] ++
  [0x3FC5672A, 0x3FC78D75, 0x3FC9B9BE, 0x3FCBEC15, 0x3FCE248C, 0x3FD06334, 0x3FD2A81E, 0x3FD4F35B] ++
  [0x3FD744FD, 0x3FD99D16, 0x3FDBFBB8, 0x3FDE60F5, 0x3FE0CCDF, 0x3FE33F89, 0x3FE5B907, 0x3FE8396A] ++
  [0x3FEAC0C7, 0x3FED4F30, 0x3FEFE4BA, 0x3FF28177, 0x3FF5257D, 0x3FF7D0DF, 0x3FFA83B3, 0x3FFD3E0C]

/-- R64: V[j], the f32 nearest to 64 / (64 + j). -/
def tabV : List Nat :=
  [0x3F800000, 0x3F7C0FC1, 0x3F783E10, 0x3F74898D, 0x3F70F0F1, 0x3F6D7304, 0x3F6A0EA1, 0x3F66C2B4] ++
  [0x3F638E39, 0x3F607038, 0x3F5D67C9, 0x3F5A740E, 0x3F579436, 0x3F54C77B, 0x3F520D21, 0x3F4F6475] ++
  [0x3F4CCCCD, 0x3F4A4588, 0x3F47CE0C, 0x3F4565C8, 0x3F430C31, 0x3F40C0C1, 0x3F3E82FA, 0x3F3C5264] ++
  [0x3F3A2E8C, 0x3F381703, 0x3F360B61, 0x3F340B41, 0x3F321643, 0x3F302C0B, 0x3F2E4C41, 0x3F2C7692] ++
  [0x3F2AAAAB, 0x3F28E83F, 0x3F272F05, 0x3F257EB5, 0x3F23D70A, 0x3F2237C3, 0x3F20A0A1, 0x3F1F1166] ++
  [0x3F1D89D9, 0x3F1C09C1, 0x3F1A90E8, 0x3F191F1A, 0x3F17B426, 0x3F164FDA, 0x3F14F209, 0x3F139A86] ++
  [0x3F124925, 0x3F10FDBC, 0x3F0FB824, 0x3F0E7835, 0x3F0D3DCB, 0x3F0C08C1, 0x3F0AD8F3, 0x3F09AE41] ++
  [0x3F088889, 0x3F0767AB, 0x3F064B8A, 0x3F053408, 0x3F042108, 0x3F03126F, 0x3F020821, 0x3F010204]

/-- R64: L[j], the f32 nearest to log2 (1 + j/64). -/
def tabL : List Nat :=
  [0x00000000, 0x3CB73CB4, 0x3D35D69C, 0x3D8759C5, 0x3DB31FB8, 0x3DDE4212, 0x3E0462C4, 0x3E19574F] ++
  [0x3E2E00D2, 0x3E42615F, 0x3E567AF1, 0x3E6A4F72, 0x3E7DE0B6, 0x3E88983F, 0x3E92203D, 0x3E9B8926] ++
  [0x3EA4D3C2, 0x3EAE00D2, 0x3EB7110E, 0x3EC0052B, 0x3EC8DDD4, 0x3ED19BB0, 0x3EDA3F60, 0x3EE2C97D] ++
  [0x3EEB3A9F, 0x3EF39355, 0x3EFBD42B, 0x3F01FED4, 0x3F060828, 0x3F0A0650, 0x3F0DF989, 0x3F11E20F] ++
  [0x3F15C01A, 0x3F1993E3, 0x3F1D5DA0, 0x3F211D84, 0x3F24D3C2, 0x3F28808C, 0x3F2C2411, 0x3F2FBE80] ++
  [0x3F335004, 0x3F36D8CB, 0x3F3A58FF, 0x3F3DD0C8, 0x3F41404F, 0x3F44A7BA, 0x3F480731, 0x3F4B5ED7] ++
  [0x3F4EAED0, 0x3F51F740, 0x3F553848, 0x3F587209, 0x3F5BA4A4, 0x3F5ED039, 0x3F61F4E5, 0x3F6512C7] ++
  [0x3F6829FB, 0x3F6B3A9F, 0x3F6E44CD, 0x3F7148A1, 0x3F744636, 0x3F773DA4, 0x3F7A2F04, 0x3F7D1A71]

/-- R65: S[j], the f32 nearest to 128 / (129 + 2j). -/
def tabS : List Nat :=
  [0x3F7E03F8, 0x3F7A232D, 0x3F76603E, 0x3F72B9D6, 0x3F6F2EB7, 0x3F6BBDB3, 0x3F6865AC, 0x3F652598] ++
  [0x3F61FC78, 0x3F5EE95C, 0x3F5BEB62, 0x3F5901B2, 0x3F562B81, 0x3F53680D, 0x3F50B6A0, 0x3F4E168A] ++
  [0x3F4B8728, 0x3F4907DA, 0x3F46980C, 0x3F443730, 0x3F41E4BC, 0x3F3FA030, 0x3F3D6910, 0x3F3B3EE7] ++
  [0x3F392144, 0x3F370FBB, 0x3F3509E7, 0x3F330F63, 0x3F311FD4, 0x3F2F3ADE, 0x3F2D602B, 0x3F2B8F6A] ++
  [0x3F29C84A, 0x3F280A81, 0x3F2655C4, 0x3F24A9CF, 0x3F23065E, 0x3F216B31, 0x3F1FD80A, 0x3F1E4CAD] ++
  [0x3F1CC8E1, 0x3F1B4C70, 0x3F19D723, 0x3F1868C8, 0x3F17012E, 0x3F15A025, 0x3F144581, 0x3F12F114] ++
  [0x3F11A2B4, 0x3F105A38, 0x3F0F177A, 0x3F0DDA52, 0x3F0CA29C, 0x3F0B7034, 0x3F0A42F8, 0x3F091AC7] ++
  [0x3F07F781, 0x3F06D905, 0x3F05BF37, 0x3F04A9FA, 0x3F039930, 0x3F028CC0, 0x3F01848E, 0x3F008081]

/-- R66: Q[j], the f32 nearest to 1/√ of the midpoint of its interval. -/
def tabQ : List Nat :=
  [0x3F7E05EC, 0x3F7A33F9, 0x3F768CDC, 0x3F730D8A, 0x3F6FB345, 0x3F6C7B90, 0x3F69642A, 0x3F666B02] ++
  [0x3F638E39, 0x3F60CC16, 0x3F5E2305, 0x3F5B9193, 0x3F59166B, 0x3F56B051, 0x3F545E22, 0x3F521ED0] ++
  [0x3F4FF162, 0x3F4DD4ED, 0x3F4BC89B, 0x3F49CBA2, 0x3F47DD45, 0x3F45FCD6, 0x3F4429AF, 0x3F426337] ++
  [0x3F40A8DE, 0x3F3EFA1C, 0x3F3D5671, 0x3F3BBD67, 0x3F3A2E8C, 0x3F38A975, 0x3F372DBF, 0x3F35BB09] ++
  [0x3F339F19, 0x3F30EB96, 0x3F2E565C, 0x3F2BDD46, 0x3F297E62, 0x3F2737F0, 0x3F250855, 0x3F22EE1D] ++
  [0x3F20E7F5, 0x3F1EF4A4, 0x3F1D130E, 0x3F1B422C, 0x3F19810C, 0x3F17CED0, 0x3F162AA9, 0x3F1493D9] ++
  [0x3F1309AF, 0x3F118B87, 0x3F1018C6, 0x3F0EB0E0, 0x3F0D534F, 0x3F0BFF97, 0x3F0AB544, 0x3F0973E8] ++
  [0x3F083B1E, 0x3F070A87, 0x3F05E1C7, 0x3F04C08B, 0x3F03A682, 0x3F029362, 0x3F0186E2, 0x3F0080C1]

/-- fexp2 of a decoded operand (R63). -/
def fexp2 (fl : Bool) (x : FVal) : Nat × Flags :=
  match x with
  | .nan s => fmtF32.nanRes s
  | .inf n => (if n then 0 else fmtF32.infMag, fNone)
  | .num n m e =>
    if !fLt false x (.num false 1 7) then (fmtF32.infMag, fNone)
    else if fLt false x (.num true 151 0) then (0, fNone)
    else
      let s : Int := if n then -(m : Int) else m
      let i : Int := if 0 ≤ e + 6 then s * 2 ^ (e + 6).toNat else s.fdiv (2 ^ (-(e + 6)).toNat)
      let f := exactAdd .rn x (ofUnits false (-i) (-6))
      let k := i.fdiv 64
      let t := f32v (tabT.getD (i - 64 * k).toNat 0)
      let q := fma32 (f32v 0x3D635847) f (f32v 0x3E75FDF0)
      let q := fma32 q f (f32v 0x3F317218)
      let q := mul32 q f
      let y := fma32 t q t
      fmtF32.result fl .rn (y.scaleBy k)

/-- A nonzero number as m × 2^e with m in [1, 2): the 24-bit significand and e. -/
def normalise (m : Nat) (e : Int) : Nat × Int :=
  (if m.log2 ≤ 23 then m <<< (23 - m.log2) else m >>> (m.log2 - 23), m.log2 + e)

/-- flog2 of a decoded operand (R64). -/
def flog2 (x : FVal) : Nat × Flags :=
  match x with
  | .nan s => fmtF32.nanRes s
  | .inf n => if n then (fmtF32.nan, fInv) else (fmtF32.infMag, fNone)
  | .num n m e =>
    if m = 0 then (fmtF32.signed true fmtF32.infMag, fDz)
    else if n then (fmtF32.nan, fInv)
    else
      let (sg, ex) := normalise m e
      let j := sg >>> 17 % 64
      let u := FVal.num false (sg % 2 ^ 17) (-23)
      let t := mul32 u (f32v (tabV.getD j 0))
      let q := fma32 (f32v 0x3EF6384F) t (f32v 0xBF38AA3B)
      let q := fma32 q t (f32v 0x3FB8AA3B)
      let s := mul32 q t
      let z := add32 (f32v (tabL.getD j 0)) s
      fmtF32.round .rn (exactAdd .rn (ofUnits false ex 0) z)

/-- One Newton step of frcp: e := round(1 - m × y), y := round(y × e + y). -/
def rcpStep (m y : FVal) : FVal :=
  let e := fma32 m.negate y (.num false 1 0)
  fma32 y e y

/-- frcp of a decoded operand (R65). -/
def frcp (fl : Bool) (x : FVal) : Nat × Flags :=
  match x with
  | .nan s => fmtF32.nanRes s
  | .inf n => (fmtF32.signed n 0, fNone)
  | .num n m e =>
    if m = 0 then (fmtF32.signed n fmtF32.infMag, fDz)
    else
      let (sg, ex) := normalise m e
      let mv := FVal.num false sg (-23)
      let y := if sg = 2 ^ 23 then .num false 1 0 else rcpStep mv (rcpStep mv (f32v (tabS.getD (sg >>> 17 % 64) 0)))
      let y := if n then y.negate else y
      fmtF32.result fl .rn (y.scaleBy (-ex))

/-- One step of frsqrt. -/
def rsqrtStep (m y : FVal) : FVal :=
  let h := mul32 y (.num false 1 (-1))
  let g := mul32 y y
  let e := fma32 m.negate g (.num false 1 0)
  fma32 h e y

/-- frsqrt of a decoded operand (R66). -/
def frsqrt (fl : Bool) (x : FVal) : Nat × Flags :=
  match x with
  | .nan s => fmtF32.nanRes s
  | .inf n => if n then (fmtF32.nan, fInv) else (0, fNone)
  | .num n m e =>
    if m = 0 then (fmtF32.signed n fmtF32.infMag, fDz)
    else if n then (fmtF32.nan, fInv)
    else
      let (sg, ex) := normalise m e
      let odd := ex % 2 ≠ 0
      let mv := FVal.num false sg (if odd then -22 else -23)
      let e' := if odd then ex - 1 else ex
      let j := (if odd then 32 else 0) + sg >>> 18 % 32
      let y := if sg = 2 ^ 23 ∧ ¬odd then .num false 1 0
        else rsqrtStep mv (rsqrtStep mv (rsqrtStep mv (f32v (tabQ.getD j 0))))
      fmtF32.result fl .rn (y.scaleBy (-(e' / 2)))

/-! ### Block floating point (R53-R57) -/

/-- fold_planes of R57: planes in the order AA, AB, BA, BB, scales of the A and B blocks, one rounding per nonzero
plane, each passed through fout (R52, R178). -/
def foldPlanes (fl : Bool) (rm : Rm) (acc : FVal) (p : List Int) (a b : List Nat) : Nat × Flags :=
  match acc with
  | .nan s => fmtF32.nanRes s
  | .inf n => (fmtF32.signed n fmtF32.infMag, fNone)
  | .num n m e =>
    let step := fun (st : Nat × Flags) (i : Nat) =>
      let pl := p.getD i 0
      if pl = 0 then st
      else
        let k : Int := (a.getD (i / 2) 0 : Int) + b.getD (i % 2) 0 - 254
        match fmtF32.decode st.1 with
        | .num n' m' e' =>
          let r := fmtF32.result fl rm (exactAdd rm (.num n' m' e') (ofUnits false pl k))
          (r.1, st.2 ||| r.2)
        | _ => st
    (List.range 4).foldl step (fmtF32.round rm (.num n m e))

/-- bfp.pack of one f32 value (R176): sign, selector, magnitude. -/
def bfpQuant (bfp4 fl : Bool) (rm : Rm) (eA eB : Nat) (v : Nat) : Nat × Flags :=
  let (x, fx) := fmtF32.fin fl v
  let mmax := if bfp4 then 3 else 63
  let lo := if eB < eA then 1 else 0
  let eOf := fun s : Nat => if s = 0 then eA else eB
  let elem := fun (neg : Bool) (s m : Nat) =>
    if m = 0 then 0
    else if bfp4 then (if neg then 8 else 0) + 4 * s + m else (if neg then 128 else 0) + 64 * s + m
  match x with
  | .nan _ => (0, fx ||| fInv)
  | .inf n => (elem n (1 - lo) mmax, fx ||| fSat)
  | .num n m e =>
    let q := fun s : Nat => roundInt rm n m (e + 127 - eOf s)
    if q lo ≤ mmax then (elem n lo (q lo), fx)
    else if q (1 - lo) ≤ mmax then (elem n (1 - lo) (q (1 - lo)), fx)
    else (elem n (1 - lo) mmax, fx ||| fSat)

/-- Sign, selector and magnitude of a BFP element (R53). -/
def bfpElem (bfp4 : Bool) (v : Nat) : Bool × Nat × Nat :=
  if bfp4 then (v.testBit 3, v >>> 2 % 2, v % 4) else (v.testBit 7, v >>> 6 % 2, v % 64)

/-- bfp.unpack of one element (R177). -/
def bfpValue (bfp4 fl : Bool) (rm : Rm) (eA eB : Nat) (v : Nat) : Nat × Flags :=
  let (s, sel, m) := bfpElem bfp4 v
  if m = 0 then (0, fNone)
  else fmtF32.result fl rm (.num s m ((if sel = 0 then eA else eB : Nat) - 127))

/-- is_nonzero (R62) of the sub-element of a view (R180). -/
def nzShape : NzView → Nat × Nat × Nat
  | .b64 => (64, 1, 64) | .b32x2 => (32, 2, 32) | .b16x4 => (16, 4, 16) | .b8x8 => (8, 8, 8)
  | .f32x2 => (32, 2, 31) | .f16x4 => (16, 4, 15) | .bf16x4 => (16, 4, 15) | .e4m3x8 => (8, 8, 7) | .e5m2x8 => (8, 8, 7)
  | .bfp8 => (8, 8, 6) | .bfp4 => (4, 16, 2)

/-- The nonzero tests of every sub-element, element 0 first. -/
def nonzeros (v : NzView) (a : Word) : List Bool :=
  let (w, n, k) := nzShape v
  (List.range n).map fun i => sub_ a w i % 2 ^ k != 0

/-! ### The dot product (R179) -/

/-- One pair of narrow sub-elements: their exact product, or why there is none. -/
def dotTerms (f : FpFmt) (n : Nat) (a b : Word) : List (FVal × FVal) :=
  (List.range n).map fun i => (f.decode (sub_ a f.w i), f.decode (sub_ b f.w i))

/-- The floating-point forms of pdot: exact products and sum, one rounding. Each sentence of the entry on NaN and INV holds
by itself: a signalling NaN, a product of zero and infinity, or infinite terms of both signs raise INV (log 33). -/
def fdot (fl : Bool) (rm : Rm) (f : FpFmt) (n : Nat) (d : Nat) (a b : Word) : Nat × Flags :=
  let (z, fz) := fmtF32.fin fl d
  let ts := dotTerms f n a b
  let sig := z.isSig || ts.any fun t => t.1.isSig || t.2.isSig
  let nan := z.isNan || ts.any fun t => t.1.isNan || t.2.isNan
  let zi := ts.any fun t => zeroInf t.1 t.2
  let infs := (z :: ts.map fun t => exactMul t.1 t.2).filter FVal.isInf
  let both := infs.any FVal.neg? && infs.any fun x => !x.neg?
  if nan || zi || both then (fmtF32.nan, fz ||| if sig || zi || both then fInv else fNone)
  else
    let s := (ts.map fun t => exactMul t.1 t.2).foldl (exactAdd rm) z
    let r := fmtF32.result fl rm s
    (r.1, fz ||| r.2)

end Sys2Proof.Machine
end

