-- ==== Sys2Proof/Machine/FpAlu.lean ====
section
/-! DEFINITION. Floating-point instructions, conversions, narrow formats, block flags and random numbers (R166-R183). -/
namespace Sys2Proof.Machine

open Sys2Proof

/-- A function of every sub-element of a floating-point type, flags ORed (R45, R166): a is srca, b srcb, d the old
destination. -/
def fpMap (ty : FpTy) (f : FpFmt → Nat → Nat → Nat → Nat × Flags) (a b d : Word) : Word × Flags :=
  let (m, n) := fpShape ty
  let rs := (List.range n).map fun i => f m (sub_ a m.w i) (sub_ b m.w i) (sub_ d m.w i)
  (packN m.w (rs.map (·.1)), rs.foldl (fun g r => g ||| r.2) 0)

/-- An operation on operands that pass through fin, with the flags that fin raises (R166). -/
def fin2 (f : FpFmt) (fl : Bool) (x y : Nat) (g : FVal → FVal → Nat × Flags) : Nat × Flags :=
  let a := f.fin fl x
  let b := f.fin fl y
  let r := g a.1 b.1
  (r.1, a.2 ||| b.2 ||| r.2)

/-- fma of encodings, z the old destination (R166). -/
def fin3 (f : FpFmt) (fl : Bool) (rm : Rm) (x y z : Nat) : Nat × Flags :=
  let a := f.fin fl x
  let b := f.fin fl y
  let c := f.fin fl z
  let r := f.fma fl rm a.1 b.1 c.1
  (r.1, a.2 ||| b.2 ||| c.2 ||| r.2)

/-- The special functions on f32 or f32x2 (R172). -/
def specMap (x2 fl : Bool) (f : FVal → Nat × Flags) (a : Word) : Word × Flags :=
  fpMap (if x2 then .f32x2 else .f32) (fun m x _ _ => let v := m.fin fl x; let r := f v.1; (r.1, v.2 ||| r.2)) a 0 0

/-- Source and destination formats of fcvt (R174). -/
def fcvtFmts : FCvt → FpFmt × FpFmt
  | .f16f32 => (fmtF32, fmtF16) | .bf16f32 => (fmtF32, fmtBf16) | .e4m3f32 => (fmtF32, fmtE4m3) | .e5m2f32 => (fmtF32, fmtE5m2)
  | .f32f16 => (fmtF16, fmtF32) | .f32bf16 => (fmtBf16, fmtF32) | .f32e4m3 => (fmtE4m3, fmtF32) | .f32e5m2 => (fmtE5m2, fmtF32)

/-- icvt (R175). -/
def icvtW (c : ICvt) (fl : Bool) (rm : Rm) (a : Word) : Word × Flags :=
  let toI := fun (n : Nat) (sg : Bool) =>
    let v := fmtF32.fin fl (bits a 0 32)
    let r := f32ToInt rm n sg v.1
    (fill n sg r.1, v.2 ||| r.2)
  match c with
  | .f32i32 => (word (intToF32 rm (toInt 32 true (bits a 0 32))), 0)
  | .f32n32 => (word (intToF32 rm (bits a 0 32)), 0)
  | .f32i64 => (word (intToF32 rm a.toInt), 0)
  | .f32n64 => (word (intToF32 rm a.toNat), 0)
  | .i32f32 => toI 32 true
  | .n32f32 => toI 32 false
  | .i64f32 => toI 64 true
  | .n64f32 => toI 64 false

/-- bfp.pack (R176). -/
def bfpPackW (b4 fl : Bool) (rm : Rm) (a b : Word) : Word × Flags :=
  let q := fun i => bfpQuant b4 fl rm (bits b 0 8) (bits b 8 8) (sub_ a 32 i)
  (packN (if b4 then 4 else 8) [(q 0).1, (q 1).1], (q 0).2 ||| (q 1).2)

/-- bfp.unpack (R177). -/
def bfpUnpackW (b4 fl : Bool) (rm : Rm) (a b : Word) : Word × Flags :=
  let q := fun i => bfpValue b4 fl rm (bits b 0 8) (bits b 8 8) (sub_ a (if b4 then 4 else 8) i)
  (packN 32 [(q 0).1, (q 1).1], (q 0).2 ||| (q 1).2)

/-- sacc (R178): planes from registers a and a + 1, scales from b, the accumulator from d. -/
def saccW (fl : Bool) (rm : Rm) (a0 a1 b d : Word) : Word × Flags :=
  let acc := fmtF32.fin fl (bits d 0 32)
  let pl := [sub_ a0 32 0, sub_ a0 32 1, sub_ a1 32 0, sub_ a1 32 1].map (toInt 32 true)
  let r := foldPlanes fl rm acc.1 pl [bits b 0 8, bits b 8 8] [bits b 16 8, bits b 24 8]
  (word r.1, acc.2 ||| r.2)

/-- The integer forms of pdot (R179). -/
def idot (n cnt : Nat) (sg sat : Bool) (a b d : Word) : Word × Flags :=
  let t := (List.range cnt).map fun i => toInt n sg (sub_ a n i) * toInt n sg (sub_ b n i)
  let r := resInt (toInt 32 sg (bits d 0 32) + t.foldl (· + ·) 0) 32 sg sat
  (fill 32 sg r.1, r.2)

/-- pdot (R179). -/
def pdotW (ty : PdotTy) (fl : Bool) (a b d : Word) : Word × Flags :=
  let f := fun (m : FpFmt) (n : Nat) (rm : Rm) => let r := fdot fl rm m n (bits d 0 32) a b; (word r.1, r.2)
  match ty with
  | .i8x8 sat => idot 8 8 true sat a b d
  | .n8x8 sat => idot 8 8 false sat a b d
  | .i16x4 sat => idot 16 4 true sat a b d
  | .n16x4 sat => idot 16 4 false sat a b d
  | .e4m3x8 rm => f fmtE4m3 8 rm
  | .e5m2x8 rm => f fmtE5m2 8 rm
  | .bf16x4 rm => f fmtBf16 4 rm

/-- rng_mix (R183). -/
def rngMix (key ctr : Word) : Word :=
  ((List.range 6).foldl (fun (st : Word × Word) _ =>
    let y := st.2 + 0x6A4CE3B1952F0D87
    let x := st.1 + y
    let x := x ^^^ (x >>> 29)
    let x := x * 0x9F3A6C51E08B27D5
    (x ^^^ (x >>> 32), y)) (ctr, key)).1

/-! ### Meanings -/

/-- fadd (R166). -/
def execFadd (h : Hdr) (ty : FpTy) (rm : Rm) (d : Dst) (a b : Src) (s : State) : Out :=
  .next (compute h true d (fun t th => resFl (fpMap ty (fun m x y _ => fin2 m s.flushBit x y (m.add s.flushBit rm)) (readSrc (laneOf t) th a) (readSrc (laneOf t) th b) 0)) s)

/-- fsub (R166): x + (-y) exactly. -/
def execFsub (h : Hdr) (ty : FpTy) (rm : Rm) (d : Dst) (a b : Src) (s : State) : Out :=
  .next (compute h true d (fun t th => resFl (fpMap ty (fun m x y _ => fin2 m s.flushBit x y (fun u v => m.add s.flushBit rm u v.negate)) (readSrc (laneOf t) th a) (readSrc (laneOf t) th b) 0)) s)

/-- fmul (R166). -/
def execFmul (h : Hdr) (ty : FpTy) (rm : Rm) (d : Dst) (a b : Src) (s : State) : Out :=
  .next (compute h true d (fun t th => resFl (fpMap ty (fun m x y _ => fin2 m s.flushBit x y (m.mul s.flushBit rm)) (readSrc (laneOf t) th a) (readSrc (laneOf t) th b) 0)) s)

/-- fma (R166): reads its destination (R154). -/
def execFma (h : Hdr) (ty : FpTy) (rm : Rm) (d : Dst) (a b : Src) (s : State) : Out :=
  .next (compute h true d (fun t th => resFl (fpMap ty (fun m x y z => fin3 m s.flushBit rm x y z) (readSrc (laneOf t) th a) (readSrc (laneOf t) th b) (readDst th d))) s)

/-- fmin (R167). -/
def execFmin (h : Hdr) (ty : FpTy) (d : Dst) (a b : Src) (s : State) : Out :=
  .next (compute h true d (fun t th => resFl (fpMap ty (fun m x y _ => m.minMax s.flushBit false x y) (readSrc (laneOf t) th a) (readSrc (laneOf t) th b) 0)) s)

/-- fmax (R167). -/
def execFmax (h : Hdr) (ty : FpTy) (d : Dst) (a b : Src) (s : State) : Out :=
  .next (compute h true d (fun t th => resFl (fpMap ty (fun m x y _ => m.minMax s.flushBit true x y) (readSrc (laneOf t) th a) (readSrc (laneOf t) th b) 0)) s)

/-- fsetp (R168). -/
def execFsetp (h : Hdr) (c : FCond) (ty : FCmpTy) (p : BitVec 3) (a b : Src) (s : State) : Out :=
  .next (compute h false .sup (fun t th =>
    let m := match ty with | .f32 => fmtF32 | .f16 => fmtF16 | .bf16 => fmtBf16
    let r := m.cmp s.flushBit c (sub_ (readSrc (laneOf t) th a) m.w 0) (sub_ (readSrc (laneOf t) th b) m.w 0)
    { pred := some (p, r.1), fl := r.2 }) s)

/-- fclass (R169). -/
def execFclass (h : Hdr) (ty : FClassTy) (d : Dst) (a : Src) (s : State) : Out :=
  .next (compute h true d (fun t th =>
    let m := match ty with | .f32 => fmtF32 | .f16 => fmtF16 | .bf16 => fmtBf16 | .e4m3 => fmtE4m3 | .e5m2 => fmtE5m2
    resVal (m.classify (sub_ (readSrc (laneOf t) th a) m.w 0))) s)

/-- frnd (R170). -/
def execFrnd (h : Hdr) (ty : FpTy) (rm : Rm) (d : Dst) (a : Src) (s : State) : Out :=
  .next (compute h true d (fun t th => resFl (fpMap ty (fun m x _ _ => m.toIntegral s.flushBit rm x) (readSrc (laneOf t) th a) 0 0)) s)

/-- fdiv (R171): class V, so nothing enters the latches (R110). -/
def execFdiv (h : Hdr) (ty : FpTy) (rm : Rm) (d : Dst) (a b : Src) (s : State) : Out :=
  .next (compute h false d (fun t th => resFl (fpMap ty (fun m x y _ => fin2 m s.flushBit x y (m.div s.flushBit rm)) (readSrc (laneOf t) th a) (readSrc (laneOf t) th b) 0)) s)

/-- fsqrt (R171): class V. -/
def execFsqrt (h : Hdr) (ty : FpTy) (rm : Rm) (d : Dst) (a : Src) (s : State) : Out :=
  .next (compute h false d (fun t th => resFl (fpMap ty (fun m x _ _ => let v := m.fin s.flushBit x; let r := m.sqrt s.flushBit rm v.1; (r.1, v.2 ||| r.2)) (readSrc (laneOf t) th a) 0 0)) s)

/-- frcp (R65, R172): class V. -/
def execFrcp (h : Hdr) (x2 : Bool) (d : Dst) (a : Src) (s : State) : Out :=
  .next (compute h false d (fun t th => resFl (specMap x2 s.flushBit (frcp s.flushBit) (readSrc (laneOf t) th a))) s)

/-- frsqrt (R66, R172): class V. -/
def execFrsqrt (h : Hdr) (x2 : Bool) (d : Dst) (a : Src) (s : State) : Out :=
  .next (compute h false d (fun t th => resFl (specMap x2 s.flushBit (frsqrt s.flushBit) (readSrc (laneOf t) th a))) s)

/-- fexp2 (R63, R172): class V. -/
def execFexp2 (h : Hdr) (x2 : Bool) (d : Dst) (a : Src) (s : State) : Out :=
  .next (compute h false d (fun t th => resFl (specMap x2 s.flushBit (fexp2 s.flushBit) (readSrc (laneOf t) th a))) s)

/-- flog2 (R64, R172): class V. -/
def execFlog2 (h : Hdr) (x2 : Bool) (d : Dst) (a : Src) (s : State) : Out :=
  .next (compute h false d (fun t th => resFl (specMap x2 s.flushBit flog2 (readSrc (laneOf t) th a))) s)

/-- fscale (R173). -/
def execFscale (h : Hdr) (ty : FpTy) (rm : Rm) (d : Dst) (a b : Src) (s : State) : Out :=
  .next (compute h true d (fun t th => resFl (fpMap ty (fun m x y _ => m.scale s.flushBit rm x (toInt m.w true y)) (readSrc (laneOf t) th a) (readSrc (laneOf t) th b) 0)) s)

/-- fcvt (R174). -/
def execFcvt (h : Hdr) (c : FCvt) (rm : Rm) (d : Dst) (a : Src) (s : State) : Out :=
  .next (compute h true d (fun t th =>
    let m := fcvtFmts c
    let r := fConvert m.1 m.2 s.flushBit rm (sub_ (readSrc (laneOf t) th a) m.1.w 0)
    resFl (word r.1, r.2)) s)

/-- icvt (R175). -/
def execIcvt (h : Hdr) (c : ICvt) (rm : Rm) (d : Dst) (a : Src) (s : State) : Out :=
  .next (compute h true d (fun t th => resFl (icvtW c s.flushBit rm (readSrc (laneOf t) th a))) s)

/-- bfp.pack (R176). -/
def execBfpPack (h : Hdr) (bfp4 : Bool) (rm : Rm) (d : Dst) (a b : Src) (s : State) : Out :=
  .next (compute h true d (fun t th => resFl (bfpPackW bfp4 s.flushBit rm (readSrc (laneOf t) th a) (readSrc (laneOf t) th b))) s)

/-- bfp.unpack (R177). -/
def execBfpUnpack (h : Hdr) (bfp4 : Bool) (rm : Rm) (d : Dst) (a b : Src) (s : State) : Out :=
  .next (compute h true d (fun t th => resFl (bfpUnpackW bfp4 s.flushBit rm (readSrc (laneOf t) th a) (readSrc (laneOf t) th b))) s)

/-- sacc (R178): reads registers a and a + 1 and its destination (R154). -/
def execSacc (h : Hdr) (rm : Rm) (d : Dst) (a b : Src) (s : State) : Out :=
  .next (compute h true d (fun t th => resFl (saccW s.flushBit rm (readSrc (laneOf t) th a) (th.reg (srcNum a + 1)) (readSrc (laneOf t) th b) (readDst th d))) s)

/-- pdot (R179): reads its destination (R154). -/
def execPdot (h : Hdr) (ty : PdotTy) (d : Dst) (a b : Src) (s : State) : Out :=
  .next (compute h true d (fun t th => resFl (pdotW ty s.flushBit (readSrc (laneOf t) th a) (readSrc (laneOf t) th b) (readDst th d))) s)

/-- nzmask (R180). -/
def execNzmask (h : Hdr) (v : NzView) (d : Dst) (a : Src) (s : State) : Out :=
  .next (compute h true d (fun t th => resVal (word (ofBits (nonzeros v (readSrc (laneOf t) th a))))) s)

/-- nzcnt (R180). -/
def execNzcnt (h : Hdr) (v : NzView) (d : Dst) (a : Src) (s : State) : Out :=
  .next (compute h true d (fun t th => resVal (word ((nonzeros v (readSrc (laneOf t) th a)).filter id).length)) s)

/-- flg.rd (R181): each lane reads the BSW as its thread sees it (R61); the free choices it used are passed. -/
def execFlgRd (h : Hdr) (d : Dst) (s : State) : Out :=
  let s := s.seeFlags (s.active h.guard)
  .next (compute h false d (fun t th => resVal (s.curBlock.bswSeen t th)) s)

/-- flg.clr (R181): the OR over true-guard lanes of a[3:0] is cleared, as one change of all of them. -/
def execFlgClr (h : Hdr) (a : Src) (s : State) : Out :=
  let act := s.active h.guard
  let m : Flags := act.foldl (fun m t => m ||| bswFlags (s.src t a)) 0
  let s' := if act.isEmpty then s else s.flagChange act 0 m none
  .next (s'.endGroup h fun _ th => th)

/-- flg.arm (R181): the arm bits become a[3:0] of the highest-numbered true-guard lane, as one change of all of them. -/
def execFlgArm (h : Hdr) (a : Src) (s : State) : Out :=
  let act := s.active h.guard
  let s' := match act.getLast? with
    | none => s
    | some t => s.flagChange act 0 0 (some (bswFlags (s.src t a)))
  .next (s'.endGroup h fun _ th => th)

/-- rng (R183). -/
def execRng (h : Hdr) (d : Dst) (a b : Src) (s : State) : Out :=
  .next (compute h true d (fun t th => resVal (rngMix (readSrc (laneOf t) th a) (readSrc (laneOf t) th b))) s)

end Sys2Proof.Machine
end

