-- ==== Sys2Proof/Machine/Cross.lean ====
section
/-! DEFINITION. Cross-lane operations: member masks and instances (R15-R17, R196), reduction and scan trees (R69, R70),
and the eight operations (R197-R201). -/
namespace Sys2Proof.Machine

open Sys2Proof

/-! ### Instances (R15, R16) -/

/-- An instance that completes: the warp's base key, the mask, the members present (lane numbers, rising), and whether a
named lane is absent. -/
structure Members where
  base : Nat
  mask : Half
  lanes : List Nat
  absent : Bool
  deriving DecidableEq, Repr

/-- What a cross-lane operation gives one member: its result, and EMPTY where the operation writes it (R10). -/
structure CrossRes where
  res : LaneRes
  empty : Option Bool := none
  deriving DecidableEq, Repr

/-- Lanes that a mask names. -/
def namedLanes (m : Half) : List Nat := (List.range 32).filter fun l => m.getLsbD l

/-- A lane that no instance waits for: exited, or killed (R16). -/
def State.laneAbsent (s : State) (t : Nat) : Bool := match tget? s.threads t with | some th => isExited th | none => true

/-- A lane that has arrived at PC pc, with its mask. -/
def State.arrivedMask (s : State) (t : Nat) (pc : Word) : Option Half :=
  match tget? s.threads t with
  | some th => if th.run == .live && th.pc == pc then th.arrMask else none
  | none => none

/-- One lane takes its result: ABSENT and EMPTY are written (R10), and the arrival is consumed. -/
def State.crossLane (s : State) (h : Hdr) (d : Dst) (m : Members) (f : Nat → CrossRes) (l : Nat) : State :=
  let t := m.base + l
  let r := f l
  s.finishLane h t fun th =>
    let th := match r.res.val with | some v => writeDst d v th | none => th
    let th := match r.res.pred with | some (p, v) => th.setPred p v | none => th
    { th with absent := m.absent, empty := r.empty.getD th.empty, arrMask := none }

/-- An arrival that a warp holds at one PC: lane, mask, and the turn at which it came. -/
structure Arrival where
  lane : Nat
  mask : Half
  time : Nat
  deriving DecidableEq, Repr

/-- The arrivals held at PC pc, in increasing lane number. -/
def State.arrivals (s : State) (base : Nat) (pc : Word) : List Arrival :=
  (List.range 32).filterMap fun l => (s.arrivedMask (base + l) pc).map fun m => { lane := l, mask := m, time := (s.thread (base + l)).arrAt }

/-- The lanes that belong with mask m: those of every arrival whose mask overlaps, step by step (log 40). -/
def joinMask (l : List Arrival) : Nat → Half → Half
  | 0, m => m
  | n + 1, m => joinMask l n (l.foldl (fun m a => if a.mask &&& m = 0 then m else m ||| a.mask) m)

/-- The arrivals of the instance that mask m belongs to, and the first of them to come. -/
def joined (l : List Arrival) (m : Half) : List Arrival := l.filter fun a => a.mask &&& joinMask l 32 m != 0
def firstOf (l : List Arrival) : Option Arrival :=
  l.foldl (fun r a => match r with | none => some a | some x => if a.time < x.time then some a else some x) none

/-- Where an instance stands (R15, R16): a named lane is waited for, the masks differ, or its members may go on. -/
inductive Meeting where
  | waits
  | clash (lanes : List Nat)
  | ready (m : Members)
  deriving Repr

/-- The instance that mask m belongs to at PC pc. It is decided once every lane that the first arrival's mask names has
arrived or is absent: then all its arrivals must present that mask (R16). -/
def State.meeting (s : State) (base : Nat) (pc : Word) (m : Half) : Meeting :=
  let here := joined (s.arrivals base pc) m
  match firstOf here with
  | none => .waits
  | some a =>
    let named := namedLanes a.mask
    let lanes := here.map (·.lane)
    if !(named.all fun l => lanes.contains l || s.laneAbsent (base + l)) then .waits
    else if here.all fun x => x.mask == a.mask then .ready { base, mask := a.mask, lanes, absent := named.any fun l => s.laneAbsent (base + l) }
    else .clash lanes

/-- The mismatch trap of R16, on every thread of an instance that has arrived. -/
def State.maskClash (s : State) (base : Nat) (lanes : List Nat) : State :=
  let ts := lanes.map (base + ·)
  let s := ts.foldl (fun s t => s.modThread t fun th => { th with arrMask := none, wait := .none }) s
  s.trapThreads ts (illegalMask 2) fun th => th.pc

/-- The instance of one mask at PC pc completes where it can: the members receive their results together (R15). The
flags of all of them are one change of the BSW (R200). -/
def State.tryInstance (s : State) (h : Hdr) (d : Dst) (base : Nat) (pc : Word) (f : State → Members → Nat → CrossRes) (mask : Half) : State :=
  match s.meeting base pc mask with
  | .waits => s
  | .clash lanes => s.maskClash base lanes
  | .ready m =>
    let g := f s m
    let s := s.raise (m.lanes.map (base + ·)) (m.lanes.foldl (fun fl l => fl ||| (g l).res.fl) 0)
    m.lanes.foldl (fun s l => s.crossLane h d m g l) s

/-- Arrival at a warp-wide operation (R15, R16): the group's threads arrive, unless one is not named by its own mask; then
each of their masks' instances completes where it can. A thread that has arrived stays at its PC until then. -/
def State.arriveOp (s : State) (b : Src) (attempt : Nat → Word → State → Half → State) : State :=
  let maskOfT := fun t => (s.thread t).arrMask.getD (BitVec.ofNat 32 (bits (s.src t b) 32 32))
  let ts := s.cur.tids.filter fun t => (tget? s.threads t).isSome
  match ts with
  | [] => s
  | t0 :: _ =>
    if ts.any fun t => !(maskOfT t).getLsbD (laneOf t) then
      s.trapThreads (ts.filter fun t => (s.thread t).arrMask.isNone) (illegalMask 1) fun th => th.pc
    else
      let masks := (ts.map maskOfT).eraseDups
      let pc := (s.thread t0).pc
      let s := ts.foldl (fun s t => s.modThread t fun th => { th with
        arrMask := some (maskOfT t), arrAt := if th.arrMask.isNone then th.issued else th.arrAt, wait := .member }) s
      masks.foldl (attempt (warpOf t0) pc) s

/-- A cross-lane instruction (R196). -/
def State.crossOp (s : State) (h : Hdr) (d : Dst) (b : Src) (f : State → Members → Nat → CrossRes) : State :=
  s.arriveOp b fun base pc s m => s.tryInstance h d base pc f m

/-- A member's source operand. -/
def Members.src (m : Members) (s : State) (l : Nat) (a : Src) : Word := s.src (m.base + l) a

/-! ### Trees (R69, R70) -/

/-- One node: empty inputs pass the other through. -/
def nodeOp {α : Type} (op : α → α → α) : Option α → Option α → Option α
  | some x, some y => some (op x y)
  | some x, none => some x
  | none, y => y

/-- The node of level h and index i: it covers lanes i × 2^h to (i + 1) × 2^h - 1. -/
def treeNode {α : Type} (op : α → α → α) (v : Nat → Option α) : Nat → Nat → Option α
  | 0, i => v i
  | h + 1, i => nodeOp op (treeNode op v h (2 * i)) (treeNode op v h (2 * i + 1))

/-- tree_reduce over 32 lanes (R69). -/
def treeReduce {α : Type} (op : α → α → α) (v : Nat → Option α) : Option α := treeNode op v 5 0

/-- The inclusive scan of lane l (R70): the aligned blocks of l + 1, combined from left to right. -/
def treeScan {α : Type} (op : α → α → α) (v : Nat → Option α) (l : Nat) : Option α :=
  ([5, 4, 3, 2, 1, 0].foldl (fun (st : Option α × Nat) k =>
    if (l + 1).testBit k then (nodeOp op st.1 (treeNode op v k (st.2 / 2 ^ k)), st.2 + 2 ^ k) else st) (none, 0)).1

/-- A value of a tree: an n-bit pattern, with the flags raised below it. -/
abbrev TreeVal := Nat × Flags

/-- Width and signedness of an operation's values, and the identity (R200). -/
def redShape : RedOp → Nat × Bool × Nat
  | .add ty => let (n, sg) := cmpShape ty; (n, sg, 0)
  | .min ty => let (n, sg) := cmpShape ty; (n, sg, if sg then 2 ^ (n - 1) - 1 else 2 ^ n - 1)
  | .max ty => let (n, sg) := cmpShape ty; (n, sg, if sg then 2 ^ (n - 1) else 0)
  | .and w => (bW w, false, 2 ^ bW w - 1)
  | .or w => (bW w, false, 0)
  | .xor w => (bW w, false, 0)
  | .fadd => (32, false, 0x80000000)
  | .fmin => (32, false, 0x7F800000)
  | .fmax => (32, false, 0xFF800000)

/-- The operation at a node (R200). -/
def redNode (fl : Bool) (op : RedOp) (x y : TreeVal) : TreeVal :=
  let (n, sg, _) := redShape op
  let lt := toInt n sg x.1 < toInt n sg y.1
  let r : Nat × Flags := match op with
    | .add _ => ((x.1 + y.1) % 2 ^ n, 0)
    | .min _ => (if lt then x.1 else y.1, 0)
    | .max _ => (if lt then y.1 else x.1, 0)
    | .and _ => (x.1 &&& y.1, 0)
    | .or _ => (x.1 ||| y.1, 0)
    | .xor _ => (x.1 ^^^ y.1, 0)
    | .fadd => fin2 fmtF32 fl x.1 y.1 (fmtF32.add fl .rn)
    | .fmin => fmtF32.minMax fl false x.1 y.1
    | .fmax => fmtF32.minMax fl true x.1 y.1
  (r.1, x.2 ||| y.2 ||| r.2)

/-- The members' values as the leaves of a tree; other lanes are empty. -/
def leaves (m : Members) (f : Nat → TreeVal) (l : Nat) : Option TreeVal := if m.lanes.contains l then some (f l) else none

/-! ### The operations -/

/-- lxch's element for sub-element j of lane l (R197). -/
def lxchElem (s : State) (m : Members) (size : BitVec 2) (wrap : Bool) (a b : Src) (l j : Nat) : Nat :=
  let cnt := 2 ^ size.toNat
  let w := 64 / cnt
  let q := m.src s l b
  let x := l * cnt + j
  let c := bits q 8 8
  let e : Int := (((x &&& (c ^^^ 1023)) ^^^ bits q 0 8 : Nat) : Int) + toInt 10 true (bits q 16 10)
  let own := sub_ (m.src s l a) w j
  let get := fun (e : Nat) =>
    let k := e / cnt
    if !m.mask.getLsbD k then own else if !m.lanes.contains k then 0 else sub_ (m.src s k a) w (e % cnt)
  if e < 0 ∨ (32 * cnt : Nat) ≤ e then (if wrap then get (e % (32 * cnt : Nat)).toNat else own) else get e.toNat

/-- lxch (R197). -/
def execLxch (h : Hdr) (size : BitVec 2) (wrap : Bool) (d : Dst) (a b : Src) (s : State) : Out :=
  .next (s.crossOp h d b fun s m l =>
    let cnt := 2 ^ size.toNat
    { res := resVal (packN (64 / cnt) ((List.range cnt).map (lxchElem s m size wrap a b l))) })

/-- bcast (R198). -/
def execBcast (h : Hdr) (d : Dst) (a b : Src) (s : State) : Out :=
  .next (s.crossOp h d b fun s m _ => { res := resVal (m.src s (m.lanes.headD 0) a) })

/-- poll (R199). -/
def execPoll (h : Hdr) (op : PollOp) (neg : Bool) (p : BitVec 3) (b : Src) (s : State) : Out :=
  let d : Dst := match op with | .mask d => d | .count d => d | _ => .sup
  .next (s.crossOp h d b fun s m _ =>
    let tr := m.lanes.filter fun l => (s.thread (m.base + l)).pred p != neg
    let k := bits (m.src s (m.lanes.headD 0) b) 0 6
    { res := match op with
        | .mask _ => resVal (word ((tr.map fun l => 2 ^ l).sum))
        | .count _ => resVal (word tr.length)
        | .ge q => { pred := some (q, k ≤ tr.length) }
        | .le q => { pred := some (q, tr.length ≤ k) } })

/-- The leaves of lred and scan: a's low bits in each member. -/
def redLeaves (s : State) (m : Members) (op : RedOp) (a : Src) : Nat → Option TreeVal :=
  leaves m fun l => (bits (m.src s l a) 0 (redShape op).1, 0)

/-- A tree value under R44, an empty one giving the identity. -/
def redVal (op : RedOp) (v : Option TreeVal) : LaneRes :=
  let (n, sg, ident) := redShape op
  match v with
  | some r => resFl (fill n sg r.1, r.2)
  | none => resVal (fill n sg ident)

/-- lred (R200). -/
def execLred (h : Hdr) (op : RedOp) (d : Dst) (a b : Src) (s : State) : Out :=
  .next (s.crossOp h d b fun s m _ => { res := redVal op (treeReduce (redNode s.flushBit op) (redLeaves s m op a)) })

/-- scan (R200): inclusive where b[0] = 0, exclusive where it is 1. The flags are those of the nodes in the members' results:
whether a node that no member's result contains raises its flags R200 does not say, and none is this model's choice
(log 71). -/
def execScan (h : Hdr) (op : RedOp) (d : Dst) (a b : Src) (s : State) : Out :=
  .next (s.crossOp h d b fun s m l =>
    let sc := treeScan (redNode s.flushBit op) (redLeaves s m op a)
    { res := redVal op (if bit (m.src s l b) 0 then (if l = 0 then none else sc (l - 1)) else sc l) })

/-- The peer word of lane l (R198). -/
def peerWord (s : State) (m : Members) (w64 : Bool) (a : Src) (l : Nat) : Word :=
  let key := fun l => bits (m.src s l a) 0 (bW w64)
  let cls := m.lanes.filter fun k => key k == key l
  let first := cls.headD 0
  let firsts := m.lanes.filter fun k => (m.lanes.find? fun j => key j == key k) == some k
  word ((firsts.filter fun k => k < first).length * 2 ^ 56 + first * 2 ^ 48 + (cls.filter fun k => k < l).length * 2 ^ 40
    + cls.length * 2 ^ 32 + (cls.map fun k => 2 ^ k).sum)

/-- peer (R198). -/
def execPeer (h : Hdr) (w64 : Bool) (d : Dst) (a b : Src) (s : State) : Out :=
  .next (s.crossOp h d b fun s m l => { res := resVal (peerWord s m w64 a l) })

/-- lead (R198). -/
def execLead (h : Hdr) (hi : Bool) (p : BitVec 3) (b : Src) (s : State) : Out :=
  .next (s.crossOp h .sup b fun _ m l => { res := { pred := some (p, (if hi then m.lanes.getLast? else m.lanes.head?) == some l) } })

/-- The draw of csample (R201): r and the flags. -/
def sampleDraw (fl : Bool) (m : Members) (w : Nat → Nat) (u : Nat) : Nat × Flags :=
  let fw := fun l => fmtF32.fout fl (w l)
  let f0 := m.lanes.foldl (fun f l => f ||| (fw l).2) 0
  let nz := m.lanes.filter fun l => (fw l).1 % 2 ^ 31 != 0
  let lv := leaves m fun l => ((fw l).1, 0)
  let op := redNode fl .fadd
  if m.lanes.any fun l => (fmtF32.decode (fw l).1).isNan || (2 ^ 31 ≤ (fw l).1 && (fw l).1 % 2 ^ 31 != 0) then (33, f0 ||| fInv)
  else
    let tot := (treeReduce op lv).getD (0, 0)
    let sc := fun l => (treeScan op lv l).getD (0, 0)
    let f1 := m.lanes.foldl (fun f l => f ||| (sc l).2) (f0 ||| tot.2)
    if tot.1 % 2 ^ 31 = 0 then (32, f0 ||| tot.2)
    else if tot.1 = 0x7F800000 then
      (((nz.find? fun l => (sc l).1 == 0x7F800000).or nz.getLast?).getD 32, f1)
    else
      let t := r32 (exactMul (.num false u (-32)) (f32v tot.1))
      (((nz.find? fun l => fLt false t (f32v (sc l).1)).or nz.getLast?).getD 32, f1)

/-- csample (R201). -/
def execCsample (h : Hdr) (p : BitVec 3) (d : Dst) (a b : Src) (s : State) : Out :=
  .next (s.crossOp h d b fun s m _ =>
    let r := sampleDraw s.flushBit m (fun l => bits (m.src s l a) 0 32) (bits (m.src s (m.lanes.headD 0) b) 0 32)
    { res := { val := some (word r.1), pred := some (p, r.1 < 32), fl := r.2 }, empty := some (r.1 == 32) })

end Sys2Proof.Machine
end

