-- ==== Sys2Proof/Machine/FibreOps.lean ====
section
/-! DEFINITION. The coordinate engine: fibres, their instances and walks (R274-R288), and sproj (R289). -/
namespace Sys2Proof.Machine

open Sys2Proof

/-! ### Instances with effects (R278, R282) -/

/-- What an instance's walk comes to: what each member (by lane) takes with the flags raised, a trap on every member, or
a wait. -/
inductive CeOut where
  | done (f : Nat → Thread → Thread) (fl : Flags)
  | trap (ti : TrapInfo)
  | wait (w : Wait)

/-- Trying to complete the instance of one mask, whose walk act performs once. -/
def State.tryWalk (s : State) (h : Hdr) (base : Nat) (pc : Word) (act : State → Members → CeOut × State) (mask : Half) : State :=
  match s.meeting base pc mask with
  | .waits => s
  | .clash lanes => s.maskClash base lanes
  | .ready m =>
    let ts := m.lanes.map (base + ·)
    match act s m with
    | (.wait w, s) => s.waitLanes ts w
    | (.trap ti, s) =>
      let s := ts.foldl (fun s t => s.modThread t fun th => { th with arrMask := none, wait := .none }) s
      s.trapThreads ts ti fun th => th.pc
    | (.done f fl, s) =>
      let s := s.raise ts fl
      m.lanes.foldl (fun s l => s.finishLane h (base + l) fun th =>
        { f l th with absent := m.absent, arrMask := none }) s

/-- The steering member: the lowest-numbered one (R278). -/
def Members.lead (m : Members) : Nat := m.base + m.lanes.headD 0

/-! ### Fibre registers -/

/-- Key of fibre f of the warp with base key base. -/
def fibreKey (base : Nat) (f : BitVec 3) : Nat := 8 * (base / 32) + f.toNat

def State.fibre (s : State) (m : Members) (f : BitVec 3) : Fibre := tget {} s.fibres (fibreKey m.base f)
def State.setFibre (s : State) (m : Members) (f : BitVec 3) (x : Fibre) : State :=
  { s with fibres := tput {} (fibreKey m.base f) x s.fibres }

/-- Whether a walk under way is that of the instance whose members these are. -/
def FibWalk.isOf (w : FibWalk) (s : State) (m : Members) : Bool := w.pc == (s.thread m.lead).pc && w.mask == m.mask

/-- A coordinate-engine instruction on the fibres that its word names: arrival as R196, completion by act. While a walk of
another instance on one of them is under way, it waits (R280). -/
def State.ceOp (s : State) (h : Hdr) (b : Src) (fs : List (BitVec 3)) (act : State → Members → CeOut × State) : State :=
  s.arriveOp b fun base pc s m => s.tryWalk h base pc (fun s m =>
    if fs.any fun f => (match (s.fibre m f).walk with | some w => !w.isOf s m | none => false) then (.wait .member, s)
    else act s m) m

/-- A register with the progress of a walk: its cursor is c, and the rest as w says (R281). -/
def Fibre.hold (x : Fibre) (w : FibWalk) (c : Fibre) : Fibre :=
  { x with walk := some { w with pos := c.pos, coord := c.coord, off := c.off, elen := c.elen, scan := c.scan } }

/-- The cursor from which a walk goes on: the register's own, or where it stopped. -/
def Fibre.cursor (x : Fibre) : Fibre :=
  match x.walk with
  | some w => { x with pos := w.pos, coord := w.coord, off := w.off, elen := w.elen, scan := w.scan, walk := none }
  | none => x

/-- A register as the end of a walk leaves it. -/
def Fibre.settled (x : Fibre) : Fibre := { x with scan := none, walk := none }

/-- The progress of an instance so far: nothing, or what its register holds. -/
def State.walkSoFar (s : State) (m : Members) (x : Fibre) : FibWalk :=
  x.walk.getD { pc := (s.thread m.lead).pc, mask := m.mask, pos := 0, coord := 0, off := 0, elen := 0, scan := none }

/-- How many of fuel moves a walk makes before it stops between two of them: all, but where an event is the next turn of the
agenda (pre-emption, a halt), as a free value says (R281, log 20). -/
def State.walkMoves (s : State) (fuel : Nat) : Nat × State :=
  match s.agenda with
  | .event _ :: _ => ((Config.freeWord s.ctr).toNat % (fuel + 1), { s with ctr := s.ctr + 1 })
  | _ => (fuel, s)

/-- No coordinate. -/
def noCoord : Nat := 0xFFFFFFFF

/-- At end (R276). -/
def Fibre.atEnd (x : Fibre) : Bool := x.lim ≤ x.pos

/-- A dense kind (R274). -/
def Fibre.dense (x : Fibre) : Bool := 2 ≤ x.kind

/-- Bytes of one element: 4 for plain; 1 for delta and bits, whose elements are read byte by byte (R274). -/
def kindSize (k : Nat) : Nat :=
  match k with | 0 => 4 | 4 => 2 | 5 => 4 | 6 => 8 | 7 => 4 | 8 => 2 | 9 => 2 | _ => 1

/-- Whether a dense element is present: bits that is_nonzero looks at (R62). -/
def kindBits (k : Nat) : Nat :=
  match k with | 3 => 8 | 4 => 16 | 5 => 32 | 6 => 64 | 7 => 31 | 8 => 15 | 9 => 15 | _ => 7

/-- Why a step stops: a wait, with the position of a dense fibre that it has come to; a failed read at an address (cause
0x05); or an offending element (R288). -/
inductive WalkErr where
  | wait (w : Wait) (at_ : Option Nat)
  | read (addr : Word)
  | elem (cause : Nat) (x : Fibre)

/-- A step of a walk: the fibre after it, or why it stopped. -/
abbrev Walk := Except WalkErr Fibre × State

/-- n bytes of a fibre at a byte offset, loaded by thread t (R279). -/
def State.fibRead (s : State) (t : Nat) (x : Fibre) (o n : Nat) : Except WalkErr (List Byte) × State :=
  let va := x.base + word o
  if x.spad then
    if s.spaceBytes t .s < va.toNat + n then (.error (.read va), s)
    else match s.notReady t .s false (addrsOf va.toNat n) with
      | some w => (.error (.wait w none), s)
      | none => let r := s.poolReadBack t (s.thread t).block va.toNat n; (.ok r.1, r.2)
  else if !spanCanonical va n then (.error (.read va), s)
  else match s.xlateSpan (s.asidOf t) (s.thread t).lvl.toNat .read va n with
    | (.error e, s) => (.error (if e.waits then .wait .poison none else .read e.va), s)
    | (.ok l, s) => match s.notReady t .g false l with
      | some w => (.error (.wait w none), s)
      | none => let r := s.loadBytes t l; (.ok r.1, r.2)

/-- An LEB128 value at offset o: its value and length, none where it takes more than five bytes (R274, R275). -/
def State.leb (s : State) (t : Nat) (x : Fibre) (o : Nat) : Nat → Nat → Nat → Except WalkErr (Option (Nat × Nat)) × State
  | 0, _, _ => (.ok none, s)
  | fuel + 1, n, acc =>
    match s.fibRead t x (o + n) 1 with
    | (.error e, s) => (.error e, s)
    | (.ok bs, s) =>
      let b := (bs.headD 0).toNat
      let v := acc + b % 128 * 2 ^ (7 * n)
      if b < 128 then (.ok (some (v, n + 1)), s) else s.leb t x o fuel (n + 1) v

/-- The cursor left on the element it could not take (R288). -/
def Fibre.offend (x : Fibre) (cause : Nat) : WalkErr := .elem cause { x with bad := true }

/-- Reading and checking the plain or delta element at POS, whose byte offset OFF already names (R275). x.coord is the
coordinate of the element the cursor last stood on. -/
def State.fibTake (s : State) (t : Nat) (x : Fibre) : Walk :=
  if x.kind = 0 then
    match s.fibRead t x (4 * x.pos) 4 with
    | (.error e, s) => (.error e, s)
    | (.ok bs, s) =>
      let v := leNat bs
      (if v = noCoord then .error (x.offend 4)
       else if x.pos ≠ 0 ∧ v ≤ x.coord then .error (x.offend 3)
       else .ok { x with coord := v, bad := false }, s)
  else
    match s.leb t x x.off 5 0 0 with
    | (.error e, s) => (.error e, s)
    | (.ok none, s) => (.error (x.offend 4), s)
    | (.ok (some (d, n)), s) =>
      let v := if x.pos = 0 then x.origin + d else x.coord + d
      (if 0xFFFFFFFF < d then .error (x.offend 4)
       else if (x.pos ≠ 0 ∧ d = 0) ∨ 0xFFFFFFFE < v then .error (x.offend 3)
       else .ok { x with coord := v, elen := n, bad := false }, s)

/-- At end: POS := LIM and no coordinate. -/
def Fibre.toEnd (x : Fibre) : Fibre := { x with pos := x.lim, coord := noCoord, scan := none }

/-- Whether the dense element at position p is present. -/
def State.fibPresent (s : State) (t : Nat) (x : Fibre) (p : Nat) : Except WalkErr Bool × State :=
  if x.kind = 2 then
    match s.fibRead t x (p / 8) 1 with
    | (.error e, s) => (.error e, s)
    | (.ok bs, s) => (.ok ((bs.headD 0).getLsbD (p % 8)), s)
  else
    match s.fibRead t x (kindSize x.kind * p) (kindSize x.kind) with
    | (.error e, s) => (.error e, s)
    | (.ok bs, s) => (.ok (leNat bs % 2 ^ kindBits x.kind != 0), s)

/-- The least present position from p on, or the end. -/
def State.fibScan (s : State) (t : Nat) (x : Fibre) : Nat → Nat → Walk
  | 0, _ => (.ok x.toEnd, s)
  | fuel + 1, p =>
    if x.lim ≤ p then (.ok x.toEnd, s)
    else match s.fibPresent t x p with
      | (.error (.wait w _), s) => (.error (.wait w (some p)), s)
      | (.error e, s) => (.error e, s)
      | (.ok true, s) => (.ok { x with pos := p, coord := x.origin + p, scan := none }, s)
      | (.ok false, s) => s.fibScan t x fuel (p + 1)

/-- step(X) of R276; at end it does nothing. -/
def State.fibStep (s : State) (t : Nat) (x : Fibre) : Walk :=
  if x.atEnd then (.ok x, s)
  else if x.dense then s.fibScan t x (x.lim - x.pos) (x.scan.getD (x.pos + 1))
  else
    let y := { x with pos := x.pos + 1, off := if x.kind = 1 then x.off + x.elen else 0 }
    if y.atEnd then (.ok y.toEnd, s) else s.fibTake t y

/-- How far a walk over one fibre has come: to its end, to a place between two moves after n moves in all, or to an
error. -/
inductive WalkEnd where
  | done (x : Fibre)
  | part (x : Fibre) (n : Nat) (w : Wait)
  | err (e : WalkErr)

/-- A walk of one step that starts at x. -/
def oneStep (x : Fibre) (r : Walk) : WalkEnd × State :=
  match r with
  | (.ok y, s) => (.done y, s)
  | (.error (.wait w at_), s) => (.part { x with scan := at_ } 0 w, s)
  | (.error e, s) => (.err e, s)

/-- step while a test holds, at most fuel times, of which budget are made now; n have been made before. -/
def State.fibWhile (s : State) (t : Nat) (p : Fibre → Bool) : Nat → Nat → Nat → Fibre → WalkEnd × State
  | 0, _, _, x => (.done x, s)
  | fuel + 1, budget, n, x =>
    if x.atEnd || !p x then (.done x, s)
    else match budget with
      | 0 => (.part x n .member, s)
      | budget + 1 => match s.fibStep t x with
        | (.error (.wait w at_), s) => (.part { x with scan := at_ } n w, s)
        | (.error e, s) => (.err e, s)
        | (.ok y, s) => s.fibWhile t p fuel budget (n + 1) y

/-- The cursor onto its first element (R284). -/
def State.fibFirst (s : State) (t : Nat) (x : Fibre) : Walk :=
  if x.dense then s.fibScan t x (x.lim + 1) (x.scan.getD 0)
  else if x.lim = 0 then (.ok x.toEnd, s)
  else s.fibTake t x

def sparseTrap (cause : Nat) (addr : Word := 0) : TrapInfo := { cls := 7, cause, addr }

/-- The byte address of the element at POS. -/
def Fibre.addr (x : Fibre) : Word := x.base + word (if x.kind = 1 then x.off else 4 * x.pos)

/-- How an error of a walk ends the instance (R282, R288): only the offending fibre, numbered f, is left changed. -/
def State.walkFail (s : State) (m : Members) (f : BitVec 3) (e : WalkErr) : CeOut × State :=
  match e with
  | .wait w _ => (.wait w, s)
  | .read a => (.trap (sparseTrap 5 a), s.setFibre m f (s.fibre m f).settled)
  | .elem c x => (.trap (sparseTrap c x.addr), s.setFibre m f x.settled)

/-- The causes 0x01 and 0x03 that a named fibre raises at once. -/
def Fibre.check (x : Fibre) : Option TrapInfo :=
  if !x.opened then some (sparseTrap 1) else if x.bad then some (sparseTrap 3 x.addr) else none

/-- What a walk over one fibre comes to. -/
def State.walkDone (m : Members) (f : BitVec 3) (r : WalkEnd × State) : CeOut × State :=
  match r with
  | (.err e, s) => s.walkFail m f e
  | (.part c n w, s) =>
    let x := s.fibre m f
    (.wait w, s.setFibre m f (x.hold { s.walkSoFar m x with moves := n } c))
  | (.done x, s) => (.done (fun _ th => th) 0, s.setFibre m f x.settled)

/-- A walk of at most fuel moves over fibre f from cursor c on, while p holds. -/
def State.walkWhile (s : State) (m : Members) (f : BitVec 3) (p : Fibre → Bool) (fuel : Nat) (c : Fibre) : CeOut × State :=
  let n := (s.walkSoFar m (s.fibre m f)).moves
  let b := s.walkMoves (fuel - n)
  State.walkDone m f (b.2.fibWhile m.lead p (fuel - n) b.1 n c)

/-! ### The instructions -/

/-- fib.open (R284). Where the first element offends, COORD has no last good coordinate: it is a free value. -/
def execFibOpen (h : Hdr) (spad : Bool) (kind : BitVec 4) (f : BitVec 3) (a b : Src) (s : State) : Out :=
  .next (s.ceOp h b [f] fun s m =>
    let t := m.lead
    let base := s.src t a
    let v := (s.thread t).reg (srcNum a + 1)
    let len := bits v 0 32
    let org := bits v 32 32
    let k := kind.toNat
    if base.toNat % kindSize k ≠ 0 ∨ (k = 0 ∧ org ≠ 0) ∨ (2 ≤ k ∧ 0xFFFFFFFF < org + len) then (.trap (sparseTrap 2), s)
    else
      let x : Fibre := { opened := true, spad, kind := k, base, len, origin := org, lim := len, coord := (Config.freeWord s.ctr).toNat % 2 ^ 32,
                         scan := (s.fibre m f).walk.bind (·.scan) }
      State.walkDone m f (oneStep x ({ s with ctr := s.ctr + 1 } |>.fibFirst t x)))

/-- fib.adv.n (R285, R288). -/
def execFibAdvN (h : Hdr) (f : BitVec 3) (a b : Src) (s : State) : Out :=
  .next (s.ceOp h b [f] fun s m =>
    let t := m.lead
    let x := s.fibre m f
    let k := bits (s.src t a) 0 32
    if x.opened && x.bad && k == 0 then State.walkDone m f (oneStep x (s.fibTake t x))
    else match x.check with
      | some ti => (.trap ti, s)
      | none => s.walkWhile m f (fun _ => true) (min k (x.lim - x.pos)) x.cursor)

/-- fib.adv.ge (R285). -/
def execFibAdvGe (h : Hdr) (f : BitVec 3) (a b : Src) (s : State) : Out :=
  .next (s.ceOp h b [f] fun s m =>
    let t := m.lead
    let x := s.fibre m f
    let k := bits (s.src t a) 0 32
    match x.check with
    | some ti => (.trap ti, s)
    | none => s.walkWhile m f (fun y => y.coord < k) (x.lim - x.pos) x.cursor)

/-- fib.end (R285). -/
def execFibEnd (h : Hdr) (p : BitVec 3) (f : BitVec 3) (b : Src) (s : State) : Out :=
  .next (s.ceOp h b [f] fun s m =>
    let x := s.fibre m f
    match x.check with
    | some ti => (.trap ti, s)
    | none => (.done (fun _ th => th.setPred p x.atEnd) 0, s))

/-- fib.close (R285). -/
def execFibClose (h : Hdr) (f : BitVec 3) (b : Src) (s : State) : Out :=
  .next (s.ceOp h b [f] fun s m => (.done (fun _ th => th) 0, s.setFibre m f {}))

/-- A pair: coordinate, position in A, position in B (R286). -/
abbrev Pair := Nat × Nat × Nat

/-- Where a walk of fib.isect or fib.merge stands: the pairs so far, the two cursors, and which of them is still to step. -/
structure PairCur where
  pairs : List Pair
  a : Fibre
  b : Fibre
  sa : Bool
  sb : Bool

/-- How far it has come; an error names the fibre that raises it. -/
inductive PairEnd where
  | done (c : PairCur)
  | part (c : PairCur) (w : Wait)
  | err (isA : Bool) (e : WalkErr)

/-- What the walk of R286 does next between two moves, with at most k pairs: none at its end; else the pair assigned, and
the fibres to step. -/
def PairCur.next (c : PairCur) (merge : Bool) (k : Nat) : Option PairCur :=
  let a := c.a
  let b := c.b
  let stop := if merge then a.atEnd && b.atEnd else a.atEnd || b.atEnd
  if k ≤ c.pairs.length || stop then none
  else
    let onlyA := b.atEnd || (!a.atEnd && a.coord < b.coord)
    let onlyB := !onlyA && (a.atEnd || b.coord < a.coord)
    let ps := if onlyA then (if merge then [(a.coord, a.pos, noCoord)] else [])
      else if onlyB then (if merge then [(b.coord, noCoord, b.pos)] else [])
      else [(a.coord, a.pos, b.pos)]
    some { c with pairs := c.pairs ++ ps, sa := !onlyB, sb := !onlyA }

/-- The walk of R286, of which budget moves are made now. -/
def State.pairWalk (s : State) (t : Nat) (merge : Bool) (k : Nat) : Nat → Nat → PairCur → PairEnd × State
  | 0, _, c => (.done c, s)
  | fuel + 1, budget, c =>
    if c.sa then match s.fibStep t c.a with
      | (.error (.wait w at_), s) => (.part { c with a := { c.a with scan := at_ } } w, s)
      | (.error e, s) => (.err true e, s)
      | (.ok x, s) => s.pairWalk t merge k fuel budget { c with a := x, sa := false }
    else if c.sb then match s.fibStep t c.b with
      | (.error (.wait w at_), s) => (.part { c with b := { c.b with scan := at_ } } w, s)
      | (.error e, s) => (.err false e, s)
      | (.ok x, s) => s.pairWalk t merge k fuel budget { c with b := x, sb := false }
    else match c.next merge k, budget with
      | none, _ => (.done c, s)
      | some _, 0 => (.part c .member, s)
      | some c, budget + 1 => s.pairWalk t merge k fuel budget c

/-- What a member takes of the pairs (R286): d, d + 1 and the predicate. -/
def pairResult (m : Members) (d : Dst) (p : BitVec 3) (ps : List Pair) (l : Nat) (th : Thread) : Thread :=
  let rm := ((m.lanes.take ps.length).map fun k => 2 ^ k).sum
  let idx := (m.lanes.takeWhile (· != l)).length
  match ps[idx]? with
  | some (c, x, y) => ((writeDst d (word (c + rm * 2 ^ 32)) th).setReg (dstNum d + 1) (word (x + y * 2 ^ 32))).setPred p true
  | none => ((writeDst d (word (noCoord + rm * 2 ^ 32)) th).setReg (dstNum d + 1) 0xFFFFFFFFFFFFFFFF).setPred p false

/-- fib.isect and fib.merge (R286). -/
def State.pairOp (s : State) (h : Hdr) (merge : Bool) (p : BitVec 3) (d : Dst) (fa fb : BitVec 3) (b : Src) : State :=
  s.ceOp h b [fa, fb] fun s m =>
    let x := s.fibre m fa
    let y := s.fibre m fb
    if !x.opened || !y.opened then (.trap (sparseTrap 1), s)
    else if fa = fb then (.trap (sparseTrap 2), s)
    else match x.check.or y.check with
      | some ti => (.trap ti, s)
      | none =>
        let w := s.walkSoFar m x
        let c : PairCur := { pairs := w.pairs, a := x.cursor, b := y.cursor, sa := w.stepA, sb := w.stepB }
        let n := (x.lim - x.pos) + (y.lim - y.pos)
        let q := s.walkMoves n
        match q.2.pairWalk m.lead merge m.lanes.length (3 * n + 4) q.1 c with
        | (.err isA e, s) =>
          (if isA then s.setFibre m fb (s.fibre m fb).settled else s.setFibre m fa (s.fibre m fa).settled).walkFail m
            (if isA then fa else fb) e
        | (.part c z, s) =>
          let w := { w with pairs := c.pairs, stepA := c.sa, stepB := c.sb }
          (.wait z, (s.setFibre m fa (x.hold w c.a)).setFibre m fb (y.hold w c.b))
        | (.done c, s) => (.done (pairResult m d p c.pairs) 0, (s.setFibre m fa c.a.settled).setFibre m fb c.b.settled)

/-- fib.isect (R286). -/
def execFibIsect (h : Hdr) (p : BitVec 3) (d : Dst) (fa fb : BitVec 3) (b : Src) (s : State) : Out :=
  .next (s.pairOp h false p d fa fb b)

/-- fib.merge (R286). -/
def execFibMerge (h : Hdr) (p : BitVec 3) (d : Dst) (fa fb : BitVec 3) (b : Src) (s : State) : Out :=
  .next (s.pairOp h true p d fa fb b)

/-- fib.split (R287). -/
def execFibSplit (h : Hdr) (f : BitVec 3) (a b : Src) (s : State) : Out :=
  .next (s.ceOp h b [f] fun s m =>
    let t := m.lead
    let x := s.fibre m f
    let v := s.src t a
    let k := bits v 0 16
    let i := bits v 16 16
    if !x.opened then (.trap (sparseTrap 1), s)
    else if k = 0 ∨ k ≤ i ∨ bits v 32 32 ≠ 0 then (.trap (sparseTrap 2), s)
    else match x.check with
      | some ti => (.trap ti, s)
      | none =>
        let len := x.lim - x.pos
        let lo := x.pos + i * len / k
        let lim := x.pos + (i + 1) * len / k
        let y := { x.cursor with lim := lim }
        if lim ≤ x.pos then State.walkDone m f (.done y.toEnd, s)
        else if y.dense && lo != x.pos then State.walkDone m f (oneStep y (s.fibScan t y (lim - lo) (y.scan.getD lo)))
        else s.walkWhile m f (fun z => z.pos < lo) (lo - x.pos) y)

/-- The status word (R277). -/
def Fibre.status (x : Fibre) : Word :=
  if !x.opened then 0
  else word (2 ^ 63 + x.bad.toNat * 2 ^ 62 + x.atEnd.toNat * 2 ^ 61 + x.spad.toNat * 2 ^ 60 + x.kind * 2 ^ 56 + x.origin)

/-- fib.get (R285). -/
def execFibGet (h : Hdr) (fld : FibField) (d : Dst) (f : BitVec 3) (b : Src) (s : State) : Out :=
  .next (s.ceOp h b [f] fun s m =>
    let x := s.fibre m f
    if !x.opened && fld != .status then (.trap (sparseTrap 1), s)
    else
      let v := match fld with | .coord => word x.coord | .pos => word x.pos | .lim => word x.lim | .status => x.status
      (.done (fun _ th => writeDst d v th) 0, s))

/-! ### sproj (R289) -/

/-- Format and component count of a vector register. -/
def sprojShape : SprojTy → FpFmt × Nat
  | .f16x4 => (fmtF16, 4) | .bf16x4 => (fmtBf16, 4) | .f32x2 => (fmtF32, 2)

/-- t[j][l]: the signed sum of one lane's components, rounded once, with its flags. -/
def sprojTerm (fl : Bool) (f : FpFmt) (n : Nat) (u : Word) (j l : Nat) (v : Word) : TreeVal :=
  let xs := (List.range n).map fun i =>
    let r := f.fin fl (sub_ v f.w i)
    (if (rngMix u (word (n * l + i))).getLsbD j then r.1.negate else r.1, r.2)
  let f0 := xs.foldl (fun a x => a ||| x.2) 0
  let vs := xs.map (·.1)
  let infs := vs.filter FVal.isInf
  if vs.any FVal.isNan then (fmtF32.nan, f0 ||| if vs.any FVal.isSig then fInv else fNone)
  else if infs.any FVal.neg? && infs.any (fun x => !x.neg?) then (fmtF32.nan, f0 ||| fInv)
  else
    let r := match vs with | [] => (0, fNone) | x :: rest => fmtF32.round .rn (rest.foldl (exactAdd .rn) x)
    (r.1, f0 ||| r.2)

/-- The bucket of the member values, with the flags. -/
def sprojVal (fl : Bool) (m : Members) (ty : SprojTy) (u : Word) (v : Nat → Word) : Nat × Flags :=
  let (f, n) := sprojShape ty
  (List.range 8).foldl (fun (r : Nat × Flags) j =>
    let t := (treeReduce (redNode fl .fadd) (leaves m fun l => sprojTerm fl f n u j l (v l))).getD (0, 0)
    let pos := match fmtF32.decode t.1 with | .num false k _ => k != 0 | .inf false => true | _ => false
    (r.1 + if pos then 2 ^ j else 0, r.2 ||| t.2)) (0, 0)

/-- sproj (R289). -/
def execSproj (h : Hdr) (ty : SprojTy) (d : Dst) (a b : Src) (s : State) : Out :=
  .next (s.ceOp h b [] fun s m =>
    let u := word (bits (s.src m.lead b) 0 32)
    let r := sprojVal s.flushBit m ty u fun l => m.src s l a
    (.done (fun _ th => writeDst d (word r.1) th) r.2, s))

end Sys2Proof.Machine
end

