-- ==== Sys2Proof/Machine/Decomp.lean ====
section
/-! DEFINITION. The decompression engine (R264-R269, R272): CRC-32C, code tables, block decoding and delivery, failure,
restart, and its timeout (R215, R20). -/
namespace Sys2Proof.Machine

open Sys2Proof

/-! ### CRC-32C (R264) -/

/-- One bit of the reflected Castagnoli CRC. -/
def crcBit (c : Nat) : Nat := if c % 2 = 1 then c / 2 ^^^ 0x82F63B78 else c / 2

/-- One byte. -/
def crcByte (c : Nat) (b : Byte) : Nat := (List.range 8).foldl (fun c _ => crcBit c) (c ^^^ b.toNat)

/-- CRC-32C: initial value and final XOR of 0xFFFFFFFF. -/
def crc32c (bs : List Byte) : Nat := bs.foldl crcByte 0xFFFFFFFF ^^^ 0xFFFFFFFF

/-! ### Code tables (R265) -/

/-- The present symbols of a table image, sorted by length and then symbol. -/
def symbols (img : List Byte) : List (Nat × Nat) :=
  (List.range 8).flatMap fun i => (img.zipIdx.filter fun e => e.1.toNat == i + 1).map fun e => (i + 1, e.2)

/-- A valid table image of 16 bytes. -/
def tableValid (img : List Byte) : Bool :=
  let ps := symbols img
  img.length == 16 && img.all (fun b => b.toNat ≤ 8) && ((ps.length == 1 && (ps.all fun p => p.1 == 1)) || (ps.map fun p => 2 ^ (8 - p.1)).sum == 256)

/-- A code: its length, its bits as a number, and its symbol. -/
abbrev Code := Nat × Nat × Nat

/-- The canonical codes: the first is all zeros, each next is (previous + 1) × 2^(length difference). -/
def codes (img : List Byte) : List Code :=
  ((symbols img).foldl (fun (st : List Code × Option (Nat × Nat)) p =>
    let c := match st.2 with | none => 0 | some (len, prev) => (prev + 1) * 2 ^ (p.1 - len)
    (st.1 ++ [(p.1, c, p.2)], some (p.1, c))) ([], none)).1

/-- Bits of a byte, most significant first. -/
def msbBits (b : Byte) : List Bool := (List.range 8).map fun i => b.getLsbD (7 - i)

/-- The number whose bits are listed, most significant first. -/
def msbNat (l : List Bool) : Nat := l.foldl (fun a b => 2 * a + b.toNat) 0

/-- One symbol from the head of a bit list. -/
def oneSymbol (cs : List Code) (l : List Bool) : Option (Nat × List Bool) :=
  (cs.find? fun c => (l.take c.1).length == c.1 && msbNat (l.take c.1) == c.2.1).map fun c => (c.2.2, l.drop c.1)

/-- n symbols. -/
def someSymbols (cs : List Code) : Nat → List Bool → Option (List Nat × List Bool)
  | 0, l => some ([], l)
  | n + 1, l => match oneSymbol cs l with
    | none => none
    | some (x, l) => (someSymbols cs n l).map fun r => (x :: r.1, r.2)

/-- The raw bytes of a coded block: pairs of symbols, low nibble first; the bits left must be fewer than 8 and zero. -/
def rawBytes (cs : List Code) (rlen : Nat) (coded : List Byte) : Option (List Byte) :=
  match someSymbols cs (2 * rlen) (coded.flatMap msbBits) with
  | none => none
  | some (xs, l) =>
    if 8 ≤ l.length ∨ l.any id then none
    else some ((chunks 2 rlen xs).map fun p => BitVec.ofNat 8 (p.getD 0 0 + 16 * p.getD 1 0))

/-! ### One block -/

/-- The key of a cluster's conductor. -/
def condKey (cl : Nat) : Nat := condBase + cl

/-- What a coded read gives in place of bytes while a poisoned line holds it (R388); no CAUSE of R268. -/
def deHeld : Nat := 255

/-- Coded bytes as the conductor's loads would read them (R86); CAUSE 7 where one does not translate. -/
def State.deRead (s : State) (cl asid : Nat) (va : Word) (n : Nat) : Except Nat (List Byte) × State :=
  if n ≠ 0 ∧ ¬spanCanonical va n then (.error 7, s)
  else match s.xlateSpan asid (s.thread (condKey cl)).lvl.toNat .read va n with
    | (.error x, s) => (.error (if x.waits then deHeld else 7), s)
    | (.ok l, s) => if s.poisoned l then (.error deHeld, s) else let r := s.loadBytes (condKey cl) l; (.ok r.1, r.2)

/-- The CAUSE of a header (R265, R268), 0 where it passes. -/
def headerCause (de : Decomp) (i : Nat) (w0 w1 : Word) : Nat :=
  let rlen := bits w0 32 13
  let clen := bits w0 16 16
  if bits w0 0 16 ≠ 0xD5A9 then 1
  else if bits w0 56 8 ≠ 0 ∨ bits w0 49 3 ≠ 0 ∨ bits w0 45 3 ≠ 0 ∨ bits w1 48 16 ≠ 0 ∨ bit w0 48 ≠ de.bfp4
    ∨ (tget? de.tabs (bits w0 52 4)).isNone then 2
  else if rlen = 0 ∨ 4096 < rlen ∨ clen = 0 ∨ 8192 < clen ∨ de.bstride * 64 < 16 + clen then 3
  else if bits w1 32 16 ≠ i % 65536 then 5
  else 0

/-- Block i at an address, decoded and checked (R265): its raw bytes, or the CAUSE. -/
def State.deBlock (s : State) (cl asid i : Nat) (de : Decomp) (addr : Word) : Except Nat (List Byte) × State :=
  match s.deRead cl asid addr 16 with
  | (.error e, s) => (.error e, s)
  | (.ok hd, s) =>
    let w0 := word (leNat (hd.take 8))
    let w1 := word (leNat (hd.drop 8))
    let c := headerCause de i w0 w1
    match s.deRead cl asid (addr + 16) (bits w0 16 16) with
    | (.error e, s) => (.error e, s)
    | (.ok coded, s) =>
      if c ≠ 0 then (.error c, s)
      else (match rawBytes (codes (tget [] de.tabs (bits w0 52 4))) (bits w0 32 13) coded with
        | none => .error 4
        | some raw => if crc32c raw = bits w1 0 32 then .ok raw else .error 6, s)

/-! ### Delivery, failure, restart -/

/-- The stream has delivered all it yields (R266). -/
def Decomp.finished (de : Decomp) : Bool := de.nblk ≤ de.next || (de.toReg && de.rsize ≤ de.landed)

/-- A failure (R269): nothing of the block is delivered, the DE stops, and a matrix trap is due. -/
def Decomp.fail (de : Decomp) (cause blk : Nat) (addr : Word) : Decomp :=
  { de with st := 2, cause := cause, blk := blk % 65536, failAt := addr, trap := true }

/-- Where block i is read: at the redirection, once, or at its place in the stream (R266, R267). A redirected block that has
been delivered, and is decoded again after a restore or a halt, is read from its redirection again: R267 says 'once', R383
that a pre-emption is not seen; this is the model's choice (log 78). -/
def Decomp.addrOf (de : Decomp) (i : Nat) : Word × Decomp :=
  let again := match de.moved.lookup i with | some a => a | none => de.sbase + word (i * de.bstride * 64)
  match de.redir with
  | some (b, a) => if b = i % 65536 then (a, { de with redir := none }) else (again, de)
  | none => (again, de)

/-- Block i has been delivered from an address. -/
def Decomp.took (de : Decomp) (i : Nat) (a : Word) : Decomp :=
  if a = de.sbase + word (i * de.bstride * 64) then de else { de with moved := (i, a) :: de.moved.filter (·.1 != i) }

/-- The raw bytes of block i enter the row buffer (R266, R268). -/
def Decomp.deliver (de : Decomp) (i : Nat) (raw : List Byte) : Decomp :=
  let start := de.pos + de.buf.length - de.skip
  { de with
    buf := de.buf ++ raw.drop de.skip
    segs := de.segs ++ [(start, i)]
    landed := max de.landed (start + raw.length)
    next := i + 1
    skip := 0 }

/-- DE_BLOCK_DECODE (R265): the next block of a running stream is decoded and delivered whole, or fails. With the row
buffer full the DE holds. -/
def execDeBlockDecode (cluster : Nat) (s : State) : Out :=
  let cl := cluster
  let de := (s.cluster cl).de
  .next (match de.owner with
    | none => s
    | some bk =>
      if de.st ≠ 1 ∨ ¬s.engRuns (768 + cl) then s
      else if de.finished then s.modCluster cl fun c => { c with de := { c.de with st := 3 } }
      else if !de.toReg && 16384 < de.buf.length + 4096 then s
      else
        let b := s.block bk
        let i := de.next
        let a := de.addrOf i
        let r := s.deBlock cl b.asid i de a.1
        let de := { a.2 with blk := i % 65536 }
        match r.1 with
        | .error c => if c = deHeld then s else r.2.modCluster cl fun k => { k with de := de.fail c i a.1 }
        | .ok raw =>
          if de.toReg then
            let n := min raw.length (de.rsize - de.landed)
            let at_ := de.rbase + de.landed
            if !(r.2.copiesAgainst b.core .s bk true (addrsOf at_ n)).isEmpty || r.2.poolHeld bk (addrsOf at_ n) then s
            else
              let de := { de.took i a.1 with landed := de.landed + n, next := i + 1 }
              (r.2.modBlock bk fun b => { b with spad := b.spad.writeN at_ (raw.take n) }).modCluster cl fun k =>
                { k with de := if de.finished then { de with st := 3 } else de }
          else
            let de := (de.took i a.1).deliver i raw
            r.2.modCluster cl fun k => { k with de := if de.finished then { de with st := 3 } else de })

/-- step.go.resume restarts a stopped DE at block BLK (R272); what is delivered already stays delivered. -/
def Decomp.resume (de : Decomp) : Decomp := { de with st := 1, cause := 0, trap := false, held := false }

/-- The place of a DE moved back to the block that holds the first byte it must still deliver; the row buffer's bytes are
delivered, from that byte on, when the block has been decoded and checked again (R269). -/
def Decomp.rewind (de : Decomp) : Decomp :=
  if de.toReg ∨ de.buf = [] then de
  else match (de.segs.filter fun e => e.1 ≤ de.pos).getLast? with
    | none => de
    | some (p, i) => { de with segs := de.segs.filter fun e => e.1 < p, next := i, skip := de.pos - p, buf := [] }

/-- A DE that stops at a block boundary for a while and goes on by itself: one that has still to deliver bytes of its row
buffer runs again, from that block. -/
def Decomp.restart (de : Decomp) : Decomp :=
  let r := de.rewind
  if de.st = 1 then { r with cause := 0, trap := false } else if de.st = 3 ∧ de.buf ≠ [] ∧ ¬de.toReg then { r with st := 1 } else r

/-- A running DE as a halt stops it (R270, R376). -/
def Decomp.stopped (de : Decomp) : Decomp := if de.st = 1 then { de with st := 2, held := true } else de

/-- MATRIX_STREAM_TRAP (R269): the trap that is due is taken at the conductor's instruction boundary. -/
def execMatrixStreamTrap (cluster : Nat) (s : State) : Out :=
  let c := s.cluster cluster
  let th := s.thread (condKey cluster)
  .next (if !c.de.trap || c.bound.isNone || th.run != .live || !s.engRuns (768 + cluster) || s.handlerHeld (condKey cluster) 6 then s
    else (s.modCluster cluster fun c => { c with de := { c.de with trap := false } }).trapThreads [condKey cluster]
      { cls := 6, cause := 6, info := c.de.blk, addr := if c.de.cause = 8 then 0 else c.de.failAt } fun th => th.pc)

/-- DECOMPRESSION_TIMEOUT (R215, R20, R21): lanes of a warp that wait in ldl at the PC of the lowest such lane form a
fragment, or are held where the cocoon table is full (R29). A stream with TMO 0 has no timeout. -/
def execDecompressionTimeout (core slot : Nat) (s : State) : Out :=
  let isWaiting := fun (th : Thread) => th.run == .live && (match th.wait with | .ldl _ => true | _ => false)
  let ts := (s.threads.filter fun e => e.1 / 32 == 32 * core + slot && e.1 < condBase && isWaiting e.2).map (·.1)
  let de := (s.cluster (core / 8)).de
  .next (match ts with
    | [] => s
    | t :: _ =>
      let pc := (s.thread t).pc
      let group := ts.filter fun u => (s.thread u).pc == pc
      let vaOf := fun (th : Thread) => match th.wait with | .ldl a => word a | _ => 0
      let fs := group.map fun u => ({ tid := u, va := vaOf (s.thread u), tcode := 0, lvl := 0 } : LaneFault)
      if de.owner != some (s.thread t).block || de.tmo = 0 || de.st = 3 || !s.engRuns core then s
      else match s.freeCocoon core with
        | some n => s.park core n fs 3
        | none =>
          let cur := s.cur
          let s := ({ s with cur := { cur with tids := group } } : State).exhaust core fs 3
          { s with cur := cur })

/-! ### dcp.cfg and dcp.stat (R266-R268) -/

def matTrap (cause : Nat) : TrapInfo := { cls := 6, cause }

/-- The limits of a stream descriptor (R266). -/
def streamOk (b : Block) (w : List Word) : Bool :=
  let w0 := w.getD 0 0
  let w1 := w.getD 1 0
  let w2 := w.getD 2 0
  let w3 := w.getD 3 0
  bits w0 0 6 == 0 && bits w1 32 32 == 0 && bits w1 16 16 != 0 && bits w1 0 16 != 0 && bits w2 34 30 == 0 && bits w2 20 12 == 0
    && bits w3 53 11 == 0
    && (!bit w2 33 || (bits w2 0 6 == 0 && 64 ≤ bits w3 32 21 && bits w3 32 21 ≤ 2 ^ 20 && bits w2 0 20 + bits w3 32 21 ≤ b.spadBytes))

/-- The DE as dcp.cfg.stream leaves it: tables are kept. -/
def Decomp.start (de : Decomp) (bk : Nat) (w : List Word) : Decomp :=
  let w1 := w.getD 1 0
  let w2 := w.getD 2 0
  let w3 := w.getD 3 0
  { tabs := de.tabs, st := 1, owner := some bk, sbase := w.getD 0 0, nblk := bits w1 16 16, bstride := bits w1 0 16,
    toReg := bit w2 33, bfp4 := bit w2 32, rbase := bits w2 0 20, rsize := bits w3 32 21,
    tmo := if bit w2 33 then bits w3 0 32 else 0 }

/-- dcp.cfg.stream (R266, R267). A row of a cim.mv whose plane steps are under way has its bytes of the stream before, and
later rows take theirs from the new one (R261). -/
def execDcpCfgStream (h : Hdr) (a : Src) (s : State) : Out :=
  let cl := clusterOf s.curEng
  let c := s.cluster cl
  .next (match s.active h.guard with
    | [] => s.endGroup h fun _ th => th
    | t :: _ =>
      let va := s.src t a
      if c.de.st = 1 then s.waitLanes [t] .instar
      else match s.chkBounds .s (fun _ => va) (fun _ => 32) t with
        | some _ => s.trapGroup (memTrap 4 va)
        | none =>
          let addrs := addrsOf va.toNat 32
          match s.notReady t .s false addrs with
          | some w => s.waitLanes [t] w
          | none =>
            let r := s.poolRead t (s.thread t).block false va.toNat 32
            let ws := (chunks 8 4 r.1).map fun l => word (leNat l)
            if !streamOk s.curBlock ws then s.trapGroup (matTrap 5)
            else if c.instar.st = 2 then s.trapGroup (matTrap 7)
            else (r.2.modCluster cl fun k => { k with
                de := k.de.start s.curBlockKey ws, instar := { k.instar with own := k.instar.op == 3 && k.instar.st == 1 && k.instar.midRow } }).endGroup h
              fun _ th => th)

/-- dcp.cfg.table (R265, R267). -/
def execDcpCfgTable (h : Hdr) (a b : Src) (s : State) : Out :=
  let cl := clusterOf s.curEng
  .next (match s.active h.guard with
    | [] => s.endGroup h fun _ th => th
    | t :: _ =>
      let va := s.src t a
      if bits (s.src t b) 4 60 ≠ 0 then s.trapGroup (matTrap 1)
      else if (s.cluster cl).de.st = 1 then s.trapGroup (matTrap 5)
      else match s.chkAddr .g (fun _ => va) (fun _ => 16) t with
        | some _ => s.trapGroup (memTrap 4 va)
        | none => match s.xlateSpan (s.asidOf t) (s.thread t).lvl.toNat .read va 16 with
          | (.error x, s) => if x.waits then s.waitLanes [t] .poison else s.trapGroup (memTrap 4 x.va)
          | (.ok l, s) =>
            if s.poisoned l then s.waitLanes [t] .poison
            else
              let r := s.loadBytes t l
              if !tableValid r.1 then r.2.trapGroup (matTrap 5)
              else (r.2.modCluster cl fun k => { k with de := { k.de with tabs := tset (bits (s.src t b) 0 4) r.1 k.de.tabs } }).endGroup h
                fun _ th => th)

/-- dcp.cfg.redir (R267). -/
def execDcpCfgRedir (h : Hdr) (a : Src) (s : State) : Out :=
  let cl := clusterOf s.curEng
  .next (match s.active h.guard with
    | [] => s.endGroup h fun _ th => th
    | t :: _ =>
      let va := s.src t a
      if va.toNat % 64 ≠ 0 then s.trapGroup (matTrap 1)
      else if (s.cluster cl).de.st ≠ 2 then s.trapGroup (matTrap 5)
      else (s.modCluster cl fun k => { k with de := { k.de with redir := some (k.de.blk, va) } }).endGroup h fun _ th => th)

/-- The DE state word (R268). -/
def Decomp.stateWord (de : Decomp) : Word :=
  word (de.st * 2 ^ 62 + de.cause * 2 ^ 48 + de.blk % 65536 * 2 ^ 32 + de.landed % 2 ^ 32)

/-- dcp.stat (R268). -/
def execDcpStat (h : Hdr) (d : Dst) (s : State) : Out :=
  let w := (s.cluster (clusterOf s.curEng)).de.stateWord
  .next (s.endGroup h fun _ th => writeDst d w th)

end Sys2Proof.Machine
end

