-- ==== Sys2Proof/Machine/Matrix.lean ====
section
/-! DEFINITION. The matrix array and Instar (R249-R263), and accumulator granules (R238, R239). -/
namespace Sys2Proof.Machine

open Sys2Proof

/-! ### Shapes of the macro-ops (R252, R254, R258) -/

/-- The selected macros of a mask, lowest first. -/
def macros (mask : Word) : List Nat := (List.range 64).filter fun j => bit mask j

/-- The streamed operand is bfp4. -/
def Instar.fmt4 (i : Instar) : Bool := i.planes == 2

/-- Columns that take part: 64, or the vectors of cim.mv. -/
def Instar.cols (i : Instar) : Nat := if i.op = 2 then 64 else bits i.payload 32 3 + 1

def Instar.bank (i : Instar) : Nat := if i.op = 2 then bits i.payload 22 4 else bits i.payload 28 4
def Instar.accum (i : Instar) : Bool := if i.op = 2 then bit i.payload 27 else bit i.payload 35
def Instar.acco (i : Instar) : Nat := bits i.payload 0 16 * 16

/-- Bytes of one streamed row that all selected macros share: R250's RA, or RB of R261. -/
def Instar.rowBytes (i : Instar) : Nat :=
  let w := if i.fmt4 then 32 else 64
  if i.op = 2 then w else w * (macros i.vb).length

/-- Where the plane set of row m, macro rank r, column n, half h lies (R252). -/
def Instar.planeSet (i : Instar) (m r n h : Nat) : Nat :=
  let k := (macros i.vb).length
  if i.op = 2 then i.acco + ((m * (64 * k) + 64 * r + n) * 2 + h) * 16
  else i.acco + ((m * i.cols + n) * (2 * k) + 2 * r + h) * 16

/-- Accumulator bytes that a cim.run or cim.mv writes. -/
def Instar.outBytes (i : Instar) : Nat := i.rows * i.cols * (macros i.vb).length * 32

/-- Fields of a held acc.fold (R262): log2 G, ACCUM, rm of the first word; PADDR, OADDR, N, SADDR. -/
def Instar.foldG (i : Instar) : Nat := 2 ^ bits i.word 28 2
def Instar.foldAcc (i : Instar) : Bool := bit i.word 27
def Instar.foldRm (i : Instar) : Rm := rmOf (i.word.extractLsb' 25 2)
def foldPaddr (a : Word) : Nat := bits a 0 20
def foldOaddr (a : Word) : Nat := bits a 20 20
def foldN (a : Word) : Nat := bits a 40 16 + 1

/-- Accumulator ranges (low, high) that the outstanding macro-op reads or writes (R239). -/
def Instar.ranges (i : Instar) : List (Nat × Nat) :=
  if i.st = 0 then []
  else match i.op with
    | 2 => [(i.acco, i.acco + i.outBytes)]
    | 3 => [(i.acco, i.acco + i.outBytes)]
    | 4 => [(foldPaddr i.va, foldPaddr i.va + 16 * foldN i.va * i.foldG), (foldOaddr i.va, foldOaddr i.va + 4 * foldN i.va)]
    | 5 => [(i.va.toNat, i.va.toNat + i.vb.toNat)]
    | 6 => (i.va.toNat, i.va.toNat + i.vb.toNat) :: (if bit i.word 25 then [] else [(i.vd.toNat, i.vd.toNat + i.vb.toNat)])
    | _ => []

/-- The Instar state word (R256). -/
def Instar.stateWord (i : Instar) : Word :=
  Machine.word (i.st * 2 ^ 62 + i.op * 2 ^ 59 + i.total % 2 ^ 28 * 2 ^ 28 + i.step % 2 ^ 28)

/-! ### Issue of a macro-op (R253, R257) -/

/-- A macro-op: it waits while Instar runs; its causes are checked in table order, with 0x07 last; then Instar takes it,
and its flag stays up until it completes. -/
def State.macroOp (s : State) (h : Hdr) (mk : Nat → Option Nat × Instar) : State :=
  let cl := clusterOf s.curEng
  let ins := (s.cluster cl).instar
  match s.active h.guard with
  | [] => s.endGroup h fun _ th => th
  | t :: _ =>
    if ins.st = 1 then s.waitLanes [t] .instar
    else
      let r := mk t
      match r.1.or (if ins.st = 2 then some 7 else none) with
      | some c => s.trapGroup (matTrap c)
      | none =>
        let s := s.modCluster cl fun c => { c with instar := { r.2 with st := 1, step := 0, flag := setFlag h.set } }
        s.modThread t fun th => (th.issueOpen h.set).adv s.cur.next

/-- Whether a tile of n bytes at a handle lies in a block's scratchpad (R250, cause 0x02). -/
def tileOk (b : Block) (hd n : Nat) : Bool := handleOk b hd && hd % 2 ^ 13 * 128 + n ≤ b.spadBytes

/-- cim.ldb (R258, R259). -/
def execCimLdb (h : Hdr) (a : Src) (payload : Word) (s : State) : Out :=
  .next (s.macroOp h fun t =>
    let hd := s.src t a
    let nt := bits payload 6 6 + 1
    let ncol := bits payload 16 6 + 1
    let cb := if bit payload 22 then 32 else 64
    let c :=
      if bits payload 23 41 ≠ 0 ∨ bits hd 16 48 ≠ 0 ∨ 64 < bits payload 0 6 + nt then some 1
      else if !tileOk s.curBlock (bits hd 0 16) (nt * ncol * cb) then some 2 else none
    (c, { op := 1, total := nt, word := (encode (.cimLdb h a payload)).headD 0, payload, va := hd }))

/-- cim.run (R258, R260). -/
def execCimRun (h : Hdr) (a b : Src) (payload : Word) (s : State) : Out :=
  .next (s.macroOp h fun t =>
    let hd := s.src t a
    let mask := s.src t b
    let m := bits payload 16 6 + 1
    let p := if bit payload 26 then 2 else 6
    let i : Instar := { op := 2, total := m * (p + 1), word := (encode (.cimRun h a b payload)).headD 0, payload, va := hd, vb := mask }
    let c :=
      if bits payload 28 36 ≠ 0 ∨ bits hd 16 48 ≠ 0 ∨ mask = 0 then some 1
      else if !tileOk s.curBlock (bits hd 0 16) (m * i.rowBytes) then some 2
      else if s.curBlock.accBytes < i.acco + i.outBytes then some 3 else none
    (c, i))

/-- cim.mv (R258, R261). -/
def execCimMv (h : Hdr) (b : Src) (payload : Word) (s : State) : Out :=
  .next (s.macroOp h fun t =>
    let mask := s.src t b
    let de := (s.cluster (clusterOf s.curEng)).de
    let n := bits payload 16 12 + 1
    let p := if de.bfp4 then 2 else 6
    let i : Instar := { op := 3, total := n * (p + 1), word := (encode (.cimMv h b payload)).headD 0, payload, vb := mask }
    let c :=
      if bits payload 36 28 ≠ 0 ∨ mask = 0 then some 1
      else if s.curBlock.accBytes < i.acco + i.outBytes then some 3
      else if de.st = 0 ∨ de.st = 2 ∨ de.toReg then some 5 else none
    (c, i))

/-- Whether two ranges meet. -/
def meet (lo n lo' n' : Nat) : Bool := lo < lo' + n' && lo' < lo + n

/-- acc.fold (R262). -/
def execAccFold (h : Hdr) (g : BitVec 2) (acc : Bool) (rm : Rm) (a b : Src) (s : State) : Out :=
  .next (s.macroOp h fun t =>
    let va := s.src t a
    let vb := s.src t b
    let gg := 2 ^ g.toNat
    let n := foldN va
    let bl := s.curBlock
    let c :=
      if bits va 56 8 ≠ 0 ∨ bits vb 20 44 ≠ 0 then some 1
      else if foldPaddr va % 16 ≠ 0 ∨ foldOaddr va % 4 ≠ 0 ∨ vb.toNat % 4 ≠ 0 ∨ bl.accBytes < foldPaddr va + 16 * n * gg
        ∨ bl.accBytes < foldOaddr va + 4 * n ∨ bl.spadBytes < vb.toNat + 4 * n * gg then some 3
      else if meet (foldOaddr va) (4 * n) (foldPaddr va) (16 * n * gg) then some 4 else none
    (c, { op := 4, total := n, word := (encode (.accFold h g acc rm a b)).headD 0, va, vb }))

/-- A length of acc.zero and acc.cpy (R262). -/
def unitLenOk (l : Word) : Bool := 16 ≤ l.toNat && l.toNat ≤ 2 ^ 20 && l.toNat % 16 == 0

/-- Steps of acc.zero and acc.cpy (R254). -/
def units (l : Word) : Nat := (l.toNat + 4095) / 4096

/-- acc.zero (R262). -/
def execAccZero (h : Hdr) (a b : Src) (s : State) : Out :=
  .next (s.macroOp h fun t =>
    let va := s.src t a
    let vb := s.src t b
    let c :=
      if !unitLenOk vb then some 1
      else if va.toNat % 16 ≠ 0 ∨ s.curBlock.accBytes < va.toNat + vb.toNat then some 3 else none
    (c, { op := 5, total := units vb, word := (encode (.accZero h a b)).headD 0, va, vb }))

/-- acc.cpy (R262). -/
def execAccCpy (h : Hdr) (toS : Bool) (d a b : Src) (s : State) : Out :=
  .next (s.macroOp h fun t =>
    let vd := s.src t d
    let va := s.src t a
    let vb := s.src t b
    let bl := s.curBlock
    let room := if toS then bl.spadBytes else bl.accBytes
    let c :=
      if !unitLenOk vb then some 1
      else if va.toNat % 16 ≠ 0 ∨ vd.toNat % 16 ≠ 0 ∨ bl.accBytes < va.toNat + vb.toNat ∨ room < vd.toNat + vb.toNat then some 3
      else if !toS && meet va.toNat vb.toNat vd.toNat vb.toNat then some 4 else none
    (c, { op := 6, total := units vb, word := (encode (.accCpy h toS d a b)).headD 0, va, vb, vd }))

/-! ### Steps (R251-R255, R259-R262) -/

/-- The macro-op completes: its set flag's count-down is due (R253). -/
def State.instarDone (s : State) (cl : Nat) : State :=
  let i := (s.cluster cl).instar
  let s := s.modCluster cl fun c => { c with instar := { c.instar with st := 0, flag := none, sums := [], row := [], own := false, held := false } }
  match i.flag with
  | some f => s.modThread (condKey cl) fun th => { th with out := th.out ++ [f] }
  | none => s

/-- A step has been performed (R253). -/
def State.instarNext (s : State) (cl : Nat) : State :=
  let s := s.modCluster cl fun c => { c with instar := { c.instar with step := c.instar.step + 1 } }
  let i := (s.cluster cl).instar
  if i.total ≤ i.step then s.instarDone cl else s

/-- The next step of a cluster's running macro-op, where it is of the kind wanted and its engine may act; body answers
none where the step must wait. -/
def State.instarStep (s : State) (cl : Nat) (kind : Instar → Bool) (body : Nat → Instar → State → Option State) : State :=
  let c := s.cluster cl
  match c.bound with
  | none => s
  | some bk =>
    if c.instar.st ≠ 1 ∨ ¬kind c.instar ∨ ¬s.engRuns (768 + cl) then s
    else (body bk c.instar s).getD s

/-- Whether neither copies in flight (R81) nor a poisoned granule (R388) hold an engine's access back. -/
def State.engineFree (s : State) (bk : Nat) (sp : Space) (writes : Bool) (lo n : Nat) : Bool :=
  (s.copiesAgainst (s.block bk).core sp bk writes (addrsOf lo n)).isEmpty && !s.poisonPoolAt bk sp (addrsOf lo n)

/-- The number of a weight bank in poisonBank. -/
def bankKey (cl j b : Nat) : Nat := 1024 * cl + 16 * j + b

/-- One 64-byte unit of a tile through the operand cache (R82, R250): an entry of the current generation hits or not, as
a free choice falls; a miss reads scratchpad and keeps the unit. -/
def State.ocUnit (s : State) (cl bk hd u : Nat) : List Byte × State :=
  let c := s.cluster cl
  let key := (hd * 65536 + tget 0 c.gens hd) * 65536 + u
  let fresh := (s.block bk).spad.readN (hd % 2 ^ 13 * 128 + 64 * u) 64
  let miss := s.modCluster cl fun c => { c with oc := tset key fresh c.oc }
  match tget? c.oc key with
  | none => (fresh, miss)
  | some old =>
    if old = fresh then (fresh, s)
    else if Config.choice s.ctr then (old, { s with ctr := s.ctr + 1 })
    else (fresh, { miss with ctr := s.ctr + 1 })

/-- n bytes of a tile from offset o on, through the operand cache. -/
def State.ocRead (s : State) (cl bk hd o n : Nat) : List Byte × State :=
  let first := o / 64
  let cnt := if n = 0 then 0 else (o + n - 1) / 64 + 1 - first
  let r := (List.range cnt).foldl (fun (r : List Byte × State) i =>
    let q := r.2.ocUnit cl bk hd (first + i)
    (r.1 ++ q.1, q.2)) ([], s)
  ((r.1.drop (o - 64 * first)).take n, r.2)

/-- LOAD_STEP (R259): one tile into one bank; columns it lacks become zero. The bank is written whole, so that its poison
is cleared (R388). -/
def execLoadStep (cluster : Nat) (s : State) : Out :=
  .next (s.instarStep cluster (fun i => i.op == 1) fun bk i s =>
    let hd := bits i.va 0 16
    let ncol := bits i.payload 16 6 + 1
    let b4 := bit i.payload 22
    let cb := if b4 then 32 else 64
    let o := i.step * ncol * cb
    if !s.engineFree bk .s false (hd % 2 ^ 13 * 128 + o) (ncol * cb) then none
    else
      let r := s.ocRead cluster bk hd o (ncol * cb)
      let data := (chunks cb ncol r.1).zipIdx.foldl (fun (m : Memory) e => m.writeN (64 * e.2) e.1) []
      let key := 16 * (bits i.payload 0 6 + i.step) + bits i.payload 12 4
      let s := r.2.modCluster cluster fun c => { c with banks := tset key { bfp4 := b4, data } c.banks }
      some (({ s with poisonBank := s.poisonBank.filter (· != 1024 * cluster + key) } : State).instarNext cluster))

/-- Element k of a row or column (R53): sign, selector, magnitude. -/
def elemAt (b4 : Bool) (bs : List Byte) (k : Nat) : Bool × Nat × Nat :=
  if b4 then bfpElem true ((bs.getD (k / 2) 0).toNat >>> (4 * (k % 2)) % 16) else bfpElem false (bs.getD k 0).toNat

/-- What plane q of a row adds to T (R251), for the macro of one rank: by column, half and selector pair. -/
def planeAdds (b4 : Bool) (row : List Byte) (bank : Bank) (r cols q : Nat) : List (Nat × Int) :=
  let sel := (List.range 64).filterMap fun k =>
    let e := elemAt b4 row k
    if e.2.2.testBit q then some (k, e.1, e.2.1) else none
  if sel.isEmpty then []
  else (List.range cols).flatMap fun n =>
    let col := bank.data.readN (64 * n) 64
    let es := sel.map fun a => let e := elemAt bank.bfp4 col a.1; (a.1 / 32, a.2.2 * 2 + e.2.1, (if a.2.1 != e.1 then -(e.2.2 : Int) else e.2.2) * 2 ^ q)
    (List.range 8).map fun x => (((r * 64 + n) * 2 + x / 4) * 4 + x % 4,
      ((es.filter fun e => e.1 == x / 4 && e.2.1 == x % 4).map fun e => e.2.2).sum)

/-- T with additions. -/
def addSums (t : Tab Int) (l : List (Nat × Int)) : Tab Int :=
  l.foldl (fun t e => if e.2 = 0 then t else tput 0 e.1 (tget 0 t e.1 + e.2) t) t

/-- The bytes of the row that macro rank r sees. -/
def Instar.rowOf (i : Instar) (r : Nat) : List Byte :=
  if i.op = 2 then i.row else (i.row.drop (r * (if i.fmt4 then 32 else 64))).take (if i.fmt4 then 32 else 64)

/-- A bank: zero with format bfp8 when first used (R249). -/
def Cluster.bankOf (c : Cluster) (j b : Nat) : Bank := tget {} c.banks (16 * j + b)

/-- The row that a plane step multiplies: read at the row's first plane step, from the tile (R260) or from the DE stream
(R261). none where its bytes have not arrived; a stream that stopped or fell short stops Instar (R255, R269). -/
def State.planeRow (s : State) (cl bk : Nat) (i : Instar) : Option (List Byte) × State :=
  if i.step % (i.planes + 1) ≠ 0 || i.own then (some i.row, s)
  else if i.op = 2 then
    let hd := bits i.va 0 16
    let o := i.step / (i.planes + 1) * i.rowBytes
    if !s.engineFree bk .s false (hd % 2 ^ 13 * 128 + o) i.rowBytes then (none, s)
    else let r := s.ocRead cl bk hd o i.rowBytes; (some r.1, r.2)
  else
    let de := (s.cluster cl).de
    if i.rowBytes ≤ de.buf.length then (some (de.buf.take i.rowBytes), s)
    else match de.st with
      | 1 => (none, s)
      | 3 => (none, s.modCluster cl fun c => { c with de := c.de.fail 8 c.de.nblk 0, instar := { c.instar with st := 2 } })
      | _ => (none, s.modCluster cl fun c => { c with instar := { c.instar with st := 2 } })

/-- PLANE_STEP (R251); a step that reads a poisoned bank is held (R388). -/
def execPlaneStep (cluster : Nat) (s : State) : Out :=
  .next (s.instarStep cluster (fun i => (i.op == 2 || i.op == 3) && i.step % (i.planes + 1) != i.planes) fun bk i s =>
    if (macros i.vb).any fun j => s.poisonBank.contains (bankKey cluster j i.bank) then none else
    let r := s.planeRow cluster bk i
    match r.1 with
    | none => some r.2
    | some row =>
      let i := { i with row := row }
      let q := i.planes - 1 - i.step % (i.planes + 1)
      let c := r.2.cluster cluster
      let adds := (macros i.vb).zipIdx.flatMap fun e => planeAdds i.fmt4 (i.rowOf e.2) (c.bankOf e.1 i.bank) e.2 i.cols q
      let s := r.2.modCluster cluster fun c => { c with instar := { i with sums := addSums i.sums adds } }
      some (s.instarNext cluster))

/-- The plane sets of one drain step in increasing address: address, and key of its sums. -/
def Instar.drainSets (i : Instar) : List (Nat × Nat) :=
  let m := i.step / (i.planes + 1)
  let k := (macros i.vb).length
  let one := fun (r n h : Nat) => (i.planeSet m r n h, ((r * 64 + n) * 2 + h) * 4)
  if i.op = 2 then (List.range k).flatMap fun r => (List.range i.cols).flatMap fun n => [one r n 0, one r n 1]
  else (List.range i.cols).flatMap fun n => (List.range k).flatMap fun r => [one r n 0, one r n 1]

/-- An i32 of a memory. -/
def Memory.i32 (m : Memory) (a : Nat) : Int := toInt 32 true (leNat (m.readN a 4))

/-- The accumulator after a drain (R251): sums set or added, modulo 2^32 (R56). -/
def drainAcc (accum : Bool) (sums : Tab Int) (m : Memory) (sets : List (Nat × Nat)) : Memory :=
  sets.foldl (fun m e => (List.range 4).foldl (fun m x =>
    let a := e.1 + 4 * x
    m.writeN a (leBytes 4 (wrapN 32 ((if accum then m.i32 a else 0) + tget 0 sums (e.2 + x))))) m) m

/-- DRAIN_STEP (R251, R252): the row's sums enter the bound block's accumulator; a cim.mv's row is consumed from the
stream. -/
def execDrainStep (cluster : Nat) (s : State) : Out :=
  .next (s.instarStep cluster (fun i => (i.op == 2 || i.op == 3) && i.step % (i.planes + 1) == i.planes) fun bk i s =>
    let sets := i.drainSets
    if !s.engineFree bk .a true i.acco i.outBytes then none
    else
      let s := s.modBlock bk fun b => { b with acc := drainAcc i.accum i.sums b.acc sets }
      let n := if i.op = 3 ∧ ¬i.own then i.rowBytes else 0
      let s := s.modCluster cluster fun c => { c with
        instar := { c.instar with sums := [], row := [], own := false }
        de := if n = 0 then c.de else { c.de with buf := c.de.buf.drop n, pos := c.de.pos + n } }
      some (s.instarNext cluster))

/-- One fold step's value and flags (R262, R57). -/
def foldStepVal (fl : Bool) (i : Instar) (acc spad : Memory) : Nat × Flags :=
  let x0 : FVal × Flags := if i.foldAcc then fmtF32.fin fl (leNat (acc.readN (foldOaddr i.va + 4 * i.step) 4)) else (.num false 0 0, 0)
  let r := (List.range i.foldG).foldl (fun (st : FVal × Nat × Flags) g =>
    let s := i.step * i.foldG + g
    let sc := (spad.readN (i.vb.toNat + 4 * s) 4).map (·.toNat)
    let p := (List.range 4).map fun x => acc.i32 (foldPaddr i.va + 16 * s + 4 * x)
    let q := foldPlanes fl i.foldRm st.1 p (sc.take 2) (sc.drop 2)
    (fmtF32.decode q.1, q.1, st.2.2 ||| q.2)) (x0.1, 0, x0.2)
  r.2

/-- FOLD_STEP (R262). -/
def execFoldStep (cluster : Nat) (s : State) : Out :=
  .next (s.instarStep cluster (fun i => i.op == 4) fun bk i s =>
    let n := i.foldG
    let o := foldOaddr i.va + 4 * i.step
    if !s.engineFree bk .s false (i.vb.toNat + 4 * n * i.step) (4 * n) || !s.engineFree bk .a true o 4
        || !s.engineFree bk .a false (foldPaddr i.va + 16 * n * i.step) (16 * n) then none
    else
      let b := s.block bk
      let r := foldStepVal b.flush i b.acc b.spad
      let s := s.modBlock bk fun b => { b with acc := b.acc.writeN o (leBytes 4 r.1) }
      some ((s.raise [condKey cluster] r.2).instarNext cluster))

/-- ACC_UNIT_STEP (R262): one 4 KiB unit of acc.zero or acc.cpy. -/
def execAccUnitStep (cluster : Nat) (s : State) : Out :=
  .next (s.instarStep cluster (fun i => i.op == 5 || i.op == 6) fun bk i s =>
    let o := 4096 * i.step
    let n := min 4096 (i.vb.toNat - o)
    let toS := i.op == 6 && bit i.word 25
    let dst := if i.op = 5 then i.va.toNat + o else i.vd.toNat + o
    if !s.engineFree bk (if toS then .s else .a) true dst n || (i.op == 6 && !s.engineFree bk .a false (i.va.toNat + o) n) then none
    else
      let data := if i.op = 5 then List.replicate n (0 : Byte) else (s.block bk).acc.readN (i.va.toNat + o) n
      let s := s.modBlock bk fun b => if toS then { b with spad := b.spad.writeN dst data } else { b with acc := b.acc.writeN dst data }
      some (s.instarNext cluster))

/-! ### step.rd, step.go, oc.inv (R256, R263, R272) -/

/-- step.rd (R256). -/
def execStepRd (h : Hdr) (d : Dst) (s : State) : Out :=
  let w := (s.cluster (clusterOf s.curEng)).instar.stateWord
  .next (s.endGroup h fun _ th => writeDst d w th)

/-- step.go.resume (R256, R272): a stopped DE restarts, and a stopped Instar runs from STEP. -/
def execStepGoResume (h : Hdr) (s : State) : Out :=
  let cl := clusterOf s.curEng
  .next ((if (s.active h.guard).isEmpty then s
    else s.modCluster cl fun c => { c with
      de := if c.de.st = 2 then c.de.resume else c.de
      instar := if c.instar.st = 2 then { c.instar with st := 1, held := false } else c.instar }).endGroup h fun _ th => th)

/-- step.go.abandon (R256): a stopped macro-op completes at once. -/
def execStepGoAbandon (h : Hdr) (s : State) : Out :=
  let cl := clusterOf s.curEng
  .next ((if (s.active h.guard).isEmpty || (s.cluster cl).instar.st != 2 then s else s.instarDone cl).endGroup h fun _ th => th)

/-- oc.inv.all (R263). -/
def execOcInvAll (h : Hdr) (s : State) : Out :=
  let cl := clusterOf s.curEng
  .next ((if (s.active h.guard).isEmpty then s else s.modCluster cl fun c => { c with oc := [] }).endGroup h fun _ th => th)

/-- oc.inv.h (R263); bits [63:16] of the register must be zero (R257). -/
def execOcInvH (h : Hdr) (a : Src) (s : State) : Out :=
  let cl := clusterOf s.curEng
  .next (match s.active h.guard with
    | [] => s.endGroup h fun _ th => th
    | t :: _ =>
      let hd := s.src t a
      if bits hd 16 48 ≠ 0 then s.trapGroup (matTrap 1)
      else (s.modCluster cl fun c => { c with oc := c.oc.filter fun e => e.1 / 2 ^ 32 != hd.toNat }).endGroup h fun _ th => th)

/-! ### Accumulator granules (R79, R238, R239) -/

/-- One lane's request (R79). -/
def State.accReqLane (s : State) (h : Hdr) (p : BitVec 3) (t n : Nat) : State :=
  let bk := (s.thread t).block
  let b := s.block bk
  let ok := n ≤ s.freeGran b.core && b.accg + n ≤ poolAccmax b.pool
  let s := if ok then (s.takeGran b.core n).modBlock bk fun b => { b with accg := b.accg + n } else s
  s.finishLane h t fun th => th.setPred p ok

/-- acc.req (R238). -/
def execAccReq (h : Hdr) (p : BitVec 3) (a : Src) (s : State) : Out :=
  let act := s.active h.guard
  let bad := fun t => if 1 ≤ (s.src t a).toNat && (s.src t a).toNat ≤ 64 then none else some (memTrap 15 0)
  .next (match firstTrap act [bad] with
    | some ti => s.trapGroup ti
    | none =>
      let s := s.mapGroup fun _ th => if th.guardTrue h.guard then th else th.adv s.cur.next
      act.foldl (fun s t => s.accReqLane h p t (s.src t a).toNat) s)

/-- A block's accumulator shrinks by n granules from the top; the bytes released keep no value (R239). -/
def Block.accShrink (b : Block) (n : Nat) : Block :=
  let top := Config.granuleBytes * (b.accg - n)
  { b with accg := b.accg - n, acc := b.acc.filter fun e => e.1 < top, arel := b.arel.filter fun e => e.1 < top }

/-- acc.rel (R239): no lane releases where one asks for too much; it waits for copies and Instar steps on the released
granules. -/
def execAccRel (h : Hdr) (a : Src) (s : State) : Out :=
  let act := s.active h.guard
  let bk := s.curBlockKey
  let b := s.block bk
  let n := fun t => (s.src t a).toNat
  let before := fun t => ((act.filter (· < t)).map n).sum
  let bad := fun t => if 1 ≤ n t ∧ n t ≤ 64 ∧ before t + n t ≤ b.accg then none else some (memTrap 15 0)
  let total := (act.map n).sum
  let lo := Config.granuleBytes * (b.accg - total)
  let hi := Config.granuleBytes * b.accg
  let ins := match s.condOf bk with | some cl => (s.cluster cl).instar.ranges | none => []
  .next (match firstTrap act [bad] with
    | some ti => s.trapGroup ti
    | none =>
      if (s.coreAt b.core).copies.any fun c => c.src.any fun r => r.sp == .a && r.blk == bk && lo < r.hi && r.lo < hi then
        s.waitLanes act (.scoreboard [])
      else if ins.any fun r => r.1 < hi && lo < r.2 then s.waitLanes act .instar
      else
        let spots := (List.range total).map fun i => (2, b.accg - total + i)
        ((if total = 0 then s else s.giveGran bk b spots).modBlock bk fun b => b.accShrink total).endGroup h fun _ th => th)

end Sys2Proof.Machine
end

