-- ==== Sys2Proof/Machine/Layout.lean ====
section
/-! DEFINITION. The words of the machine's structures (R325, R381): what probe.rd reads and what the sections of a saved
image hold, word by word at the same indices. A structure made of records gives word n of record e at index 8e + n. Where no
chapter orders the words of a structure, their order is the model's (log 14). -/
namespace Sys2Proof.Machine

open Sys2Proof

/-- Fields with their widths as a word, lowest first. -/
def pack (l : List (Nat × Nat)) : Word := word (l.foldr (fun e r => e.1 % 2 ^ e.2 + 2 ^ e.2 * r) 0)

/-- A structure: how many of its words hold something, how many it has at least, and each word by its index. -/
structure Layout where
  size : Nat
  ext : Nat
  word : Nat → Word

/-- The words of a section. -/
def Layout.words (l : Layout) : List Word := (List.range l.size).map l.word

/-- n records in use, of at least m. -/
def records (n m : Nat) (f : Nat → List Word) : Layout where
  size := 8 * n
  ext := 8 * m
  word := fun w => (f (w / 8)).getD (w % 8) 0

/-- The records that a table holds at numbers below n: one more than the highest. -/
def usedBelow {α : Type} (m : Tab α) (n : Nat) : Nat := ((m.filter fun e => e.1 < n).map fun e => e.1 + 1).foldl max 0

/-! ### Lane cores (SPACE 0) -/

def Run.code : Run → Nat
  | .live => 0 | .held => 1 | .suspended => 2 | .escalated => 3 | .stopped => 4 | .exited => 5 | .parked _ => 6
def Run.entry : Run → Nat
  | .parked n => n
  | _ => 0
def Wait.code : Wait → Nat
  | .none => 0 | .member => 1 | .barrier => 2 | _ => 3

/-- A thread (R381): PC, call frames, %stk, the word of %status, CDEPTH, predicates, level and standing, and flag counts. -/
def Thread.words (th : Thread) (status : Word) : List Word :=
  let c := fun i => (tget 0 th.flags i, 6)
  [th.pc] ++ (List.range 4).map (fun i => th.frames.getD i 0) ++ [th.stk,
    pack [(status.toNat, 16), (th.preds.toNat, 7), (th.lvl.toNat, 2), (th.run.code, 3), (th.run.entry, 6), (th.wait.code, 2),
      (th.vectored.toNat, 1), (th.rewalk.toNat, 1), c 10, c 11, (th.frames.length, 3), (0, 10), (1, 1)],
    pack ((List.range 10).map c)]

/-- The threads of a core, by 32 × slot + lane. -/
def State.laneTab (s : State) (c : Nat) : Tab Thread :=
  (s.threads.filter fun e => e.1 < condBase && engOf e.1 == c).map fun e => (e.1 % 1024, e.2)

/-- STRUCT 0x01: the threads; from record 1,024 their atom.fadd counters; from record 2,048 their bin.put counters, with thread
and session. -/
def State.threadLayout (s : State) (c : Nat) : Layout :=
  let m := s.laneTab c
  let bins := m.flatMap fun e => e.2.nBin.map fun n => [word (e.1 + 1), word n.1, word n.2.2, word n.2.1]
  let n := if bins ≠ [] then 2048 + bins.length else if m.any fun e => e.2.nFadd != 0 then 2048 else usedBelow m 1024
  records n 2048 fun k =>
    if 2048 ≤ k then bins.getD (k - 2048) []
    else match tget? m (k % 1024) with
      | some th => if k < 1024 then th.words (statusWord s (1024 * c + k)) else [word th.nFadd]
      | none => []

/-- Where register number q of a block's register granules belongs: its warp, and its number there. -/
def regPlace (pool : Word) (q : Nat) : Option (Nat × Nat) :=
  (List.range (poolNwarp pool)).findSome? fun w =>
    if regBase pool w ≤ q ∧ q < regBase pool w + regBudget pool w then some (w, q - regBase pool w) else none

/-- Word i of a register granule: 64 registers of 32 lanes (R76, R77). -/
def State.regWord (s : State) (bk g i : Nat) : Word :=
  let b := s.block bk
  match regPlace b.pool (64 * g + i / 32) with
  | some (w, r) => tget 0 (s.thread (1024 * b.core + 32 * b.slots.getD w 0 + i % 32)).regs r
  | none => 0

/-- STRUCT 0x02: the register granules of the core's blocks, in the pool's order. -/
def State.regLayout (s : State) (c : Nat) : Layout :=
  let l := regSpots s.blocks c
  { size := 2048 * l.length, ext := 131072
    word := fun w => match l[w / 2048]? with | some (bk, _, g) => s.regWord bk g (w % 2048) | none => 0 }

/-- STRUCT 0x03: frame k of thread e at record 4e + k, top first (R365). -/
def TrapFrame.words (f : TrapFrame) : List Word := [f.w0, f.tpc, f.rpc, f.addr]
def State.frameLayout (s : State) (c : Nat) : Layout :=
  let m := s.laneTab c
  records (4 * usedBelow (m.filter fun e => !e.2.traps.isEmpty) 1024) 4096 fun k =>
    match (tget? m (k / 4)).bind fun th => th.traps[k % 4]? with | some f => f.words | none => []

/-- STRUCT 0x04: the granules of scratchpad and accumulator in the pool's order. (A probe finds the register granules after
them, and then the free ones.) -/
def State.poolLayout (s : State) (c : Nat) : Layout :=
  let l := memSpots s.blocks c
  { size := 2048 * l.length, ext := 131072
    word := fun w => match l[w / 2048]? with
      | some (bk, r, g) => (if r = 1 then (s.block bk).spad else (s.block bk).acc).word (Config.granuleBytes * g + 8 * (w % 2048))
      | none => 0 }

/-- STRUCT 0x05: the bound named barriers (R204), with the block's first slot, the number and every completed phase; from record
64 the phases of its threads' latest arrivals (kind 1) and of the arrivals on which they wait (kind 2). -/
def State.barrierLayout (s : State) (c : Nat) : Layout :=
  let bs := (s.blocks.filter fun e => e.2.core == c).flatMap fun e => e.2.nbars.map fun n =>
    [nbarWord (some n.2), pack [(e.1 % 32, 5), (n.1, 6), (0, 52), (1, 1)], word n.2.phase]
  let ths := (s.laneTab c).flatMap fun e =>
    (e.2.lastArr.map fun a => [word (e.1 + 1), 1, word a.1, word a.2]) ++ e.2.sync.map fun a => [word (e.1 + 1), 2, word a.1, word a.2.1, word a.2.2]
  records (if ths = [] then bs.length else 64 + ths.length) 64 fun k => if k < 64 then bs.getD k [] else ths.getD (k - 64) []

/-- A fibre register (R276), and its WALK with the pairs assigned. -/
def Fibre.words (f : Fibre) : List Word :=
  [pack [(f.opened.toNat, 1), (f.bad.toNat, 1), (f.spad.toNat, 1), (0, 1), (f.kind, 4), (0, 24), (f.len, 32)], f.base,
   pack [(f.origin, 32), (f.lim, 32)], pack [(f.pos, 32), (f.coord, 32)], pack [(f.off, 32), (f.elen, 32)]]
def FibWalk.words (w : FibWalk) : List Word :=
  [pack [(1, 1), (w.stepA.toNat, 1), (w.stepB.toNat, 1), (w.scan.isSome.toNat, 1), (0, 28), (w.mask.toNat, 32)], w.pc,
   pack [(w.moves, 32), (w.pairs.length, 32)], pack [(w.pos, 32), (w.coord, 32)], pack [(w.off, 32), (w.elen, 32)], word (w.scan.getD 0)]
def FibWalk.pairWords (w : FibWalk) : List Word := w.pairs.flatMap fun p => [pack [(p.1, 32), (p.2.1, 32)], word p.2.2]

/-- Record k of a core's fibre registers: fibre f of slot s, as 8s + f, has its fields at record 2 (8s + f) and WALK after them;
the pairs of its WALK are at records 512 + 8 (8s + f) on. -/
def State.fibreRec (s : State) (c k : Nat) : List Word :=
  let at_ := fun i => tget {} s.fibres (256 * c + i)
  if k < 512 then (if k % 2 = 0 then (at_ (k / 2)).words else match (at_ (k / 2)).walk with | some w => w.words | none => [])
  else match (at_ ((k - 512) / 8)).walk with | some w => (w.pairWords.drop (8 * ((k - 512) % 8))).take 8 | none => []

/-- STRUCT 0x06: the fibre registers. -/
def State.fibreLayout (s : State) (c : Nat) : Layout :=
  let m := (s.fibres.filter fun e => e.1 / 256 == c).map fun e => (e.1 % 256, e.2)
  records (if m.any fun e => e.2.walk.any fun w => !w.pairs.isEmpty then 2560 else 2 * usedBelow m 256) 2560 (s.fibreRec c)

/-- Word n of a cocoon entry (R373). -/
def Cocoon.wordAt (e : Cocoon) (core n i : Nat) : Word :=
  match i with
  | 0 => e.word0 core n
  | 1 => e.word1
  | 2 => e.va
  | 3 => e.pc
  | 4 => e.diff.setWidth 64
  | _ => 0

/-- Word i of a trap frame (R365). -/
def TrapFrame.wordAt (f : TrapFrame) (i : Nat) : Word := match i with | 0 => f.w0 | 1 => f.tpc | 2 => f.rpc | _ => f.addr

/-- Word w of a core's cocoon table (R325, R373). -/
def State.probeCocoon (s : State) (c w : Nat) : Word :=
  let i := w % 8
  match tget? (s.coreAt c).cocoon (w / 8) with
  | some e => if e.st = 0 then (if i < 5 then 0xFFFFFFFFFFFFFFFF else 0) else e.wordAt c (w / 8) i
  | none => if i < 5 then 0xFFFFFFFFFFFFFFFF else 0

/-- STRUCT 0x07: the cocoon table. -/
def State.cocoonLayout (s : State) (c : Nat) : Layout :=
  { size := if (s.coreAt c).cocoon.isEmpty then 0 else 512, ext := 512, word := fun w => if w < 512 then s.probeCocoon c w else 0 }

/-- The launches whose dictionaries a core's two banks hold: a bank is free when no placed block uses it (R118). -/
def State.dictBanks (s : State) (c : Nat) : List Nat :=
  ((s.blocks.filter fun e => e.2.core == c && 0 < (s.launch (gkey e.2.asid e.2.lid)).dlen).map fun e => gkey e.2.asid e.2.lid).eraseDups

/-- A block record (R381): pool map word, BSW, launch, %block, dictionary bank (2: none), suspend handle, target and form. -/
def Block.words (b : Block) (bank : Nat) : List Word :=
  let q := b.susp.getD { release := false, handle := 0, target := 0, cont := 0, order := 0, dpa := none, saved := [], met := none }
  [b.pool, b.bswAll, word b.lid, word b.blk, word bank, q.handle, q.target,
   pack [(b.susp.isSome.toNat, 1), (q.release.toNat, 1), (b.regHeld.toNat, 1), (b.flush.toNat, 1), (b.leaving.toNat, 1),
     (q.met.isSome.toNat, 1), (q.dpa.isSome.toNat, 1), (b.edge.isSome.toNat, 1), (0, 55), (1, 1)]]

/-- What else a block's record holds: its warp slots in warp order, accumulator granules, edge record, and of its suspension the
continuation, orders and location. -/
def Block.moreWords (b : Block) : List Word :=
  let q := b.susp.getD { release := false, handle := 0, target := 0, cont := 0, order := 0, dpa := none, saved := [], met := none }
  [word ((b.slots.map fun k => 2 ^ k).sum), word b.accg, b.edge.getD 0, q.cont, word q.order, word (q.met.getD 0), word (q.dpa.getD 0)]

/-- STRUCT 0x08: the block of first slot k at records k and 32 + k, the words that suspend.r keeps at 64 + 2k. -/
def State.blockLayout (s : State) (c : Nat) : Layout :=
  let m := (s.blocks.filter fun e => e.2.core == c).map fun e => (e.1 % 32, e.2)
  let banks := s.dictBanks c
  let bankOf := fun (b : Block) => (banks.findIdx? (· == gkey b.asid b.lid)).getD 2
  records (if m.isEmpty then 0 else 128) 128 fun k =>
    match tget? m (if k < 64 then k % 32 else (k - 64) / 2) with
    | none => []
    | some b =>
      if k < 32 then b.words (bankOf b) else if k < 64 then b.moreWords
      else match b.susp with | some q => (q.saved.drop (8 * (k % 2))).take 8 | none => []

/-- STRUCT 0x09: the held cross-lane arrival of thread e. -/
def State.arrivalLayout (s : State) (c : Nat) : Layout :=
  let m := (s.laneTab c).filter fun e => e.2.arrMask.isSome
  records (usedBelow m 1024) 1024 fun k => match (tget? m k).bind fun th => th.arrMask with
    | some w => [pack [(w.toNat, 32), (0, 31), (1, 1)]]
    | none => []

/-- An aligned word of a store: its number, address, bytes, which of them it stores, and the thread, its tick and the copy. -/
def Store.words (st : Store) : List (List Word) :=
  (rising (st.data.map fun e => e.1 / 8)).map fun k =>
    let at_ := fun i => st.data.reverse.lookup (8 * k + i)
    [word st.seq, word (8 * k), word (leNat ((List.range 8).map fun i => (at_ i).getD 0)),
     pack ((List.range 8).map (fun i => ((at_ i).isSome.toNat, 1)) ++ [(st.single.toNat, 1), (st.past.toNat, 1), (st.copy.isSome.toNat, 1)]),
     word st.tid, word st.tick, word (st.copy.getD 0)]

/-- The stored bytes of an engine that are not written back yet. -/
def EngMem.dueWords (e : EngMem) : List (List Word) := (e.due fun _ => true).flatMap Store.words

/-- STRUCT 0x0A: the store sequence counter, and from record 1 the stored bytes. -/
def State.storeLayout (s : State) (e : Nat) : Layout :=
  let l := (s.eng e).dueWords
  records (if (tget? s.emem e).isNone then 0 else 1 + l.length) 1 fun k => if k = 0 then [word (s.eng e).seq] else l.getD (k - 1) []

/-- STRUCT 0x0B: the two dictionary banks, 1,024 entries each. -/
def State.dictLayout (s : State) (c : Nat) : Layout :=
  let banks := s.dictBanks c
  { size := 1024 * banks.length, ext := 2048
    word := fun w => match banks[w / 1024]? with | some lk => tget 0 (s.launch lk).dict (w % 1024) | none => 0 }

/-! ### Conductors, Instar and the DE (SPACE 1) -/

/-- STRUCT 0x01 of a conductor: its thread; its binding, and what Instar keeps beside the macro-op; trap frames from record 2,
Instar's own row from record 8, k registers from record 128, stored bytes from record 256. -/
def State.condLayout (s : State) (cl : Nat) : Layout :=
  let c := s.cluster cl
  let i := c.instar
  let th := s.thread (condBase + cl)
  let e := s.eng (768 + cl)
  let l := e.dueWords
  let unused := (tget? s.threads (condBase + cl)).isNone && (tget? s.emem (768 + cl)).isNone && i == {}
  records (if unused then 0 else 256 + l.length) 256 fun k =>
    if k = 0 then th.words (statusWord s (condBase + cl))
    else if k = 1 then [word th.nFadd, word e.seq,
      pack [(c.bound.isSome.toNat, 1), (i.flag.isSome.toNat, 1), (i.own.toNat, 1), (i.held.toNat, 1), (i.flag.getD 0, 4), (0, 8), (i.row.length, 16)],
      word (c.bound.getD 0), i.vd]
    else if k < 8 then (match th.traps[k - 2]? with | some f => f.words | none => [])
    else if k < 128 then (List.range 8).map fun j => word (leNat ((i.row.drop (64 * (k - 8) + 8 * j)).take 8))
    else if k < 256 then (List.range 8).map fun j => tget 0 th.regs (8 * (k - 128) + j)
    else l.getD (k - 256) []

/-- STRUCT 0x02: the Instar word and the held macro-op (R256, R325). -/
def Instar.layout (i : Instar) : Layout where
  size := if i = {} then 0 else 5
  ext := 5
  word := fun w => [i.stateWord, i.word, i.payload, i.va, i.vb].getD w 0

/-- STRUCT 0x03: the DE's word, its stream, its place in it and redirections; the tables from record 2; the blocks that were
read from a redirection from record 6. -/
def Decomp.layout (d : Decomp) : Layout :=
  let tabs := (List.range 16).flatMap fun i => (chunks 8 2 (tget [] d.tabs i)).map fun b => word (leNat b)
  records (if d = {} then 0 else 6 + d.moved.length) 6 fun k =>
    if k = 0 then [d.stateWord, d.sbase,
      pack [(d.nblk, 16), (d.bstride, 16), (d.bfp4.toNat, 1), (d.toReg.toNat, 1), (d.trap.toNat, 1), (d.held.toNat, 1), (d.owner.isSome.toNat, 1),
        (d.redir.isSome.toNat, 1)],
      pack [(d.rbase, 32), (d.rsize, 32)], word d.tmo, word d.pos, word d.landed, word (d.owner.getD 0)]
    else if k = 1 then [word (d.redir.getD (0, 0)).1, (d.redir.getD (0, 0)).2, word d.next, word d.skip, d.failAt,
      pack ((List.range 16).map fun i => ((tget? d.tabs i).isSome.toNat, 1))]
    else if k < 6 then (tabs.drop (8 * (k - 2))).take 8
    else match d.moved[k - 6]? with | some m => [word m.1, m.2] | none => []

/-! ### Cluster engines (SPACE 2) -/

/-- STRUCT 0x01: the formats of the 1,024 banks, and their bytes, 512 words each from word 16 on (R249). -/
def Cluster.bankLayout (c : Cluster) : Layout where
  size := let n := usedBelow c.banks 1024; if n = 0 then 0 else 16 + 512 * n
  ext := 16 + 512 * 1024
  word := fun w =>
    if w < 16 then pack ((List.range 64).map fun i => ((tget {} c.banks (64 * w + i)).bfp4.toNat, 1))
    else (tget {} c.banks ((w - 16) / 512)).data.word (8 * ((w - 16) % 512))

/-- STRUCT 0x02: of the block of first slot k of core i, at record 32i + k, its bin session and its run. -/
def State.binLayout (s : State) (cl : Nat) : Layout :=
  let m := ((s.blocks.filter fun e => e.2.core / 8 == cl && (e.2.bin.isSome || e.2.binRun.isSome)).map fun e => (e.1 % 256, e.2))
  records (usedBelow m 256) 256 fun k => match tget? m k with
    | none => []
    | some b =>
      let r := b.binRun.getD { tid := 0, desc := 0, region := 0 }
      [pack [(b.bin.isSome.toNat, 1), (b.binRun.isSome.toNat, 1)], b.bin.getD 0, word r.tid, r.desc, word r.region]

/-- STRUCT 0x03: the generations of the operand handles, four to a word (R82, R250). -/
def Cluster.genLayout (c : Cluster) : Layout where
  size := (usedBelow c.gens 65536 + 3) / 4
  ext := 16384
  word := fun w => pack ((List.range 4).map fun i => (tget 0 c.gens (4 * w + i), 16))

/-! ### Dies (SPACE 3) -/

/-- A line of 64 bytes as a 72-byte entry: its DPA and its bytes (R382). -/
def lineWords (dpa : Nat) (byte : Nat → Byte) : List Word :=
  word dpa :: (List.range 8).map fun i => word (leNat ((List.range 8).map fun k => byte (dpa + 8 * i + k)))

/-- Entries of nine words. -/
def lines (l : List Nat) (f : Nat → List Word) : Layout where
  size := 9 * l.length
  ext := 0
  word := fun w => match l[w / 9]? with | some n => (f n).getD (w % 9) 0 | none => 0

/-- Lines of a die's stacks that have changed at home since the phase began. -/
def changedLines (snap home : Memory) (die : Nat) : List Nat :=
  (rising ((snap ++ home).map fun e => e.1 / 64)).filter fun l =>
    stackOf (64 * l) / 2 == die && (List.range 64).any fun i => snap.read (64 * l + i) != home.read (64 * l + i)

/-- STRUCT 0x08 of a partition: the pre-image lines of a die. -/
def State.preLayout (s : State) (p die : Nat) : Layout :=
  let snap := (s.part p).snap
  lines (changedLines snap s.home die) fun l => lineWords (s.boot.devnum * devBytes + 64 * l) fun a => snap.read (a % devBytes)

/-- Where the snapshot bytes of other devices stand for a partition on a die, and the lines that they belong to (R87). -/
def remoteBase (p die : Nat) : Nat := (9 * die + p) * 2 ^ 50
def State.remoteLines (s : State) (p die : Nat) : List Nat :=
  let base := remoteBase p die
  rising ((s.remote.filter fun e => base ≤ e.1 && e.1 < base + 2 ^ 50).map fun e => (e.1 - base) / 64)

/-- STRUCT 0x09: the remote lines held in a die's snapshot. -/
def State.remoteLayout (s : State) (p die : Nat) : Layout :=
  lines (s.remoteLines p die) fun l => lineWords (64 * l) fun a => tget 0 s.remote (remoteBase p die + a)

/-- STRUCT 0x0B: on the partition's first die, the kept submissions (kind 1), pending forks (2) and requests (3 slot.cfg, 4
seq.st, 5 its OP 4) of the running context's sequences (R313). -/
def State.keptLayout (s : State) (p die : Nat) : Layout :=
  let mine := fun n => (s.seqE n).asid == (s.part p).rasid
  let first := ((s.part p).stacks.map (· / 2)).head? == some die
  let l : List (List Word) := if !first then [] else
    ((s.subs.filter fun e => mine (e.1 / 64)).map fun e => [1, word e.1, e.2.1.setWidth 64, e.2.2.setWidth 64])
    ++ ((s.forks.filter fun f => mine f.parent).map fun f => [2, word f.parent, word f.child, word f.f, f.fmap, f.pen])
    ++ ((s.cfgs.filter fun e => mine e.1).map fun e => [3, word e.1, word e.2.mode.toNat, e.2.thf.setWidth 64, e.2.tht.setWidth 64, e.2.thr.setWidth 64])
    ++ ((s.sts.filter fun e => mine e.1).map fun e => [4, word e.1, word e.2])
    ++ (s.prios.filter fun e => mine e.1).map fun e => [5, word e.1, word e.2]
  records l.length 0 fun k => l.getD k []

/-! ### Every structure -/

/-- The structures of R381 of SPACES 0 to 2. -/
def State.layout (s : State) (space st u : Nat) : Option Layout :=
  match space, st with
  | 0, 1 => some (s.threadLayout u)
  | 0, 2 => some (s.regLayout u)
  | 0, 3 => some (s.frameLayout u)
  | 0, 4 => some (s.poolLayout u)
  | 0, 5 => some (s.barrierLayout u)
  | 0, 6 => some (s.fibreLayout u)
  | 0, 7 => some (s.cocoonLayout u)
  | 0, 8 => some (s.blockLayout u)
  | 0, 9 => some (s.arrivalLayout u)
  | 0, 10 => some (s.storeLayout u)
  | 0, 11 => some (s.dictLayout u)
  | 1, 1 => some (s.condLayout u)
  | 1, 2 => some (s.cluster u).instar.layout
  | 1, 3 => some (s.cluster u).de.layout
  | 2, 1 => some (s.cluster u).bankLayout
  | 2, 2 => some (s.binLayout u)
  | 2, 3 => some (s.cluster u).genLayout
  | _, _ => none

/-- Those of SPACE 3, of a partition on a die. -/
def State.dieLayout (s : State) (st p die : Nat) : Option Layout :=
  match st with
  | 8 => some (s.preLayout p die)
  | 9 => some (s.remoteLayout p die)
  | 11 => some (s.keptLayout p die)
  | _ => none

end Sys2Proof.Machine
end

