-- ==== Sys2Proof/Machine/Sys.lean ====
section
/-! DEFINITION. The other system instructions: TLB.INV (R353, R354), FRAG.* (R372-R374), CTX.HALT.TERM and .CLEAR (R378),
PROBE.RD (R325), CNT.* (R394, R395), CANCEL.* (R338, R339) and PHASE.CLOSE (R340). -/
namespace Sys2Proof.Machine

open Sys2Proof

/-- A system instruction: its checks over the true-guard lanes, then each lane in increasing number (R318). -/
def State.sysOp (s : State) (h : Hdr) (checks : List (Nat → Option TrapInfo)) (lane : Nat → State → State) : State :=
  let act := s.active h.guard
  match firstTrap act checks with
  | some ti => s.trapGroup ti
  | none =>
    let s := s.mapGroup fun _ th => if th.guardTrue h.guard then th else th.adv s.cur.next
    act.foldl (fun s t => lane t s) s

/-- One lane finishes with a result in d. -/
def State.give (s : State) (h : Hdr) (d : Dst) (t : Nat) (v : Word) : State := s.finishLane h t (writeDst d v)

/-! ### tlb.inv (R353, R354) -/

/-- Copies in flight that were translated through a cached entry that p selects: tlb.inv waits for them (R354, R362). -/
def State.copiesVia (s : State) (p : TlbEntry → Bool) : List Nat :=
  s.cores.flatMap fun e => (e.2.copies.filter fun c => c.via.any p).map (·.id)

/-- Those of some copies that are still in flight. -/
def State.inFlight (s : State) (on : List Nat) : List Nat := on.filter fun id => s.cores.any fun e => e.2.copies.any fun c => c.id == id

/-- The ASID that a lane's tlb.inv concerns: the running context's at level 1, b[9:0] at level 2. -/
def State.invAsid (s : State) (t : Nat) (b : Src) : Nat := if (s.thread t).lvl = 2 then bits (s.src t b) 0 10 else s.asidOf t

/-- Cause 0x01 below a level, and the reserved bits of b at level 2. -/
def State.below (s : State) (n t : Nat) : Bool := (s.thread t).lvl.toNat < n
def State.invB (s : State) (b : Src) (t : Nat) : Bool := (s.thread t).lvl == 2 && bits (s.src t b) 10 54 != 0

/-- One lane's invalidation: what p selects is dropped, and the instruction completes once the copies that went through it
have retired (R354). -/
def State.invLane (s : State) (h : Hdr) (t : Nat) (p : TlbEntry → Bool) : State :=
  let r := match (s.thread t).wait with
    | .inval on => (on, s)
    | _ => (s.copiesVia p, s.tlbDrop p)
  let on := r.2.inFlight r.1
  if on.isEmpty then r.2.finishLane h t id else r.2.waitLanes [t] (.inval on)

/-- tlb.inv.all (R353). -/
def execTlbInvAll (h : Hdr) (b : Src) (s : State) : Out :=
  .next (s.sysOp h [sysChk 1 (s.below 1), sysChk 4 (s.invB b)] fun t s =>
    let asid := s.invAsid t b
    s.invLane h t fun e => e.asid == asid)

/-- tlb.inv.page (R353). -/
def execTlbInvPage (h : Hdr) (a b : Src) (s : State) : Out :=
  .next (s.sysOp h [sysChk 1 (s.below 1), sysChk 4 fun t => s.invB b t || !canonical (s.src t a)] fun t s =>
    let asid := s.invAsid t b
    let va := vaBits (s.src t a)
    s.invLane h t fun e => e.overlaps asid va (va + 1))

/-- tlb.inv.range (R353): the range ends where its half of the canonical addresses does. -/
def execTlbInvRange (h : Hdr) (l a b : Src) (s : State) : Out :=
  let badLen := fun t => (s.src t l).toNat = 0 || 2 ^ 40 < (s.src t l).toNat
  .next (s.sysOp h [sysChk 1 (s.below 1), sysChk 4 fun t => s.invB b t || !canonical (s.src t a) || badLen t] fun t s =>
    let asid := s.invAsid t b
    let lo := vaBits (s.src t a)
    let hi := min (lo + (s.src t l).toNat) (if lo < 2 ^ 54 then 2 ^ 54 else 2 ^ 55)
    s.invLane h t fun e => e.overlaps asid lo hi)

/-- tlb.inv.dev (R353). -/
def execTlbInvDev (h : Hdr) (s : State) : Out :=
  .next (s.sysOp h [sysChk 1 (s.below 2)] fun t s => s.invLane h t fun _ => true)

/-! ### Fragments (R372-R374) -/

/-- The fields of an identity (R24). -/
def idCore (w : Word) : Nat := bits w 22 10
def idEntry (w : Word) : Nat := bits w 16 6
def idGen (w : Word) : BitVec 16 := w.extractLsb' 0 16

/-- The entry that an identity names, where it is in use and its generation agrees (R373). -/
def State.fragOf (s : State) (w : Word) : Option Cocoon :=
  match tget? (s.coreAt (idCore w)).cocoon (idEntry w) with
  | some e => if e.st != 0 && e.gen == idGen w then some e else none
  | none => none

/-- Causes 0x01 of R372: level 0, or at level 1 a core outside the running partition. -/
def State.fragDenied (s : State) (a : Src) (t : Nat) : Bool :=
  let c := idCore (s.src t a)
  (s.thread t).lvl == 0 || ((s.thread t).lvl == 1 && c < 768 && s.partOfEng c != s.partOfEng (engOf t))

/-- frag.rd.entry (R373). -/
def execFragRdEntry (h : Hdr) (d : Dst) (a b : Src) (s : State) : Out :=
  let bad := fun t => bits (s.src t a) 32 32 != 0 || 4 < (s.src t b).toNat || 767 < idCore (s.src t a)
  .next (s.sysOp h [sysChk 1 (s.fragDenied a), sysChk 4 bad] fun t s =>
    let w := s.src t a
    s.give h d t (match s.fragOf w with
      | some e => e.wordAt (idCore w) (idEntry w) (s.src t b).toNat
      | none => 0xFFFFFFFFFFFFFFFF))

/-- frag.rd.frame (R373): frames at or beyond TDEPTH read zero. -/
def execFragRdFrame (h : Hdr) (d : Dst) (b : Src) (s : State) : Out :=
  .next (s.sysOp h [sysChk 1 (s.below 1), sysChk 4 fun t => bits (s.src t b) 4 60 != 0] fun t s =>
    let w := s.src t b
    s.give h d t (match (s.thread t).traps[bits w 2 2]? with | some f => f.wordAt (bits w 0 2) | none => 0))

/-- Lane threads parked in an entry of a core. -/
def State.parkedIn (s : State) (core n : Nat) : List Nat :=
  (s.threads.filter fun e => e.1 < condBase && engOf e.1 == core && e.2.run == .parked n).map (·.1)

/-- Resuming a fragment (R26, R374): the entry is resolved, and its lanes are live again with RESUMED set; their access
walks anew. -/
def State.fragResume (s : State) (core n : Nat) : State :=
  let s' := (s.parkedIn core n).foldl (fun s t => s.modThread t fun th => { th with run := .live, resumed := true, wait := .none, chain := {}, rewalk := true }) s
  s'.modCore core fun k => { k with cocoon := tmod n (fun e => { e with st := 2 }) k.cocoon }

/-- Killing a fragment (R27, R374): its lanes exit and the entry is freed; its record, where it still waits, is dropped. -/
def State.fragKill (s : State) (core n : Nat) : State :=
  let ts := s.parkedIn core n
  let bk := (s.thread (ts.headD 0)).block
  let asid := (s.block bk).asid
  let s := s.freeEntry core n
  let s := s.modCtx asid fun c => { c with faults := c.faults.filter fun f => !(f.kind == 1 && f.core == core && f.entry == n) }
  let s := ts.foldl (fun s t => s.modThread t Thread.exit) s
  if ts.isEmpty then s else s.settle bk

/-- frag.resume and frag.kill (R374). -/
def State.fragOp (s : State) (h : Hdr) (d : Dst) (a b : Src) (kill : Bool) : State :=
  let bad := fun t => bits (s.src t a) 32 32 != 0 || 767 < idCore (s.src t a)
  s.sysOp h [sysChk 1 (s.fragDenied a), sysChk 4 bad] fun t s =>
    let w := s.src t a
    match s.fragOf w with
    | none => s.give h d t 1
    | some e =>
      if e.rsn.toNat ≠ bits (s.src t b) 0 32 then s.give h d t 1
      else if e.st = 2 then s.give h d t 2
      else
        let s := s.give h d t 0
        if kill then s.fragKill (idCore w) (idEntry w) else s.fragResume (idCore w) (idEntry w)

/-- frag.resume (R374). -/
def execFragResume (h : Hdr) (d : Dst) (a b : Src) (s : State) : Out := .next (s.fragOp h d a b false)

/-- frag.kill (R374). -/
def execFragKill (h : Hdr) (d : Dst) (a b : Src) (s : State) : Out := .next (s.fragOp h d a b true)

/-! ### ctx.halt.term and ctx.halt.clear (R375, R376, R378) -/

/-- ctx.halt: checks, then the lowest-numbered true-guard lane's effect (R378). -/
def State.haltOp (s : State) (h : Hdr) (a : Src) (denied misaligned : Nat → Bool) (eff : Nat → State → State) : State :=
  let act := s.active h.guard
  match firstTrap act [sysChk 1 denied, sysChk 4 fun t => bits (s.src t a) 3 61 != 0 || misaligned t] with
  | some ti => s.trapGroup ti
  | none =>
    let s := s.mapGroup fun _ th => if th.guardTrue h.guard then th else th.adv s.cur.next
    match act with
    | [] => s
    | t :: rest => eff t (rest.foldl (fun s u => s.finishLane h u id) s)

/-- The partition that operand a names. -/
def State.haltPart (s : State) (t : Nat) (a : Src) : Nat := bits (s.src t a) 0 3

/-- ctx.halt.term (R378): the halt line rises with TCAUSE 1. -/
def execCtxHaltTerm (h : Hdr) (a : Src) (s : State) : Out :=
  let denied := fun t => (s.thread t).lvl == 0 || ((s.thread t).lvl == 1 && s.partOfEng (engOf t) != some (s.haltPart t a))
  .next (s.haltOp h a denied (fun _ => false) fun t s =>
    let p := s.haltPart t a
    (s.finishLane h t id).raiseHalt p 1 none)

/-- Engines of a partition: its lane cores and conductors. -/
def State.inPart (s : State) (p e : Nat) : Bool := e < 864 && (s.part p).gran.getLsbD (granOf e)

/-- Everything that a partition's engines hold of the running context leaves them. Their cocoon tables start afresh, every
generation at 0: whether a generation outlives the context that used its entry, R24 does not say, and this is the model's
choice (log 68). Granules that its blocks held are free and keep their tag and poison (R388). Event counters go on. -/
def State.clearEngines (s : State) (p : Nat) : State :=
  let inP := s.inPart p
  let s := s.blocks.foldl (fun s e => if inP e.2.core then s.spareGran e.1 e.2 e.2.spots else s) s
  { s with
    threads := s.threads.filter fun e => !inP (engOf e.1)
    blocks := s.blocks.filter fun e => !inP e.2.core
    fibres := s.fibres.filter fun e => !inP (e.1 / 256)
    cores := s.cores.filter fun e => !inP e.1
    emem := (s.emem.filter fun e => !inP e.1 || !e.2.cnt.isEmpty).map fun e => if inP e.1 then (e.1, { cnt := e.2.cnt }) else e
    clusters := s.clusters.filter fun e => !inP (768 + e.1)
    poisonBank := s.poisonBank.filter fun k => !inP (768 + k / 1024)
    remote := s.remote.filter fun e => snapPart e.1 != p }

/-- A context stands in none of its images. -/
def State.unkeep (s : State) (asid : Nat) : State :=
  { s with images := s.images.map fun (j : Image) => if j.asid = asid then { j with live := false } else j }

/-- A context that Imago ends: its jobs are cancelled, its entry is no longer valid, and it stands in no image. -/
def State.endContext (s : State) (asid : Nat) : State :=
  let js := (s.jobs.filter fun e => e.2.asid == asid && e.2.state != 0).map (·.1)
  ((js.foldl (fun s j => s.cancelJob j) s).modCtx asid fun c => { c with w0 := putBits c.w0 63 1 0 }).unkeep asid

/-- TERM (R368), as Imago applies it once the halt line is lowered: hold; end the context; or cancel the faulting job and
let the context run on (log 24). -/
def State.applyTerm (s : State) (p asid : Nat) (job : Option Nat) : State :=
  match bits (s.ctx asid).fpol 7 2 with
  | 1 => s.endContext asid
  | 2 =>
    let s := match job with | some j => s.cancelJob j | none => s
    s.modPart p fun q => { q with run := true, rasid := asid }
  | _ => s

/-- Engines that a halt has stopped run on. -/
def Cluster.goesOn (c : Cluster) : Cluster :=
  { c with
    instar := if c.instar.held then { c.instar with st := 1, held := false } else c.instar
    de := if c.de.held then { c.de with st := 1, held := false } else c.de }

/-- ctx.halt.clear (R378): the halt line is lowered, the engines are freed and RUN falls; then TERM applies to the context
that ran when the line was raised, whether or not it has been saved since (R376). A context that TERM lets run on goes on
from where its engines stand. -/
def execCtxHaltClear (h : Hdr) (a : Src) (s : State) : Out :=
  .next (s.haltOp h a (s.below 2) (fun _ => false) fun t s =>
    let s := s.finishLane h t id
    let p := s.haltPart t a
    let q := s.part p
    let job := q.haltJob
    let goesOn := match q.haltCtx with | some c => bits (s.ctx c).fpol 7 2 == 2 | none => false
    let s := if goesOn then s else s.clearEngines p
    let s := { s with stops := s.stops.filter fun e => 864 ≤ e.1 && e.1 < 872 || bits (e.2.getD 5 0) 16 3 != p }
    let s := s.modPart p fun q => { q with
      halt := none, haltAt := none, haltAddr := 0, haltJob := none, haltCtx := none, saving := none, run := false, rasid := 0
      lastAsid := if q.run then q.rasid else q.lastAsid }
    match q.haltCtx with
    | some c =>
      let runs : State := { s with clusters := s.clusters.map fun e => if s.inPart p (768 + e.1) then (e.1, e.2.goesOn) else e }
      (if goesOn then runs.unkeep c else s).applyTerm p c job
    | none => s)

/-! ### probe.rd (R325) -/

/-- The context whose tag an engine's state carries: the one running in its partition, or the last one run there; ASID 0
outside every enabled partition. -/
def State.tagOf (s : State) (gran : Nat) : Nat :=
  match s.partOfGran gran with
  | some p => if (s.part p).run then (s.part p).rasid else (s.part p).lastAsid
  | none => 0

/-- A word of a job entry (R326). -/
def Job.word (j : Job) (i : Nat) : Word :=
  match i with
  | 0 => Machine.word ((if j.state = 0 then 0 else 1) * 2 ^ 63 + j.state % 8 * 2 ^ 60 + j.seqctl.toNat * 2 ^ 59 + j.kclose.toNat * 2 ^ 58
      + j.kcancel.toNat * 2 ^ 57 + j.auto.toNat * 2 ^ 56 + j.prio % 256 * 2 ^ 48 + j.asid % 1024 * 2 ^ 32 + j.batchMax % 2048)
  | 1 => j.graph
  | 2 => j.brec
  | 3 => j.scrbase
  | 4 => Machine.word (j.kvstride % 65536 * 2 ^ 32)
  | 5 => j.phcnt
  | 6 => Machine.word j.gcur
  | _ => 0

/-- The fuse words (R412). -/
def State.fuseWords (s : State) : List Word :=
  digestWords (beNum 48 Config.rootKey.toNat) ++ digestWords s.boot.opkey ++ [s.boot.svnmin.setWidth 64, word s.boot.nodebug.toNat]

/-- The fingerprint of a key slot (R325). -/
def State.keyPrint (s : State) (k i : Nat) : Word :=
  let ws := s.keyWords k
  if ws.all (· == 0) || 6 ≤ i then 0 else (digestWords (sha384 (ws.flatMap fun w => leBytes 8 w.toNat))).getD i 0

/-- What a probe finds: a word with its owner tag (none: machine level only), a word whose value no chapter fixes (a free
value, log 14), or nothing. -/
inductive Probe where
  | known (v : Word) (owner : Option Nat)
  | free (owner : Nat)
  | bad
  deriving Repr

/-- SPACE 4 (R325, R326, R332, R377, R389, R390, R412); the queues of Silk and Ultra Ethernet, whose numbers and layout no
chapter gives, belong to ASID 0 (log 14). -/
def State.probeDev (s : State) (st w : Nat) : Probe :=
  if st = 2 then (if w < 2048 then .known ((s.job (w / 8)).word (w % 8)) (some (s.job (w / 8)).asid) else .bad)
  else if st = 4 then (if w < 65536 then .known (s.launchWord (w / 256) (w % 256)) (some (s.job (w / 256)).asid) else .bad)
  else if st = 0x10 then
    if w < 8 * 1072 then
      let r := tget [] s.stops (w / 8)
      .known (r.getD (w % 8) 0) (some (bits (r.getD 5 0) 0 10))
    else .bad
  else if st = 0x20 then (if w < 16 then .known (s.log.words.getD w 0) none else .bad)
  else if st = 0x21 then
    if w < 16 * s.log.lcap then
      match tget? s.log.recs (w / 16) with
      | some r => .known (r.getD (w % 16) 0) (some (bits (r.getD 1 0) 32 10))
      | none => .known 0 none
    else .bad
  else if st = 0x30 then (if w < 14 then .known (s.fuseWords.getD w 0) none else .bad)
  else if st = Config.probeKeys then (if w < 2048 then .known (s.keyPrint (w / 8) (w % 8)) (some 0) else .bad)
  else if st = Config.probeParts then (if w < 64 then .known (if w % 8 = 0 then (s.part (w / 8)).word else 0) (some 0) else .bad)
  else if st = Config.probeCtxs then (if w < 8192 then .known ((s.ctx (w / 8)).word (w / 8) (w % 8)) (some 0) else .bad)
  else if w < Config.probeExtent 4 st then .free 0
  else .bad

/-- Word w of a core's pool and its own owner tag: a granule in use is its block's, a free one keeps its last (R388). What the
words of a free granule hold, no chapter says (log 14). -/
def State.probePool (s : State) (c w : Nat) : Probe :=
  match s.poolSpot c (w / 2048) with
  | some (bk, r, g) =>
    .known (if r = 0 then s.regWord bk g (w % 2048) else (s.poolLayout c).word w) (some (s.block bk).asid)
  | none => .free (s.spareAt c (w / 2048)).1

/-- A word of a structure by its layout, with its owner tag. -/
def Layout.probe (l : Layout) (w owner : Nat) : Probe := if w < max l.ext l.size then .known (l.word w) (some owner) else .bad

/-- A word of SPACE 3: of the partition that holds the die's first stack, and beyond its words of the one that holds the other
(log 14). -/
def State.probeDie (s : State) (u st w : Nat) : Probe :=
  let ps := ([s.partOfGran (2 * u), s.partOfGran (2 * u + 1)].filterMap id).eraseDups
  (ps.foldl (fun (r : Probe × Nat) p =>
    match r.1, s.dieLayout st p u with
    | .bad, some l => if r.2 < l.size then (.known (l.word r.2) (some (s.tagOf (if s.partOfGran (2 * u) = some p then 2 * u else 2 * u + 1))), 0) else (.bad, r.2 - l.size)
    | q, _ => (q, r.2)) (.bad, w)).1

/-- The word that a probe address names (R325). A conductor's UNIT is its cluster's number, 0-95, not its device core number:
R325 says 'conductor number' only, and this is the model's choice (log 81). -/
def State.probe (s : State) (addr : Word) : Probe :=
  let u := bits addr 40 16
  let st := bits addr 32 8
  let w := bits addr 0 32
  let sp := bits addr 56 8
  match sp with
  | 0 =>
    if 768 ≤ u then .bad
    else if st = 4 then (if w < 131072 then s.probePool u w else .bad)
    else match s.layout 0 st u with | some l => l.probe w (s.tagOf (granOf u)) | none => .bad
  | 1 =>
    if 96 ≤ u then .bad else match s.layout 1 st u with | some l => l.probe w (s.tagOf (granOf (768 + u))) | none => .bad
  | 2 =>
    if 96 ≤ u then .bad
    else match s.layout 2 st u with
      | some l => l.probe w (if st = 1 then (s.cluster u).bankAsid else s.tagOf (granOf (768 + u)))
      | none => if w < Config.probeExtent 2 st then .free (s.tagOf (granOf (768 + u))) else .bad
  | 3 =>
    if 4 ≤ u then .bad
    else if st = 8 ∨ st = 9 ∨ st = 0x0B then s.probeDie u st w
    else if Config.probeExtent 3 st ≤ w then .bad
    else .free (Config.probeOwner s.ctr addr % 1024)
  | 4 => if u ≠ 0 then .bad else s.probeDev st w
  | _ => .bad

/-- Whether the word that a probe address names lies in a poisoned granule, weight bank or line of the log: its read is not
ready (R388). -/
def State.probeHeld (s : State) (addr : Word) : Bool :=
  let u := bits addr 40 16
  let st := bits addr 32 8
  let w := bits addr 0 32
  let spot := fun (x : Option (Nat × Nat × Nat)) => match x with
    | some (bk, r, g) => s.poisonPool.contains (granKey bk r g)
    | none => false
  match bits addr 56 8 with
  | 0 =>
    if st = 4 then spot (s.poolSpot u (w / 2048)) || ((s.poolSpot u (w / 2048)).isNone && (s.spareAt u (w / 2048)).2)
    else st == 2 && spot (regSpots s.blocks u)[w / 2048]?
  | 2 => st == 1 && 16 ≤ w && s.poisonBank.contains (1024 * u + (w - 16) / 512)
  | 4 => st == 0x21 && !s.poison.isEmpty && s.homeHeld 0 2 (s.log.lbase + word (8 * w)) 8
  | _ => false

def Probe.isBad : Probe → Bool | .bad => true | _ => false

/-- Whether a thread may not read what it names: below machine level only words of its own ASID. -/
def State.probeDenied (s : State) (t : Nat) (p : Probe) : Bool :=
  (s.thread t).lvl != 2 && (match p with
    | .known _ o => o != some (s.asidOf t)
    | .free o => o != s.asidOf t
    | .bad => false)

/-- probe.rd (R325): kernel level raises 0x01, then a malformed address 0x05, and only then is the owner tag
tested. A lane whose word is poisoned waits (R388). -/
def execProbeRd (h : Hdr) (d : Dst) (a : Src) (s : State) : Out :=
  .next (s.sysOp h
    [sysChk 1 (s.below 1), sysChk 5 fun t => (s.probe (s.src t a)).isBad, sysChk 1 fun t => s.probeDenied t (s.probe (s.src t a))]
    fun t s =>
      if s.probeHeld (s.src t a) then s.waitLanes [t] .poison else
      match s.probe (s.src t a) with
      | .known v _ => s.give h d t v
      | _ => ({ s with ctr := s.ctr + 1 } : State).give h d t (Config.probeWord s.ctr (s.src t a)))

/-! ### Event counters (R394, R395) -/

/-- Assigned sources (R394). -/
def srcOk (n : Nat) : Bool := n ≤ 16 || (20 ≤ n && n ≤ 41) || (48 ≤ n && n ≤ 55)

/-- Sources of what only lane cores do (R394): latch chains, member waits, the cocoon table, call spills, ldl, ordered adds,
copies, the placing and suspending of blocks, the coordinate and bin engines, and slot.put. -/
def laneSources : List Nat := [8, 10, 11, 12, 13, 14, 15, 16, 25, 26, 27, 35, 36, 37, 38, 39, 40]

/-- Whether an engine kind has a source: one that it has not never counts. The matrix sources are the conductors', and
stewards have neither barriers nor a pool. -/
def srcOn (k : EngineKind) (n : Nat) : Bool :=
  match k with
  | .lane => n < 48
  | .cond => !laneSources.contains n
  | .stew => n < 48 && !laneSources.contains n && !([9, 22, 23] : List Nat).contains n

/-- A counter brought up to date: while it counts, a free number of events has come about since it was last read. -/
def State.tally (s : State) (e i : Nat) (k : EngineKind) : State :=
  let c := tget {} (s.eng e).cnt i
  if c.en && srcOn k c.src then
    let f := s.freeWord
    f.2.modEng e fun m => { m with cnt := tput {} i { c with val := c.val + f.1 } m.cnt }
  else s

/-- cnt.cfg (R395): the lowest-numbered true-guard lane acts. -/
def execCntCfg (h : Hdr) (a b : Src) (s : State) : Out :=
  let bad := fun t =>
    let w := s.src t b
    bits (s.src t a) 3 61 != 0 || bits w 10 54 != 0 || bits w 6 2 != 0 || !srcOk (bits w 0 6)
  let act := s.active h.guard
  .next (match firstTrap act [sysChk 4 bad] with
    | some ti => s.trapGroup ti
    | none =>
      let s1 := s.endGroup h fun _ th => th
      match act with
      | [] => s1
      | t :: _ =>
        let w := s.src t b
        let i := bits (s.src t a) 0 3
        let s2 := s1.tally s.curEng i (kindOf t)
        s2.modEng s.curEng fun m =>
          let v := if bit w 9 then 0 else (tget {} m.cnt i).val
          { m with cnt := tput {} i { en := bit w 8, src := bits w 0 6, val := v } m.cnt })

/-- cnt.rd (R395). -/
def execCntRd (h : Hdr) (d : Dst) (a : Src) (s : State) : Out :=
  .next (s.sysOp h [sysChk 4 fun t => bits (s.src t a) 3 61 != 0] fun t s =>
    let i := bits (s.src t a) 0 3
    let s := s.tally (engOf t) i (kindOf t)
    s.give h d t (tget {} (s.eng (engOf t)).cnt i).val)

/-! ### cancel and phase.close (R338-R340) -/

/-- The ASID that an operand concerns: a[57:48] at machine level, else the running context's. -/
def State.opAsid (s : State) (t : Nat) (w : Word) : Nat := if (s.thread t).lvl = 2 then bits w 48 10 else s.asidOf t

/-- Bits [63:32] of an operand that must be zero. -/
def State.opHigh (s : State) (t : Nat) (w : Word) : Bool :=
  if (s.thread t).lvl = 2 then bits w 58 6 != 0 || bits w 32 16 != 0 else bits w 32 32 != 0

/-- The job of a thread's launch. -/
def State.ownJob (s : State) (t : Nat) : Nat :=
  let b := s.block (s.thread t).block
  (s.launch (gkey b.asid b.lid)).job

/-- What cancel finds of a unit: its job, and 0 open, 1 complete, 2 cancelled; none where there is no such unit. -/
abbrev UnitSt := Option (Nat × Nat)

/-- A launch (R339). -/
def State.launchUnit (s : State) (asid lid : Nat) : UnitSt :=
  (tget? s.launches (gkey asid lid)).map fun l =>
    (l.job, match l.st with | 2 => 1 | 3 => 2 | 4 => 2 | _ => if s.launchOver asid l then 1 else 0)

/-- A block. An edge-fed launch's blocks are those that items have spawned, whatever their numbers, since TAIL runs on from
phase to phase (R236, R338): pending, placed or saved ones, and those that have ended. -/
def State.blockUnit (s : State) (asid lid blk : Nat) : UnitSt :=
  match tget? s.launches (gkey asid lid) with
  | none => none
  | some l =>
    let live := l.pending.any (fun p => p.1 == blk) || (s.placedOf asid lid).any (fun k => (s.block k).blk == blk)
      || (s.savedBlocks asid).any fun b => b.lid == lid && b.blk == blk
    if live ∧ l.st < 3 then some (l.job, 0)
    else if l.cancelledBlocks.contains blk then some (l.job, 2)
    else if l.doneBlocks.contains blk then some (l.job, 1)
    else if blk < l.nblock then some (l.job, if 3 ≤ l.st then 2 else 0)
    else none

/-- A graph. -/
def State.graphUnit (s : State) (asid gid : Nat) : UnitSt :=
  (tget? s.graphs (gkey asid gid)).map fun g =>
    (g.job, match g.st with | 2 => 1 | 3 => 2 | _ => if s.graphOver asid g then 1 else 0)

/-- A job that is VALID in the context. -/
def State.jobIn (s : State) (asid j : Nat) : Option Job :=
  match tget? s.jobs j with
  | some e => if e.state != 0 && e.asid == asid then some e else none
  | none => none

def State.jobUnit (s : State) (asid j : Nat) : UnitSt :=
  (s.jobIn asid j).map fun e => (j, match e.state with | 4 => 1 | 5 => 2 | _ => 0)

/-- A job's current phase; a job that takes part in none has nothing to cancel. -/
def State.phaseUnit (s : State) (asid j : Nat) : UnitSt :=
  (s.jobIn asid j).map fun e => (j, if e.phaseCancelled then 2 else if e.took then 0 else 1)

/-- Cause 0x01 of R338. -/
def State.cancelDenied (s : State) (t : Nat) (u : UnitSt) (own : Bool) : Bool :=
  (s.thread t).lvl == 0 &&
    ((match u with | some x => x.1 != s.ownJob t | none => false) || !(own || (s.job (s.ownJob t)).kcancel))

/-- Whether a replay demands that another thread's cancel is the next to return 0 (R397). -/
def State.cancelDenied0 (s : State) (t : Nat) : Bool :=
  let b := s.block (s.thread t).block
  let me := (b.lid, b.blk, if kindOf t = .lane then 32 * b.warpNo (slotOf t) + laneOf t else 0)
  match s.demanded fun r => match r with | .cancelZero lid blk tid => some (lid, blk, tid) | _ => none with
  | some x => x != me
  | none => false

/-- cancel (R339): the unit that the lowest-numbered true-guard lane names; d is written in every lane, and only then do
the cancelled blocks end. While the boundary runs, it waits (R341). -/
def State.cancelOp (s : State) (h : Hdr) (d : Dst) (a : Src) (bad own : Nat → Bool) (unit : Nat → UnitSt)
    (eff : Nat → State → State) : State :=
  let act := s.active h.guard
  let checks : List (Nat → Option TrapInfo) :=
    [sysChk 1 fun t => s.cancelDenied t (unit t) (own t), sysChk 4 fun t => s.opHigh t (s.src t a) || bad t,
     sysChk 7 fun t => (unit t).isNone]
  match firstTrap act checks with
  | some ti => s.trapGroup ti
  | none =>
    let s1 := s.mapGroup fun _ th => if th.guardTrue h.guard then th else th.adv s.cur.next
    match act with
    | [] => s1
    | t :: _ =>
      let r := ((unit t).map (·.2)).getD 0
      if r = 0 && (s.cancelDenied0 t || s.ctxBusy (s.opAsid t (s.src t a))) then s1.waitLanes act .edge
      else
        let s2 := act.foldl (fun s u => s.give h d u (word r)) s1
        if r = 0 then
          let b := s.block (s.thread t).block
          let rc : Rec := .cancelZero b.lid b.blk (if kindOf t = .lane then 32 * b.warpNo (slotOf t) + laneOf t else 0)
          eff t ((s2.record (s.ownJob t) rc).passRec rc)
        else s2

/-- cancel.block (R339): a thread may cancel its own block without KCANCEL. -/
def execCancelBlock (h : Hdr) (d : Dst) (a b : Src) (s : State) : Out :=
  let lid := fun t => bits (s.src t a) 0 32
  let blk := fun t => bits (s.src t b) 0 32
  let asid := fun t => s.opAsid t (s.src t a)
  let own := fun t => let x := s.block (s.thread t).block; lid t == x.lid && blk t == x.blk
  .next (s.cancelOp h d a (fun t => bits (s.src t b) 32 32 != 0) own (fun t => s.blockUnit (asid t) (lid t) (blk t)) fun t s' =>
    s'.cancelBlock (asid t) (lid t) (blk t))

/-- cancel.launch (R339). -/
def execCancelLaunch (h : Hdr) (d : Dst) (a : Src) (s : State) : Out :=
  let lid := fun t => bits (s.src t a) 0 32
  let asid := fun t => s.opAsid t (s.src t a)
  .next (s.cancelOp h d a (fun _ => false) (fun _ => false) (fun t => s.launchUnit (asid t) (lid t)) fun t s' =>
    s'.cancelLaunch (asid t) (lid t))

/-- cancel.graph (R339). -/
def execCancelGraph (h : Hdr) (d : Dst) (a : Src) (s : State) : Out :=
  let gid := fun t => bits (s.src t a) 0 32
  let asid := fun t => s.opAsid t (s.src t a)
  .next (s.cancelOp h d a (fun _ => false) (fun _ => false) (fun t => s.graphUnit (asid t) (gid t)) fun t s' =>
    s'.cancelGraph (asid t) (gid t))

/-- Bits [31:8] of a job operand must be zero. -/
def State.jobHigh (s : State) (a : Src) (t : Nat) : Bool := bits (s.src t a) 8 24 != 0

/-- cancel.phase (R339). -/
def execCancelPhase (h : Hdr) (d : Dst) (a : Src) (s : State) : Out :=
  let j := fun t => bits (s.src t a) 0 8
  .next (s.cancelOp h d a (s.jobHigh a) (fun _ => false) (fun t => s.phaseUnit (s.opAsid t (s.src t a)) (j t)) fun t s' =>
    s'.cancelPhase (j t))

/-- cancel.job (R339). -/
def execCancelJob (h : Hdr) (d : Dst) (a : Src) (s : State) : Out :=
  let j := fun t => bits (s.src t a) 0 8
  .next (s.cancelOp h d a (s.jobHigh a) (fun _ => false) (fun t => s.jobUnit (s.opAsid t (s.src t a)) (j t)) fun t s' =>
    s'.cancelJob (j t))

/-- phase.close (R338, R340): the lowest-numbered true-guard lane's job. -/
def execPhaseClose (h : Hdr) (a : Src) (s : State) : Out :=
  let act := s.active h.guard
  let j := fun t => bits (s.src t a) 0 8
  let e := fun t => s.jobIn (s.opAsid t (s.src t a)) (j t)
  let denied := fun t => (s.thread t).lvl == 0 && (((e t).isSome && j t != s.ownJob t) || !(s.job (s.ownJob t)).kclose)
  let state2 := fun t => match e t with | some x => x.state != 2 | none => false
  .next (match firstTrap act
      [sysChk 1 denied, sysChk 4 fun t => s.opHigh t (s.src t a) || s.jobHigh a t, sysChk 7 fun t => (e t).isNone, sysChk 8 state2] with
    | some ti => s.trapGroup ti
    | none =>
      if act.any fun t => s.ctxBusy (s.opAsid t (s.src t a)) then
        (s.mapGroup fun _ th => if th.guardTrue h.guard then th else th.adv s.cur.next).waitLanes act .edge
      else
        let s1 := s.endGroup h fun _ th => th
        match act with
        | [] => s1
        | t :: _ => s1.modJob (j t) fun x => { x with closed := true })

end Sys2Proof.Machine
end

