-- ==== Sys2Proof/Machine/Image.lean ====
section
/-! DEFINITION. Saving and restoring a context (R378-R385): CTX.HALT.SAVE and CTX.HALT.LOAD. An image is written at home as
R381 lays it out: header, directory, sections, whose words are those of Layout.lean. The structures are also kept as plain
data beside the bytes: a restore takes them where the bytes at home are those of an image that was saved, and reads the
sections where they are not (log 22). -/
namespace Sys2Proof.Machine

open Sys2Proof

/-- The state in a next outcome. -/
def nextOr (s : State) : Out → State
  | .next s' => s'
  | _ => s

/-! ### Draining (R379 steps 2 and 3) -/

/-- Every copy of a core retires. -/
def State.drainCopies (s : State) (core : Nat) : State :=
  (List.range (s.coreAt core).copies.length).foldl (fun s _ => nextOr s (execCopyRetirement core 0 s)) s

/-- Every completion that is due for a thread comes about. -/
def Thread.complete (th : Thread) : Thread :=
  { th with out := [], flags := th.out.foldl (fun m c => tput 0 c (tget 0 m c - 1) m) th.flags }

/-- A wait that a save undoes: the instruction issues again after restore. -/
def Thread.unwait (th : Thread) : Thread :=
  match th.wait with
  | .scoreboard _ | .inval _ | .ldl _ | .cbind | .edge | .instar | .poison => { th with wait := .none }
  | _ => th

/-- A thread stops at an instruction boundary: inside a latch chain its saved PC is the chain's start (R30). -/
def State.stopThread (s : State) (t : Nat) (th : Thread) : Thread :=
  { th.complete.unwait with pc := s.switchPc (Config.choice (s.ctr + t)) t, chain := {}, lat := {} }

/-- A cluster's engines stop at a step and a block boundary (R255, R269): a running macro-op's row starts over, and the
DE decodes again from the block that holds the first byte it has still to deliver. The operand cache is not saved. -/
def Cluster.quiet (c : Cluster) : Cluster :=
  { c with
    instar := if c.instar.st = 1 then c.instar.rewind else c.instar
    de := c.de.restart
    oc := [] }

/-- The remote lines that a partition's dies hold are held whole: a byte of one that no load has seen yet is fixed now (R87). -/
def State.fillLines (s : State) (p : Nat) : State :=
  ((s.part p).stacks.map (· / 2)).eraseDups.foldl (fun s die => (s.remoteLines p die).foldl (fun s l => (List.range 64).foldl (fun s i =>
    let k := remoteBase p die + 64 * l + i
    if (tget? s.remote k).isSome then s else { s with ctr := s.ctr + 1, remote := tset k (Config.freeByte s.ctr) s.remote }) s) s) s

/-- Every engine of a partition stops, and what has issued is drained. -/
def State.quiesce (s : State) (p : Nat) : State :=
  let s := (s.cores.foldl (fun s e => if s.inPart p e.1 && !e.2.copies.isEmpty then s.drainCopies e.1 else s) s).fillLines p
  { s with
    ctr := s.ctr + threadLimit
    threads := s.threads.map fun e => if s.inPart p (engOf e.1) then (e.1, s.stopThread e.1 e.2) else e
    clusters := s.clusters.map fun e =>
      if s.inPart p (768 + e.1) then (e.1, e.2.quiet) else e }

/-! ### The image (R381) -/

/-- A section of an image: SPACE, STRUCT, UNIT, and its words. -/
structure ImageSection where
  space : Nat
  struct : Nat
  unit : Nat
  words : List Word
  deriving DecidableEq, Repr

/-- The sections of a unit: the structures of a SPACE that hold something. -/
def unitSections (space u : Nat) (sts : List Nat) (layout : Nat → Option Layout) : List ImageSection :=
  sts.filterMap fun st => (layout st).bind fun l => if l.size = 0 then none else some { space, struct := st, unit := u, words := l.words }

/-- Every section of a partition's context that holds something. -/
def State.sections (s : State) (p : Nat) : List ImageSection :=
  let cs := (s.coresOf p).filter fun c => (tget? s.cores c).isSome || (tget? s.emem c).isSome || s.threads.any fun e => engOf e.1 == c
  let cls := (List.range Config.nClusters).filter fun k => s.inPart p (768 + k) && ((tget? s.clusters k).isSome || (tget? s.emem (768 + k)).isSome)
  let dies := ((s.part p).stacks.map (· / 2)).eraseDups
  cs.flatMap (fun c => unitSections 0 c ((List.range 11).map (· + 1)) fun st => s.layout 0 st c)
    ++ cls.flatMap (fun c => unitSections 1 c [1, 2, 3] (fun st => s.layout 1 st c) ++ unitSections 2 c [1, 2, 3] fun st => s.layout 2 st c)
    ++ dies.flatMap fun d => unitSections 3 d [8, 9, 11] fun st => s.dieLayout st p d

/-- Bytes filled up to a multiple of 64. -/
def pad64 (bs : List Byte) : List Byte := bs ++ List.replicate ((64 - bs.length % 64) % 64) 0

def wordBytes (ws : List Word) : List Byte := ws.flatMap fun w => leBytes 8 w.toNat

/-- The bytes of an image: header, directory, sections (R381). -/
def imageBytes (gran : Byte) (halted : Bool) (asid : Nat) (phase : Word) (rsn : BitVec 32) (secs : List ImageSection) : List Byte :=
  let bodies := secs.map fun x => pad64 (wordBytes x.words)
  let start := 64 + 16 * secs.length + (64 - 16 * secs.length % 64) % 64
  let offs := (bodies.foldl (fun (r : List Nat × Nat) b => (r.1 ++ [r.2], r.2 + b.length)) ([], start)).1
  let dir := (secs.zip offs).flatMap fun e => [word (e.1.unit * 2 ^ 16 + e.1.struct * 2 ^ 8 + e.1.space), word e.2]
  let total := start + (bodies.map List.length).sum
  wordBytes [word (gran.toNat * 2 ^ 40 + halted.toNat * 2 ^ 32 + asid % 1024 * 2 ^ 16 + 0xA96C), word total, phase,
    rsn.setWidth 64, word secs.length, 0, 0, 0] ++ pad64 (wordBytes dir) ++ bodies.flatten

/-- The structures of a partition's running context. -/
def State.capture (s : State) (p addr : Nat) : Image :=
  let q := s.part p
  let inP := s.inPart p
  { addr, asid := q.rasid, gran := q.gran, halted := q.halt.isSome, phase := q.phase, rsn := (s.ctx q.rasid).rsn
    threads := s.threads.filter fun e => inP (engOf e.1)
    blocks := s.blocks.filter fun e => inP e.2.core
    cores := s.cores.filter fun e => inP e.1
    emem := (s.emem.filter fun e => inP e.1).map fun e => (e.1, { e.2 with cnt := [] })
    fibres := s.fibres.filter fun e => inP (e.1 / 256)
    clusters := s.clusters.filter fun e => inP (768 + e.1)
    snap := q.snap
    remote := s.remote.filter fun e => snapPart e.1 == p
    bytes := []
    poisoned := false
    live := true }

/-- Joining a table's entries into another: those of the second win. -/
def tmerge {α : Type} (a b : Tab α) : Tab α := b.foldl (fun m e => tset e.1 e.2 m) a

/-- An image is kept: the context now stands in it, and in no older one. Older images stay, since a copy of one may stand
elsewhere at home. -/
def State.keepImage (s : State) (i : Image) : State :=
  let s := s.unkeep i.asid
  { s with images := i :: (s.images.filter fun j => !j.bytes.isEmpty || j.addr != i.addr) }

/-- Every event counter of a partition is zero and counts nothing (R395). -/
def State.zeroCounters (s : State) (p : Nat) : State :=
  { s with emem := s.emem.map fun e => if s.inPart p e.1 then (e.1, { e.2 with cnt := [] }) else e }

/-- A context has been saved: what its jobs closed in this phase was saved with it (R341). -/
def State.noteSaved (s : State) (asid : Nat) : State :=
  { s with jobs := s.jobs.map fun e =>
      if e.2.asid == asid && e.2.took && e.2.closed && e.2.closeSaved == 0 then (e.1, { e.2 with closeSaved := 1 }) else e }

/-- A context has been restored. -/
def State.noteRestored (s : State) (asid : Nat) : State :=
  { s with jobs := s.jobs.map fun e => if e.2.asid == asid && e.2.closeSaved == 1 then (e.1, { e.2 with closeSaved := 2 }) else e }

/-- Whether copies of a partition are still in flight: a poisoned line holds them. -/
def State.undrained (s : State) (p : Nat) : Bool := s.cores.any fun e => s.inPart p e.1 && !e.2.copies.isEmpty

/-- A save or a load on partition p by thread t goes on: at its first issue the partition stops, and at the next, where the
halt line has not risen meanwhile, act ends it, or it waits on. The status is none while it waits, and 4 where the line
has risen (R378, R385). -/
def State.transfer (s : State) (p t : Nat) (act : State → Option Nat × State) : Option Nat × State :=
  let set := fun (s : State) v => s.modPart p fun q => { q with saving := v }
  match (s.part p).saving with
  | none => (none, set s (some (t, (s.part p).halt.isSome)))
  | some (u, before) =>
    if u ≠ t then (none, s)
    else if (s.part p).halt.isSome && !before then (some 4, set s none)
    else
      let r := act s
      (r.1, if r.1.isSome then set r.2 none else r.2)

/-- ctx.halt.save on partition p by thread t (R378, R379): its status, and the state. The engines of a halted partition keep
what they hold until ctx.halt.clear (R376). A boundary of the partition's domain that is under way, as none is of a halted
one, comes to its end first. -/
def State.save (s : State) (p t : Nat) (va : Word) : Option Nat × State :=
  let q := s.part p
  if !q.run then (some 1, s)
  else s.transfer p t fun s =>
    if s.partBusy p && (s.part p).halt.isNone then (none, s) else
    let s := s.quiesce p
    if s.undrained p then (none, s)
    else
      let img := s.capture p va.toNat
      let bs := imageBytes img.gran img.halted img.asid img.phase img.rsn (s.sections p)
      if !spanCanonical va bs.length then (some 3, s)
      else match s.xlateSpan 0 2 .write va bs.length with
        | (.error x, s) => (if x.waits then none else some 3, s)
        | (.ok ds, s) =>
          if s.heldBy ds then (none, s)
          else
            let s := (s.homeWrite img.asid (ds.zip bs)).keepImage { img with bytes := bs }
            let s := ((if img.halted then s else s.clearEngines p).zeroCounters p).noteSaved img.asid
            (some 0, s.modPart p fun q => { q with run := false, rasid := 0, lastAsid := q.rasid })

/-! ### Restoring (R380) -/

/-- Fault records for the parked fragments of restored cores (R30, R380). -/
def parkedRecs (cores : Tab Core) : List FaultRec :=
  cores.flatMap fun c => (c.2.cocoon.filter fun e => e.2.st == 1).map fun e =>
    ({ kind := 1, core := c.1, entry := e.1, rsn := e.2.rsn, w0 := 0, w1 := 0, w2 := 0, w3 := 0, w4 := 0 } : FaultRec)

/-- Inserting a record by resolution sequence number. -/
def insertRec (r : FaultRec) : List FaultRec → List FaultRec
  | [] => [r]
  | x :: l => if r.rsn.toNat < x.rsn.toNat then r :: x :: l else x :: insertRec r l

/-- Whether a context may be restored from an image on a partition: it is not marked halted, not spoilt by an error, of a
valid context, and of the same granules (R380, R388). -/
def State.restorable (s : State) (p : Nat) (i : Image) : Bool :=
  !i.halted && !i.poisoned && (s.ctx i.asid).valid && i.gran == (s.part p).gran

/-- Snapshot bytes of other devices under the number of the partition that takes them. -/
def moveSnap (p : Nat) (m : Tab Byte) : Tab Byte :=
  m.map fun e => ((e.1 / 2 ^ 50 / 9 * 9 + p) * 2 ^ 50 + e.1 % 2 ^ 50, e.2)

/-- The structures of an image go back to their places; the context stands in no image any more. A boundary that its
domain ran meanwhile has moved %phase on. -/
def State.restore (s : State) (p : Nat) (i : Image) : State :=
  let recs := parkedRecs i.cores
  let s := i.blocks.foldl (fun s e => s.takeGran e.2.core e.2.granules) s
  let s := { s with
    threads := tmerge s.threads i.threads
    blocks := tmerge s.blocks i.blocks
    cores := tmerge s.cores i.cores
    emem := tmerge s.emem i.emem
    fibres := tmerge s.fibres i.fibres
    clusters := tmerge s.clusters i.clusters
    remote := tmerge s.remote (moveSnap p i.remote) }
  let s := s.modCtx i.asid fun c => { c with
    rsn := i.rsn
    faults := recs.foldl (fun l r => insertRec r l) (c.faults.filter fun f => f.kind != 1) }
  let s := (s.unkeep i.asid).noteRestored i.asid
  s.modPart p fun q => { q with run := true, rasid := i.asid, phase := if q.phase.toNat < i.phase.toNat then i.phase else q.phase, snap := i.snap, lastAsid := i.asid }

/-- What stands at an address, read at home: an image as it was saved; one whose sections say what it holds; or none. faulted:
the area cannot be read; while a poisoned line is met the restore waits. -/
inductive Found where
  | image (i : Image)
  | edited (i : Image) (secs : List ImageSection)
  | nothing
  | faulted
  | wait
  deriving Repr

/-! ### Reading an image's sections -/

/-- The words of a section, none where it is not there. -/
def sectionWords (secs : List ImageSection) (space st u : Nat) : List Word :=
  ((secs.find? fun x => x.space == space && x.struct == st && x.unit == u).map (·.words)).getD []

/-- Record e of a section, and its records from e on. -/
def recAt (ws : List Word) (e : Nat) : List Word := (ws.drop (8 * e)).take 8
def recsFrom (ws : List Word) (e : Nat) : List (List Word) := chunks 8 ((ws.length - 8 * e) / 8) (ws.drop (8 * e))

/-- The bytes of words, as a memory from 0 on. -/
def memOf (ws : List Word) : Memory := ((wordBytes ws).zipIdx.filter fun e => e.1 != 0).map fun e => (e.2, e.1)

/-- A sparse table of the values that f gives below n. -/
def tabOf {α : Type} [DecidableEq α] (d : α) (n : Nat) (f : Nat → α) : Tab α := ((List.range n).map fun i => (i, f i)).filter fun e => e.2 != d

def standOf (code entry : Nat) : Run :=
  match code with | 0 => .live | 1 => .held | 2 => .suspended | 3 => .escalated | 4 => .stopped | 5 => .exited | _ => .parked entry

/-- A thread from its record; what the record does not hold is the base's. -/
def Thread.ofWords (base : Thread) (r : List Word) : Thread :=
  let p := wordAt r 6
  let count := fun i => if i < 10 then bits (wordAt r 7) (6 * i) 6 else bits p (38 + 6 * (i - 10)) 6
  { base with
    pc := wordAt r 0, frames := (r.drop 1).take (min 4 (bits p 50 3)), stk := wordAt r 5, preds := p.extractLsb' 16 7
    lvl := p.extractLsb' 23 2, run := standOf (bits p 25 3) (bits p 28 6)
    wait := match bits p 34 2 with | 1 => .member | 2 => .barrier | _ => .none
    vectored := bit p 36, rewalk := bit p 37, flags := tabOf 0 12 count, resumed := bit p 6, empty := bit p 5, absent := bit p 4
    out := [], lat := {}, chain := {}, arrMask := none, sync := [], lastArr := [], nBin := [], nFadd := 0, regs := [], traps := [] }

def frameOf (r : List Word) : TrapFrame := { w0 := wordAt r 0, tpc := wordAt r 1, rpc := wordAt r 2, addr := wordAt r 3 }

/-- A block from its records; its memory, barriers and session come from other sections. -/
def Block.ofWords (base : Block) (asid core : Nat) (r m kept : List Word) : Block :=
  let f := wordAt r 7
  { base with
    asid, core, pool := wordAt r 0, bsw := wordAt r 1, lid := (wordAt r 2).toNat, blk := (wordAt r 3).toNat
    slots := (List.range 32).filter (bit (wordAt m 0)), accg := (wordAt m 1).toNat, edge := if bit f 7 then some (wordAt m 2) else none
    regHeld := bit f 2, flush := bit f 3, leaving := bit f 4, flagLog := [], flagDone := 0, spad := [], acc := [], nbars := [], bin := none, binRun := none
    susp := if bit f 0 then some { release := bit f 1, handle := wordAt r 5, target := wordAt r 6, cont := wordAt m 3, order := (wordAt m 4).toNat
                                   met := if bit f 5 then some (wordAt m 5).toNat else none, dpa := if bit f 6 then some (wordAt m 6).toNat else none
                                   saved := if bit f 1 then kept else [] }
      else none }

/-- Stores from their records: records of one store stand together. -/
def storesOf (base : EngMem) (asid : Nat) (recs : List (List Word)) : List Store :=
  (recs.foldl (fun (l : List Store) r =>
    let f := wordAt r 3
    let data := ((leBytes 8 (wordAt r 2).toNat).zipIdx.filter fun e => bit f e.2).map fun e => ((wordAt r 1).toNat + e.2, e.1)
    let seq := (wordAt r 0).toNat
    let tid := (wordAt r 4).toNat
    let tick := (wordAt r 5).toNat
    let copy := if bit f 10 then some (wordAt r 6).toNat else none
    match l with
    | st :: rest =>
      if st.seq = seq ∧ st.tid = tid ∧ st.tick = tick ∧ st.copy = copy then { st with data := st.data ++ data } :: rest
      else { seq, tid, tick, copy, single := bit f 8, past := bit f 9, asid, data, home := false
             rel := ((base.stores.find? fun x => x.seq == seq && x.tid == tid).map (·.rel)).getD [] } :: l
    | [] => [{ seq, tid, tick, copy, single := bit f 8, past := bit f 9, asid, data, home := false
               rel := ((base.stores.find? fun x => x.seq == seq && x.tid == tid).map (·.rel)).getD [] }]) []).reverse

/-- What an engine keeps of global memory, from its store counter and records. -/
def EngMem.ofWords (base : EngMem) (asid : Nat) (seq : Word) (recs : List (List Word)) : EngMem :=
  { base with seq := seq.toNat, stores := (base.stores.filter (·.home)) ++ Machine.storesOf base asid recs, cnt := [] }

/-- A fibre register and WALK from their records. -/
def Fibre.ofWords (r w : List Word) (pairs : List Word) : Fibre :=
  let p := wordAt r 0
  let q := wordAt w 0
  { opened := bit p 0, bad := bit p 1, spad := bit p 2, kind := bits p 4 4, len := bits p 32 32, base := wordAt r 1
    origin := bits (wordAt r 2) 0 32, lim := bits (wordAt r 2) 32 32, pos := bits (wordAt r 3) 0 32, coord := bits (wordAt r 3) 32 32
    off := bits (wordAt r 4) 0 32, elen := bits (wordAt r 4) 32 32
    walk := if bit q 0 then some
        { pc := wordAt w 1, mask := q.extractLsb' 32 32, moves := bits (wordAt w 2) 0 32, stepA := bit q 1, stepB := bit q 2
          pairs := (List.range (min 32 (bits (wordAt w 2) 32 32))).map fun i =>
            (bits (wordAt pairs (2 * i)) 0 32, bits (wordAt pairs (2 * i)) 32 32, (wordAt pairs (2 * i + 1)).toNat)
          pos := bits (wordAt w 3) 0 32, coord := bits (wordAt w 3) 32 32, off := bits (wordAt w 4) 0 32, elen := bits (wordAt w 4) 32 32
          scan := if bit q 3 then some (wordAt w 5).toNat else none }
      else none }

/-- A cocoon entry from its five words (R373): a free one keeps the base's generation. -/
def Cocoon.ofWords (base : Cocoon) (r : List Word) : Cocoon :=
  let a := Machine.wordAt r 0
  let b := Machine.wordAt r 1
  if a = 0xFFFFFFFFFFFFFFFF then { gen := base.gen }
  else { gen := a.extractLsb' 0 16, lanes := a.extractLsb' 32 32, rsn := b.extractLsb' 32 32, st := bits b 30 2, slot := bits b 16 5, tcode := bits b 12 4
         level := bits b 10 2, acc := bits b 8 2, kind := bits b 0 8, va := Machine.wordAt r 2, pc := Machine.wordAt r 3
         diff := (Machine.wordAt r 4).extractLsb' 0 32 }

/-- The blocks of a core. A block that the base does not hold is a new one, as number uids + its key + 1. -/
def blocksOf (base : Image) (uids : Nat) (secs : List ImageSection) (asid c : Nat) : Tab Block :=
  let ws := sectionWords secs 0 8 c
  let bars := sectionWords secs 0 5 c
  let pool := sectionWords secs 0 4 c
  let bins := sectionWords secs 2 2 (c / 8)
  let bs : Tab Block := ((List.range 32).filter fun k => bit (wordAt (recAt ws k) 7) 63).map fun k =>
    (32 * c + k, ((tget? base.blocks (32 * c + k)).getD { uid := uids + (32 * c + k) + 1 }).ofWords asid c (recAt ws k) (recAt ws (32 + k))
      (recAt ws (64 + 2 * k) ++ recAt ws (65 + 2 * k)))
  let granules := fun bk r => (memSpots bs c).zipIdx.flatMap fun e =>
    if e.1.1 = bk ∧ e.1.2.1 = r then (List.range 2048).map fun i => wordAt pool (2048 * e.2 + i) else []
  bs.map fun e =>
    let old := (tget? base.blocks e.1).getD {}
    let br := recAt bins (e.1 % 256)
    (e.1, { e.2 with
      spad := memOf (granules e.1 1), acc := memOf (granules e.1 2)
      nbars := (((List.range 64).map (recAt bars)).filter fun r => bit (wordAt r 1) 63 && bits (wordAt r 1) 0 5 == e.1 % 32).foldl (fun m r =>
        let n := bits (wordAt r 1) 5 6
        tset n { tget {} old.nbars n with phase := (wordAt r 2).toNat, expected := bits (wordAt r 0) 11 11, arrived := bits (wordAt r 0) 0 11 } m) []
      bin := if bit (wordAt br 0) 0 then some (wordAt br 1) else none
      binRun := if bit (wordAt br 0) 1 then some { tid := (wordAt br 2).toNat, desc := wordAt br 3, region := (wordAt br 4).toNat } else none })

/-- The threads of a core, given its blocks. -/
def threadsOf (base : Image) (secs : List ImageSection) (bs : Tab Block) (c : Nat) : Tab Thread :=
  let ws := sectionWords secs 0 1 c
  let regs := sectionWords secs 0 2 c
  let spots := regSpots bs c
  let of := fun st => recsFrom (sectionWords secs 0 st c)
  (List.range 1024).filterMap fun i =>
    let r := recAt ws i
    if !bit (wordAt r 6) 63 then none
    else (bs.find? fun e => e.2.slots.contains (i / 32)).map fun e =>
      let b := e.2
      let w := b.warpNo (i / 32)
      let reg := fun n =>
        let q := regBase b.pool w + n
        match spots.findIdx? (· == (e.1, 0, q / 64)) with | some g => wordAt regs (2048 * g + 32 * (q % 64) + i % 32) | none => 0
      let arr := wordAt (recAt (sectionWords secs 0 9 c) i) 0
      let mine := fun (l : List (List Word)) => l.filter fun r => wordAt r 0 == word (i + 1)
      let bars := mine (of 5 64)
      (1024 * c + i, { ((tget? base.threads (1024 * c + i)).getD {}).ofWords r with
        block := e.1, inc := b.uid, regs := tabOf 0 (regBudget b.pool w) reg
        traps := (List.range (min 4 (bits (wordAt r 6) 0 3))).map fun k => frameOf (recAt (sectionWords secs 0 3 c) (4 * i + k))
        nFadd := (wordAt (recAt ws (1024 + i)) 0).toNat
        nBin := (mine (of 1 2048)).foldl (fun m r => tset (wordAt r 1).toNat ((wordAt r 3).toNat, (wordAt r 2).toNat) m) []
        arrMask := if bit arr 63 then some (arr.extractLsb' 0 32) else none
        lastArr := (bars.filter fun r => wordAt r 1 == 1).foldl (fun m r => tset (wordAt r 2).toNat (wordAt r 3).toNat m) []
        sync := (bars.filter fun r => wordAt r 1 == 2).foldl (fun m r => tset (wordAt r 2).toNat ((wordAt r 3).toNat, (wordAt r 4).toNat) m) [] })

def fibresOf (secs : List ImageSection) (c : Nat) : Tab Fibre :=
  let ws := sectionWords secs 0 6 c
  (tabOf {} 256 fun i => Fibre.ofWords (recAt ws (2 * i)) (recAt ws (2 * i + 1)) ((ws.drop (4096 + 64 * i)).take 64)).map fun e => (256 * c + e.1, e.2)

def Core.ofWords (base : Core) (ws : List Word) : Core :=
  { base with copies := [], cocoon := tabOf {} 64 fun i =>
      if ws = [] then { gen := (tget {} base.cocoon i).gen } else (tget {} base.cocoon i).ofWords (recAt ws i) }

/-- A cluster: conductor, Instar, DE, banks and generations. -/
def Cluster.ofWords (base : Cluster) (secs : List ImageSection) (asid u : Nat) : Cluster :=
  let cw := sectionWords secs 1 1 u
  let iw := sectionWords secs 1 2 u
  let dw := sectionWords secs 1 3 u
  let bw := sectionWords secs 2 1 u
  let gw := sectionWords secs 2 3 u
  let f := wordAt cw 10
  let w := wordAt iw 0
  let q := wordAt dw 2
  let v := wordAt dw 0
  { base with
    bound := if bit f 0 then some (wordAt cw 11).toNat else none
    bankAsid := asid
    banks := tabOf {} 1024 fun k => { bfp4 := bit (wordAt bw (k / 64)) (k % 64), data := memOf ((bw.drop (16 + 512 * k)).take 512) }
    gens := tabOf 0 65536 fun k => bits (wordAt gw (k / 4)) (16 * (k % 4)) 16
    oc := []
    instar := { st := bits w 62 2, op := bits w 59 3, total := bits w 28 28, step := bits w 0 28, word := wordAt iw 1, payload := wordAt iw 2
                va := wordAt iw 3, vb := wordAt iw 4, vd := wordAt cw 12, flag := if bit f 1 then some (bits f 4 4) else none
                row := ((wordBytes (cw.drop 64)).take (bits f 16 16)), own := bit f 2, held := bit f 3 }
    de := { st := bits v 62 2, cause := bits v 48 8, blk := bits v 32 16, landed := (wordAt dw 6).toNat, sbase := wordAt dw 1, nblk := bits q 0 16
            bstride := bits q 16 16, bfp4 := bit q 32, toReg := bit q 33, trap := bit q 34, held := bit q 35
            owner := if bit q 36 then some (wordAt dw 7).toNat else none
            redir := if bit q 37 then some ((wordAt dw 8).toNat, wordAt dw 9) else none
            rbase := bits (wordAt dw 3) 0 32, rsize := bits (wordAt dw 3) 32 32, tmo := (wordAt dw 4).toNat, pos := (wordAt dw 5).toNat
            next := (wordAt dw 10).toNat, skip := (wordAt dw 11).toNat, failAt := wordAt dw 12
            tabs := ((List.range 16).filter fun i => bit (wordAt dw 13) i).map fun i => (i, wordBytes ((dw.drop (16 + 2 * i)).take 2))
            moved := (recsFrom dw 6).map fun r => ((wordAt r 0).toNat, wordAt r 1) } }

/-- The lines of a section of 72-byte entries, as addresses and bytes. -/
def linesOf (ws : List Word) : List (Nat × List Byte) :=
  (chunks 9 (ws.length / 9) ws).map fun e => ((wordAt e 0).toNat, wordBytes (e.drop 1))

/-- The image that header words and sections say, over a base: what they do not hold is the base's. -/
def imageOf (base : Image) (uids addr : Nat) (h : List Word) (secs : List ImageSection) (bs : List Byte) : Image :=
  let w := wordAt h 0
  let asid := bits w 16 10
  let units := fun sp => ((secs.filter fun x => x.space == sp).map (·.unit)).eraseDups
  let cores := rising (units 0)
  let cls := rising (units 1 ++ units 2)
  let blocks := cores.flatMap (blocksOf base uids secs asid)
  let conds := (cls.filter fun u => bit (wordAt (recAt (sectionWords secs 1 1 u) 0) 6) 63).map fun u =>
    let ws := sectionWords secs 1 1 u
    let bk := (wordAt ws 11).toNat
    (condBase + u, { ((tget? base.threads (condBase + u)).getD {}).ofWords (recAt ws 0) with
      block := if bit (wordAt ws 10) 0 then bk else 0, nFadd := (wordAt ws 8).toNat
      regs := tabOf 0 255 fun i => wordAt ws (1024 + i)
      traps := (List.range (min 4 (bits (wordAt ws 6) 0 3))).map fun k => frameOf (recAt ws (2 + k)) })
  let put := fun (f : Nat → Nat → Nat) die (m : Tab Byte) => (linesOf (sectionWords secs 3 9 die)).foldl (fun m e =>
    e.2.zipIdx.foldl (fun m b => tset (f die (e.1 + b.2)) b.1 m) m) m
  { base with
    addr, asid, gran := w.extractLsb' 40 8, halted := bit w 32, phase := wordAt h 2, rsn := (wordAt h 3).extractLsb' 0 32, bytes := bs, live := false
    blocks
    threads := cores.flatMap (fun c => threadsOf base secs (blocks.filter fun e => e.2.core == c) c) ++ conds
    fibres := cores.flatMap (fibresOf secs)
    cores := cores.map fun c => (c, ((tget? base.cores c).getD {}).ofWords (sectionWords secs 0 7 c))
    emem := (cores.map fun c =>
        let ws := sectionWords secs 0 10 c
        (c, ((tget? base.emem c).getD {}).ofWords asid (wordAt ws 0) (recsFrom ws 1)))
      ++ cls.map fun u =>
        let ws := sectionWords secs 1 1 u
        (768 + u, ((tget? base.emem (768 + u)).getD {}).ofWords asid (wordAt ws 9) (recsFrom ws 256))
    clusters := cls.map fun u => (u, ((tget? base.clusters u).getD {}).ofWords secs asid u)
    snap := (List.range 4).foldl (fun m die => (linesOf (sectionWords secs 3 8 die)).foldl (fun m e => m.writeN (e.1 % devBytes) e.2) m) base.snap
    remote := (List.range 4).foldl (fun m die => put (fun die a => remoteBase 0 die + a) die m) [] }

/-- Whether a section may stand in an image of granules gran: R381 names its structure, and its unit belongs to them. -/
def ImageSection.fits (x : ImageSection) (gran : Byte) : Bool :=
  let has := fun g => gran.getLsbD g
  match x.space with
  | 0 => 1 ≤ x.struct && x.struct ≤ 11 && x.unit < 768 && has (granOf x.unit)
  | 1 | 2 => 1 ≤ x.struct && x.struct ≤ 3 && x.unit < 96 && has (granOf (768 + x.unit))
  | 3 => ([8, 9, 11] : List Nat).contains x.struct && x.unit < 4 && (has (2 * x.unit) || has (2 * x.unit + 1))
  | _ => false

/-- The header words and the sections of an image, where it is whole: MAGIC, LENGTH, zeros in what is reserved, and a directory
of sections that follow one another in it, each 64-aligned, each in place (R380, R381). What the sections hold is taken as
it stands (log 22). -/
def wholeImage (bs : List Byte) : Option (List Word × List ImageSection) :=
  let ws := wordsOf (bs.length / 8) bs
  let w := wordAt ws 0
  let n := (wordAt ws 4).toNat
  let start := (64 + 16 * n + 63) / 64 * 64
  let dir := (List.range n).map fun i => (wordAt ws (8 + 2 * i), (wordAt ws (9 + 2 * i)).toNat)
  let ends := (dir.drop 1).map (·.2) ++ [bs.length]
  let secs := (dir.zip ends).map fun e =>
    ({ space := bits e.1.1 0 8, struct := bits e.1.1 8 8, unit := bits e.1.1 16 16, words := (ws.drop (e.1.2 / 8)).take ((e.2 - e.1.2) / 8) } : ImageSection)
  let names := secs.map fun x => x.unit * 2 ^ 16 + x.struct * 2 ^ 8 + x.space
  if bits w 0 16 = 0xA96C ∧ bits w 26 6 = 0 ∧ bits w 33 7 = 0 ∧ bits w 48 16 = 0 ∧ (wordAt ws 1).toNat = bs.length ∧ bs.length % 64 = 0
      ∧ bits (wordAt ws 3) 32 32 = 0 ∧ wordAt ws 5 = 0 ∧ wordAt ws 6 = 0 ∧ wordAt ws 7 = 0 ∧ start ≤ bs.length
      ∧ (dir.zip ends).all (fun e => bits e.1.1 32 32 == 0 && e.1.2 % 64 == 0 && start ≤ e.1.2 && e.1.2 ≤ e.2)
      ∧ secs.all (fun x => x.fits (w.extractLsb' 40 8))
      ∧ names.eraseDups.length = n then some (ws.take 8, secs) else none

/-- An image that holds nothing; its snapshot is home as it stands. -/
def Image.blank (asid : Nat) (home : Memory) : Image where
  addr := 0
  asid := asid
  gran := 0
  halted := false
  phase := 0
  rsn := 1
  threads := []
  blocks := []
  cores := []
  emem := []
  fibres := []
  clusters := []
  snap := home
  remote := []
  bytes := []
  poisoned := false
  live := false

/-- What an image's sections hold that is not the engines': the context's submissions, forks and requests (R313), and the
dictionary banks of its launches. -/
def State.putKept (s : State) (asid : Nat) (secs : List ImageSection) : State :=
  let other := fun n => (s.seqE n).asid != asid
  let recs := fun k => ((secs.filter fun x => x.space == 3 && x.struct == 11).flatMap fun x => recsFrom x.words 0).filter fun r => wordAt r 0 == word k
  let n := fun (r : List Word) i => (wordAt r i).toNat
  let s := { s with
    uids := s.uids + 32 * Config.nCores + 1
    subs := (recs 1).foldl (fun m r => tset (n r 1) ((wordAt r 2).extractLsb' 0 16, (wordAt r 3).extractLsb' 0 32) m) (s.subs.filter fun e => other (e.1 / 64))
    forks := (s.forks.filter fun f => other f.parent) ++ (recs 2).map fun r =>
      ({ parent := n r 1, child := n r 2, f := n r 3, fmap := wordAt r 4, pen := wordAt r 5
         base := ((s.forks.find? fun f => f.child == n r 2).map (·.base)).getD (s.seqE (n r 1)) } : Fork)
    cfgs := (recs 3).foldl (fun m r => tset (n r 1)
      { mode := bit (wordAt r 2) 0, thf := (wordAt r 3).extractLsb' 0 16, tht := (wordAt r 4).extractLsb' 0 16, thr := (wordAt r 5).extractLsb' 0 16 } m)
      (s.cfgs.filter fun e => other e.1)
    sts := (recs 4).foldl (fun m r => tset (n r 1) (n r 2) m) (s.sts.filter fun e => other e.1)
    prios := (recs 5).foldl (fun m r => tset (n r 1) (n r 2) m) (s.prios.filter fun e => other e.1) }
  (secs.filter fun x => x.space == 0 && x.struct == 11).foldl (fun s x =>
    let bs := ((recsFrom (sectionWords secs 0 8 x.unit) 0).take 32).filter fun r => bit (wordAt r 7) 63 && n r 4 < 2
    bs.foldl (fun s r => s.modLaunch (gkey asid (n r 2)) fun l =>
      { l with dict := tabOf 0 (min l.dlen 1024) fun i => wordAt x.words (1024 * n r 4 + i) }) s) s

/-- Reading n bytes of an image. -/
def State.readImage (s : State) (va : Word) (n : Nat) : Except Bool (List Byte) × State :=
  if !spanCanonical va n then (.error false, s)
  else match s.xlateSpan 0 2 .read va n with
    | (.error x, s) => (.error x.waits, s)
    | (.ok l, s) => if s.poisoned l then (.error true, s) else let r := s.homeAll l; (.ok r.1, r.2)

/-- What stands at an address. The base of an image that is read from its sections is the latest image of its ASID. -/
def State.findImage (s : State) (va : Word) : Found × State :=
  match s.readImage va 64 with
  | (.error w, s) => (if w then .wait else .faulted, s)
  | (.ok hd, s) =>
    if bits (wordAt (wordsOf 8 hd) 0) 0 16 ≠ 0xA96C then (.nothing, s)
    else match s.readImage va (wordAt (wordsOf 8 hd) 1).toNat with
      | (.error w, s) => (if w then .wait else .faulted, s)
      | (.ok bs, s) =>
        let same := s.images.filter fun j => !j.bytes.isEmpty && j.bytes == bs
        match (same.find? fun j => j.addr == va.toNat).or same.head? with
        | some j => (.image j, s)
        | none => match wholeImage bs with
          | none => (.nothing, s)
          | some (h, secs) =>
            let asid := bits (wordAt h 0) 16 10
            let base := (s.images.find? fun j => j.asid == asid).getD (Image.blank asid s.home)
            (.edited (imageOf base s.uids va.toNat h secs bs) secs, s)

/-- An image without the blocks that a cancel has reached since it was written (R35). -/
def State.uncancelled (s : State) (i : Image) : Image :=
  i.dropBlocks fun b =>
    let l := s.launch (gkey b.asid b.lid)
    l.st == 3 || l.cancelledBlocks.contains b.blk

/-- ctx.halt.load on partition p by thread t (R378, R380): its status, and the state. -/
def State.load (s : State) (p t : Nat) (va : Word) : Option Nat × State :=
  if (s.part p).run then (some 1, s)
  else s.transfer p t fun s =>
    if s.partBusy p then (none, s) else
    match s.findImage va with
    | (.wait, s) => (none, s)
    | (.faulted, s) => (some 3, s)
    | (.nothing, s) => (some 2, s)
    | (.image i, s) => if s.restorable p i then (some 0, ((s.clearEngines p).zeroCounters p).restore p i) else (some 2, s)
    | (.edited i secs, s) =>
      if s.restorable p i then (some 0, (((s.clearEngines p).zeroCounters p).restore p (s.uncancelled i)).putKept i.asid secs) else (some 2, s)

/-- What a save or a load comes to for the thread that issued it. -/
def transferEnd (h : Hdr) (d : Dst) (t : Nat) (r : Option Nat × State) : State :=
  match r.1 with
  | some v => r.2.give h d t (word v)
  | none => r.2.waitLanes [t] (.scoreboard [])

/-- ctx.halt.save (R378). -/
def execCtxHaltSave (h : Hdr) (d : Dst) (a b : Src) (s : State) : Out :=
  .next (s.haltOp h a (s.below 2) (fun t => bits (s.src t b) 0 16 != 0) fun t s =>
    transferEnd h d t (s.save (s.haltPart t a) t (s.src t b)))

/-- ctx.halt.load (R378). -/
def execCtxHaltLoad (h : Hdr) (d : Dst) (a b : Src) (s : State) : Out :=
  .next (s.haltOp h a (s.below 2) (fun t => bits (s.src t b) 0 16 != 0) fun t s =>
    transferEnd h d t (s.load (s.haltPart t a) t (s.src t b)))

end Sys2Proof.Machine
end

