-- ==== Sys2Proof/Machine/Queues.lean ====
section
/-! DEFINITION. Bin sessions (R229-R232), collectives (R233-R235, R94, R403) and edges (R236, R237). -/
namespace Sys2Proof.Machine

open Sys2Proof

/-! ### Descriptors in global memory -/

/-- The words at home of the first span of each lane that translates (n words). -/
def State.readDescs (s : State) (n : Nat) (rs : List (Nat × LaneX)) : List (Nat × List Word) × State :=
  rs.foldl (fun r e => match e.2 with
    | .error _ => r
    | .ok l => let q := r.2.homeAll (l.headD []); (r.1 ++ [(e.1, wordsOf n q.1)], q.2)) ([], s)

/-- A lane's further translations, after those that already succeeded. -/
def State.xlateMore (s : State) (r : Nat × LaneX) (spans : List (Acc × Word × Nat)) : (Nat × LaneX) × State :=
  match r.2 with
  | .error e => ((r.1, .error e), s)
  | .ok l =>
    let q := s.xlateSpans r.1 spans
    ((r.1, (match q.1 with | .ok m => .ok (l ++ m) | .error e => .error e)), q.2)

/-- An instruction that names a descriptor of n words, aligned to its size but to 64 bytes at most, with address ea: causes 0x01 and 0x03,
the reading of the descriptors at home, the entry's own causes over every lane, then translation of the further spans
(R210). These are engine accesses: a failed translation is cause 0x04 whatever the policy (R348). While a poisoned line
holds the descriptors, what hold names, or a walk, the group waits (R388). k performs the lanes, whose first DPA list is the
descriptor's. -/
def State.descOp (s : State) (h : Hdr) (ea : Nat → Word) (n : Nat) (acc : Acc) (hold : List (Nat × List Word) → State → Bool)
    (more : List (Nat × List Word) → State → Option TrapInfo × State)
    (spans : List (Nat × List Word) → State → Nat → List (Acc × Word × Nat))
    (k : List (Nat × List Word) → List (Nat × List (List Nat)) → State → State) : State :=
  let act := s.active h.guard
  match firstTrap act [s.chkAddr .g ea fun _ => 8 * n, chkAlign ea (min (8 * n) 64)] with
  | some ti => s.trapGroup ti
  | none =>
    let r := s.xlateLanes act fun t => [(acc, ea t, 8 * n)]
    let waits := fun (l : List (Nat × LaneX)) => l.any fun e => match laneErr e.2 with | some x => x.waits | none => false
    let ds := r.2.readDescs n r.1
    if waits r.1 || r.2.poisoned (r.1.flatMap fun e => (laneOk e.2).flatten) || hold ds.1 ds.2 then r.2.waitLanes act .poison
    else
      let m := more ds.1 ds.2
      match m.1 with
      | some ti => m.2.trapGroup ti
      | none =>
        let q := r.1.foldl (fun (q : List (Nat × LaneX) × State) e =>
          let x := q.2.xlateMore e (spans ds.1 q.2 e.1)
          (q.1 ++ [x.1], x.2)) ([], m.2)
        match q.1.findSome? fun e => (laneErr e.2).filter fun x => !x.waits with
        | some x => q.2.trapGroup (memTrap 4 x.va)
        | none => if waits q.1 then q.2.waitLanes act .poison else k ds.1 (q.1.map fun e => (e.1, laneOk e.2))
            (q.2.mapGroup fun _ th => if th.guardTrue h.guard then th else th.adv s.cur.next)

/-- Nothing beside the descriptors to wait for. -/
def noHold (_ : List (Nat × List Word)) (_ : State) : Bool := false

/-- No further spans. -/
def noSpans (_ : List (Nat × List Word)) (_ : State) (_ : Nat) : List (Acc × Word × Nat) := []

/-- Whether every page of a span is mapped with a right. -/
def State.mapped (s : State) (asid lvl : Nat) (acc : Acc) (va : Word) (n : Nat) : Bool × State :=
  if n ≠ 0 ∧ ¬spanCanonical va n then (false, s)
  else (pageParts va n).foldl (fun r p => match r.2.xlate asid lvl acc p.1 with
    | (.ok _ _, s) => (r.1, s)
    | (.fail _ _, s) => (false, s)) (true, s)

/-! ### Bin sessions (R229-R232) -/

def binOp (w : List Word) : Nat := bits (wordAt w 1) 44 4
def binSize (w : List Word) : Nat := if bits (wordAt w 1) 42 2 = 0 then 4 else 8
def binLog (w : List Word) : Nat := bits (wordAt w 1) 37 5
def binNidx (w : List Word) : Nat := bits (wordAt w 1) 0 32
def binCap (w : List Word) : Nat := bits (wordAt w 3) 0 24
def binScr (w : List Word) : Nat := bits (wordAt w 4) 0 20
def binState (w : List Word) : Nat := bits (wordAt w 5) 0 2
def binRegions (w : List Word) : Nat := (binNidx w + 2 ^ binLog w - 1) / 2 ^ binLog w

/-- The limits of R229, but for the mapping of the bin storage. -/
def binOk (w : List Word) : Bool :=
  bits (wordAt w 0) 0 6 == 0 && bits (wordAt w 1) 48 16 == 0 && binOp w ≤ 2 && bits (wordAt w 1) 42 2 ≤ 1
    && (binOp w != 2 || binSize w == 4) && 4 ≤ binLog w && binLog w ≤ 16 && bits (wordAt w 1) 32 5 == 0 && 1 ≤ binNidx w
    && bits (wordAt w 2) 0 6 == 0 && bits (wordAt w 3) 24 40 == 0 && 1 ≤ binCap w && bits (wordAt w 4) 20 44 == 0
    && binScr w % 64 == 0 && bits (wordAt w 5) 2 62 == 0 && binState w != 3 && wordAt w 7 == 0 && binRegions w ≤ 65536

/-- Key of a session. -/
def binKey (asid : Nat) (va : Word) : Nat := asid * 2 ^ 64 + va.toNat

/-- Address of entry i of bin j. -/
def binEntry (w : List Word) (j i : Nat) : Word := wordAt w 2 + word ((j * binCap w + i) * 32)

/-- Sessions bound by blocks of a cluster other than bk. -/
def State.binSessions (s : State) (cl bk : Nat) : List Nat :=
  ((s.blocks.filter fun e => e.1 != bk && e.2.core / 8 == cl).filterMap fun e => e.2.bin.map (binKey e.2.asid)).eraseDups

/-- The entries of a session's bins: none while its COUNT is 0. -/
def State.binCounts (s : State) (asid : Nat) (va : Word) (w : List Word) : Tab Nat :=
  if wordAt w 6 = 0 then [] else (tget (0, []) s.bins (binKey asid va)).2

/-- A session found with COUNT 0 where an earlier one has left entries: it begins anew, under a number of its own, from which
each thread's n starts (R231). -/
def State.binFresh (s : State) (asid : Nat) (va : Word) (w : List Word) : State :=
  let k := binKey asid va
  if wordAt w 6 ≠ 0 ∨ (tget (0, []) s.bins k).2 = [] then s else { s with uids := s.uids + 1, bins := tset k (s.uids + 1, []) s.bins }

/-- bin.cfg (R230). A session with COUNT 0 holds no entry. -/
def execBinCfg (h : Hdr) (a : Src) (s : State) : Out :=
  let bk := s.curBlockKey
  let cl := s.curBlock.core / 8
  let asid := s.curBlock.asid
  let ea := fun t => s.src t a
  .next (s.descOp h ea 8 .read noHold
    (fun ds s =>
      let m := ds.foldl (fun (r : Bool × State) e =>
        let q := r.2.mapped asid (s.thread e.1).lvl.toNat .write (wordAt e.2 2) (binRegions e.2 * binCap e.2 * 32)
        (r.1 && binOk e.2 && q.1, q.2)) (true, s)
      let others := s.binSessions cl bk
      let busy := ds.any fun e => binState e.2 != 0 || (!others.contains (binKey asid (ea e.1)) && 16 ≤ others.length)
      (if !m.1 then some (memTrap 9 0) else if busy then some (memTrap 12 0) else none, m.2))
    noSpans
    fun ds good s => good.foldl (fun s e =>
      let va := ea e.1
      let w := ((ds.find? fun d => d.1 == e.1).map (·.2)).getD []
      let s := s.modBlock bk fun b => { b with bin := some va }
      (s.binFresh asid va w).finishLane h e.1 id) s)

/-- The bytes of an entry (R229). -/
def binBytes (i blk tid n v : Nat) : List Byte :=
  leBytes 4 i ++ leBytes 4 blk ++ leBytes 4 (tid + n % 2 ^ 22 * 2 ^ 10) ++ leBytes 4 0 ++ leBytes 8 v ++ leBytes 8 0

/-- One lane's append (R231) to the entry at the DPAs l: the entry, COUNT and the counters. -/
def State.binAppend (s : State) (h : Hdr) (asid : Nat) (va : Word) (w : List Word) (desc l : List Nat) (t i v : Nat) : State :=
  let key := binKey asid va
  let j := i / 2 ^ binLog w
  let ses := tget (0, []) s.bins key
  let c := tget 0 ses.2 j
  let th := s.thread t
  if s.heldBy l then s.waitLanes [t] .poison
  else
    let n := match tget? th.nBin va.toNat with | some x => if x.1 = ses.1 then x.2 else 0 | none => 0
    let s := s.homeWrite asid (l.zip (binBytes i (s.block th.block).blk (s.tidNo t) n v))
    let q := s.homeAll ((desc.drop 48).take 8)
    let s := q.2.homeWrite asid ((desc.drop 48).zip (leBytes 8 (leNat q.1 + 1)))
    let s := { s with bins := tset key (ses.1, tput 0 j (c + 1) ses.2) s.bins }
    s.finishLane h t fun th => { th with nBin := tset va.toNat (ses.1, n + 1) th.nBin }

/-- bin.put (R231): the checks over every lane, the slots' translations among them (R210), come before any lane appends.
Where mod[0] differs from the descriptor's ESIZE, R231 does not say which counts; the low bytes are taken as mod[0] says,
which is this model's choice (log 66). -/
def execBinPut (h : Hdr) (e8 : Bool) (a b : Src) (s : State) : Out :=
  let act := s.active h.guard
  let asid := s.curBlock.asid
  let idx := fun t => bits (s.src t a) 0 32
  .next (match s.curBlock.bin with
    | none => if act.isEmpty then s.endGroup h fun _ th => th else s.trapGroup (memTrap 12 0)
    | some va =>
      let wOf := fun (ds : List (Nat × List Word)) => ((ds.head?).map (·.2)).getD []
      let reg := fun w t => idx t / 2 ^ binLog w
      let slot := fun (s : State) (w : List Word) t =>
        tget 0 (s.binCounts asid va w) (reg w t) + (act.filter fun u => u < t && reg w u == reg w t).length
      let entry := fun s w t => binEntry w (reg w t) (slot s w t)
      s.descOp h (fun _ => va) 8 .write noHold
        (fun ds s =>
          let w := wOf ds
          let full := fun t => binCap w ≤ slot s w t
          (if ds.isEmpty then none
           else if let some t := act.find? fun t => idx t < binNidx w && !full t && !spanCanonical (entry s w t) 32 then
             some (memTrap 1 (entry s w t))
           else if act.any fun t => binNidx w ≤ idx t then some (memTrap 10 0)
           else if act.any full then some (memTrap 11 0)
           else if binState w ≠ 0 then some (memTrap 12 0) else none, s))
        (fun ds s t => [(.write, entry s (wOf ds) t, 32)])
        fun ds good s =>
          good.foldl (fun s e => s.binAppend h asid va (wOf ds) (e.2.headD []) (e.2.getD 1 []) e.1 (idx e.1) (bits (s.src e.1 b) 0 (if e8 then 64 else 32))) (s.binFresh asid va (wOf ds)))

/-- An entry read back: its key, index and value. -/
structure BinItem where
  blk : Nat
  tid : Nat
  n : Nat
  idx : Nat
  val : Nat
  deriving DecidableEq, Repr

def binItem (bs : List Byte) : BinItem :=
  let k := leNat ((bs.drop 8).take 4)
  { blk := leNat ((bs.drop 4).take 4), tid := k % 1024, n := k / 1024, idx := leNat (bs.take 4), val := leNat ((bs.drop 16).take 8) }

/-- Lexicographic order of keys (block, thread, n). -/
def keyLt (a b : Nat × Nat × Nat) : Bool :=
  a.1 < b.1 || (a.1 == b.1 && (a.2.1 < b.2.1 || (a.2.1 == b.2.1 && a.2.2 < b.2.2)))

/-- Insertion in key order. -/
def insertBy {α : Type} (key : α → Nat × Nat × Nat) (x : α) : List α → List α
  | [] => [x]
  | y :: l => if keyLt (key x) (key y) then x :: y :: l else y :: insertBy key x l

/-- A list in increasing key order; equal keys keep their order. -/
def sortBy {α : Type} (key : α → Nat × Nat × Nat) (l : List α) : List α := l.foldl (fun acc x => insertBy key x acc) []

/-- One entry applied to the elements of a region (R232). -/
def binApply (fl : Bool) (w : List Word) (base : Nat) (buf : List Nat × Flags) (e : BinItem) : List Nat × Flags :=
  let n := 8 * binSize w
  let i := e.idx - base
  let old := buf.1.getD i 0
  let v := e.val % 2 ^ n
  match binOp w with
  | 0 => (buf.1.set i v, buf.2)
  | 1 => (buf.1.set i ((old + v) % 2 ^ n), buf.2)
  | _ => let r := fin2 fmtF32 fl old v (fmtF32.add fl .rn); (buf.1.set i r.1, buf.2 ||| r.2)

/-- One region replayed: its target bytes at home and the region buffer (R232). targ and ents are DPAs. -/
def State.binRegion (s : State) (t asid : Nat) (w : List Word) (j : Nat) (targ ents : List Nat) : State :=
  let size := binSize w
  let r := s.homeAll targ
  let q := r.2.homeAll ents
  let items := sortBy (fun (e : BinItem) => (e.blk, e.tid, e.n)) ((chunks 32 (ents.length / 32) q.1).map binItem)
  let buf := (chunks size (targ.length / size) r.1).map leNat
  let out := items.foldl (binApply s.flushBit w (j * 2 ^ binLog w)) (buf, 0)
  let bs := out.1.flatMap (leBytes size)
  let s := (q.2.homeWrite asid (targ.zip bs)).poolWrite t (s.thread t).block false (binScr w) bs
  s.raise [t] out.2

/-- Elements of region j. -/
def binLen (w : List Word) (j : Nat) : Nat := min (2 ^ binLog w) (binNidx w - j * 2 ^ binLog w)

/-- The bin.run that a thread has under way with a descriptor. -/
def Block.binUnder (b : Block) (t : Nat) (va : Word) : Option BinRun := b.binRun.filter fun r => r.tid == t && r.desc == va

/-- One region of a bin.run whose descriptor words and DPAs (the descriptor's; each region's target, then its entries) are
given (R232): STATE is 1 from the first region and 2 after the last. Between two regions a halt or a save may fall (R376,
R379). -/
def State.binStep (s : State) (h : Hdr) (d : Dst) (t : Nat) (va : Word) (j : Nat) (w : List Word) (l : List (List Nat)) : State :=
  let bk := (s.thread t).block
  let asid := s.asidOf t
  let dpas := fun i => l.getD i []
  let state := fun (s : State) v => s.homeWrite asid (((dpas 0).drop 40).zip (leBytes 8 v))
  match s.notReady t .s true (addrsOf (binScr w) (2 ^ binLog w * binSize w)) with
  | some q => s.waitLanes [t] q
  | none =>
    if s.poisoned l.flatten then s.waitLanes [t] .poison
    else
      let s := (if j = 0 then state s 1 else s).binRegion t asid w j (dpas (1 + 2 * j)) (dpas (2 + 2 * j))
      if j + 1 < binRegions w then
        (s.modBlock bk fun b => { b with binRun := some { tid := t, desc := va, region := j + 1, words := w, dpas := l } }).modThread t fun th =>
          { th with wait := .none }
      else
        let s := s.refresh (engOf t) ((List.range (binRegions w)).flatMap fun j => dpas (1 + 2 * j))
        let s := (state s 2).modBlock bk fun b => { b with binRun := none }
        s.finishLane h t (writeDst d (wordAt w 6))

/-- bin.run (R232), one region at each issue. One that is under way goes on with the translations and the descriptor of its
first issue (R324). -/
def execBinRun (h : Hdr) (d : Dst) (a : Src) (s : State) : Out :=
  let act := s.active h.guard
  let bk := s.curBlockKey
  let asid := s.curBlock.asid
  let ea := fun t => s.src t a
  let spans := fun (s : State) (t : Nat) (w : List Word) => (List.range (binRegions w)).flatMap fun j =>
    [(Acc.write, wordAt w 0 + word (j * 2 ^ binLog w * binSize w), binLen w j * binSize w),
     (Acc.read, binEntry w j 0, 32 * tget 0 (s.binCounts asid (ea t) w) j)]
  .next (match act.findSome? fun t => (s.curBlock.binUnder t (ea t)).filter fun r => !r.dpas.isEmpty with
    | some r => s.binStep h d r.tid r.desc r.region r.words r.dpas
    | none => s.descOp h ea 8 .write noHold
      (fun ds s =>
        let noncan := ds.findSome? fun e => (spans s e.1 e.2).findSome? fun x =>
          if x.2.2 ≠ 0 ∧ ¬spanCanonical x.2.1 x.2.2 then some (memTrap 1 x.2.1) else none
        let bad := ds.any fun e => (binState e.2 != 0 && (s.curBlock.binUnder e.1 (ea e.1)).isNone)
          || (s.blocks.any fun b => b.1 != bk && b.2.asid == asid && b.2.bin == some (ea e.1))
          || s.curBlock.spadBytes < binScr e.2 + 2 ^ binLog e.2 * binSize e.2
        (noncan.or (if 1 < act.length || bad then some (memTrap 12 0) else none), s))
      (fun ds s t => ((ds.find? fun x => x.1 == t).map fun x => spans s t x.2).getD [])
      fun ds good s => match good with
        | [] => s
        | g :: _ =>
          let j := ((s.block bk).binUnder g.1 (ea g.1)).map (·.region) |>.getD 0
          s.binStep h d g.1 (ea g.1) j (((ds.find? fun x => x.1 == g.1).map (·.2)).getD []) g.2)

/-! ### Collectives (R94, R233-R235, R403) -/

def collCid (w : List Word) : Nat := bits (wordAt w 0) 0 32
def collNpart (w : List Word) : Nat := bits (wordAt w 1) 4 20
def collNbuf (w : List Word) : Nat := bits (wordAt w 1) 0 4
def collBufs (w : List Word) : List (Word × Word) :=
  (List.range (collNbuf w)).map fun i => (wordAt w (2 + 2 * i), wordAt w (3 + 2 * i))

/-- The limits of R233. -/
def collOk (w : List Word) : Bool :=
  bits (wordAt w 0) 32 32 == 0 && bits (wordAt w 1) 24 40 == 0 && 1 ≤ collNpart w && 1 ≤ collNbuf w && collNbuf w ≤ 6
    && ((collBufs w).all fun b => 1 ≤ b.2.toNat && b.2.toNat ≤ 2 ^ 40) && wordAt w 14 == 0 && wordAt w 15 == 0

/-- DPAs of the whole lines of buffers under a context; pages that do not translate are passed over. -/
def State.bufDpas (s : State) (asid : Nat) (bufs : List (Word × Word)) : List Nat × State :=
  bufs.foldl (fun r b => let q := r.2.rangeDpas asid b.1 b.2.toNat; (r.1 ++ q.1, q.2)) ([], s)

/-- One lane's post (R234): its stores to the buffers are written back first, and its copies to them must have retired. -/
def State.collPostLane (s : State) (h : Hdr) (d : Dst) (t : Nat) (w : List Word) : State :=
  let eng := engOf t
  let asid := s.asidOf t
  let cid := collCid w
  let r := s.bufDpas asid (collBufs w)
  let s := r.2
  let mine : Store → Bool := fun st => st.tid == (s.thread t).me t
  if (s.coreAt eng).copies.any fun c => c.tid == t && c.inc == (s.thread t).inc && c.hitsDst .g 0 r.1 then
    s.waitLanes [t] (.scoreboard [])
  else if s.writeHeld eng mine (fun a => r.1.contains a) || s.collFull cid then s.waitLanes [t] .poison
  else
    let s := s.writeBack eng mine fun a => r.1.contains a
    let c := tget {} s.colls cid
    let me : CollPost := { eng, asid, me := (s.thread t).me t, seq := (s.eng eng).seq }
    let g := match c.gen with
      | some g => { g with posted := g.posted + 1, who := g.who ++ [me] }
      | none => { npart := collNpart w, bufs := collBufs w, posted := 1, who := [me] }
    let s := { s with colls := tset cid { c with gen := some g } s.colls }
    ((s.finishLane h t (writeDst d c.count)).collDone cid).collRemote eng cid

/-- Whether a descriptor agrees with a generation's fixed values. -/
def CollGen.agrees (g : CollGen) (w : List Word) : Bool := g.npart == collNpart w && g.bufs == collBufs w

/-- Whether a post of a group differs from the values that its generation's first post fixed (R234): the posts are counted
in order, and one after a generation's last opens the next. -/
def collClash (colls : Tab Coll) : List (List Word) → Bool
  | [] => false
  | w :: rest =>
    let c := tget {} colls (collCid w)
    let g := c.gen.getD { npart := collNpart w, bufs := collBufs w, posted := 0, who := [] }
    let g' := { g with posted := g.posted + 1 }
    !g.agrees w || collClash (tset (collCid w) { c with gen := if g'.posted < g'.npart then some g' else none } colls) rest

/-- coll.post (R234, R403). -/
def execCollPost (h : Hdr) (d : Dst) (a : Src) (s : State) : Out :=
  .next (s.descOp h (fun t => s.src t a) 16 .read noHold
    (fun ds s =>
      let eng := s.curEng
      let s := ds.foldl (fun s e => if collOk e.2 && s.cidOk eng (collCid e.2) then
          (s.collRemote eng (collCid e.2)).collMeet (collCid e.2) (collNpart e.2) (collBufs e.2) else s) s
      let noncan := ds.findSome? fun e => (collBufs e.2).findSome? fun b =>
        if collOk e.2 && !spanCanonical b.1 b.2.toNat then some (memTrap 1 b.1) else none
      let bad := (ds.any fun e => !collOk e.2 || !s.cidOk eng (collCid e.2)) || collClash s.colls (ds.map (·.2))
      (noncan.or (if bad then some (memTrap 13 0) else none), s))
    noSpans
    fun ds good s => good.foldl (fun s e =>
      s.collPostLane h d e.1 (((ds.find? fun x => x.1 == e.1).map (·.2)).getD [])) s)

/-- coll.rd (R235, R403). -/
def execCollRd (h : Hdr) (d : Dst) (a : Src) (s : State) : Out :=
  let bad := fun t =>
    if bits (s.src t a) 32 32 ≠ 0 ∨ ¬s.cidOk (engOf t) (bits (s.src t a) 0 32) then some (memTrap 13 0) else none
  .next (match firstTrap (s.active h.guard) [bad] with
    | some ti => s.trapGroup ti
    | none =>
      let s := (s.active h.guard).foldl (fun s t => s.collRemote (engOf t) (bits (s.src t a) 0 32)) s
      s.endGroup h fun t th => writeDst d (tget {} s.colls (bits (readSrc (laneOf t) th a) 0 32)).count th)

/-! ### Edges (R236, R237) -/

/-- The record limits of R142. A QBASE or FREE that is not aligned as R142 says breaks them too: R236's list of checks does
not name it, and cause 0x0E is this model's choice (log 28). -/
def edgeOk (w : List Word) : Bool :=
  bits (wordAt w 0) 0 6 == 0 && bits (wordAt w 1) 48 16 == 0 && 8 ≤ edgeIsize w && edgeIsize w ≤ 4096 && edgeIsize w % 8 == 0
    && 1 ≤ edgeCap w && bits (wordAt w 3) 32 32 == 0 && bits (wordAt w 2) 0 3 == 0

/-- W of R236. -/
def edgeWrap (cap : Nat) : Nat := cap * (2 ^ 32 / cap)

/-- The instance number k places after g: after 0xFFFFFFFF the count continues at 1 (R330). -/
def instNo (g k : Nat) : Nat := (g - 1 + k) % 0xFFFFFFFF + 1

/-- The launch key of node k of the graph that a launch belongs to. -/
def Launch.nodeKey (l : Launch) (asid k : Nat) : Nat := gkey asid (instNo l.gid (k + 1))

/-- One item pushed: block t of the consumer becomes pending (R237); where the consumer has ended, the claimed slot is
free again (R240). -/
def State.spawn (s : State) (asid lk : Nat) (edge : Word) (t : Nat) : State :=
  if 2 ≤ (s.launch lk).st then s.edgeFree asid edge 1
  else s.modLaunch lk fun l => { l with pending := l.pending ++ [(t, some edge)], spawned := l.spawned + 1 }

/-- One lane's push (R236). free: DPAs of the counter word. -/
def State.edgePushLane (s : State) (h : Hdr) (d : Dst) (t : Nat) (edge item : Word) (w : List Word) (free : List Nat) : State :=
  let th := s.thread t
  let b := s.block th.block
  let l := s.launch (gkey b.asid b.lid)
  let q := s.homeAll free
  let v := word (leNat q.1)
  let n := bits v 32 32
  if s.poisoned free then s.waitLanes [t] .poison else
  let due := s.demanded fun r => match r with
    | .edgePush lid blk tid u => if lid = b.lid ∧ blk = b.blk ∧ tid = s.tidNo t then some u else none
    | _ => none
  if bits v 0 32 = 0 then q.2.waitLanes [t] .edge
  else if (match due with | some u => u != n | none => false) then q.2.waitLanes [t] .edge
  else
    let addr := addrsOf item.toNat (edgeIsize w)
    match q.2.notReady t .s false addr with
    | some x => q.2.waitLanes [t] x
    | none =>
      match q.2.xlateSpan b.asid th.lvl.toNat .write (wordAt w 0 + word (n % edgeCap w * edgeIsize w)) (edgeIsize w) with
      | (.error _, s) => s.waitLanes [t] .edge
      | (.ok dst, s) =>
        if s.heldBy dst then s.waitLanes [t] .poison else
        let p := s.poolRead t th.block false item.toNat (edgeIsize w)
        let s := p.2.homeWrite b.asid (dst.zip p.1)
        let s := s.homeWrite b.asid (free.zip (leBytes 8 ((n + 1) % edgeWrap (edgeCap w) * 2 ^ 32 + (bits v 0 32 - 1))))
        let r : Rec := .edgePush b.lid b.blk (s.tidNo t) n
        let s := (s.record l.job r).passRec r
        (s.finishLane h t (writeDst d (word n))).spawn b.asid (l.nodeKey b.asid (edgeDst w)) edge n

/-- edge.push (R236, R237): causes 0x01 to 0x03, 0x0E, then translation of the record, the counter and the item. A DST
launch whose NBLOCK is not 0, which R142 forbids and R236's list does not name, takes cause 0x0E: this model's choice
(log 28). -/
def execEdgePush (h : Hdr) (d : Dst) (a b : Src) (s : State) : Out :=
  let act := s.active h.guard
  let bl := s.curBlock
  let l := s.launch (gkey bl.asid bl.lid)
  let nodes := (tget {} s.graphs (gkey bl.asid l.gid)).nodes.length
  let ea := fun t => s.src t a
  let item := fun t => s.src t b
  let counter := fun (s : State) (w : List Word) => ((s.readHomeWord bl.asid 1 (wordAt w 2)).1.getD 0)
  let slot := fun (ds : List (Nat × List Word)) (s : State) (t : Nat) (w : List Word) =>
    let rank := (ds.filter fun e => e.1 < t && ea e.1 == ea t).length
    let tail := (bits (counter s w) 32 32 + rank) % edgeWrap (edgeCap w)
    wordAt w 0 + word (tail % edgeCap w * edgeIsize w)
  .next (s.descOp h ea 4 .read (fun ds s => ds.any fun e => canonical (wordAt e.2 2) && s.homeHeld bl.asid 1 (wordAt e.2 2) 8)
      (fun ds s =>
        let noncan := ds.findSome? fun e =>
          if !spanCanonical (wordAt e.2 2) 8 then some (memTrap 1 (wordAt e.2 2))
          else if edgeOk e.2 && !spanCanonical (slot ds s e.1 e.2) (edgeIsize e.2) then some (memTrap 1 (slot ds s e.1 e.2))
          else none
        let badRec := ds.any fun e => !edgeOk e.2 || edgeSrc e.2 != l.node || nodes ≤ edgeDst e.2
          || edgeCap e.2 < bits (counter s e.2) 0 32 || (s.launch (l.nodeKey bl.asid (edgeDst e.2))).nblock != 0
        let bound := ds.findSome? fun e =>
          if bl.spadBytes < (item e.1).toNat + edgeIsize e.2 then some (memTrap 2 (item e.1)) else none
        (((noncan.or bound).or (firstTrap act [chkAlign item 8])).or (if badRec then some (memTrap 14 0) else none), s))
      (fun ds s t =>
        let w := ((ds.find? fun x => x.1 == t).map (·.2)).getD []
        [(.atomic, wordAt w 2, 8), (.write, slot ds s t w, edgeIsize w)])
      fun ds good s => good.foldl (fun s e =>
        s.edgePushLane h d e.1 (ea e.1) (item e.1) (((ds.find? fun x => x.1 == e.1).map (·.2)).getD []) (e.2.getD 1 [])) s)

end Sys2Proof.Machine
end

