-- ==== Sys2Proof/Machine/Place.lean ====
section
/-! DEFINITION. Placing blocks (R11, R78, R118, R333, R334), completing launches and graphs (R34, R40, R93, R331), and
switching a partition between contexts (R337). -/
namespace Sys2Proof.Machine

open Sys2Proof

/-! ### The order of pending blocks (R333) -/

/-- A pending block: its launch, its %block, and the edge record whose item it consumes. -/
structure Pend where
  lid : Nat
  blk : Nat
  edge : Option Word
  deriving DecidableEq, Repr

/-- Pending blocks of a context: job PRIO descending, then launch identifier, then %block. -/
def State.pendings (s : State) (asid : Nat) : List Pend :=
  let ls := s.launches.filter fun e => e.1 / 2 ^ 32 == asid && e.2.st < 2 && !e.2.pending.isEmpty
  let ls := sortBy (fun (e : Nat × Launch) => (255 - (s.job e.2.job).prio, e.1 % 2 ^ 32, 0)) ls
  ls.flatMap fun e => (sortBy (fun (p : Nat × Option Word) => (p.1, 0, 0)) e.2.pending).map fun p =>
    { lid := e.1 % 2 ^ 32, blk := p.1, edge := p.2 }

/-- How Part.blocked names a pending block. -/
def Pend.name (q : Pend) (asid : Nat) : Nat × Nat × Nat × Option Word := (asid, q.lid, q.blk, q.edge)

/-- The pending blocks that may be placed: the first that has been pending for 10 µs holds back those after it. -/
def State.candidates (s : State) (p asid : Nat) : List Pend :=
  let l := s.pendings asid
  match l.findIdx? fun q => (s.part p).blocked.contains (q.name asid) with
  | some i => l.take (i + 1)
  | none => l

/-! ### Which cores qualify (R78, R118, R333, R38) -/

/-- Whether a core qualifies for a block of launch lk: no suspend.r block on it whose target was met waits for granules
(R38). -/
def State.coreFits (s : State) (lk c : Nat) : Bool :=
  let l := s.launch lk
  let banks := s.dictBanks c
  poolG l.pool ≤ s.freeGran c && poolNwarp l.pool ≤ (s.freeSlots c).length
    && !(s.blocks.any fun e => e.2.core == c && !e.2.leaving && (match e.2.susp with | some q => q.met.isSome | none => false))
    && (l.dlen == 0 || banks.contains lk || banks.length < 2)

/-- Cores of a partition in the order in which a launch tries them. -/
def State.coreOrder (s : State) (p lk : Nat) : List Nat :=
  let cs := s.coresOf p
  match (s.launch lk).lastCore with
  | none => cs
  | some k => (cs.filter fun c => k < c) ++ cs.filter fun c => c ≤ k

/-- The core and first warp slot that a block takes: during replay those of its record. -/
def State.coreFor (s : State) (p asid : Nat) (q : Pend) : Option Nat :=
  let lk := gkey asid q.lid
  let due := s.demanded fun r => match r with
    | .placement lid blk core slot => if lid = q.lid ∧ blk = q.blk then some (core, slot) else none
    | _ => none
  match due with
  | some (core, slot) => if s.coreFits lk core && (s.freeSlots core).headD 0 == slot then some core else none
  | none => (s.coreOrder p lk).find? fun c => s.coreFits lk c

/-! ### Placing (R11, R78) -/

/-- The item lines of a consumer block are refreshed in its core's snapshot (R237). -/
def State.itemRefresh (s : State) (asid core blk : Nat) (edge : Word) : State :=
  let r := s.edgeWords asid edge
  let cap := edgeCap r.1
  if cap = 0 then r.2 else r.2.refreshRange core asid (wordAt r.1 0 + word (blk % cap * edgeIsize r.1)) (edgeIsize r.1)

/-- Whether refreshing a consumer block's item lines must wait for a poisoned line (R388): it is not placed yet. -/
def State.itemHeld (s : State) (asid : Nat) (q : Pend) : Bool :=
  match q.edge with
  | none => false
  | some e =>
    let r := s.edgeWords asid e
    let cap := edgeCap r.1
    s.homeHeld asid 1 e 32
      || (cap != 0 && r.2.refreshHeld asid (wordAt r.1 0 + word (q.blk % cap * edgeIsize r.1)) (edgeIsize r.1))

/-- A lane thread as placement leaves it (R11), of the block placed as number uid; %stk is set when its slot is known. -/
def placedThread (bk uid : Nat) (entry : Word) : Thread := { block := bk, inc := uid, pc := entry }

/-- The threads of one warp slot. -/
def State.placeWarp (s : State) (core bk uid slot : Nat) (entry : Word) : State :=
  (List.range 32).foldl (fun s i =>
    let t := 1024 * core + 32 * slot + i
    let s := s.setThread t (placedThread bk uid entry)
    s.modThread t fun th => { th with stk := s.slotTop t }) s

/-- A block placed on a core: it takes the lowest-numbered free warp slots, and its granules, which are free of poison
(R388); the operand cache drops the core's entries (R250). -/
def State.placeOn (s : State) (asid : Nat) (q : Pend) (core : Nat) : State :=
  let lk := gkey asid q.lid
  let l := s.launch lk
  let slots := (s.freeSlots core).take (poolNwarp l.pool)
  let bk := 32 * core + slots.headD 0
  let uid := s.uids + 1
  let b : Block := { asid, lid := q.lid, blk := q.blk, edge := q.edge, core, slots, pool := l.pool, accg := poolAccg l.pool,
                     flush := l.flush, bsw := bswOf l.arm 0, uid }
  let s := match q.edge with | some e => s.itemRefresh asid core q.blk e | none => s
  let s := (({ s with uids := uid, blocks := tset bk b s.blocks } : State).takeGran core b.granules).ocDrop core
  let s := slots.foldl (fun s k => s.placeWarp core bk uid k l.entry) s
  let s := s.modLaunch lk fun l => { l with st := 1, lastCore := some core, pending := l.pending.erase (q.blk, q.edge) }
  let r : Rec := .placement q.lid q.blk core (slots.headD 0)
  (s.record l.job r).passRec r

/-- Whether a partition runs a context, its halt line is down, and no save is under way. -/
def Part.active (p : Part) : Bool := p.en && p.run && p.halt.isNone && p.saving.isNone

/-- BLOCK_PLACEMENT (R333): the first pending block in order that some core qualifies for is placed. -/
def execBlockPlacement (part : Nat) (s : State) : Out :=
  let p := s.part part
  .next (if !p.active then s
    else match ((s.candidates part p.rasid).filter fun q => !s.itemHeld p.rasid q).findSome? fun q => (s.coreFor part p.rasid q).map fun c => (q, c) with
      | none => s
      | some (q, c) =>
        (s.placeOn p.rasid q c).modPart part fun p => { p with blocked := p.blocked.filter (· != q.name p.rasid) })

/-- PENDING_BLOCK_TIMEOUT (R333): one of the pending blocks has been pending for 10 µs; which one, time decides (log 9). -/
def execPendingBlockTimeout (part : Nat) (s : State) : Out :=
  let p := s.part part
  .next (if !p.active then s
    else match s.pendings p.rasid with
      | [] => s
      | q :: rest =>
        let f := s.freeWord
        let n := ((q :: rest).getD (f.1.toNat % (rest.length + 1)) q).name p.rasid
        f.2.modPart part fun p => { p with blocked := p.blocked.filter (· != n) ++ [n] })

/-! ### Completion (R34, R40, R93, R331) -/

/-- Ordered-add formats. -/
def afFmt : AfTy → FpFmt | .f32 => fmtF32 | .f16 => fmtF16 | .bf16 => fmtBf16

/-- One queued add applied at home (R93, R219), with the flags it raises. -/
def State.applyAdd (s : State) (fl : Bool) (e : Fadd) : Flags × State :=
  let r := s.homeAll e.dpa
  let m := afFmt e.ty
  let v := fin2 m fl (leNat r.1) (sub_ e.val m.w 0) (m.add fl e.rm)
  (v.2, r.2.homeWrite e.asid (e.dpa.zip (leBytes e.dpa.length v.1)))

/-- The adds of a launch in increasing key order (R93). -/
def State.applyAdds (s : State) (fl : Bool) (q : List Fadd) : Flags × State :=
  (sortBy (fun (e : Fadd) => (e.blk, e.tid, e.n)) q).foldl (fun r e => let x := r.2.applyAdd fl e; (r.1 ||| x.1, x.2)) (0, s)

/-- A graph completes when every node has and every edge queue is empty (R34); with AUTO it closes its job's phase. A graph
that has been cancelled keeps its counter. -/
def State.graphSettle (s : State) (gk asid : Nat) : State :=
  match tget? s.graphs gk with
  | none => s
  | some g =>
    if g.st ≠ 1 then s.endDue g.job
    else
      let done := (g.nodes.filter fun lid => 2 ≤ (s.launch (gkey asid lid)).st).length
      let all := done == g.nodes.length && g.edges.all fun e => s.edgeEmpty asid e
      let s := { s with graphs := tset gk { g with count := done, st := if all then 2 else 1 } s.graphs }
      (if all && (s.job g.job).auto then s.modJob g.job fun j => { j with closed := true } else s).endDue g.job

/-- Whether a replay demands that another launch's ordered adds are applied next (R397). -/
def State.addDenied (s : State) (l : Launch) (lid : Nat) : Bool :=
  !l.queue.isEmpty && (match s.demanded fun r => match r with | .addOrder k => some k | _ => none with
    | some k => k != lid
    | none => false)

/-- Whether another launch completed before this one and still has adds to one of its locations to apply (R93). -/
def State.addsWait (s : State) (lk : Nat) : Bool :=
  let l := s.launch lk
  let mine := l.queue.flatMap fun e => e.dpa
  !mine.isEmpty && s.launches.any fun m => m.1 != lk && m.2.st < 2 && (match m.2.ended, l.ended with
    | some i, some j => i < j
    | some _, none => true
    | none, _ => false) && m.2.queue.any fun e => e.dpa.any mine.contains

/-- LAUNCH_COMPLETION (R40, R93, R331, R332): the launch's ordered adds are applied, its status records completion and
the flags they raised, and its graph completes with its last node. -/
def execLaunchCompletion (asid lid : Nat) (s : State) : Out :=
  let lk := gkey asid lid
  let l := s.launch lk
  let gk := gkey asid l.gid
  .next (if (tget? s.launches lk).isNone then s
    else if 2 ≤ l.st then s.graphSettle gk asid
    else if !s.launchOver asid l || s.addDenied l lid || s.addsWait lk || s.poisoned (l.queue.flatMap fun e => e.dpa) then s
    else
      let r := s.applyAdds l.flush l.queue
      let s := r.2.modLaunch lk fun l => { l with st := 2, flags := r.1, queue := [] }
      let s := if l.queue.isEmpty then s else (s.record l.job (.addOrder lid)).passRec (.addOrder lid)
      s.graphSettle gk asid)

/-! ### Switching contexts (R337) -/

/-- Whether a context has a job running. -/
def State.hasJob (s : State) (asid : Nat) : Bool := s.jobs.any fun e => e.2.asid == asid && e.2.state == 2

/-- The context that a partition takes next: the first in run list order after the last one that has a running job; with
no run list, in increasing ASID among the contexts of the partition. -/
def State.nextContext (s : State) (p : Nat) : Option Nat :=
  let q := s.part p
  let all := (s.ctxs.filter fun e => e.2.valid && e.2.partNo == p).map (·.1)
  let l := if q.runList.isEmpty then all else q.runList.filter fun a => all.contains a
  let last := if q.run then q.rasid else q.lastAsid
  let i := (l.findIdx? (· == last)).map (· + 1) |>.getD 0
  (l.drop i ++ l.take i).find? fun a => s.hasJob a && !(q.run && a == q.rasid)

/-- The place of the images that Imago itself keeps: no address that an instruction can name. -/
def imagoImage (asid : Nat) : Nat := 2 ^ 64 + asid

/-- A context starts on a partition that runs none: from the image in which it stands, or afresh. -/
def State.startContext (s : State) (p asid : Nat) : State :=
  match s.images.find? fun i => i.live && i.asid == asid with
  | some i => if s.restorable p i then s.restore p i else s
  | none => s.modPart p fun q => { q with run := true, rasid := asid, lastAsid := asid }

/-- A partition's context is saved by Imago (R337, R379); while a poisoned line holds a copy, it is not. -/
def State.saveByImago (s : State) (p : Nat) : Option State :=
  let asid := (s.part p).rasid
  let s := s.quiesce p
  if s.undrained p then none
  else
    let s := (((s.keepImage (s.capture p (imagoImage asid))).clearEngines p).zeroCounters p).noteSaved asid
    some (s.modPart p fun q => { q with run := false, rasid := 0, lastAsid := asid })

/-- TIME_SLICE_EXPIRY (R337): Imago switches the partition to the next context with a running job, or starts one where
the partition runs none. -/
def execTimeSliceExpiry (part : Nat) (s : State) : Out :=
  let q := s.part part
  .next (if !q.en || q.halt.isSome || q.saving.isSome || s.partBusy part then s
    else match s.nextContext part with
      | none => s
      | some asid => match (if q.run then s.saveByImago part else some s) with
        | some s => s.startContext part asid
        | none => s)

end Sys2Proof.Machine
end

