-- ==== Sys2Proof/Machine/Paging.lean ====
section
/-! DEFINITION. The translations that Imago builds (R430): frames, nodes and leaves, written at home. -/
namespace Sys2Proof.Machine

open Sys2Proof

/-! ### Table entries (R342, R345) -/

/-- Index of an address in its node of a level. -/
def pteIdx (lvl : Nat) (va : Word) : Nat := vaBits va / spanOf lvl % 8192

/-- Where a walk at home that ignores the caches stands for an address: at a leaf or at an entry that is not valid, with
the entry's DPA, its level and its value; none where a node is malformed. -/
def State.entryAt (s : State) (va : Word) : Nat → Nat → Nat → Option (Nat × Nat × Word)
  | 0, _, _ => none
  | fuel + 1, lvl, node =>
    let a := node + 8 * pteIdx lvl va
    let e := s.homeWord a
    if !pteV e || pteL e then some (a, lvl, e)
    else if lvl = 2 then none
    else s.entryAt va fuel (lvl + 1) (ptePa e)

/-- The same from a context's root. -/
def State.entryOf (s : State) (asid : Nat) (va : Word) : Option (Nat × Nat × Word) :=
  let r := (s.ctx asid).ptroot
  if bit r 0 then s.entryAt va 3 0 (ptePa r) else none

/-- The valid leaf that maps an address. -/
def State.leafOf (s : State) (asid : Nat) (va : Word) : Option (Nat × Nat × Word) :=
  (s.entryOf asid va).filter fun e => pteV e.2.2 && pteL e.2.2

/-- The entries that such a walk reads. -/
def State.entryAddrs (s : State) (va : Word) : Nat → Nat → Nat → List Nat
  | 0, _, _ => []
  | fuel + 1, lvl, node =>
    let a := node + 8 * pteIdx lvl va
    let e := s.homeWord a
    a :: if !pteV e || pteL e || lvl = 2 then [] else s.entryAddrs va fuel (lvl + 1) (ptePa e)

/-- Whether the table entries of some addresses wait for a poisoned line, to be read or written (R388). -/
def State.tablesHeld (s : State) (asid : Nat) (vas : List Word) : Bool :=
  let r := (s.ctx asid).ptroot
  !s.poison.isEmpty && bit r 0 && vas.any fun va => s.poisoned (s.entryAddrs va 3 0 (ptePa r))

/-! ### Frames (R430) -/

/-- The DPA of frame n of a list of stacks. -/
def State.frameAt (s : State) (gs : List Nat) (n : Nat) : Nat :=
  s.boot.devnum * devBytes + gs.getD (n / 2 ^ 20) 0 * 2 ^ 36 + n % 2 ^ 20 * 65536

/-- The first frame of the stacks from number n on, and around, that Imago has not taken yet. -/
def State.freeFrom (s : State) (gs : List Nat) : Nat → Nat → Option Nat
  | 0, _ => none
  | fuel + 1, n =>
    let dpa := s.frameAt gs (n % (gs.length * 2 ^ 20))
    if s.frames.contains dpa then s.freeFrom gs fuel (n + 1) else some dpa

/-- The next frame that Imago takes for a context, zero-filled: which of the free ones is open (log 13). None where the
partition has no free frame. -/
def State.newFrame (s : State) (asid : Nat) : Option (Nat × State) :=
  let gs := if asid = 0 then List.range 8 else (s.part (s.ctx asid).partNo).stacks
  if gs.isEmpty then none
  else match s.freeFrom gs (s.frames.length + 1) (Config.freeFrame s.ctr) with
    | none => none
    | some dpa =>
      let s := { s with ctr := s.ctr + 1, frames := s.frames ++ [dpa] }
      some (dpa, s.homeWrite asid ((List.range 65536).map fun i => (dpa + i, 0)))

/-- The entries of a node that are not zero. -/
def State.nodeEntries (s : State) (node : Nat) : List Nat :=
  let off := node % devBytes
  rising ((s.home.filter fun c => off ≤ c.1 && c.1 < off + 65536).map fun c => node + (c.1 - off) / 8 * 8)

/-- Whether the tables under a node map a frame, or have a node in it. -/
def State.namesFrame (s : State) (f : Nat) : Nat → Nat → Nat → Bool
  | 0, _, _ => false
  | fuel + 1, lvl, node => node == f || (s.nodeEntries node).any fun a =>
    let e := s.homeWord a
    pteV e && (if pteL e then ptePa e ≤ f && f < ptePa e + spanOf lvl else lvl < 2 && s.namesFrame f fuel (lvl + 1) (ptePa e))

/-- Whether a reservation holds a frame, or the tables of some context name it. -/
def State.frameUsed (s : State) (f : Nat) : Bool :=
  s.ctxs.any fun c => c.2.frames.contains f || (bit c.2.ptroot 0 && s.namesFrame f 3 0 (ptePa c.2.ptroot))

/-- A frame that nothing uses any more is free again. -/
def State.dropFrame (s : State) (dpa : Nat) : State :=
  if s.frameUsed dpa then s else { s with frames := s.frames.filter (· != dpa) }

/-- A table entry written at home. -/
def State.putEntry (s : State) (asid dpa : Nat) (e : Word) : State :=
  s.homeWrite asid ((leBytes 8 e.toNat).zipIdx.map fun b => (dpa + b.2, b.1))

/-- The root of a context's tables, made where there is none. -/
def State.ensureRoot (s : State) (asid : Nat) : Option (Nat × State) :=
  let r := (s.ctx asid).ptroot
  if bit r 0 then some (ptePa r, s)
  else match s.newFrame asid with
    | none => none
    | some (f, s) => some (f, s.modCtx asid fun c => { c with ptroot := word (f + 1) })

/-- Nodes made down to level 2: the level-2 entry's DPA; none where a larger leaf or a malformed node stands. -/
def State.ensureNodes (s : State) (asid : Nat) (va : Word) : Nat → Nat → Option (Nat × State)
  | 0, node => some (node + 8 * pteIdx 2 va, s)
  | n + 1, node =>
    let lvl := 1 - n
    let a := node + 8 * pteIdx lvl va
    let e := s.homeWord a
    if pteV e then (if pteL e then none else s.ensureNodes asid va n (ptePa e))
    else match s.newFrame asid with
      | none => none
      | some (f, s) => (s.putEntry asid a (word (f + 1))).ensureNodes asid va n f

/-- A 64 KiB page mapped by a leaf with the given low bits (V, L and rights) on a new frame. -/
def State.mapPage (s : State) (asid : Nat) (va : Word) (low : Nat) : Option State :=
  match s.ensureRoot asid with
  | none => none
  | some (root, s) =>
    match s.ensureNodes asid va 2 root with
    | none => none
    | some (a, s) => match s.newFrame asid with
      | none => none
      | some (f, s) => some (s.putEntry asid a (word (f + low)))

/-- Pages of a range: their addresses. -/
def pagesOf (va : Word) (n : Nat) : List Word := (pageParts va n).map fun p => p.1 &&& ~~~(0xFFFF : Word)

/-- Pages mapped where no leaf maps them; the rights of existing leaves stay. -/
def State.mapPages (s : State) (asid : Nat) (l : List (Word × Nat)) : Option State :=
  l.foldl (fun s p => match s with
    | none => none
    | some s => if (s.leafOf asid p.1).isSome then some s else s.mapPage asid p.1 p.2) (some s)

/-- Whether a write of n bytes through the leaves that map them waits for a poisoned line (R388). -/
def State.mappedHeld (s : State) (asid : Nat) (va : Word) (n : Nat) : Bool :=
  !s.poison.isEmpty && s.heldBy ((pageParts va n).flatMap fun p => match s.leafOf asid p.1 with
    | some (_, lvl, e) => (List.range p.2).map (ptePa e + vaBits p.1 % spanOf lvl + ·)
    | none => [])

/-- Bytes written through the leaves that map them, whatever their rights; none where one is not mapped. -/
def State.writeMapped (s : State) (asid : Nat) (va : Word) (bs : List Byte) : Option State :=
  (pageParts va bs.length).foldl (fun (r : Option (State × List Byte)) p => match r with
    | none => none
    | some (s, bs) => match s.leafOf asid p.1 with
      | none => none
      | some (_, lvl, e) =>
        let dpa := ptePa e + vaBits p.1 % spanOf lvl
        some (s.homeWrite asid ((bs.take p.2).zipIdx.map fun b => (dpa + b.2, b.1)), bs.drop p.2)) (some (s, bs))
  |>.map (·.1)

end Sys2Proof.Machine
end

