-- ==== Sys2Proof/Machine/Slot.lean ====
section
/-! DEFINITION. The slot instructions (R291-R300, R307, R308): slot.rd, slot.put, slot.cfg, seq.st, seq.fork. -/
namespace Sys2Proof.Machine

open Sys2Proof

/-! ### Sequence entries (R291, R292) -/

/-- No token. -/
def noTok : BitVec 32 := 0xFFFFFFFF

/-- WEFF (R292). -/
def Seq.weff (q : Seq) : Nat := min q.wsize (q.lend - q.wbase)

/-- State of slot i: 0 masked, 1 tentative, 2 final; masked at or beyond WEFF (R292). -/
def Seq.slotState (q : Seq) (i : Nat) : Nat := if i < q.weff then tget 0 q.smap i else 0

/-- TOK[i] (R291, R292). -/
def Seq.tokAt (q : Seq) (i : Nat) : BitVec 32 := if i < q.weff then tget noTok q.tok i else noTok

/-- An open slot (R292). -/
def Seq.isOpen (q : Seq) (i : Nat) : Bool := i < q.weff && q.slotState i != 2

/-- SMAP of 32 slots from slot lo on. -/
def Seq.smapWord (q : Seq) (lo : Nat) : Word := word (((List.range 32).map fun i => q.slotState (lo + i) * 2 ^ (2 * i)).sum)

/-- Entry word i (R291). -/
def Seq.wordAt (q : Seq) (i : Nat) : Word :=
  match i with
  | 0 => word (q.wbase * 2 ^ 32 + q.done.toNat * 2 ^ 25 + q.mode.toNat * 2 ^ 24 + q.prio * 2 ^ 16 + q.wsize * 2 ^ 9 + q.state)
  | 1 => word (q.lend * 2 ^ 32 + q.job * 2 ^ 24 + q.asid)
  | 2 => q.kvroot
  | 3 => q.fmap
  | 4 => word (q.forks * 2 ^ 48 + q.thr.toNat * 2 ^ 32 + q.tht.toNat * 2 ^ 16 + q.thf.toNat)
  | 5 => q.key
  | 6 => q.ctr
  | 7 => q.pen
  | 8 => word q.penlen
  | 9 => q.smapWord 0
  | 10 => q.smapWord 32
  | _ => 0

/-- An entry that holds a sequence: not free, and not a fork that the next boundary creates (R308). -/
def State.seqHeld (s : State) (n : Nat) : Bool := match tget? s.seqs n with | some q => !q.reserved | none => false

/-- An entry in use as a phase sees it: as the boundary that began the phase left it (R293). -/
def State.seqUsed (s : State) (n : Nat) : Bool := s.seqHeld n && !(s.seqE n).admitted

/-! ### Slot traps (R296) -/

def slotTrap (cause : Nat) : TrapInfo := { cls := 8, cause }

/-- The job of a thread: its launch's. -/
def State.jobNo (s : State) (t : Nat) : Nat :=
  let b := s.block (s.thread t).block
  (s.launch (gkey b.asid b.lid)).job

/-- Cause 0x01. -/
def State.seqBad (s : State) (t n : Nat) : Bool :=
  let q := s.seqE n
  !s.seqUsed n || ((s.thread t).lvl = 0 && (q.job != s.jobNo t || q.asid != s.asidOf t))

/-- Cause 0x06 of slot.cfg, seq.st and seq.fork. -/
def State.seqDenied (s : State) (t : Nat) : Bool := (s.thread t).lvl = 0 && !(s.job (s.jobNo t)).seqctl

/-- A test as a check of firstTrap. -/
def slotChk (cause : Nat) (p : Nat → Bool) (t : Nat) : Option TrapInfo := if p t then some (slotTrap cause) else none

/-- A slot instruction without memory: its checks over the true-guard lanes, then each lane in increasing number. -/
def State.slotOp (s : State) (h : Hdr) (checks : List (Nat → Option TrapInfo)) (lane : Nat → State → State) : State :=
  let act := s.active h.guard
  match firstTrap act checks with
  | some ti => s.trapGroup ti
  | none =>
    let s := s.mapGroup fun _ th => if th.guardTrue h.guard then th else th.adv s.cur.next
    act.foldl (fun s t => lane t s) s

/-- SEQ of an operand. -/
def seqNo (w : Word) : Nat := bits w 0 16

/-! ### slot.rd (R298) -/

/-- slot.rd.word (R298). -/
def execSlotRdWord (h : Hdr) (d : Dst) (a b : Src) (s : State) : Out :=
  .next (s.slotOp h
    [slotChk 1 fun t => s.seqBad t (seqNo (s.src t a)), slotChk 3 fun t => bits (s.src t a) 16 48 != 0 || 10 < (s.src t b).toNat]
    fun t s => s.finishLane h t (writeDst d ((s.seqE (seqNo (s.src t a))).wordAt (bits (s.src t b) 0 4))))

/-- slot.rd.tok (R298). -/
def execSlotRdTok (h : Hdr) (d : Dst) (a b : Src) (s : State) : Out :=
  .next (s.slotOp h
    [slotChk 1 fun t => s.seqBad t (seqNo (s.src t a)), slotChk 3 fun t => bits (s.src t a) 16 48 != 0 || 63 < (s.src t b).toNat]
    fun t s => s.finishLane h t (writeDst d (((s.seqE (seqNo (s.src t a))).tokAt (bits (s.src t b) 0 6)).setWidth 64)))

/-- slot.rd.batch (R298). -/
def execSlotRdBatch (h : Hdr) (d : Dst) (s : State) : Out :=
  let addr := fun t => let j := s.job (s.jobNo t); if j.took && j.batchMax != 0 then j.brec else 0
  .next (s.endGroup h fun t th => writeDst d (addr t) th)

/-! ### slot.put (R299, R300) -/

/-- The submission that the slot engine keeps (R300). -/
def keepSub (old : Option (BitVec 16 × BitVec 32)) (c : BitVec 16) (tok : BitVec 32) : BitVec 16 × BitVec 32 :=
  match old with
  | none => (c, tok)
  | some (c0, t0) =>
    let x := fmtF16.decode c.toNat
    let y := fmtF16.decode c0.toNat
    if fLt false y x then (c, tok) else if fLt false x y then (c0, t0) else if tok.toNat < t0.toNat then (c, tok) else (c0, t0)

/-- slot.put (R299). -/
def execSlotPut (h : Hdr) (a b : Src) (s : State) : Out :=
  let seq := fun t => seqNo (s.src t a)
  let slot := fun t => bits (s.src t a) 16 6
  let tok := fun t => (s.src t a).extractLsb' 32 32
  .next (s.slotOp h
    [slotChk 1 fun t => s.seqBad t (seq t),
     slotChk 2 fun t => (s.seqE (seq t)).state == 1 || !(s.seqE (seq t)).isOpen (slot t),
     slotChk 3 fun t => bits (s.src t a) 22 10 != 0 || bits (s.src t b) 16 48 != 0 || tok t == noTok,
     slotChk 4 fun t => !(s.job (s.jobNo t)).batch.contains (seq t) || !((s.seqE (seq t)).state == 1 || (s.seqE (seq t)).state == 2)]
    fun t s =>
      let c := (s.src t b).extractLsb' 0 16
      let key := 64 * seqNo (s.src t a) + bits (s.src t a) 16 6
      let s' := s.finishLane h t id
      if (fmtF16.decode c.toNat).isNan then s'.raise [t] fInv
      else { s' with subs := tset key (keepSub (tget? s.subs key) c ((s.src t a).extractLsb' 32 32)) s'.subs })

/-! ### slot.cfg and seq.st (R307) -/

/-- A finite f16. -/
def f16Finite (v : BitVec 16) : Bool := match fmtF16.decode v.toNat with | .num _ _ _ => true | _ => false

/-- x ≤ y on f16 values. -/
def f16Le (x y : BitVec 16) : Bool := !fLt false (fmtF16.decode y.toNat) (fmtF16.decode x.toNat)

/-- The thresholds of slot.cfg: finite, and θr ≤ θt ≤ θf. -/
def cfgOk (w : Word) : Bool :=
  let f := w.extractLsb' 0 16
  let t := w.extractLsb' 16 16
  let r := w.extractLsb' 32 16
  f16Finite f && f16Finite t && f16Finite r && f16Le r t && f16Le t f

/-- Whether an earlier lane of the group names the same sequence. -/
def dup (act : List Nat) (f : Nat → Nat) (t : Nat) : Bool := act.any fun u => u < t && f u == f t

/-- A request that was accepted is recorded (R397). -/
def State.recReq (s : State) (t n op : Nat) : State :=
  let b := s.block (s.thread t).block
  let r : Rec := .seqReq n b.lid b.blk (s.tidNo t) op
  (s.record (s.jobNo t) r).passRec r

/-- Whether a replay demands that another thread's request on sequence n is accepted (R397). -/
def State.reqDenied (s : State) (t n op : Nat) : Bool :=
  let b := s.block (s.thread t).block
  match s.demanded fun r => match r with
    | .seqReq m lid blk tid o => if m = n ∧ o / 4 = op / 4 then some (lid, blk, tid, o) else none
    | _ => none with
  | some x => x != (b.lid, b.blk, s.tidNo t, op)
  | none => false

/-- slot.cfg (R307); in records it counts as operation 8. -/
def execSlotCfg (h : Hdr) (a b : Src) (s : State) : Out :=
  let act := s.active h.guard
  let seq := fun t => seqNo (s.src t a)
  .next (s.slotOp h
    [slotChk 1 fun t => s.seqBad t (seq t),
     slotChk 3 fun t => bits (s.src t a) 17 47 != 0 || bits (s.src t b) 48 16 != 0 || !cfgOk (s.src t b),
     slotChk 5 fun t => (tget? s.cfgs (seq t)).isSome || dup act seq t || s.reqDenied t (seq t) 8,
     slotChk 6 s.seqDenied]
    fun t s =>
      let w := s.src t b
      let n := seqNo (s.src t a)
      let c : Cfg := { mode := bit (s.src t a) 16, thf := w.extractLsb' 0 16, tht := w.extractLsb' 16 16, thr := w.extractLsb' 32 16 }
      (({ s with cfgs := tset n c s.cfgs } : State).recReq t n 8).finishLane h t id)

/-- OP of seq.st. -/
def seqOp (w : Word) : Nat := bits w 16 3

/-- Whether the entry's state allows an operation (R307). -/
def Seq.allows (q : Seq) (op : Nat) : Bool :=
  match op with
  | 0 => q.state == 2
  | 1 => (q.state == 3 && !q.done) || q.state == 4
  | 2 => q.state == 3
  | 3 => q.state == 0 || q.state == 3 || q.state == 4
  | _ => true

/-- seq.st (R307): every lane asks for the operation that its own register names. -/
def State.seqSt (s : State) (h : Hdr) (a b : Src) : State :=
  let act := s.active h.guard
  let seq := fun t => seqNo (s.src t a)
  let op := fun t => seqOp (s.src t a)
  let kind := fun t => 2 * seq t + if op t = 4 then 1 else 0
  s.slotOp h
    [slotChk 1 fun t => s.seqBad t (seq t),
     slotChk 3 fun t => bits (s.src t a) 19 45 != 0 || 4 < op t || bits (s.src t b) 8 56 != 0 || (op t != 4 && s.src t b != 0),
     slotChk 4 fun t => !(s.seqE (seq t)).allows (op t),
     slotChk 5 fun t => (tget? (if op t = 4 then s.prios else s.sts) (seq t)).isSome || dup act kind t || s.reqDenied t (seq t) (op t),
     slotChk 6 s.seqDenied]
    fun t s =>
      let n := seqNo (s.src t a)
      let o := seqOp (s.src t a)
      let s := if o = 4 then { s with prios := tset n (bits (s.src t b) 0 8) s.prios } else { s with sts := tset n o s.sts }
      (s.recReq t n o).finishLane h t id

/-- seq.st with OP 0 (R307). -/
def execSeqStPause (h : Hdr) (a b : Src) (s : State) : Out := .next (s.seqSt h a b)

/-- seq.st with OP 1 (R307). -/
def execSeqStResume (h : Hdr) (a b : Src) (s : State) : Out := .next (s.seqSt h a b)

/-- seq.st with OP 2 (R307). -/
def execSeqStSwap (h : Hdr) (a b : Src) (s : State) : Out := .next (s.seqSt h a b)

/-- seq.st with OP 3 (R307). -/
def execSeqStRelease (h : Hdr) (a b : Src) (s : State) : Out := .next (s.seqSt h a b)

/-- seq.st with OP 4 (R307). -/
def execSeqStPriority (h : Hdr) (a b : Src) (s : State) : Out := .next (s.seqSt h a b)

/-! ### seq.fork (R308) -/

/-- The lowest-numbered free entries, at most k. -/
def State.freeSeqs (s : State) (k : Nat) : Nat → Nat → List Nat
  | 0, _ => []
  | fuel + 1, n => if k = 0 then [] else if (tget? s.seqs n).isSome then s.freeSeqs k fuel (n + 1) else n :: s.freeSeqs (k - 1) fuel (n + 1)

/-- Bytes of FMAP that cover LEND positions, and the penalty area of a child at b (R308). -/
def fmapBytes (q : Seq) : Nat := (q.lend + 7) / 8
def childPen (q : Seq) (b : Word) : Word := b + word (64 * ((q.lend + 511) / 512))

/-- One lane's fork, the spans known: FMAP, penalty bytes, and where they go. -/
def State.forkLane (s : State) (h : Hdr) (d : Dst) (t p : Nat) (area : Word) (l : List (List Nat)) : State :=
  let q := s.seqE p
  let b := s.block (s.thread t).block
  let due := s.demanded fun r => match r with
    | .fork lid blk tid c f => if lid = b.lid ∧ blk = b.blk ∧ tid = s.tidNo t then some (c, f) else none
    | _ => none
  match s.freeSeqs 1 65536 0 with
  | [] => s
  | c :: _ =>
    if (match due with | some x => x != (c, q.forks) | none => false) then s.waitLanes [t] .edge
    else if s.poisoned (l.getD 0 [] ++ l.getD 1 []) || s.heldBy (l.getD 2 []) || s.heldBy (l.getD 3 []) then s.waitLanes [t] .poison
    else
      let r1 := s.homeAll (l.getD 0 [])
      let s := r1.2.homeWrite q.asid ((l.getD 2 []).zip r1.1)
      let r2 := s.homeAll (l.getD 1 [])
      let s := r2.2.homeWrite q.asid ((l.getD 3 []).zip r2.1)
      let s := s.modSeq p fun q => { q with forks := (q.forks + 1) % 65536 }
      let f : Fork := { parent := p, child := c, f := q.forks, fmap := area, pen := childPen q area, base := q }
      let s := { s with seqs := tset c { reserved := true, job := q.job, asid := q.asid } s.seqs, forks := s.forks ++ [f] }
      let r : Rec := .fork b.lid b.blk (s.tidNo t) c q.forks
      ((s.record (s.jobNo t) r).passRec r).finishLane h t (writeDst d (word c))

/-- What a fork of sequence q into the area at b reads and writes (R308): FMAP, penalty bytes, and their places there. -/
def forkSpans (q : Seq) (b : Word) : List (Acc × Word × Nat) :=
  [(.read, q.fmap, fmapBytes q), (.read, q.pen, q.penlen), (.write, b, fmapBytes q), (.write, childPen q b, q.penlen)]

/-- seq.fork (R308): the slot checks, the address check (R74), then the translation of FMAP, the penalty bytes and the
child area under the sequence's context (R210, R350), then each lane's fork. -/
def execSeqFork (h : Hdr) (d : Dst) (a b : Src) (s : State) : Out :=
  let act := s.active h.guard
  let seq := fun t => seqNo (s.src t a)
  let full := (s.freeSeqs act.length 65536 0).length < act.length
  let checks : List (Nat → Option TrapInfo) :=
    [slotChk 1 fun t => s.seqBad t (seq t),
     slotChk 3 fun t => bits (s.src t a) 16 48 != 0 || bits (s.src t b) 0 6 != 0,
     slotChk 4 fun t => !((s.seqE (seq t)).state == 2 || ((s.seqE (seq t)).state == 3 && !(s.seqE (seq t)).done)),
     slotChk 5 fun _ => full,
     slotChk 6 s.seqDenied,
     fun t => ((forkSpans (s.seqE (seq t)) (s.src t b)).find? fun e => e.2.2 != 0 && !spanCanonical e.2.1 e.2.2).map fun e =>
       memTrap 1 e.2.1]
  .next (match firstTrap act checks with
    | some ti => s.trapGroup ti
    | none =>
      let spans := fun t => forkSpans (s.seqE (seq t)) (s.src t b)
      let one := fun (r : List (Nat × LaneX) × State) (t : Nat) =>
        let q := r.2.xlateUnder t (s.seqE (seq t)).asid (spans t)
        (r.1 ++ [(t, q.1)], q.2)
      let r := act.foldl one ([], s)
      r.2.splitGroup h r.1 (fun x => memTrap 4 x.va) 1 fun good s =>
        good.foldl (fun s e => s.forkLane h d e.1 (seqNo (s.src e.1 a)) (s.src e.1 b) e.2) s)

end Sys2Proof.Machine
end

