-- ==== Sys2Proof/Machine/Slide.lean ====
section
/-! DEFINITION. The slot engine at a phase boundary: the KV page pool (R357), page chains (R355, R356), forks (R308),
commits and the window's slide (R301-R306), prompt chains (R304), releases and swaps (R307, R358, R361), and
requantisation (R309, R359). -/
namespace Sys2Proof.Machine

open Sys2Proof

/-! ### Work that is applied whole or not at all (R305, R358)

Work on one sequence runs in a state of its own, which remembers the pool pages taken. It fails where the pool is empty
or a translation fails, and waits where a poisoned line is met (R388). -/

/-- Work under way: the state, and the pages taken, latest first. -/
structure Se where
  s : State
  took : List Word := []
  freed : List Word := []

/-- Why work stopped: a poisoned line, or else a failure; with the free-value counter and the pages taken. -/
structure SeErr where
  wait : Bool
  ctr : Nat
  took : List Word

abbrev SeM (α : Type) := Except SeErr α

/-- Work fails. -/
def Se.fail {α : Type} (w : Se) : SeM α := .error { wait := false, ctr := w.s.ctr, took := w.took }

/-- Bytes read at home, as the slot engine's accesses are: under the sequence's context, at supervisor level. -/
def Se.read (w : Se) (asid : Nat) (va : Word) (n : Nat) : SeM (List Byte × Se) :=
  if n ≠ 0 ∧ ¬spanCanonical va n then w.fail
  else match w.s.xlateSpan asid 1 .read va n with
    | (.error _, s) => ({ w with s := s } : Se).fail
    | (.ok l, s) =>
      if s.poisoned l then .error { wait := true, ctr := s.ctr, took := w.took }
      else let r := s.homeAll l; .ok (r.1, { w with s := r.2 })

/-- Bytes written at home. -/
def Se.write (w : Se) (asid : Nat) (va : Word) (bs : List Byte) : SeM Se :=
  if bs.length ≠ 0 ∧ ¬spanCanonical va bs.length then w.fail
  else match w.s.xlateSpan asid 1 .write va bs.length with
    | (.error _, s) => ({ w with s := s } : Se).fail
    | (.ok l, s) =>
      let s' := s.homeWrite asid (l.zip bs)
      if s'.poisoned l then .error { wait := true, ctr := s.ctr, took := w.took } else .ok { w with s := s' }

def Se.words (w : Se) (asid : Nat) (va : Word) (n : Nat) : SeM (List Word × Se) :=
  (w.read asid va (8 * n)).map fun r => (wordsOf n r.1, r.2)

def Se.putWord (w : Se) (asid : Nat) (va v : Word) : SeM Se := w.write asid va (leBytes 8 v.toNat)

/-! ### The page pool (R357) -/

/-- The pool descriptor of a context, where it has a usable one. -/
def Se.pool (w : Se) (asid : Nat) : SeM (Option (Word × List Word) × Se) :=
  let d := (w.s.ctx asid).kvpool
  if d = 0 then .ok (none, w)
  else do
    let (ws, w) ← w.words asid d 8
    let bad := bits (wordAt ws 3) 32 32 != 0 || bits (wordAt ws 3) 0 32 == 0 || (ws.drop 4).any (· != 0)
    pure (if bad then none else some (d, ws), w)

/-- The ring slot of a count. -/
def poolSlot (ws : List Word) (n : Word) : Word := wordAt ws 2 + word (8 * (n.toNat % bits (wordAt ws 3) 0 32))

/-- Taking a page: an empty pool fails. -/
def Se.take (w : Se) (asid : Nat) : SeM (Word × Se) := do
  let (p, w) ← w.pool asid
  match p with
  | none => w.fail
  | some (d, ws) =>
    if wordAt ws 0 = wordAt ws 1 then w.fail
    else
      let (pg, w) ← w.words asid (poolSlot ws (wordAt ws 0)) 1
      let w ← w.putWord asid d (wordAt ws 0 + 1)
      pure (wordAt pg 0, { w with took := wordAt pg 0 :: w.took })

/-- Returning a page; with no usable pool there is nowhere to return it to. -/
def Se.give (w : Se) (asid : Nat) (pg : Word) : SeM Se := do
  let (p, w) ← w.pool asid
  match p with
  | none => pure w
  | some (d, ws) =>
    let w ← w.putWord asid (poolSlot ws (wordAt ws 1)) pg
    w.putWord asid (d + 8) (wordAt ws 1 + 1)

/-- Returning pages in order, outside any work that may fail. -/
def State.giveBack (s : State) (asid : Nat) (pgs : List Word) : State :=
  pgs.foldl (fun s pg => match ({ s := s } : Se).give asid pg with | .ok w => w.s | .error e => { s with ctr := e.ctr }) s

/-- Taking pages only, as work that failed has taken them. -/
def State.takeAgain (s : State) (asid n : Nat) : State :=
  (List.range n).foldl (fun s _ => match ({ s := s } : Se).take asid with | .ok r => r.2.s | .error e => { s with ctr := e.ctr }) s

/-- What a piece of work came to. -/
inductive SeRes where
  | done (s : State)
  | failed (s : State)
  | waits

/-- Work run to its end: where it fails nothing of it is applied, and every page it took is returned in order. -/
def State.runSe (s : State) (asid : Nat) (f : Se → SeM Se) : SeRes :=
  match f { s := s } with
  | .ok w => .done w.s
  | .error e =>
    if e.wait then .waits
    else .failed ((({ s with ctr := e.ctr } : State).takeAgain asid e.took.length).giveBack asid e.took.reverse)

/-! ### Pages and chains (R355, R356) -/

/-- A page header. -/
structure Page where
  next : Word
  first : Nat
  seq : Nat
  gen : Nat
  fmt : Nat
  fill : Nat
  refs : Nat
  kvs : Nat
  cap : Nat
  deriving DecidableEq, Repr

def pageBytes : Nat := 65536

/-- The four header words that hold fields. -/
def Page.words (p : Page) : List Word :=
  [p.next, word (p.first % 2 ^ 32 * 2 ^ 32 + p.seq % 65536), word (p.gen % 65536 * 2 ^ 48 + p.fmt % 16 * 2 ^ 16 + p.fill % 65536),
   word (p.refs % 65536 * 2 ^ 48 + p.kvs % 65536 * 2 ^ 32 + p.cap % 65536)]

def pageOf (ws : List Word) : Page :=
  let w1 := wordAt ws 1
  let w2 := wordAt ws 2
  let w3 := wordAt ws 3
  { next := wordAt ws 0, first := bits w1 32 32, seq := bits w1 0 16, gen := bits w2 48 16, fmt := bits w2 16 4,
    fill := bits w2 0 16, refs := bits w3 48 16, kvs := bits w3 32 16, cap := bits w3 0 16 }

def Se.page (w : Se) (asid : Nat) (va : Word) : SeM (Page × Se) := (w.words asid va 4).map fun r => (pageOf r.1, r.2)

def Se.setPage (w : Se) (asid : Nat) (va : Word) (p : Page) : SeM Se :=
  w.write asid va (p.words.flatMap fun v => leBytes 8 v.toNat)

/-- The pages of a chain in order, with their headers. -/
def Se.chain (w : Se) (asid : Nat) : Nat → Word → SeM (List (Word × Page) × Se)
  | 0, _ => .ok ([], w)
  | n + 1, va =>
    if va = 0 then .ok ([], w)
    else do
      let (p, w) ← w.page asid va
      let (l, w) ← w.chain asid n p.next
      pure ((va, p) :: l, w)

/-- Pages that a chain of a sequence may have. -/
def chainFuel : Nat := 2 ^ 32

def Se.chainOf (w : Se) (n : Nat) : SeM (List (Word × Page) × Se) :=
  let q := w.s.seqE n
  w.chain q.asid chainFuel q.kvroot

/-- KVSTRIDE of a sequence's job. -/
def State.kvStride (s : State) (n : Nat) : Nat := (s.job (s.seqE n).job).kvstride

def strideOk (k : Nat) : Bool := 64 ≤ k && k ≤ 65472 && k % 64 == 0

/-- Linking a page behind the chain's page before it, or as KVROOT. -/
def Se.link (w : Se) (n : Nat) (pred : Option (Word × Page)) (va : Word) : SeM Se :=
  match pred with
  | none => .ok { w with s := w.s.modSeq n fun q => { q with kvroot := va } }
  | some (pv, p) => w.setPage (w.s.seqE n).asid pv { p with next := va }

/-- A new page from the pool: its header, and zeroed data. -/
def Se.newPage (w : Se) (n first : Nat) : SeM ((Word × Page) × Se) := do
  let k := w.s.kvStride n
  let asid := (w.s.seqE n).asid
  let (va, w) ← w.take asid
  let p : Page := { next := 0, first, seq := n, gen := 0, fmt := 0, fill := 0, refs := 1, kvs := k, cap := 65472 / k }
  let w ← w.write asid va ((p.words.flatMap fun v => leBytes 8 v.toNat) ++ List.replicate (pageBytes - 32) 0)
  pure ((va, p), w)

/-- A page that loses its last link is freed; a replacement of it that no chain links is given up at the boundary's end. -/
def Se.unlinked (w : Se) (asid : Nat) (va : Word) : Se :=
  { w with s := { w.s with requants := w.s.requants.filter fun r => !(r.asid == asid && r.old == va && r.used) }, freed := w.freed ++ [va] }

/-- The page at place i replaced by a copy of it, as it stands at home; links are still to be made. -/
def Se.copyPage (w : Se) (n : Nat) (ch : List (Word × Page)) (i : Nat) : SeM (List (Word × Page) × Se) :=
  match ch[i]? with
  | none => .ok (ch, w)
  | some (va, p) => do
    let asid := (w.s.seqE n).asid
    let (nv, w) ← w.take asid
    let (bs, w) ← w.read asid va pageBytes
    let c : Page := { p with refs := 1, gen := p.gen + 1 }
    let w ← w.write asid nv bs
    let w ← w.setPage asid nv c
    let w ← w.setPage asid va { p with refs := p.refs - 1 }
    pure (ch.set i (nv, c), if p.refs ≤ 1 then w.unlinked asid va else w)

/-- Whether the page at a place is linked by other chains, or has been by chains that now link its requantised form. -/
def Se.shared (w : Se) (n : Nat) (ch : List (Word × Page)) (i : Nat) : Bool :=
  match ch[i]? with
  | some e => 1 < e.2.refs || w.s.requants.any fun r => r.asid == (w.s.seqE n).asid && r.old == e.1 && r.used
  | none => false

/-- The address of the page at a place. -/
def pageAt (ch : List (Word × Page)) (i : Nat) : Word := ((ch[i]?).map (·.1)).getD 0

/-- Copy on write (R358 step 3): before the page at a place is written, a page that other chains link is copied, and the
page before it, or KVROOT, relinked to the copy. Relinking writes the page before it, which is copied first in its turn
where it is shared. -/
def Se.own (w : Se) (n : Nat) (ch : List (Word × Page)) : Nat → SeM (List (Word × Page) × Se)
  | 0 =>
    if !w.shared n ch 0 then .ok (ch, w)
    else do
      let (ch, w) ← w.copyPage n ch 0
      let w ← w.link n none (pageAt ch 0)
      pure (ch, w)
  | i + 1 =>
    if !w.shared n ch (i + 1) then .ok (ch, w)
    else do
      let (ch, w) ← w.copyPage n ch (i + 1)
      let va := pageAt ch (i + 1)
      let (ch, w) ← w.own n ch i
      let w ← w.link n ch[i]? va
      pure (ch.modify i fun e => (e.1, { e.2 with next := va }), w)

/-- Extension (R358 step 2): pages are appended until the chain reaches position p. -/
def Se.extend (w : Se) (n p : Nat) : Nat → List (Word × Page) → SeM (List (Word × Page) × Se)
  | 0, ch => .ok (ch, w)
  | fuel + 1, ch =>
    match ch.getLast? with
    | none => do
      let (e, w) ← w.newPage n 0
      let w ← w.link n none e.1
      w.extend n p fuel [e]
    | some last =>
      if p < last.2.first + last.2.cap then .ok (ch, w)
      else if last.2.cap = 0 then w.fail
      else do
        let i := ch.length - 1
        let (e, w) ← w.newPage n (last.2.first + last.2.cap)
        let (ch, w) ← w.own n ch i
        let w ← w.link n ch[i]? e.1
        w.extend n p fuel ((ch.modify i fun x => (x.1, { x.2 with next := e.1 })) ++ [e])

/-! ### Forks (R308, R358 step 1) -/

/-- The child that a fork makes: the parent's entry as of the last boundary, but for its own key, counters, areas and
state; its stream never releases what was final already. -/
def Fork.child_ (f : Fork) : Seq :=
  { f.base with
    key := rngMix f.base.key (word f.f), ctr := 0, forks := 0, fmap := f.fmap, pen := f.pen, state := 2, reserved := false
    inherit := f.base.inherit ++ ((List.range f.base.weff).filter fun i => f.base.slotState i == 2).map (f.base.wbase + ·) }

/-- The pending forks of a parent: each page of its chain gains a reference, and the child appears. -/
def Se.forks (w : Se) (n : Nat) : SeM Se :=
  (w.s.forks.filter fun f => f.parent == n).foldlM (fun (w : Se) f => do
    let (ch, w) ← w.chainOf n
    let w ← ch.foldlM (fun (w : Se) e => w.setPage (w.s.seqE n).asid e.1 { e.2 with refs := e.2.refs + 1 }) w
    let child := { f.child_ with kvroot := (w.s.seqE n).kvroot }
    pure { w with s := { w.s with seqs := tset f.child child w.s.seqs } }) w

/-! ### The rule of a phase (R301, R302) -/

/-- A slot's state and token. -/
abbrev SlotVal := Nat × BitVec 32

/-- R301: the new state of an open slot with a kept submission. -/
def slotRule (q : Seq) (old : Nat) (sub : BitVec 16 × BitVec 32) : SlotVal :=
  if f16Le q.thf sub.1 then (2, sub.2)
  else if f16Le (if old = 0 then q.tht else q.thr) sub.1 then (1, sub.2)
  else (0, noTok)

/-- The slot that R302 makes final: the greatest kept confidence, lowest index first, where none reaches the final
threshold. -/
def forced (q : Seq) (subs : List (Nat × (BitVec 16 × BitVec 32))) : Option Nat :=
  if subs.any fun e => f16Le q.thf e.2.1 then none
  else (subs.foldl (fun (m : Option (Nat × BitVec 16)) e => match m with
    | none => some (e.1, e.2.1)
    | some (i, c) => if f16Le e.2.1 c then some (i, c) else some (e.1, e.2.1)) none).map (·.1)

/-- Every slot after the phase, in increasing index, from the open slots' kept submissions in increasing index. -/
def Seq.outcome (q : Seq) (subs : List (Nat × (BitVec 16 × BitVec 32))) : List SlotVal :=
  let f := forced q subs
  (List.range q.weff).map fun i =>
    match subs.lookup i with
    | some sub => if f = some i then (2, sub.2) else slotRule q (q.slotState i) sub
    | none => (q.slotState i, q.tokAt i)

/-- The kept submissions of a sequence's open slots. -/
def State.subsOf (s : State) (n : Nat) : List (Nat × (BitVec 16 × BitVec 32)) :=
  (List.range 64).filterMap fun i =>
    if (s.seqE n).isOpen i then (tget? s.subs (64 * n + i)).map fun v => (i, v) else none

/-- Slots that a phase makes final. -/
def Seq.newFinal (q : Seq) (out : List SlotVal) : List Nat :=
  (List.range out.length).filter fun i => (out.getD i (0, noTok)).1 == 2 && q.slotState i != 2

/-- Consecutive final slots from slot 0. -/
def leadOf (out : List SlotVal) : Nat := (out.takeWhile fun v => v.1 == 2).length

/-- The window slides (R303). -/
def Seq.slide (q : Seq) (out : List SlotVal) : Seq :=
  let lead := leadOf out
  let rest := out.drop lead
  let q : Seq := { q with
    wbase := q.wbase + lead
    smap := rest.zipIdx.foldl (fun m e => tput 0 e.2 e.1.1 m) []
    tok := rest.zipIdx.foldl (fun m e => tput noTok e.2 e.1.2 m) []
    ctr := q.ctr + 64 }
  if q.wbase = q.lend then { q with done := true, state := 3 } else q

/-- The tokens released, with their positions (R306): of a fork's child only positions that became final after its
creation (R308). After MODE has changed from 1 to 0, a position that was released as it became final is released again as
the final prefix reaches it: R306's 'once each' speaks of one mode, and this is the model's choice (log 79). -/
def Seq.released (q : Seq) (out : List SlotVal) : List (Nat × BitVec 32) :=
  let l := if q.mode then q.newFinal out else (List.range (leadOf out)).filter fun i => !q.inherit.contains (q.wbase + i)
  l.map fun i => (q.wbase + i, (out.getD i (0, noTok)).2)

/-! ### Commits (R305, R303) -/

/-- Setting FMAP bits. -/
def Se.fmapSet (w : Se) (n p : Nat) : SeM Se := do
  let q := w.s.seqE n
  let a := q.fmap + word (p / 8)
  let (b, w) ← w.read q.asid a 1
  w.write q.asid a (leBytes 1 (leNat b ||| 2 ^ (p % 8)))

/-- One position committed: its scratch KV into its page, FILL, and the FMAP bit. j is the sequence's place in the
batch. -/
def Se.commit (w : Se) (n j i : Nat) : SeM Se := do
  let q := w.s.seqE n
  let k := w.s.kvStride n
  let p := q.wbase + i
  if !strideOk k then w.fail
  else
    let (ch, w) ← w.chainOf n
    let (ch, w) ← w.extend n p (p + 2) ch
    match ch.findIdx? fun e => e.2.first ≤ p && p < e.2.first + e.2.cap with
    | none => w.fail
    | some x =>
      let (ch, w) ← w.own n ch x
      let src := (w.s.job q.job).scrbase + word ((j * 64 + i) * k)
      match ch[x]? with
      | none => w.fail
      | some (va, pg) =>
        let (bs, w) ← w.read q.asid src k
        let w ← w.write q.asid (va + word (64 + (p - pg.first) * k)) bs
        let w ← w.setPage q.asid va { pg with fill := pg.fill + 1 }
        w.fmapSet n p

/-- The end of a prefill phase (R303): FMAP below WBASE, FILL of every page, an empty window, STATE 2. -/
def Se.prefill (w : Se) (n : Nat) : SeM Se := do
  let q := w.s.seqE n
  let w ← (List.range q.wbase).foldlM (fun (w : Se) p => w.fmapSet n p) w
  let (ch, w) ← w.chainOf n
  let (_, w) ← (List.range ch.length).foldlM (fun (r : List (Word × Page) × Se) i => do
    let (ch, w) ← r.2.own n r.1 i
    match ch[i]? with
    | none => pure (ch, w)
    | some (va, pg) =>
      let w ← w.setPage q.asid va { pg with fill := min pg.cap (q.wbase - pg.first) }
      pure (ch, w)) (ch, w)
  pure { w with s := w.s.modSeq n fun q => { q with smap := [], tok := [], state := 2 } }

/-! ### Requantisation (R309, R359) -/

/-- Relinking a chain from an old page to its new one, which takes over NEXT as it stands. Writing the NEXT of the page before
it moves every chain through that page; each chain moved is a reference that the old page loses and the new one gains, and
the old page is freed with the last (R355, R359). -/
def Se.relink (w : Se) (n : Nat) (r : Requant) : SeM Se := do
  let asid := (w.s.seqE n).asid
  let (ch, w) ← w.chainOf n
  match ch.findIdx? fun e => e.1 == r.old with
  | none => pure w
  | some i =>
    match ch[i]? with
    | none => pure w
    | some (_, old) =>
      let pred := if i = 0 then none else ch[i - 1]?
      let moved := match pred with | some p => p.2.refs | none => 1
      let (np, w) ← w.page asid r.new
      let w ← w.setPage asid r.new { np with next := old.next, refs := (if r.used then np.refs else 0) + moved }
      let w ← w.setPage asid r.old { old with refs := old.refs - moved }
      let w ← w.link n pred r.new
      let w : Se := { w with s := { w.s with requants := w.s.requants.map fun x => if x = r then { x with used := true } else x } }
      pure (if old.refs ≤ moved then w.unlinked asid r.old else w)

/-- Whether some chain of a context still links a page; chains that do not read through link none. -/
def State.linked (s : State) (asid : Nat) (pg : Word) : Bool :=
  s.seqs.any fun e => e.2.asid == asid && !e.2.reserved &&
    (match ({ s := s } : Se).chain asid chainFuel e.2.kvroot with
      | .ok (ch, _) => ch.any fun x => x.1 == pg
      | .error _ => false)

/-- The requantised pages of a sequence's chain that are ready are relinked (R358 step 5). A swapped chain is left alone. -/
def Se.requants (w : Se) (n : Nat) : SeM Se :=
  let q := w.s.seqE n
  if q.state = 4 then .ok w
  else (w.s.requants.filter fun r => r.asid == q.asid && r.ready).foldlM (fun (w : Se) r => w.relink n r) w

/-- A pool page taken for a page of the chain that Imago has handed over (R359); an empty pool leaves it for a later
boundary. -/
def Se.requantTakes (w : Se) (n : Nat) : SeM Se :=
  let asid := (w.s.seqE n).asid
  let mine := w.s.requants.filter fun r => r.asid == asid && r.seq == n && r.new == 0
  mine.foldlM (fun (w : Se) r => match w.take asid with
    | .ok (pg, w) => .ok { w with s := { w.s with requants := w.s.requants.map fun x => if x = r then { x with new := pg } else x } }
    | .error e => if e.wait then .error e else .ok w) w

/-- Returning what relinks freed (R358 step 6). -/
def Se.returns (w : Se) (asid : Nat) : SeM Se := do
  let w ← w.freed.foldlM (fun (w : Se) pg => w.give asid pg) w
  pure { w with freed := [] }

/-! ### Pass 1 (R358) -/

/-- A sequence's place in its job's batch of the phase that ends, where it takes part; a job cancelled during the phase
counts as one whose phase was cancelled (R314, R339). -/
def State.batchPlace (s : State) (n : Nat) : Option Nat :=
  let j := s.job (s.seqE n).job
  if j.took then j.batch.findIdx? (· == n) else none

/-- The commits of a sequence in the batch. -/
def Se.phase (w : Se) (n : Nat) : SeM Se :=
  let q := w.s.seqE n
  match w.s.batchPlace n with
  | none => .ok w
  | some j =>
    if q.state = 2 then do
      let out := q.outcome (w.s.subsOf n)
      let w ← (q.newFinal out).foldlM (fun (w : Se) i => w.commit n j i) w
      let slid := if (w.s.job q.job).phaseCancelled then fun (x : Seq) => { x with ctr := x.ctr + 64 } else fun x => x.slide out
      pure { w with s := w.s.modSeq n slid }
    else if q.state = 1 ∧ ¬(w.s.job q.job).phaseCancelled then w.prefill n
    else .ok w

/-- The body of a TOKENS message (R410). -/
def tokensBody (n job : Nat) (mode : Bool) (phase : Word) (rel : List (Nat × BitVec 32)) : List Word :=
  [word (rel.length * 2 ^ 32 + mode.toNat * 2 ^ 24 + job % 256 * 2 ^ 16 + n % 65536), phase]
    ++ rel.map fun t => word (t.1 * 2 ^ 32 + t.2.toNat)

/-- The slot engine's work on a sequence fails: Imago reports its engine and the SEQ (log 30). -/
def State.seFails (s : State) (n : Nat) : State :=
  let q := s.seqE n
  s.reportHeld (1064 + Config.seqDie n % 4) 4 0 (word n) 0 (s.ctx q.asid).partNo q.asid

/-- The TOKENS message of a sequence (R306, R410). -/
def State.tokens (s : State) (n : Nat) (q : Seq) (rel : List (Nat × BitVec 32)) (phase : Word) : State :=
  if rel.isEmpty then s
  else (s.send fun r => .tokens q.conn r q.asid n q.job q.mode phase rel).release q.job (tokensBody n q.job q.mode phase rel)

/-- Pass 1 for one sequence: its forks, commits, relinks and returns, applied whole; where that fails, the sequence is
paused, its forks are dropped, and Imago reports (R305). Relinks of a child made here whose turn in the pass has gone by
are made in its parent's turn (R359). none: a poisoned line is met. -/
def State.pass1 (s : State) (n : Nat) (phase : Word) : Option State :=
  let q := s.seqE n
  let rel := if q.state = 2 ∧ (s.batchPlace n).isSome ∧ ¬(s.job q.job).phaseCancelled then q.released (q.outcome (s.subsOf n)) else []
  let early := (s.forks.filter fun f => f.parent == n && f.child < n).map (·.child)
  let r := s.runSe q.asid fun w => do
    let w ← w.forks n
    let w ← w.phase n
    let w ← (n :: early).foldlM Se.requants w
    let w ← w.requantTakes n
    w.returns q.asid
  match r with
  | .done s => some (s.tokens n q rel phase)
  | .waits => none
  | .failed s =>
    let kids := (s.forks.filter fun f => f.parent == n).map (·.child)
    let s := { s with seqs := s.seqs.filter fun e => !(kids.contains e.1 && e.2.reserved) }
    some ((s.modSeq n fun q => { q with state := 3 }).seFails n)

/-! ### Pass 2 (R304) -/

/-- Building the prompt chain of a waiting sequence. -/
def Se.prompt (w : Se) (n : Nat) : SeM Se :=
  let q := w.s.seqE n
  let k := w.s.kvStride n
  if q.kvroot ≠ 0 then .ok w
  else if !strideOk k then w.fail
  else
    let cap := 65472 / k
    let cnt := (max q.wbase 1 + cap - 1) / cap
    do
      let (_, w) ← (List.range cnt).foldlM (fun (r : Option (Word × Page) × Se) i => do
        let (e, w) ← r.2.newPage n (i * cap)
        let w ← w.link n r.1 e.1
        pure (some e, w)) (none, w)
      pure w

/-- A waiting sequence of a running job moves to prefill. -/
def State.pass2 (s : State) (n : Nat) : Option State :=
  let q := s.seqE n
  if q.state ≠ 0 ∨ q.reserved ∨ (s.job q.job).state ≠ 2 then some s
  else match s.runSe q.asid fun w => w.prompt n with
    | .done s => some (s.modSeq n fun q => { q with state := 1 })
    | .waits => none
    | .failed s => some (s.seFails n)

/-! ### Pass 3 (R307, R358, R361) -/

/-- A chain copied to the swap store, and its leaves made invalid (R361). -/
def Se.swapOut (w : Se) (n : Nat) : SeM Se := do
  let asid := (w.s.seqE n).asid
  let (ch, w) ← w.chainOf n
  let (pgs, w) ← ch.foldlM (fun (r : List SwapPage × Se) e => do
    let (bs, w) ← r.2.read asid e.1 pageBytes
    let leaf := ((w.s.leafOf asid e.1).map fun x => x.2.2).getD 0
    pure (r.1 ++ [{ va := e.1, leaf, data := Memory.writeN [] 0 bs }], w)) ([], w)
  let s := pgs.foldl (fun s p => match s.leafOf asid p.va with
    | some (a, _, e) =>
      let va := vaBits p.va
      ((s.putEntry asid a (e &&& ~~~(1 : Word))).dropFrame (ptePa e)).tlbDrop fun t => t.overlaps asid va (va + pageBytes)
    | none => s) w.s
  pure { w with s := { s with swaps := tset n pgs s.swaps } }

/-- A swapped chain mapped again at the same addresses with the same contents (R361). -/
def Se.swapIn (w : Se) (n : Nat) : SeM Se := do
  let asid := (w.s.seqE n).asid
  let w ← (tget [] w.s.swaps n).foldlM (fun (w : Se) p =>
    match (if (w.s.leafOf asid p.va).isSome then some w.s else w.s.mapPage asid p.va (bits p.leaf 0 5)) with
    | none => w.fail
    | some s => match s.writeMapped asid p.va (p.data.readN 0 pageBytes) with
      | none => w.fail
      | some s => pure { w with s := s }) w
  pure { w with s := { w.s with swaps := tdel n w.s.swaps } }

/-- A release: every header first, then references fall in chain order, and pages that reach 0 go back to the pool. -/
def Se.release (w : Se) (n : Nat) : SeM Se := do
  let asid := (w.s.seqE n).asid
  let w ← w.swapIn n
  let (ch, w) ← w.chainOf n
  let w ← ch.foldlM (fun (w : Se) e => do
    let w ← w.setPage asid e.1 { e.2 with refs := e.2.refs - 1 }
    if e.2.refs ≤ 1 then w.give asid e.1 else pure w) w
  pure { w with s := { w.s with seqs := tdel n w.s.seqs } }

/-- One operation of seq.st, or of a CTRL message, at the boundary. -/
def State.seqRequest (s : State) (n op : Nat) : Option State :=
  let q := s.seqE n
  let run := fun (f : Se → SeM Se) (st : State → State) => match s.runSe q.asid f with
    | .done s => some (st s)
    | .waits => none
    | .failed s => some (s.seFails n)
  match op with
  | 0 => some (s.modSeq n fun q => { q with state := 3 })
  | 1 => run (fun w => w.swapIn n) fun s => s.modSeq n fun q => { q with state := 2 }
  | 2 => run (fun w => w.swapOut n) fun s => s.modSeq n fun q => { q with state := 4 }
  | _ => run (fun w => w.release n) id

/-- The requests of a phase on one sequence: slot.cfg, priority, the kernels' operation, and then Imago's where the
state still allows it. -/
def State.pass3 (s : State) (n : Nat) : Option State :=
  if (tget? s.seqs n).isNone then some s
  else
    let s := match tget? s.cfgs n with
      | some c => s.modSeq n fun q => { q with mode := c.mode, thf := c.thf, tht := c.tht, thr := c.thr }
      | none => s
    let s := match tget? s.prios n with | some p => s.modSeq n fun q => { q with prio := p } | none => s
    let s := match tget? s.sts n with | some op => s.seqRequest n op | none => some s
    match s with
    | none => none
    | some s => match tget? s.ctls n with
      | some op => if (tget? s.seqs n).isSome && (s.seqE n).allows op then s.seqRequest n op else some s
      | none => some s

end Sys2Proof.Machine
end

