-- ==== Sys2Proof/Machine/Boundary.lean ====
section
/-! DEFINITION. The phase boundary (R88, R327-R332, R429): its conditions, its six steps, the step builder, the
instantiation of graphs, and the prefetch engine's requantisation (R359). -/
namespace Sys2Proof.Machine

open Sys2Proof

/-! ### What a domain holds (R327, R402) -/

/-- Enabled partitions of a domain, in increasing number. -/
def State.domParts (s : State) (d : Nat) : List Nat := (s.parts.filter fun e => e.2.en && s.domOf e.1 == d).map (·.1)

/-- Whether a context belongs to a domain. -/
def State.inDom (s : State) (d asid : Nat) : Bool := (s.ctx asid).valid && (s.domParts d).contains (s.ctx asid).partNo

/-- Jobs of a domain, in increasing number. -/
def State.domJobs (s : State) (d : Nat) : List Nat := (s.jobs.filter fun e => e.2.state != 0 && s.inDom d e.2.asid).map (·.1)

/-- Sequences of a domain, in increasing SEQ, but for forks still to be created. -/
def State.domSeqs (s : State) (d : Nat) : List Nat := (s.seqs.filter fun e => !e.2.reserved && s.inDom d e.2.asid).map (·.1)

/-! ### When a boundary runs (R327, R402, R429) -/

/-- Whether a job that takes part in the phase has closed it, and its graph has completed, every ordered add of it applied. -/
def State.jobClosed (s : State) (j : Nat) : Bool :=
  let e := s.job j
  !e.took || ((e.closed || e.state == 5) && s.allSettled e &&
    (match tget? s.graphs (gkey e.asid e.gcur) with | some g => g.st != 1 | none => true))

/-- A domain runs a boundary only while it holds a job that is running or admitted, or whose resume is pending. -/
def State.hasWork (s : State) (d : Nat) : Bool :=
  (s.domJobs d).any fun j => let e := s.job j; e.state == 1 || e.state == 2 || (e.state == 3 && e.reqs.contains .resume)

/-- A partition of which a context stands in an image that can be restored, saved between a job's close of the phase and its
boundary: the boundary runs after its restore (R341). A context that has been restored since, and saved again, is not
waited for: two contexts that take turns would else put the boundary off for ever. -/
def State.awaitsRestore (s : State) (p : Nat) : Bool :=
  s.images.any fun i => i.live && !i.halted && (s.ctx i.asid).partNo == p && s.jobs.any fun e => e.2.asid == i.asid && e.2.closeSaved == 1

/-- Every access of the phase comes before its boundary (R88, R426): no copy of the domain is in flight. -/
def State.copiesHome (s : State) (d : Nat) : Bool :=
  s.cores.all fun c => c.2.copies.isEmpty || !(match s.partOfEng c.1 with | some p => (s.domParts d).contains p | none => false)

/-- Whether every member device of a joined domain has come to a step of a phase's boundary (R402): 0, its close conditions
hold; 1, it has completed steps 1 and 2 of R88; 2, it has finished step 5 of R328. -/
def State.membersAt (s : State) (d : Nat) (phase : Word) (step : Nat) : Bool :=
  (tget [] s.domRemote d).all fun v => match tget? s.domDone (2048 * d + v) with
    | some (ph, k) => phase.toNat < ph.toNat || (ph == phase && step ≤ k)
    | none => false

/-- The phase of a domain. -/
def State.domPhase (s : State) (d : Nat) : Word := (s.part ((s.domParts d).headD 0)).phase

/-- Whether a domain's boundary may begin now: every partition of it can, every job has closed, on every member, and the domain
has work, on any member (R327, R402, R429). -/
def State.boundaryDue (s : State) (d : Nat) : Bool :=
  !(s.domParts d).isEmpty && !((s.domParts d).any s.awaitsRestore)
    && ((s.domParts d).all fun p => (s.part p).halt.isNone && (s.part p).saving.isNone)
    && !s.unreachable.contains d && s.membersAt d (s.domPhase d) 0 && (s.hasWork d || !(tget [] s.domRemote d).isEmpty)
    && (s.domJobs d).all s.jobClosed && s.copiesHome d

/-! ### Step 1: write-backs (R88 steps 1 and 2) -/

/-- Whether an engine's stores are written back at a domain's boundary: those of its partitions, and the stewards', which
belong to none (log 16). -/
def State.engInDom (s : State) (d e : Nat) : Bool :=
  864 ≤ e || (match s.partOfEng e with | some p => (s.domParts d).contains p | none => false)

/-- Every engine's stores, of running and of saved contexts, in increasing core number. -/
def State.domStores (s : State) (d : Nat) : List (Nat × EngMem) :=
  let here := s.emem.filter fun e => s.engInDom d e.1
  let saved := (s.images.filter fun i => i.live && s.inDom d i.asid).flatMap fun i => i.emem
  sortBy (fun (e : Nat × EngMem) => (e.1, 0, 0)) (here ++ saved)

/-- Whether a line that write-backs would write in part is poisoned: the boundary waits for it (R388). -/
def State.storesHeld (s : State) (d : Nat) : Bool :=
  (s.domStores d).any fun e => s.heldBy (e.2.dueBytes (fun _ => true) fun _ => true)

/-- One engine's stores that are not home yet, in the order of issue. -/
def State.flush (s : State) (e : EngMem) : State :=
  ((e.due fun _ => true).foldl (fun s st => s.homeWrite st.asid (st.data.filter fun b => !e.newerHome st.seq b.1)) s).clean
    (e.dueBytes (fun _ => true) fun _ => true)

/-- An engine's memory after the boundary: nothing stored, nothing refreshed. -/
def EngMem.clear (e : EngMem) : EngMem := { e with stores := [], fresh := [] }

def State.writeBackAll (s : State) (d : Nat) : State :=
  let s' := (s.domStores d).foldl (fun s e => s.flush e.2) s
  { s' with emem := s'.emem.map fun e => if s.engInDom d e.1 then (e.1, e.2.clear) else e }

/-! ### Step 2: the slot engine (R358) -/

/-- Pages that Imago hands to the prefetch engine (R409): full FMT 0 pages of running jobs with QDIST > 0 that lie far
enough below WBASE. A page that no chain links any more is let go, and its replacement goes back to the pool unless a chain
links it. -/
def State.handPages (s : State) (d : Nat) : State :=
  let dead := s.requants.filter fun r => s.inDom d r.asid && !s.linked r.asid r.old
  let s := { s with requants := s.requants.filter fun r => !dead.contains r }
  let s := dead.foldl (fun s r => if r.new = 0 || s.linked r.asid r.new then s else s.giveBack r.asid [r.new]) s
  (s.domSeqs d).foldl (fun s n =>
    let q := s.seqE n
    let j := s.job q.job
    if j.state ≠ 2 ∨ j.qdist = 0 ∨ q.state = 4 then s
    else match ({ s := s } : Se).chain q.asid chainFuel q.kvroot with
      | .error _ => s
      | .ok (ch, w) =>
        let cold := ch.filter fun e => e.2.fmt == 0 && e.2.fill == e.2.cap && e.2.cap != 0
          && e.2.first + e.2.cap - 1 + j.qdist ≤ q.wbase && !(w.s.requants.any fun r => r.asid == q.asid && r.old == e.1)
        { w.s with requants := w.s.requants ++ cold.map fun e => { asid := q.asid, old := e.1, new := 0, ready := false, seq := n } }) s

/-- Requests and submissions of the phase are done with. -/
def State.clearRequests (s : State) (d : Nat) : State :=
  let mine := fun n => s.inDom d (s.seqE n).asid || (tget? s.seqs n).isNone
  { s with
    subs := s.subs.filter fun e => !mine (e.1 / 64)
    forks := s.forks.filter fun f => !mine f.parent
    cfgs := s.cfgs.filter fun e => !mine e.1
    sts := s.sts.filter fun e => !mine e.1
    prios := s.prios.filter fun e => !mine e.1
    ctls := s.ctls.filter fun e => !mine e.1 }

/-- What was admitted in the phase that ends stands in the table as the next phase reads it (R293). -/
def State.settleAdmitted (s : State) (d : Nat) : State :=
  { s with seqs := s.seqs.map fun e => if s.inDom d e.2.asid then (e.1, { e.2 with admitted := false }) else e }

/-- One sequence's work of a pass; none where a poisoned line is met. -/
def State.passWork (s : State) (pass n : Nat) (phase : Word) : Option State :=
  match pass with
  | 1 => (s.pass1 n phase).map fun s => { s with seLast := tput 0 (Config.seqDie n % 4) n s.seLast }
  | 2 => s.pass2 n
  | _ => s.pass3 n

/-! ### Job states (R326, R328 step 3) -/

/-- A hold, resume or finish takes effect. -/
def State.applyOne (s : State) (j : Nat) (r : JobReq) : State :=
  let e := s.job j
  let live := e.state == 1 || e.state == 2
  match r with
  | .hold => if live then s.modJob j fun e => { e with state := 3 } else s
  | .resume => if e.state == 3 then s.modJob j fun e => { e with state := 2 } else s
  | .finish => if live || e.state == 3 then (s.modJob j fun e => { e with state := 4 }).jobEnd j else s

/-- Holds, resumes and finishes take effect between steps 2 and 3, in the order of the messages. -/
def State.applyReqs (s : State) (j : Nat) : State :=
  (s.job j).reqs.foldl (fun s r => s.applyOne j r) (s.modJob j fun e => { e with reqs := [] })

def State.startJob (s : State) (j : Nat) : State := s.modJob j fun e => if e.state = 1 then { e with state := 2 } else e

/-! ### Step 4: the step builder (R329, R295) -/

/-- The batch of a job: its sequences in STATE 1 or 2 by PRIO descending, CTR and SEQ ascending; during replay the
recorded one. -/
def State.composeBatch (s : State) (phase : Word) (j : Nat) : List Nat :=
  let e := s.job j
  let qs := s.seqs.filter fun q => q.2.job == j && !q.2.reserved && (q.2.state == 1 || q.2.state == 2)
  let l := (sortBy (fun (q : Nat × Seq) => (255 - q.2.prio, q.2.ctr.toNat, q.1)) qs).map (·.1)
  match s.demanded fun r => match r with
      | .phase ph _ bs => if ph = phase.toNat then (bs.find? fun b => b.1 == j).map (·.2) else none
      | _ => none with
  | some l => l
  | none => l.take e.batchMax

/-- The words of a batch record. -/
def batchWords (j : Job) (l : List Nat) (phase : Word) : List Word :=
  [word (j.kvstride % 65536 * 2 ^ 32 + l.length), phase, 0, 0, 0, 0, 0, 0]
    ++ l.zipIdx.flatMap fun e => [word e.1, j.scrbase + word (e.2 * 64 * j.kvstride)]

/-- What a job's step cannot do, its batch record or its graph, Imago reports (log 30, log 31). -/
def State.jobFails (s : State) (j : Nat) : State :=
  let e := s.job j
  s.reportHeld 864 6 0 (word j) 0 (s.ctx e.asid).partNo e.asid

def State.buildBatch (s : State) (phase : Word) (j : Nat) : State :=
  let e := s.job j
  if e.state ≠ 2 ∨ e.batchMax = 0 then s.modJob j fun e => { e with batch := [] }
  else
    let l := s.composeBatch phase j
    let r := s.writeHomeVa e.asid 1 e.brec ((batchWords e l phase).flatMap fun w => leBytes 8 w.toNat)
    let s := if r.1 then r.2 else r.2.jobFails j
    s.modJob j fun e => { e with batch := l }

/-- Whether a batch record's write waits for a poisoned line (R388). -/
def State.batchHeld (s : State) (phase : Word) (j : Nat) : Bool :=
  let e := s.job j
  e.state == 2 && e.batchMax != 0 && s.homeWriteHeld e.asid 1 e.brec (64 + 16 * (s.composeBatch phase j).length)

/-- The phase's record, in the recording of every job in the table: the jobs that take part and every batch; a replay goes on
to that phase (R396, R398). -/
def State.recordPhase (s : State) (d : Nat) (phase : Word) : State :=
  let js := (s.domJobs d).filter fun j => (s.job j).state == 2
  let r : Rec := .phase phase.toNat js ((js.filter fun j => (s.job j).batchMax != 0).map fun j => (j, (s.job j).batch))
  let s := ((s.domJobs d).filter fun j => (s.job j).state < 4).foldl (fun s j => s.record j r) s
  let here := fun x => match x with | .phase ph _ _ => ph == phase.toNat | _ => false
  { s with replayed := s.replayed.map fun l => match l.find? here with | some x => l.erase x | none => l }

/-! ### Step 5 (R328), and the egress digest (R396, R398) -/

/-- The digest of what a job released in a phase is recorded, and compared in a replay, which stops at the first mismatch and
reports the phase (R398). -/
def State.egressDigest (s : State) (phase : Word) (j : Nat) : State :=
  let r : Rec := .egress phase.toNat j (sha384 (s.job j).out)
  let s := (s.record j r).modJob j fun e => { e with out := [] }
  match s.demanded fun x => match x with | .egress ph i dg => if ph = phase.toNat ∧ i = j then some (Rec.egress ph i dg) else none | _ => none with
  | some x => if x = r then s.passRec r else ({ s with replayed := none } : State).jobFails j
  | none => s

/-- %phase and PHCNT advance, and the next phase's snapshot is the state at home. -/
def State.advance (s : State) (d : Nat) (phase : Word) : State :=
  let ps := s.domParts d
  let s := ps.foldl (fun s p => s.modPart p fun q => { q with phase := phase + 1, snap := s.home }) s
  let imgs := s.images.map fun i =>
    if i.live && s.inDom d i.asid then
      { i with phase := phase + 1, snap := s.home, remote := [], emem := i.emem.map fun e => (e.1, e.2.clear) }
    else i
  let s := { s with images := imgs, stewSnap := s.home, remote := s.remote.filter fun e => !(8 :: ps).contains (snapPart e.1) }
  (s.domJobs d).foldl (fun s j => s.modJob j fun e =>
    if e.took then { e with phcnt := e.phcnt + 1, took := false, closed := false, phaseCancelled := false, closeSaved := 0 } else e) s

/-! ### Step 6: graphs (R330-R332, R141, R142) -/

/-- Bytes that can be read whole: translated, and not poisoned. -/
def State.readWhole (s : State) (asid : Nat) (va : Word) (n : Nat) : Option (List Byte) × State :=
  if n ≠ 0 ∧ ¬spanCanonical va n then (none, s)
  else match s.xlateSpan asid 1 .read va n with
    | (.error _, s) => (none, s)
    | (.ok l, s) => if s.poisoned l then (none, s) else let r := s.homeAll l; (some r.1, r.2)

/-- CAUSE 1 to 4 of a launch record (R332), 0 where it passes. -/
def launchCause (w : List Word) : Nat :=
  let w2 := wordAt w 2
  let w5 := wordAt w 5
  let dlen := bits w5 16 11
  let plen := bits w5 0 13
  if !poolValid (wordAt w 1) then 1
  else if bits w2 40 24 ≠ 0 ∨ bits w2 34 2 ≠ 0 ∨ bits w5 27 37 ≠ 0 ∨ bits w5 13 3 ≠ 0 ∨ wordAt w 6 ≠ 0 ∨ wordAt w 7 ≠ 0 then 2
  else if bits (wordAt w 0) 0 3 ≠ 0 ∨ (plen ≠ 0 ∧ bits (wordAt w 3) 0 6 ≠ 0) ∨ (dlen ≠ 0 ∧ bits (wordAt w 4) 0 3 ≠ 0) then 3
  else if 1024 < dlen ∨ 4096 < plen then 4
  else 0

/-- A launch as its record gives it. -/
def launchRec (j gid node : Nat) (w : List Word) (param dict : List Byte) (img : Memory) : Launch :=
  let w2 := wordAt w 2
  let nb := bits w2 0 32
  { job := j, gid, node, entry := wordAt w 0, pool := wordAt w 1, arm := w2.extractLsb' 36 4, drained := bit w2 33,
    flush := bit w2 32, nblock := nb, param := Memory.writeN [] 0 param, dlen := bits (wordAt w 5) 16 11,
    dict := (wordsOf (dict.length / 8) dict).zipIdx.foldl (fun m e => tput 0 e.2 e.1 m) []
    pending := (List.range nb).map fun b => (b, none), image := img }

/-- A launch that is refused. -/
def refusedLaunch (j gid node nblock cause : Nat) : Launch := { job := j, gid, node, nblock, cause, st := 4, count := nblock }

/-- The launch of one node, read from its record, at whatever address: R141 aligns it to 64 bytes, no cause of R332 names a
breach, and reading it where it stands is the model's choice (log 74). -/
def State.readLaunch (s : State) (asid j gid node : Nat) (addr : Word) : Launch × State :=
  match s.readWhole asid addr 64 with
  | (none, s) => (refusedLaunch j gid node 0 5, s)
  | (some bs, s) =>
    let w := wordsOf 8 bs
    let nb := bits (wordAt w 2) 0 32
    let c := launchCause w
    if c ≠ 0 then (refusedLaunch j gid node nb c, s)
    else match s.readWhole asid (wordAt w 3) (bits (wordAt w 5) 0 13) with
      | (none, s) => (refusedLaunch j gid node nb 5, s)
      | (some pb, s) => match s.readWhole asid (wordAt w 4) (8 * bits (wordAt w 5) 16 11) with
        | (none, s) => (refusedLaunch j gid node nb 5, s)
        | (some db, s) => (launchRec j gid node w pb db s.home, s)

/-- Whether a graph's numbers are still held: it has not completed, or its words have not been taken. -/
def Graph.held (g : Graph) : Bool := g.st == 1 || !g.taken

/-- The numbers of an instance: the graph's, then its launches'. -/
def runOf (g n : Nat) : List Nat := (List.range (n + 1)).map (instNo g)

/-- The first number from g on that starts a free run of n + 1 numbers (R330). -/
def State.freeRun (s : State) (asid n : Nat) : Nat → Nat → Nat
  | 0, g => g
  | fuel + 1, g =>
    let run := runOf g n
    match s.graphs.find? fun e => e.1 / 2 ^ 32 == asid && e.2.held && (runOf (e.1 % 2 ^ 32) e.2.nodes.length).any fun k => run.contains k with
    | some e => s.freeRun asid n fuel (instNo (e.1 % 2 ^ 32) (e.2.nodes.length + 1))
    | none => g

/-- Imago takes the status words of the instance that ends: it reports those with STATE 3 or 4, or with a flag set, each as
STATE1 of a stop record, with its number as FADDR (log 30). -/
def State.takeWords (s : State) (j : Nat) : State :=
  let e := s.job j
  let gk := gkey e.asid e.gcur
  match tget? s.graphs gk with
  | none => s
  | some g =>
    let ws := ((s.graphWords gk e.asid).zipIdx.map fun w => (w.2, w.1)).filter fun w => 3 ≤ bits w.2 61 3 || bits w.2 0 4 != 0
    let s := ws.foldl (fun s w => s.report e.asid 3 (s.stopForm 864 6 0 0 w.2 0 (word (256 * j + w.1)) (s.ctx e.asid).partNo e.asid)) s
    { s with graphs := tset gk { g with taken := true } s.graphs }

/-- A refused launch goes to the context's fault policy (R332, R368, R370). -/
def State.refuse (s : State) (asid j lid cause : Nat) : State :=
  let r : FaultRec := { kind := 3, core := 0, entry := 0, rsn := 0, w0 := word lid, w1 := word cause, w2 := 0, w3 := 0, w4 := 0 }
  let s := s.modCtx asid fun c => { c with faults := c.faults ++ [r] }
  if bit (s.ctx asid).fpol 4 then s.cancelJob j else s

/-- The header of a graph record: nodes and edges, where it is well formed (R142). -/
def graphHeader (w : Word) : Option (Nat × Nat) :=
  let n := bits w 0 16
  let e := bits w 16 16
  if 1 ≤ n ∧ n ≤ 256 ∧ e ≤ 1024 ∧ bits w 32 32 = 0 then some (n, e) else none

/-- A job's graph record: its nodes, its addresses, and the words read of it; no node where it cannot be read or is
malformed. -/
def State.readGraph (s : State) (asid : Nat) (va : Word) : (Nat × List Word × List Word) × State :=
  match s.readWhole asid va 8 with
  | (none, s) => ((0, [], []), s)
  | (some bs, s) =>
    let w := word (leNat bs)
    match graphHeader w with
    | none => ((0, [], [w]), s)
    | some (n, e) => match s.readWhole asid (va + 8) (8 * (n + e)) with
      | (none, s) => ((0, [], [w]), s)
      | (some bs, s) => let l := wordsOf (n + e) bs; ((n, l, w :: l), s)

/-- One node's launch enters the table, refused or not; its record is recorded, as far as it can be read (R396). -/
def State.addNode (s : State) (asid j gid node lid : Nat) (addr : Word) : State :=
  let s := s.record j (.records (match (s.readWhole asid addr 64).1 with | some bs => wordsOf 8 bs | none => []))
  let l := s.readLaunch asid j gid node addr
  { l.2 with launches := tset (gkey asid lid) l.1 l.2.launches }

/-- The refused launches of a new instance go to the fault policy, in the order of their nodes. -/
def State.refuseNodes (s : State) (asid j : Nat) (ids : List Nat) : State :=
  let refused := ids.filter fun lid => (s.launch (gkey asid lid)).st == 4
  refused.foldl (fun s lid => s.refuse asid j lid (s.launch (gkey asid lid)).cause) s

/-- A running job's graph is instantiated (R330, R331). A graph record that cannot be read, or is malformed, gives an
instance without nodes, which Imago reports (log 31). -/
def State.instantiate (s : State) (j : Nat) : State :=
  let e := s.job j
  let asid := e.asid
  let r := s.readGraph asid e.graph
  let n := r.1.1
  let s := r.2
  let g := s.freeRun asid n (s.graphs.length + 1) (s.ctx asid).inst.toNat
  let ids := (List.range n).map fun k => instNo g (k + 1)
  let s := s.modCtx asid fun c => { c with inst := BitVec.ofNat 32 (instNo g (n + 1)) }
  let s := { s with graphs := tset (gkey asid g) { job := j, nodes := ids, edges := r.1.2.1.drop n } s.graphs }
  let s := (s.modJob j fun e => { e with gcur := g, glast := g, took := true }).record j (.records r.1.2.2)
  let s := ids.zipIdx.foldl (fun s x => s.addNode asid j g x.2 x.1 (wordAt r.1.2.1 x.2)) s
  let s := s.refuseNodes asid j ids
  let s := if n = 0 then s.jobFails j else s
  s.graphSettle (gkey asid g) asid

/-- Step 6: the words of the instance that ends are taken, and each running job's graph is instantiated. -/
def State.nextGraphs (s : State) (d : Nat) : State :=
  let js := s.domJobs d
  let s := js.foldl (fun s j => s.takeWords j) s
  let s := js.foldl (fun s j => s.modJob j fun e => { e with gcur := 0 }) s
  js.foldl (fun s j => if (s.job j).state = 2 then s.instantiate j else s) s

/-! ### The boundary -/

/-- What follows the slot engine's passes, up to step 3 of R328: pages are handed over, requests are done with, jobs change
their states, and what each job has released is digested. -/
def State.afterPasses (s : State) (d : Nat) (phase : Word) : State :=
  let s := ((s.handPages d).clearRequests d).settleAdmitted d
  let js := s.domJobs d
  let s := js.foldl (fun s j => s.applyReqs j) s
  let s := (js.filter fun j => (s.job j).took).foldl (fun s j => s.egressDigest phase j) s
  js.foldl (fun s j => s.startJob j) s

/-- Steps 4 and 5 of R328; none where a batch record waits for a poisoned line. -/
def State.batchStep (s : State) (d : Nat) (phase : Word) : Option State :=
  let js := s.domJobs d
  if js.any (s.batchHeld (phase + 1)) then none
  else some (((js.foldl (fun s j => s.buildBatch (phase + 1) j) s).recordPhase d (phase + 1)).advance d phase)

/-- A boundary at a stage. -/
def State.atStage (s : State) (d : Nat) (b : Bnd) : State := { s with bnd := tset d b s.bnd }

/-- A boundary's next piece of work: the write-backs with which it begins, one sequence's work of a pass, or a stage that
follows the passes; none where there is none, or it waits: for a poisoned line (R388), for a member device (R402), or
because a partition is halted (R376). -/
def State.bndStep (s : State) (d : Nat) : Option State :=
  match tget? s.bnd d with
  | none =>
    if !s.boundaryDue d || s.storesHeld d then none
    else some ((s.writeBackAll d).atStage d { phase := s.domPhase d, stage := 1 })
  | some b =>
    if s.unreachable.contains d || (s.domParts d).any (fun p => (s.part p).halt.isSome) then none
    else match b.stage with
      | 1 | 2 | 3 =>
        if !s.membersAt d b.phase 1 then none
        else match (s.domSeqs d).find? fun m => b.seq ≤ m with
          | none => some (s.atStage d { b with stage := b.stage + 1, seq := 0 })
          | some m => (s.passWork b.stage m b.phase).map fun s => s.atStage d { b with seq := m + 1 }
      | 4 => some ((s.afterPasses d b.phase).atStage d { b with stage := 5 })
      | 5 => (s.batchStep d b.phase).map fun s => s.atStage d { b with stage := 6 }
      | _ => if !s.membersAt d b.phase 2 then none else some (({ s with bnd := tdel d s.bnd } : State).nextGraphs d)

/-- A boundary goes on for at most a number of pieces of work. -/
def State.bndRun (d : Nat) : Nat → State → State
  | 0, s => s
  | n + 1, s => match s.bndStep d with
    | none => s
    | some t => if (tget? t.bnd d).isNone then t else t.bndRun d n

/-- More pieces of work than any boundary has: three passes over the sequence table, and the other stages. -/
def bndFuel : Nat := 4 * 65536

/-- PHASE_BOUNDARY (R327, R328, R88, R429): a boundary that is due begins, and one under way goes on; its steps come in order,
to its end, unless it must wait, or another turn stands in the agenda: then it may stop between two pieces of work, where a
halt can fall (R376), after a free number of them (log 20). -/
def execPhaseBoundary (dom : Nat) (s : State) : Out :=
  .next (match s.bndStep dom with
    | none => s
    | some t =>
      if (tget? t.bnd dom).isNone then t
      else match s.agenda with
        | [] => t.bndRun dom bndFuel
        | _ => let f := t.freeWord; f.2.bndRun dom (f.1.toNat % (bndFuel + 1)))

/-! ### Requantisation (R359) -/

/-- eB of a block: the least e in 0-255 with 3 × 2^(e-127) ≥ M, where M = k × 2^-24. -/
def scaleB (k : Nat) : Nat := ((List.range 256).find? fun e => k * 2 ^ 103 ≤ 3 * 2 ^ e).getD 255

/-- |v| of a finite f16 value in units of 2^-24. -/
def f16Units (v : Nat) : Nat := match fmtF16.decode v with | .num _ m e => m * 2 ^ (e + 24).toNat | _ => 0

/-- An f16 pattern as an f32 pattern, exactly. -/
def f16To32 (v : Nat) : Nat := (fConvert fmtF16 fmtF32 false .rn v).1

/-- One block of 32 f16 values: its 16 element bytes and its two scale bytes. -/
def requantBlock (bs : List Byte) : List Byte × List Byte :=
  let vs := (chunks 2 32 bs).map leNat
  let m := (vs.map f16Units).foldl max 0
  let eB := if m = 0 then 0 else scaleB m
  let eA := if m = 0 then 0 else eB - 2
  let els := vs.map fun v => (bfpQuant true false .rn eA eB (f16To32 v)).1
  ((chunks 2 16 els).map fun p => BitVec.ofNat 8 (p.getD 0 0 + 16 * p.getD 1 0), [BitVec.ofNat 8 eA, BitVec.ofNat 8 eB])

/-- The BFP4 form of a full page. -/
def requantPage (p : Page) (data : List Byte) : List Byte :=
  let b := p.kvs / 64
  let blks := (chunks 64 (p.cap * b) data).map requantBlock
  let hd := { p with fmt := 1, gen := p.gen + 1 }
  let all := (hd.words.flatMap fun w => leBytes 8 w.toNat) ++ List.replicate 32 0 ++ blks.flatMap (·.1) ++ blks.flatMap (·.2)
  all ++ List.replicate (pageBytes - all.length) 0

/-- The die on whose stacks a page stands. -/
def State.dieOfPage (s : State) (asid : Nat) (va : Word) : Nat :=
  match s.leafOf asid va with
  | some (_, lvl, e) => stackOf (ptePa e + vaBits va % spanOf lvl) / 2
  | none => 0

/-- REQUANTISATION (R359): the prefetch engine of a die fills the new page of the next old page on its stacks. -/
def execRequantisation (die : Nat) (s : State) : Out :=
  .next (match s.requants.find? fun r => r.new != 0 && !r.ready && s.dieOfPage r.asid r.old == die
      && (s.part (s.ctx r.asid).partNo).halt.isNone with
    | none => s
    | some r =>
      let work := fun (w : Se) => do
        let (p, w) ← w.page r.asid r.old
        let (bs, w) ← w.read r.asid (r.old + 64) (pageBytes - 64)
        w.write r.asid r.new (requantPage p bs)
      match work { s := s } with
      | .error e => { s with ctr := e.ctr }
      | .ok w => { w.s with requants := w.s.requants.map fun x => if x = r then { x with ready := true } else x })

end Sys2Proof.Machine
end

