-- ==== Sys2Proof/Machine/Faults.lean ====
section
/-! DEFINITION. Presentation of faults on the fault ring (R368-R371) and the stop of an engine behind a raised halt line
(R376, R377). -/
namespace Sys2Proof.Machine

open Sys2Proof

/-! ### Reports (R406)

REPORT messages carry a kind beside their words: 0 an escalation, 1 a fault that was not presented (a ring record), 2 a stop
record, 3 a launch status word, 4 a held condition; the words of kinds 0, 3 and 4 have the form of a stop record. -/

/-! ### The fault ring (R369-R371) -/

/-- The record of a fault that is due, as it stands now (R370): none where its fragment is gone (R30). -/
def State.ringWords (s : State) (f : FaultRec) : Option (List Word) :=
  match f.kind with
  | 1 =>
    match tget? (s.coreAt f.core).cocoon f.entry with
    | some e => if e.st != 0 && e.rsn == f.rsn then some [e.word0 f.core f.entry, e.word1, e.va, e.pc, e.diff.setWidth 64, 1, 0, 0] else none
    | none => none
  | k => some [f.w0, f.w1, f.w2, f.w3, f.w4, word k, 0, 0]

/-- The address of ring record n (R369). -/
def ringRec (ring n : Word) : Word := ring + 64 + word (64 * (n.toNat % 1023))

/-- What an attempt to present a record finds: it is made, it must wait, or it cannot be made and Imago reports it. -/
inductive Presented where
  | made (s : State)
  | wait
  | fails
  deriving Repr

/-- An attempt to present (R369): record TAIL, and then TAIL + 1, at home, as writes at level 1. -/
def State.present (s : State) (asid : Nat) (f : FaultRec) (ws : List Word) : Presented :=
  let ring := (s.ctx asid).fpol &&& ~~~(0xFFFF : Word)
  if ring = 0 then .fails
  else match s.xlateSpan asid 1 .write ring 16 with
    | (.error x, _) => if x.waits then .wait else .fails
    | (.ok hd, s) =>
      if s.poisoned hd then .wait
      else
        let r := s.homeAll hd
        let tail := word (leNat (r.1.take 8))
        let head := word (leNat (r.1.drop 8))
        if tail - head = 1023 then .wait
        else match r.2.xlateSpan asid 1 .write (ringRec ring tail) 64 with
          | (.error x, _) => if x.waits then .wait else .fails
          | (.ok ds, s) =>
            let s := s.homeWrite asid (ds.zip (ws.flatMap fun w => leBytes 8 w.toNat))
            let s := s.homeWrite asid ((hd.take 8).zip (leBytes 8 (tail + 1).toNat))
            if f.kind = 2 then
              .made (s.modCtx asid fun c => { c with exh := c.exh ++ [(tail.toNat, f.core, (s.coreAt f.core).freed, f.w2, f.job)] })
            else .made s

/-- FAULT_PRESENTATION (R369): the context's next fault, in increasing resolution sequence number, is presented, or
reported where that cannot be; a full ring leaves it queued, and so does a save under way (R385). -/
def execFaultPresentation (asid : Nat) (s : State) : Out :=
  let s := s.checkHead asid
  let drop := fun (s : State) => s.modCtx asid fun c => { c with faults := c.faults.drop 1 }
  .next (match (s.ctx asid).faults, s.partRunning asid with
    | f :: _, some p => if (s.part p).saving.isSome then s else
      match s.ringWords f with
      | none => drop s
      | some ws =>
        match s.present asid f ws with
        | .made s => drop s
        | .wait => s
        | .fails => (drop s).report asid 1 ws
    | _, _ => s)

/-! ### Stopping behind the halt line (R376, R377) -/

/-- The partition that an engine number belongs to (R377): a die's slot and prefetch engines serve the partition that
holds either of its granules, the one with a raised halt line first. -/
def State.enginePart (s : State) (e : Nat) : Option Nat :=
  if e < 864 then s.partOfEng e
  else if e < 872 then none
  else if e < 968 then s.partOfEng (768 + (e - 872))
  else if e < 1064 then s.partOfEng (768 + (e - 968))
  else if e < 1072 then
    let die := (e - 1064) % 4
    let ps := [s.partOfGran (2 * die), s.partOfGran (2 * die + 1)].filterMap id
    (ps.find? fun p => (s.part p).halt.isSome).or ps.head?
  else none

/-- KIND of an engine number (R377). -/
def engineKindNo (e : Nat) : Nat :=
  if e < 768 then 0 else if e < 864 then 1 else if e < 968 then 2 else if e < 1064 then 3 else if e < 1068 then 4 else 5

/-- Warp slots of a core that hold a live warp: one whose threads have not all exited. -/
def State.liveSlots (s : State) (c : Nat) : Nat :=
  ((List.range Config.nSlots).map fun k =>
    if s.threads.any fun e => e.1 / 32 == 32 * c + k && e.1 < condBase && !isExited e.2 then 2 ^ k else 0).sum

/-- Instar as a halt stops it: at a step boundary, STATE 2 where a macro-op is under way (R255). -/
def Instar.stopped (i : Instar) : Instar := if i.st = 1 then { i.rewind with st := 2, held := true } else i

/-- A cluster's Instar stops, and where a row of a cim.mv must start over, the DE returns to its first byte (R255, R269). -/
def Cluster.halted (c : Cluster) : Cluster :=
  { c with
    instar := c.instar.stopped
    de := if c.instar.st == 1 && c.instar.op == 3 && c.instar.midRow && !c.instar.own then c.de.restart.stopped else c.de }

/-- The bin.run that a cluster's bin engine has under way: its session and the region that comes next, zero where there is
none. A session's number is free (log 14). -/
def State.binState (s : State) (cl : Nat) : Word :=
  match (s.blocks.filter fun e => e.2.core / 8 == cl).findSome? fun e => e.2.binRun with
  | some r => word (r.region % 65536 * 2 ^ 16 + Config.binSession r.desc % 65536)
  | none => 0

/-- STATE1 and STATE2 of a stop record (R377). -/
def State.stopStates (s : State) (e : Nat) : Word × Word :=
  if e < 768 then (word (s.liveSlots e), word (((s.coreAt e).cocoon.filter fun x => x.2.st != 0).length))
  else if e < 864 then ((s.cluster (e - 768)).instar.stopped.stateWord, (s.cluster (e - 768)).de.stopped.stateWord)
  else if e < 968 then ((s.cluster (e - 872)).de.stopped.stateWord, 0)
  else if e < 1064 then (s.binState (e - 968), 0)
  else if e < 1068 then (word (tget 0 s.seLast (e - 1064)), 0)
  else (0, 0)

/-- ENGINE_STOP (R376, R377): an engine of a halted partition stops and writes its stop record, which Imago reports. -/
def execEngineStop (eng : Nat) (s : State) : Out :=
  .next (match s.enginePart eng with
    | none => s
    | some p =>
      let q := s.part p
      match q.halt with
      | none => s
      | some tc =>
        if (tget? s.stops eng).isSome then s
        else
          let r := s.stopStates eng
          let pc := if eng < 864 then (s.eng eng).lastPc else 0
          let fa := if q.haltAt = some eng then q.haltAddr else 0
          let asid := q.haltCtx.getD q.lastAsid
          let s := s.stopRecord eng (engineKindNo eng) tc pc r.1 r.2 fa p asid
          let s := if 768 ≤ eng ∧ eng < 864 then s.modCluster (eng - 768) Cluster.halted
            else if 872 ≤ eng ∧ eng < 968 then s.modCluster (eng - 872) fun c => { c with de := c.de.stopped } else s
          s.report asid 2 (tget [] s.stops eng))

end Sys2Proof.Machine
end

