-- ==== Sys2Proof/Machine/Device.lean ====
section
/-! DEFINITION. The device outside its instruction engines: clock and temperature (R421), boot (R412-R416), scrubbing and
uncorrectable errors (R386-R388), and accesses by and to other devices (R401). -/
namespace Sys2Proof.Machine

open Sys2Proof

/-! ### Temperature (R421) -/

/-- THERMAL_THROTTLE (R421): the core clock falls by a step of 125 MHz, down to 625 MHz. -/
def execThermalThrottle (s : State) : Out := .next { s with clock := max 625 (s.clock - 125) }

/-- THERMAL_RECOVERY (R421): the core clock rises again, by a step. -/
def execThermalRecovery (s : State) : Out := .next { s with clock := min 1250 (s.clock + 125) }

/-- THERMAL_SHUTDOWN (R421): every partition takes a terminating fault with TCAUSE 6, and Imago reports it. -/
def execThermalShutdown (s : State) : Out :=
  .next (((s.parts.filter fun e => e.2.en).foldl (fun s e => s.raiseHalt e.1 6 none) s).reportHeld 864 6 6 0 0 0 0)

/-! ### Boot (R413-R416) -/

def slotBytes : Nat := 64 * 2 ^ 20

/-- The fields of a 160-byte signature (R148): covered length, algorithm, curve, signer digest, r, s. -/
structure Sig where
  covered : Nat
  alg : Nat
  curve : Nat
  key : List Byte
  r : List Byte
  s : List Byte
  deriving Repr

def sigOf (bs : List Byte) : Sig where
  covered := leNat (bs.take 8)
  alg := leNat ((bs.drop 8).take 4)
  curve := leNat ((bs.drop 12).take 4)
  key := (bs.drop 16).take 48
  r := (bs.drop 64).take 48
  s := (bs.drop 112).take 48

/-- Whether a signature laid out as in R148 covers n bytes and verifies over their digest. -/
def Sig.good (g : Sig) (n : Nat) (digest : List Byte) : Bool :=
  g.covered == n && g.alg == 1 && g.curve == 1 && Config.ecdsaVerifies g.key digest g.r g.s

def allZero (bs : List Byte) : Bool := bs.all (· == 0)

/-- The boot configuration record's limits (R416). -/
def bootConfigOk (c : List Byte) : Bool :=
  let num := fun i n => leNat ((c.drop i).take n)
  num 0 2 ≤ 1535 && num 2 1 ≤ 1 && allZero ((c.drop 3).take 5) && num 8 8 % 16 == 0 && num 16 8 % 128 == 0
    && 1024 ≤ num 24 4 && allZero ((c.drop 36).take 28)

/-- What the ROM finds in a slot: the number of the failed step, or image bytes, body, entry offset and SVN. -/
structure BootImage where
  image : List Byte
  body : List Byte
  entry : Nat
  svn : BitVec 32

/-- Steps 2 to 5 on the slot at a flash offset (R414). -/
def Boot.check (b : Boot) (off : Nat) : Except Nat BootImage :=
  let hd := b.flash.readN off 64
  let len := leNat ((hd.drop 8).take 8)
  let entry := leNat ((hd.drop 16).take 8)
  let svn : BitVec 32 := BitVec.ofNat 32 (leNat ((hd.drop 4).take 4))
  if hd.take 4 ≠ [0xA9, 0x6F, 0x57, 0x1A] ∨ ¬allZero (hd.drop 24) ∨ slotBytes - 224 < len ∨ entry % 8 ≠ 0 ∨ len ≤ entry then .error 2
  else
    let body := b.flash.readN (off + 64) len
    let sg := sigOf (b.flash.readN (off + 64 + len) 160)
    if sg.key ≠ beNum 48 Config.rootKey.toNat ∨ ¬sg.good (64 + len) (sha384 (hd ++ body)) then .error 3
    else if svn.toNat < b.svnmin.toNat then .error 4
    else
      let c := b.flash.readN (128 * 2 ^ 20) 64
      let cs := sigOf (b.flash.readN (128 * 2 ^ 20 + 64) 160)
      if !bootConfigOk c || (!allZero b.opkey && !(cs.key == b.opkey && cs.good 64 (sha384 c))) then .error 5
      else .ok { image := hd ++ body ++ b.flash.readN (off + 64 + len) 160, body, entry, svn }

/-- Leaf rights of ASID 0's own pages: V, L, W and X. -/
def ownLow : Nat := 15

/-- Pages of a range mapped for ASID 0, where that can be. -/
def State.mapOwn (s : State) (va : Word) (n : Nat) : Option State := s.mapPages 0 ((pagesOf va n).map fun p => (p, ownLow))

/-- Step 6 (R414): the body is copied to ASID 0 memory, and the stewards start at its entry point, at level 2. -/
def State.copyFirmware (s : State) (im : BootImage) : Option State :=
  match (s.modCtx 0 fun c => { c with w0 := putBits c.w0 63 1 1 }).mapOwn Config.firmwareBase im.body.length with
  | none => none
  | some s => match s.writeHomeVa 0 2 Config.firmwareBase im.body with
    | (false, _) => none
    | (true, s) => some ((List.range Config.nStewards).foldl (fun s k =>
        s.setThread (stewBase + k) { block := noBlock, pc := Config.firmwareBase + word im.entry, lvl := 2 }) s)

/-- Step 7 (R414): what the firmware sets, from the boot configuration record; the window table and the log area are
mapped for it (log 6), the stewards' snapshot is what home then holds, and Imago is ready. -/
def State.startFirmware (s : State) (im : BootImage) (slotB : Bool) : Option State :=
  let c := s.boot.flash.readN (128 * 2 ^ 20) 64
  let num := fun i n => leNat ((c.drop i).take n)
  let b := { s.boot with
    stage := .ready, slotB, svn := im.svn, devnum := num 0 2, wintab := word (num 8 8)
    debug := num 2 1 == 1 && !s.boot.nodebug, opctr := word (num 28 8), image := im.image, config := c }
  let lcap := num 24 4
  match ({ s with boot := b, log := { lbase := word (num 16 8), lcap } } : State).mapOwn b.wintab 1024 with
  | none => none
  | some s => (s.mapOwn s.log.lbase (128 * lcap)).map fun s => { s with stewSnap := s.home }

/-- Steps 2 to 7 on a slot: the device that has booted from it, or the number of the step that fails. The device number
stands as step 6 copies the body, whose frames are the device's own. -/
def State.bootSlot (s : State) (slotB : Bool) : Except Nat State :=
  match s.boot.check (if slotB then slotBytes else 0) with
  | .error n => .error n
  | .ok im =>
    let devnum := leNat ((s.boot.flash.readN (128 * 2 ^ 20) 64).take 2)
    match ({ s with boot := { s.boot with devnum } } : State).copyFirmware im with
    | none => .error 6
    | some s => match s.startFirmware im slotB with
      | none => .error 7
      | some s => .ok s

/-- A device after power-good and reset: only the fuses and the flash keep what they held; step 1 zeroes every array. -/
def State.coldReset (s : State) : State :=
  { State.reset with
    agenda := s.agenda, cur := s.cur, ctr := s.ctr
    boot := { flash := s.boot.flash, opkey := s.boot.opkey, svnmin := s.boot.svnmin, nodebug := s.boot.nodebug } }

/-- BOOT_SEQUENCE (R414, R415): slot A, then slot B, then recovery. In a device that has booted, the event is a reset and
a new boot. -/
def execBootSequence (s : State) : Out :=
  let s := s.coldReset
  .next (match s.bootSlot false with
    | .ok t => t
    | .error a => match s.bootSlot true with
      | .ok t => t
      | .error b => { s with boot := { s.boot with stage := .recovery, failA := a, failB := b } })

/-! ### The PCIe BAR (R411, R415) -/

/-- Half of the BAR: a ring. -/
def ringBytes : Nat := 32 * 1024

/-- Whether the BAR shows anything: after boot where the debug policy enables the link, in recovery where NODEBUG is 0. -/
def Boot.barOn (b : Boot) : Bool :=
  match b.stage with | .ready => b.debug | .recovery => !b.nodebug | .reset => false

/-- A byte of the BAR as the host reads it: zero where it is disabled; in recovery the status word stands at offset 0. -/
def State.barRead (s : State) (off : Nat) : Byte :=
  if !s.boot.barOn then 0
  else if s.boot.stage = .recovery ∧ off < 8 then (match off with | 0 => BitVec.ofNat 8 s.boot.failA | 1 => BitVec.ofNat 8 s.boot.failB | _ => 0)
  else if off < 2 * ringBytes then s.bar.read off else 0

/-- The host's read of n bytes of the BAR (R411). -/
def State.hostRead (s : State) (off n : Nat) : State := { s with barSeen := (off, (List.range n).map fun i => s.barRead (off + i)) :: s.barSeen }

/-- The host's write of the BAR: discarded where it is disabled. What the rings hold of a message, and where, no chapter
gives: a message of the rings is an event of its own (log 32). -/
def State.barWrite (s : State) (off : Nat) (bs : List Byte) : State :=
  if s.boot.barOn && off + bs.length ≤ 2 * ringBytes then { s with bar := s.bar.writeN off bs } else s

/-! ### Errors (R386-R388) -/

/-- Whether a unit has the array (R386, R390). -/
def arrayHas (array unit : Nat) : Bool :=
  match array with
  | 1 => unit < 768
  | 2 => 768 ≤ unit && unit < 872
  | 3 => 768 ≤ unit && unit < 864
  | 4 | 5 => unit < 1072
  | 6 | 7 => 2048 ≤ unit && unit < 2052
  | 8 => 4096 ≤ unit && unit < 4104
  | _ => false

/-- The line of a location of arrays 6 to 8: HBM's by its DPA; for a home cache, LOC is an offset in its array, and which
line of its die's stacks stands there is free (log 14). -/
def State.lineAt (s : State) (array unit loc : Nat) : Nat :=
  if array = 8 then loc % devBytes / 64 else (unit - 2048) * 2 ^ 31 + Config.cachedLine s.ctr (unit - 2048) loc % 2 ^ 31

/-- The owner tag of a location (R388). -/
def State.ownerOf (s : State) (array unit loc : Nat) : Nat :=
  match array with
  | 1 => (match s.poolSpot unit (loc / Config.granuleBytes) with | some x => (s.block x.1).asid | none => (s.spareAt unit (loc / Config.granuleBytes)).1)
  | 2 => if 864 ≤ unit then 0 else s.tagOf (granOf unit)
  | 3 => (s.cluster (unit - 768)).bankAsid
  | 4 => if unit < 864 then s.tagOf (granOf unit) else 0
  | 5 => 0
  | _ => tget 0 s.owner (s.lineAt array unit loc)

/-- A list with an element that it need not hold yet. -/
def withElem (k : Nat) (l : List Nat) : List Nat := if l.contains k then l else l ++ [k]

/-- Poisoning the granule, bank or line (R388). A weight store's offset names macro and bank of 4 KiB in turn (R249). -/
def State.poisonAt (s : State) (array unit loc : Nat) : State :=
  match array with
  | 1 => (match s.poolSpot unit (loc / Config.granuleBytes) with
    | some (bk, r, i) => { s with poisonPool := withElem (granKey bk r i) s.poisonPool }
    | none =>
      let g := loc / Config.granuleBytes
      if Config.nGranules ≤ g then s
      else
        let l := tget [] s.spare unit
        let n := s.spareNo unit g
        { s with spare := tset unit ((l ++ List.replicate (n + 1 - l.length) (0, false)).set n ((s.spareAt unit g).1, true)) s.spare })
  | 2 => s
  | 3 => { s with poisonBank := withElem (1024 * (unit - 768) + loc / 4096 % 1024) s.poisonBank }
  | _ => { s with poison := withElem (s.lineAt array unit loc) s.poison }

/-- An entry of an array that always recovers is dropped, and is fetched again from its clean copy when it is next used
(R386): an operand-cache entry of the unit's cluster, or an entry of the translation caches; which one stands there is
free. -/
def State.dropEntry (s : State) (array unit : Nat) : State :=
  let f := s.freeWord
  let n := f.1.toNat
  let s := f.2
  if array = 4 then
    if unit < 864 then s.modCluster (clusterOf unit) fun c => { c with oc := c.oc.eraseIdx (n % max 1 c.oc.length) } else s
  else if n % 2 = 0 then { s with tlb := s.tlb.eraseIdx (n / 2 % max 1 s.tlb.length) }
  else { s with walkc := s.walkc.eraseIdx (n / 2 % max 1 s.walkc.length) }

/-- What follows an uncorrectable error for its owner (R388): a running one takes a terminating fault; one that stands in
its image is ended, and the image is of no use; for ASID 0, Imago reports and holds. -/
def State.ownerError (s : State) (owner unit loc : Nat) : State :=
  if owner = 0 then s.reportHeld (if unit < 1072 then unit else 864) (if unit < 1072 then engineKindNo unit else 6) 5 0 (word loc) 0 0
  else match s.partRunning owner with
    | some p => s.raiseHalt p 5 (if unit < 1072 then some unit else none) (word loc)
    | none =>
      if s.images.any fun i => i.asid == owner && i.live then
        ({ s with images := s.images.map fun (i : Image) => if i.asid = owner then { i with poisoned := true } else i } : State).endContext owner
      else s

/-- SCRUB (R387, R388): an entry is read; a corrected or recovered error is logged and changes no value; an uncorrectable
one poisons its granule, bank or line. Arrays 4 and 5 always recover, and a home cache's clean line does (R386). -/
def execScrub (array unit loc : Nat) (found : ErrKind) (synd : Word) (s : State) : Out :=
  let owner := s.ownerOf array unit loc
  let log := fun (s : State) kind => (s.logAppend kind array owner unit (word (if array = 8 then loc / 64 * 64 else loc)) synd 0).2
  .next (if !arrayHas array unit then s
    else match found with
      | .clean => s
      | .corrected => if array = 4 ∨ array = 5 then s else log s 1
      | .recovered => if array = 4 ∨ array = 5 then log (s.dropEntry array unit) 2 else if array = 6 ∨ array = 7 then log s 2 else s
      | .uncorrectable =>
        if array = 4 ∨ array = 5 then log (s.dropEntry array unit) 2
        else (log (s.poisonAt array unit loc) 3).ownerError owner unit loc)

/-! ### Silk (R399-R401) -/

/-- Window table entry i, read at home under ASID 0. -/
def State.windowEntry (s : State) (i : Nat) : List Word × State :=
  match s.readHomeVa 0 2 (s.boot.wintab + word (16 * i)) 16 with
  | (some bs, s) => ((chunks 8 2 bs).map (fun b => word (leNat b)), s)
  | (none, s) => ([], s)

/-- Whether a window table entry permits an access (R401). -/
def windowPermits (w : List Word) (r : RemoteReq) : Bool :=
  let w0 := w.getD 0 0
  let w1 := w.getD 1 0
  let lo := r.dpa % devBytes / 65536
  let hi := (r.dpa % devBytes + r.len - 1) / 65536
  bit w0 63 && bits w0 52 10 == 0 && bits w0 22 10 == 0 && bits w1 55 9 == 0 && bits w1 23 9 == 0
    && bits w0 0 11 ≤ r.dev && r.dev ≤ bits w0 11 11 && bits w0 32 10 == r.asid
    && bits w1 0 23 ≤ lo && hi ≤ bits w1 32 23 && (r.write.isNone || bit w0 62)

/-- The first entry that permits an access. -/
def State.windowFor (s : State) (r : RemoteReq) : Option (List Word) × State :=
  (List.range 64).foldl (fun (x : Option (List Word) × State) i =>
    match x.1 with
    | some w => (some w, x.2)
    | none => let e := x.2.windowEntry i; (if windowPermits e.1 r then some e.1 else none, e.2)) (none, s)

/-- Whether a remote write waits for a poisoned line, its own or one of the window table (R388). -/
def State.remoteHeld (s : State) (r : RemoteReq) : Bool :=
  !s.poison.isEmpty && ((r.asid != 0 && s.homeHeld 0 2 s.boot.wintab 1024) ||
    (r.write.isSome && s.heldBy (addrsOf (s.boot.devnum * devBytes + r.dpa % devBytes) r.len)))

/-- A member device of joined domains has come to a step of a phase's boundary (R402). -/
def State.memberDone (s : State) (dev : Nat) (phase : Word) (step : Nat) : State :=
  s.domRemote.foldl (fun s e => if e.2.contains dev then { s with domDone := tset (2048 * e.1 + dev) (phase, step) s.domDone } else s) s

/-- REMOTE_ACCESS (R401): an access of another device that the window table permits is performed at this home; a write
gives its lines the entry's owner tag. A steward's access under ASID 0 is always permitted. A refused one performs
nothing; one that a poisoned line holds waits, and is performed when it can be (R388). -/
def execRemoteAccess (r : RemoteReq) (s : State) : Out :=
  let addr := s.boot.devnum * devBytes + r.dpa % devBytes
  .next (match r.phase with
    | some p => s.memberDone r.dev p r.step
    | none =>
      if s.boot.stage != .ready || !s.isLocal r.dpa || r.len = 0 then s
      else if s.remoteHeld r then (if s.cur.held then s else { s with mail := s.mail ++ [.remoteAccess r] })
      else
        let w := if r.asid = 0 then (some [], s) else s.windowFor r
        let s := if s.cur.held then { w.2 with mail := w.2.mail.erase (.remoteAccess r) } else w.2
        match w.1, r.write with
        | some e, some bs => s.homeWrite (bits (e.getD 0 0) 42 10) ((bs.take r.len).zipIdx.map fun b => (addr + b.2, b.1))
        | _, _ => s)

/-- REMOTE_ACCESS_TIMEOUT (R401): a thread's access to another device has no reply in 100 µs. The access fails with
TCODE 0x7 as the thread's instruction issues. -/
def execRemoteAccessTimeout (thread : Nat) (s : State) : Out :=
  .next (if (tget? s.threads thread).isNone || s.late.contains thread then s else { s with late := s.late ++ [thread] })

end Sys2Proof.Machine
end

