-- ==== Sys2Proof/Machine/Pair.lean ====
section
/-! DEFINITION. Pair words (R113-R116): two halves d := d op s that read all their sources before either writes. -/
namespace Sys2Proof.Machine

open Sys2Proof

/-- The value and flags of a half's operation on its destination's old value x and its source y (R116), rounding to
nearest under the launch's flush bit. -/
def halfVal (fl : Bool) (o : HalfOp) (x y : Word) : Word × Flags :=
  let int := fun ty op => intMap ty false op x y 0
  let fp := fun ty (f : FpFmt → Nat → Nat → Nat × Flags) => fpMap ty (fun m a b _ => f m a b) x y 0
  let add := fun (m : FpFmt) a b => fin2 m fl a b (m.add fl .rn)
  let mul := fun (m : FpFmt) a b => fin2 m fl a b (m.mul fl .rn)
  match o with
  | .addI64 => int .i64 fun a b _ => a + b
  | .subI64 => int .i64 fun a b _ => a - b
  | .and => (bMap true (fun a b => a &&& b) x y, 0)
  | .or => (bMap true (fun a b => a ||| b) x y, 0)
  | .xor => (bMap true (fun a b => a ^^^ b) x y, 0)
  | .andn => (x &&& ~~~y, 0)
  | .shl => (shlW 64 x y, 0)
  | .shr => (shrW 64 x y, 0)
  | .sar => (sarW 64 x y, 0)
  | .minI64 => int .i64 fun a b _ => min a b
  | .maxI64 => int .i64 fun a b _ => max a b
  | .minN64 => int .n64 fun a b _ => min a b
  | .maxN64 => int .n64 fun a b _ => max a b
  | .mov => (y, 0)
  | .addI32 => int .i32 fun a b _ => a + b
  | .subI32 => int .i32 fun a b _ => a - b
  | .mulI32 => int .i32 fun a b _ => a * b
  | .mulI64 => int .i64 fun a b _ => a * b
  | .faddF32 => fp .f32 add
  | .fsubF32 => fp .f32 fun m a b => fin2 m fl a b fun u v => m.add fl .rn u v.negate
  | .fmulF32 => fp .f32 mul
  | .fminF32 => fp .f32 fun m a b => m.minMax fl false a b
  | .fmaxF32 => fp .f32 fun m a b => m.minMax fl true a b
  | .faddF16x4 => fp .f16x4 add
  | .fmulF16x4 => fp .f16x4 mul
  | .addI32x2 => int .i32x2 fun a b _ => a + b
  | .addI16x4 => int .i16x4 fun a b _ => a + b

/-- A half's result: its destination, value and flags. -/
def halfRes (fl : Bool) (lane : Nat) (th : Thread) : PairHalf → Option (BitVec 8 × Word × Flags)
  | .empty => none
  | .op o d s => let r := halfVal fl o (th.reg d.toNat) (readSrc lane th s); some (d, r.1, r.2)

/-- A half's write and push (R110: the first half pushes before the second). -/
def Thread.putHalf (th : Thread) : Option (BitVec 8 × Word × Flags) → Thread
  | none => th
  | some (d, v, _) => (th.setReg d.toNat v).push v

def halfFlags : Option (BitVec 8 × Word × Flags) → Flags
  | none => 0
  | some (_, _, f) => f

/-- One thread of a pair word. -/
def pairStep (fl : Bool) (x y : PairHalf) (next t : Nat) (th : Thread) : Thread :=
  let a := halfRes fl (laneOf t) th x
  let b := halfRes fl (laneOf t) th y
  let th' := (th.putHalf a).putHalf b
  (if halfFlags a ||| halfFlags b = 0 then th' else { th' with tick := th'.tick + 1 }).adv next

/-- A pair word (R114): no guard, no set flag. -/
def execPairWord (_dist : BitVec 3) (_wait : BitVec 12) (x y : PairHalf) (s : State) : Out :=
  let fl := s.flushBit
  let recs : List FlagRec := s.cur.tids.flatMap fun t => match tget? s.threads t with
    | some th =>
      let f := halfFlags (halfRes fl (laneOf t) th x) ||| halfFlags (halfRes fl (laneOf t) th y)
      if f = 0 then [] else [{ who := [(th.me t, th.tick + 1)], set := f, clr := 0, arm := none, vc := th.vc }]
    | none => []
  let s' := s.mapGroup fun t th => pairStep fl x y s.cur.next t th
  .next (if recs.isEmpty then s' else s'.modBlock s.curBlockKey fun b => { b with flagLog := b.flagLog ++ recs })

end Sys2Proof.Machine
end

