-- ==== Sys2Proof/Machine/Dictionary.lean ====
section
/-! DEFINITION. Dictionary codes (R117-R120): a code executes its entry, a full word or a pair word, as if the entry stood
at the code's PC. -/
namespace Sys2Proof.Machine

open Sys2Proof

/-- The meaning of a dictionary entry: of every instruction that a full word or a pair word of a lane core may hold. -/
def execEntry (i : Instr) (s : State) : Out :=
  match i with
  | .add h ty sat d a b => execAdd h ty sat d a b s
  | .sub h ty sat d a b => execSub h ty sat d a b s
  | .addc h w64 c d a b => execAddc h w64 c d a b s
  | .subb h w64 c d a b => execSubb h w64 c d a b s
  | .mul h ty sat d a b => execMul h ty sat d a b s
  | .mulh h ty d a b => execMulh h ty d a b s
  | .mad h ty sat d a b => execMad h ty sat d a b s
  | .madh h ty d a b => execMadh h ty d a b s
  | .min h ty d a b => execMin h ty d a b s
  | .max h ty d a b => execMax h ty d a b s
  | .abs h ty sat d a => execAbs h ty sat d a s
  | .neg h ty sat d a => execNeg h ty sat d a s
  | .and h w64 d a b => execAnd h w64 d a b s
  | .or h w64 d a b => execOr h w64 d a b s
  | .xor h w64 d a b => execXor h w64 d a b s
  | .not h w64 d a => execNot h w64 d a s
  | .andn h w64 d a b => execAndn h w64 d a b s
  | .shl h w64 d a b => execShl h w64 d a b s
  | .shr h w64 d a b => execShr h w64 d a b s
  | .sar h w64 d a b => execSar h w64 d a b s
  | .rotl h w64 d a b => execRotl h w64 d a b s
  | .bfx h ty d a b => execBfx h ty d a b s
  | .bfi h w64 d a b => execBfi h w64 d a b s
  | .popc h w64 d a => execPopc h w64 d a s
  | .clz h w64 d a => execClz h w64 d a s
  | .ctz h w64 d a => execCtz h w64 d a s
  | .brev h w64 d a => execBrev h w64 d a s
  | .bsel h d a b => execBsel h d a b s
  | .lea h sgn k d a b => execLea h sgn k d a b s
  | .mov h w64 d a => execMov h w64 d a s
  | .movSpecial h sr d => execMovSpecial h sr d s
  | .sel h p d a b => execSel h p d a b s
  | .setp h c ty p a b => execSetp h c ty p a b s
  | .addImm h d a imm => execAddImm h d a imm s
  | .subImm h d a imm => execSubImm h d a imm s
  | .mulImm h d a imm => execMulImm h d a imm s
  | .minImm h d a imm => execMinImm h d a imm s
  | .maxImm h d a imm => execMaxImm h d a imm s
  | .andImm h d a imm => execAndImm h d a imm s
  | .orImm h d a imm => execOrImm h d a imm s
  | .xorImm h d a imm => execXorImm h d a imm s
  | .andnImm h d a imm => execAndnImm h d a imm s
  | .shlImm h d a imm => execShlImm h d a imm s
  | .shrImm h d a imm => execShrImm h d a imm s
  | .sarImm h d a imm => execSarImm h d a imm s
  | .rotlImm h d a imm => execRotlImm h d a imm s
  | .leaImm h d a imm => execLeaImm h d a imm s
  | .movi h d imm => execMovi h d imm s
  | .fadd h ty rm d a b => execFadd h ty rm d a b s
  | .fsub h ty rm d a b => execFsub h ty rm d a b s
  | .fmul h ty rm d a b => execFmul h ty rm d a b s
  | .fma h ty rm d a b => execFma h ty rm d a b s
  | .fmin h ty d a b => execFmin h ty d a b s
  | .fmax h ty d a b => execFmax h ty d a b s
  | .fsetp h c ty p a b => execFsetp h c ty p a b s
  | .fclass h ty d a => execFclass h ty d a s
  | .frnd h ty rm d a => execFrnd h ty rm d a s
  | .fdiv h ty rm d a b => execFdiv h ty rm d a b s
  | .fsqrt h ty rm d a => execFsqrt h ty rm d a s
  | .frcp h x2 d a => execFrcp h x2 d a s
  | .frsqrt h x2 d a => execFrsqrt h x2 d a s
  | .fexp2 h x2 d a => execFexp2 h x2 d a s
  | .flog2 h x2 d a => execFlog2 h x2 d a s
  | .fscale h ty rm d a b => execFscale h ty rm d a b s
  | .fcvt h c rm d a => execFcvt h c rm d a s
  | .icvt h c rm d a => execIcvt h c rm d a s
  | .bfpPack h bfp4 rm d a b => execBfpPack h bfp4 rm d a b s
  | .bfpUnpack h bfp4 rm d a b => execBfpUnpack h bfp4 rm d a b s
  | .sacc h rm d a b => execSacc h rm d a b s
  | .pdot h ty d a b => execPdot h ty d a b s
  | .nzmask h v d a => execNzmask h v d a s
  | .nzcnt h v d a => execNzcnt h v d a s
  | .flgRd h d => execFlgRd h d s
  | .flgClr h a => execFlgClr h a s
  | .flgArm h a => execFlgArm h a s
  | .rng h d a b => execRng h d a b s
  | .pairWord dist wait x y => execPairWord dist wait x y s
  | .bra h disp => execBra h disp s
  | .call h disp => execCall h disp s
  | .calli h a => execCalli h a s
  | .ret h => execRet h s
  | .exit h => execExit h s
  | .nop h => execNop h s
  | .trap h a => execTrap h a s
  | .rett h => execRett h s
  | .brk h => execBrk h s
  | .suspendK h a b => execSuspendK h a b s
  | .suspendR h a b => execSuspendR h a b s
  | .evAdd h d a b => execEvAdd h d a b s
  | .evRd h d a => execEvRd h d a s
  | .lxch h size wrap d a b => execLxch h size wrap d a b s
  | .bcast h d a b => execBcast h d a b s
  | .poll h op neg m b => execPoll h op neg m b s
  | .lred h op d a b => execLred h op d a b s
  | .scan h op d a b => execScan h op d a b s
  | .peer h w64 d a b => execPeer h w64 d a b s
  | .lead h hi p b => execLead h hi p b s
  | .csample h p d a b => execCsample h p d a b s
  | .nbarArr h a b => execNbarArr h a b s
  | .nbarSync h a b => execNbarSync h a b s
  | .nbarWait h a => execNbarWait h a s
  | .nbarRd h d a => execNbarRd h d a s
  | .pbarInit h a b => execPbarInit h a b s
  | .pbarArr h a => execPbarArr h a s
  | .pbarWait h a b => execPbarWait h a b s
  | .ld h sp ty d a disp => execLd h sp ty d a disp s
  | .st h sp ty v a disp => execSt h sp ty v a disp s
  | .ldl h ty d a disp => execLdl h ty d a disp s
  | .pref h a disp => execPref h a disp s
  | .atom h spad op ty d a b => execAtom h spad op ty d a b s
  | .atomFadd h ty rm a b => execAtomFadd h ty rm a b s
  | .cpa h dstS src d a b => execCpa h dstS src d a b s
  | .cpa2 h dstS src d a b => execCpa2 h dstS src d a b s
  | .fence h => execFence h s
  | .fenceOwn h d => execFenceOwn h d s
  | .fenceSeize h k d a b => execFenceSeize h k d a b s
  | .fenceSpw h k a => execFenceSpw h k a s
  | .binCfg h a => execBinCfg h a s
  | .binPut h e8 a b => execBinPut h e8 a b s
  | .binRun h d a => execBinRun h d a s
  | .collPost h d a => execCollPost h d a s
  | .collRd h d a => execCollRd h d a s
  | .edgePush h d a b => execEdgePush h d a b s
  | .accReq h p a => execAccReq h p a s
  | .accRel h a => execAccRel h a s
  | .fibOpen h spad kind f a b => execFibOpen h spad kind f a b s
  | .fibAdvN h f a b => execFibAdvN h f a b s
  | .fibAdvGe h f a b => execFibAdvGe h f a b s
  | .fibEnd h p f b => execFibEnd h p f b s
  | .fibClose h f b => execFibClose h f b s
  | .fibIsect h p d fa fb b => execFibIsect h p d fa fb b s
  | .fibMerge h p d fa fb b => execFibMerge h p d fa fb b s
  | .fibSplit h f a b => execFibSplit h f a b s
  | .fibGet h fld d f b => execFibGet h fld d f b s
  | .sproj h ty d a b => execSproj h ty d a b s
  | .slotRdWord h d a b => execSlotRdWord h d a b s
  | .slotRdTok h d a b => execSlotRdTok h d a b s
  | .slotRdBatch h d => execSlotRdBatch h d s
  | .slotPut h a b => execSlotPut h a b s
  | .slotCfg h a b => execSlotCfg h a b s
  | .seqStPause h a b => execSeqStPause h a b s
  | .seqStResume h a b => execSeqStResume h a b s
  | .seqStSwap h a b => execSeqStSwap h a b s
  | .seqStRelease h a b => execSeqStRelease h a b s
  | .seqStPriority h a b => execSeqStPriority h a b s
  | .seqFork h d a b => execSeqFork h d a b s
  | .csrr h d n => execCsrr h d n s
  | .csrw h n a => execCsrw h n a s
  | .csrx h d n a => execCsrx h d n a s
  | .cbindWrite h a => execCbindWrite h a s
  | .keyLoad h a => execKeyLoad h a s
  | .keyErase h a => execKeyErase h a s
  | .contextCreate h a => execContextCreate h a s
  | .tlbInvAll h b => execTlbInvAll h b s
  | .tlbInvPage h a b => execTlbInvPage h a b s
  | .tlbInvRange h l a b => execTlbInvRange h l a b s
  | .tlbInvDev h => execTlbInvDev h s
  | .fragRdEntry h d a b => execFragRdEntry h d a b s
  | .fragRdFrame h d b => execFragRdFrame h d b s
  | .fragResume h d a b => execFragResume h d a b s
  | .fragKill h d a b => execFragKill h d a b s
  | .ctxHaltTerm h a => execCtxHaltTerm h a s
  | .ctxHaltSave h d a b => execCtxHaltSave h d a b s
  | .ctxHaltLoad h d a b => execCtxHaltLoad h d a b s
  | .ctxHaltClear h a => execCtxHaltClear h a s
  | .probeRd h d a => execProbeRd h d a s
  | .logApp h d a b => execLogApp h d a b s
  | .cntCfg h a b => execCntCfg h a b s
  | .cntRd h d a => execCntRd h d a s
  | .cancelBlock h d a b => execCancelBlock h d a b s
  | .cancelLaunch h d a => execCancelLaunch h d a s
  | .cancelGraph h d a => execCancelGraph h d a s
  | .cancelPhase h d a => execCancelPhase h d a s
  | .cancelJob h d a => execCancelJob h d a s
  | .phaseClose h a => execPhaseClose h a s
  | _ => .next (s.trapGroup (illegal 2))

/-- A dictionary code (R118, R120): its entry, with the offset added to the registers, or the trap that the entry
raises. -/
def execDictionaryCode (off : BitVec 6) (idx : BitVec 10) (s : State) : Out :=
  match s.dictEntry s.lead_ off idx with
  | .error c => .next (s.trapGroup (illegal c.toNat))
  | .ok i => execEntry i s

end Sys2Proof.Machine
end

