-- ==== Sys2Proof/Machine/Loader.lean ====
section
/-! DEFINITION. Objects (R144-R148): the CKO file, its sections, symbols and relocations, its signature and admission
(R408), and the mapping of what it loads (R430). -/
namespace Sys2Proof.Machine

open Sys2Proof

/-- A file, and numbers in it. -/
abbrev File := List Byte

def File.num (f : File) (off n : Nat) : Nat := leNat ((f.drop off).take n)
def File.word (f : File) (off : Nat) : Word := Machine.word (f.num off 8)

/-! ### Sections (R144) -/

/-- A section-table entry. -/
structure Section where
  ty : Nat
  al : Nat
  off : Nat
  size : Nat
  deriving DecidableEq, Repr

/-- Log2 of the least alignment of a section type. -/
def minAlign (ty : Nat) : Nat :=
  match ty with
  | 1 => 3 | 2 => 3 | 3 => 0 | 4 => 0 | 5 => 0 | 6 => 6 | 7 => 6 | 8 => 3 | 9 => 0 | 10 => 3 | 11 => 2 | _ => 3

def loadable (ty : Nat) : Bool := 1 ≤ ty && ty ≤ 7

/-- Bytes that a section has in the file. -/
def Section.fileBytes (x : Section) : Nat := if x.ty = 5 then 0 else x.size

/-- Entry i of the section table; reserved bytes must be zero. -/
def File.sectionAt (f : File) (i : Nat) : Option Section :=
  let o := f.num 16 8 + 32 * i
  let x : Section := { ty := f.num o 2, al := f.num (o + 2) 1, off := f.num (o + 8) 8, size := f.num (o + 16) 8 }
  if allZero ((f.drop (o + 3)).take 5) && allZero ((f.drop (o + 24)).take 8) && o + 32 ≤ f.length && 1 ≤ x.ty && x.ty ≤ 12
      && minAlign x.ty ≤ x.al && x.off % 64 == 0 && (x.ty == 5 || x.off + x.size ≤ f.length) then some x
  else none

/-- The place of a section type in the file's order: loadable ones, then sym, str, rel, line and sig. -/
def sectionRank (ty : Nat) : Nat := if loadable ty then 0 else ty - 7

/-- Two sections that have bytes in the file stand in the file's order and share none of them. -/
def apart (x y : Section) : Bool :=
  let before := x.off + x.size ≤ y.off
  let after := y.off + y.size ≤ x.off
  if sectionRank x.ty < sectionRank y.ty then before else if sectionRank y.ty < sectionRank x.ty then after else before || after

/-- The order of R144: each type once, every section with bytes behind the section table, and the sections as ranked. The
table's own entries may stand in any order (log 69). -/
def inOrder (l : List Section) : Bool :=
  let tys := l.map (·.ty)
  let ls := l.filter fun x => x.ty != 5
  tys.eraseDups.length == tys.length && ls.all (fun x => 64 + 32 * l.length ≤ x.off)
    && ls.all fun x => ls.all fun y => x.ty == y.ty || apart x y

/-- The sections of a file that keeps the layout; a file that breaks it has none (log 69). -/
def File.sections (f : File) : Option (List Section) :=
  let n := f.num 8 2
  let flags := f.num 6 2
  if f.length < 64 ∨ f.take 4 ≠ [0x43, 0x4B, 0x4F, 0x1A] ∨ f.num 4 2 ≠ 1 ∨ 4 ≤ flags ∨ n = 0 ∨ 12 < n
      ∨ ¬allZero ((f.drop 10).take 6) ∨ f.num 16 8 ≠ 64 ∨ ¬allZero ((f.drop 28).take 36) then none
  else
    let l := (List.range n).filterMap f.sectionAt
    if l.length = n ∧ inOrder l ∧ (l.any fun x => x.ty == 12) = decide (flags % 2 = 1) ∧ (l.any fun x => x.ty == 11) = decide (flags / 2 = 1)
    then some l else none

def sectionOf (l : List Section) (ty : Nat) : Option Section := l.find? fun x => x.ty == ty

/-- Bytes of a section in the file. -/
def File.bytesOf (f : File) (x : Section) : List Byte := (f.drop x.off).take x.fileBytes

/-! ### Content digest and signature (R148) -/

/-- The content digest, and the signature where the file has one. -/
def File.digest (f : File) (l : List Section) : List Byte :=
  sha384 (match sectionOf l 12 with | some x => f.take x.off | none => f)

def File.signature (f : File) (l : List Section) : Option Sig := (sectionOf l 12).map fun x => sigOf (f.bytesOf x)

/-- Whether a file's signature verifies. -/
def File.signed (f : File) (l : List Section) : Bool :=
  match sectionOf l 12, f.signature l with
  | some x, some g => x.size == 160 && g.good x.off (f.digest l)
  | _, _ => false

/-! ### Symbols and relocations (R145, R146) -/

/-- Where a section type is loaded. One that is not loaded (types 8 to 12) has no address in the specification; for a symbol
the model takes the base plus its file offset all the same (log 76). -/
def sectionVa (base : Word) (l : List Section) (ty : Nat) : Option Word := (sectionOf l ty).map fun x => base + word x.off

/-- The resolved value of symbol i for a relocation of a section; an undefined global resolves to nothing. -/
def File.symbol (f : File) (base : Word) (l : List Section) (i ty : Nat) : Option Word :=
  if i = 0 then sectionVa base l ty
  else match sectionOf l 8 with
    | none => none
    | some x =>
      let o := x.off + 32 * i
      if x.size < 32 * i + 32 then none
      else
        let v := f.word (o + 8)
        match f.num (o + 4) 2, f.num (o + 6) 1 with
        | 0, 6 => some v
        | 0, _ => none
        | st, _ => (sectionVa base l st).map fun a => a + v

/-- A global name that the object does not define: section type 0, kind 0, value 0. Nothing outside the object resolves
it here, so the object is refused (R145; log 50). -/
def File.undefinedGlobal (f : File) (l : List Section) : Bool :=
  match sectionOf l 8 with
  | none => false
  | some x => (List.range (x.size / 32)).any fun i =>
    let o := x.off + 32 * i
    i != 0 && f.num (o + 4) 4 == 256 ^ 3 && f.num (o + 8) 8 == 0

/-- A number of n bits in two's complement. -/
def fits (v : Word) (n : Nat) : Bool := -(2 ^ (n - 1)) ≤ v.toInt && v.toInt < 2 ^ (n - 1)

/-- The word of the object's loaded sections that stands at an aligned address. -/
def File.wordAtVa (f : File) (base : Word) (l : List Section) (va : Word) : Option Word :=
  (l.find? fun x => loadable x.ty && (va - base).toNat < x.off + x.fileBytes && x.off ≤ (va - base).toNat).map fun _ => f.word (va - base).toNat

/-- Whether a control transfer may reach an address (R119): a slot beyond the first needs a dictionary word of the object
that has it; one in a word that the object does not hold is refused (log 69). -/
def File.reachable (f : File) (base : Word) (l : List Section) (t : Word) : Bool :=
  let slot := bits t 1 2
  bits t 0 1 == 0 && (slot == 0 || match f.wordAtVa base l (t - Machine.word (2 * slot)) with
    | some w => bits w 62 2 == 2 && slot ≤ bits w 60 2 && bits w 60 2 != 3
    | none => false)

/-- The patched word of a relocation: none where it is refused. An unknown type, or a type 3 at a word that is no control
transfer with a displacement, is refused too (log 69). -/
def patch (ty : Nat) (w v p : Word) : Option Word :=
  match ty with
  | 1 => some v
  | 2 => if fits v 13 then some (putBits (putBits w 25 5 (bits v 8 5)) 0 8 (bits v 0 8)) else none
  | 3 =>
    let d := v - p
    if (bits w 30 9 = 0x100 ∨ bits w 30 9 = 0x101) ∧ bits w 62 2 = 0 ∧ fits d 26 then some (putBits w 0 25 (bits d 1 25))
    else none
  | _ => none

/-- Replacing n bytes of a list from an offset on. -/
def replaceAt (l : List Byte) (off : Nat) (bs : List Byte) : List Byte := l.take off ++ bs ++ l.drop (off + bs.length)

/-- Relocation i: the patched section, the word's offset in the file, its type, and S + A. One against a section that is
not loadable, outside the section's file bytes, or by a symbol without a value has none (log 69). -/
def File.relocation (f : File) (base : Word) (l : List Section) (o : Nat) : Option (Nat × Nat × Word) :=
  let at_ := f.num o 8
  let st := f.num (o + 8) 2
  match sectionOf l st, f.symbol base l (f.num (o + 12) 4) st with
  | some y, some sv => if y.fileBytes < at_ + 8 ∨ !loadable st then none else some (y.off + at_, f.num (o + 10) 2, sv + f.word (o + 16))
  | _, _ => none

/-- Every relocation applied to the file's bytes; none where one is refused, or a BRANCH reaches what R119 forbids. -/
def File.relocate (f : File) (base : Word) (l : List Section) : Option File :=
  if f.undefinedGlobal l then none
  else match sectionOf l 10 with
    | none => some f
    | some x =>
      let rs := (List.range (x.size / 24)).map fun i => f.relocation base l (x.off + 24 * i)
      let g := rs.foldl (fun (g : Option File) r => match g, r with
        | some g, some (o, ty, v) => (patch ty (g.word o) v (base + Machine.word o)).map fun w => replaceAt g o (leBytes 8 w.toNat)
        | _, _ => none) (some f)
      match g with
      | none => none
      | some g => if rs.all fun r => match r with | some (_, 3, v) => g.reachable base l v | _ => true then some g else none

/-! ### Admission (R408) -/

/-- Whether the context's signer list holds a digest. -/
def State.signerListed (s : State) (asid : Nat) (key : List Byte) : Bool :=
  let a := (s.ctx asid).admitW
  (List.range (bits a 8 8)).any fun i =>
    (s.readHomeVa asid 1 ((a &&& ~~~(0xFFFF : Word)) + word (48 * i)) 48).1 == some key

/-- Whether an object is admitted. -/
def State.admits (s : State) (asid : Nat) (f : File) (l : List Section) : Bool :=
  let a := (s.ctx asid).admitW
  match f.signature l with
  | none => !bit a 0
  | some g => f.signed l && (bit a 1 || s.signerListed asid g.key)

/-! ### Mapping (R430) -/

/-- Leaf bits of a section type: V, L, U, and X or W. -/
def sectionLow (ty : Nat) : Nat := 19 + (if ty = 1 then 8 else 0) + (if ty = 4 ∨ ty = 5 then 4 else 0)

/-- Pages of the loadable sections, each with the union of the rights of the sections that share it. -/
def loadPages (base : Word) (l : List Section) : List (Word × Nat) :=
  l.foldl (fun (m : List (Word × Nat)) x =>
    (pagesOf (base + word x.off) x.size).foldl (fun m p =>
      if m.any fun e => e.1 == p then m.map fun e => if e.1 = p then (e.1, e.2 ||| sectionLow x.ty) else e
      else m ++ [(p, sectionLow x.ty)]) m) []

/-- Whether an existing leaf has the rights needed. -/
def leafAllows (e : Word) (low : Nat) : Bool := bits e 0 5 &&& low == low

/-- Pages mapped with the rights asked for, or none where an existing leaf lacks one. -/
def State.mapWith (s : State) (asid : Nat) (pages : List (Word × Nat)) : Option State :=
  if pages.all fun p => match s.leafOf asid p.1 with | some x => leafAllows x.2.2 p.2 | none => true then s.mapPages asid pages
  else none

/-- The loadable sections of a file mapped and written in the order of the table; none where that is refused, and then
nothing is. A section whose address is no multiple of its alignment refuses the object (log 69). Sections may overlap where
the file bytes do not: a later entry of the table, bss zeros included, then overwrites an earlier one, which is the model's
choice (log 75). -/
def State.loadFile (s : State) (asid : Nat) (base : Word) (f : File) (l : List Section) : Option State :=
  let ls := l.filter fun x => loadable x.ty
  let aligned := ls.all fun x => (base + word x.off).toNat % 2 ^ x.al == 0 && (x.size == 0 || spanCanonical (base + word x.off) x.size)
  match f.relocate base l with
  | none => none
  | some g =>
    if !aligned then none
    else match s.mapWith asid (loadPages base ls) with
      | none => none
      | some s => ls.foldl (fun s x => match s with
        | none => none
        | some s => s.writeMapped asid (base + word x.off) (if x.ty = 5 then List.replicate x.size 0 else g.bytesOf x)) (some s)

/-- What a request brings to a context is kept with it, and recorded for its recorded jobs (R396). -/
def State.supply (s : State) (asid : Nat) (r : Rec) : State :=
  let s := s.modCtx asid fun c => { c with loaded := c.loaded ++ [r] }
  (s.jobs.filter fun e => e.2.asid == asid).foldl (fun s e => s.record e.1 r) s

/-- A whole object: admitted and mapped, or refused with no effect. -/
def State.loadObject (s : State) (asid : Nat) (base : Word) (f : File) : Option State :=
  match f.sections with
  | none => none
  | some l =>
    if !s.admits asid f l then none
    else (s.loadFile asid base f l).map fun s => s.supply asid (.object asid (f.digest l))

/-- Whether loading an object waits for a poisoned line: of the signer list, of the tables, or of a section's bytes
(R388). -/
def State.loadHeld (s : State) (asid : Nat) (base : Word) (f : File) : Bool :=
  !s.poison.isEmpty && match f.sections with
    | none => false
    | some l =>
      let ls := l.filter fun x => loadable x.ty
      let a := (s.ctx asid).admitW
      (bits a 8 8 != 0 && s.homeHeld asid 1 (a &&& ~~~(0xFFFF : Word)) (48 * bits a 8 8))
        || s.tablesHeld asid ((loadPages base ls).map (·.1)) || ls.any fun x => s.mappedHeld asid (base + word x.off) x.size

end Sys2Proof.Machine
end

