-- ==== Sys2Proof/Machine/Imago.lean ====
section
/-! DEFINITION. Messages to and from Imago (R404-R411, R417-R419, R430, R392, R398, R402). -/
namespace Sys2Proof.Machine

open Sys2Proof

/-! ### Headers (R405, R406) -/

/-- Types that Imago takes (R406). -/
def tyAssigned (t : Nat) : Bool := 1 ≤ t && t ≤ 7

/-- The header limits of R405. -/
def hdrOk (m : MsgHdr) : Bool :=
  bits m.w0 0 16 == 0x1A96 && bits m.w0 16 8 == 1 && bits m.w0 32 32 % 8 == 0 && 32 ≤ bits m.w0 32 32
    && bits m.w0 32 32 ≤ 65536 && bits m.w2 10 54 == 0 && m.w3 == 0

/-- The ASID of a connection (R404); one that no operator message has bound, and the PCIe rings (R411), belong to ASID 0. -/
def State.connAsid (s : State) (conn : Nat) : Nat := tget 0 s.conns conn

/-- The number of the connection that the PCIe rings are (R411). -/
def pcieConn : Nat := 2 ^ 32

/-- The code with which a header is refused: 1 where it breaks the limits or its type is not assigned, 2 where the ASID
is not the connection's; 0 where it passes. -/
def State.hdrCode (s : State) (m : MsgHdr) : Nat :=
  if !hdrOk m || !tyAssigned (bits m.w0 24 8) then 1
  else if bits m.w2 0 10 ≠ s.connAsid m.conn then 2
  else 0

/-- A STATUS message (R406). -/
def State.reply (s : State) (m : MsgHdr) (code : Nat) (val : Word := 0) (bytes : List Byte := []) : State :=
  { s with egress := .status m.conn m.w1 code val bytes :: s.egress }

/-- Whether messages of a connection reach Imago: it is ready (R414), and the PCIe link, where it is one, is enabled
(R411). -/
def State.hears (s : State) (m : MsgHdr) : Bool := s.boot.stage == .ready && (m.conn != pcieConn || s.boot.debug)

/-! ### Requests in order (R404, R388) -/

/-- The connection of a request. -/
def connOf (i : Instr) : Option Nat :=
  match i with
  | .oper m _ _ | .operAttest m _ _ | .operBlowFuse m _ _ | .operMap m _ _ _ _ _ | .operJoinDomain m _ _ _ => some m.conn
  | .load m _ _ _ _ | .job m _ _ _ _ | .seq m _ | .malformedMessage m => some m.conn
  | .ctrlJobHold m _ | .ctrlJobResume m _ | .ctrlJobCancel m _ | .ctrlJobFinish m _ => some m.conn
  | .ctrlSeqPause m _ | .ctrlSeqResume m _ | .ctrlSeqSwap m _ | .ctrlSeqRelease m _ => some m.conn
  | .dataWrite m _ _ | .dataRead m _ _ | .replay m _ => some m.conn
  | _ => none

/-- The partial object of a connection at a base. -/
def State.partialOf (s : State) (conn : Nat) (base : Word) : Option Partial := s.partials.find? fun p => p.conn == conn && p.base == base

/-- The bytes received of an object once a segment has joined them; none where the segment runs past TOTAL or clashes. A
different TOTAL begins a new object (R407). -/
def State.joined (s : State) (conn : Nat) (base : Word) (total off : Nat) (bs : List Byte) : Option (Tab Byte) :=
  let got := match s.partialOf conn base with | some p => if p.total = total then p.got else [] | none => []
  let clash := bs.zipIdx.any fun e => match tget? got (off + e.2) with | some b => b != e.1 | none => false
  if total < off + bs.length ∨ clash then none else some (bs.zipIdx.foldl (fun g e => tset (off + e.2) e.1 g) got)

/-- Whether a request waits for a poisoned line: of its data, of the tables it builds, or of the window table (R388). -/
def State.heldMsg (s : State) (i : Instr) : Bool :=
  !s.poison.isEmpty && match i with
    | .dataRead m va len => (match (s.xlateSpan (bits m.w2 0 10) 2 .read va len).1 with | .ok l => s.poisoned l | .error x => x.waits)
    | .dataWrite m va bs => s.homeWriteHeld (bits m.w2 0 10) 2 va bs.length
    | .load m base total off bs => (match s.joined m.conn base total.toNat off.toNat bs with
      | some got => got.length == total.toNat && s.loadHeld (bits m.w2 0 10) base (got.map (·.2))
      | none => false)
    | .operMap _ _ asid va len _ => s.tablesHeld asid (pagesOf va len)
    | .oper _ _ (.setWindow idx _ _) => s.homeWriteHeld 0 2 (s.boot.wintab + word (16 * idx)) 16
    | _ => false

/-- Whether a boundary under way holds a request (R409): one of its domain; for an operator message, any. -/
def State.busyFor (s : State) (m : MsgHdr) : Bool :=
  let a := bits m.w2 0 10
  if a = 0 then !s.bnd.isEmpty else s.ctxBusy a

/-- Whether a request waits: for a boundary, for a poisoned line, or behind an earlier one of its connection that does. -/
def State.mustWait (s : State) (i : Instr) (m : MsgHdr) : Bool :=
  (!s.cur.held && s.mail.any fun j => connOf j == some m.conn) || (s.hdrCode m == 0 && (s.busyFor m || s.heldMsg i))

/-- A request joins those that wait; one that has waited keeps its place. -/
def State.postpone (s : State) (i : Instr) : State := if s.cur.held then s else { s with mail := s.mail ++ [i] }

/-- The waiting requests that come next: the first of each connection, and every access of another device. -/
def State.mailHeads (s : State) : List Instr :=
  s.mail.filter fun i => match connOf i with
    | some c => (s.mail.find? fun j => connOf j == some c) == some i
    | none => true

/-- A request: heard, in its connection's order, and its header passed. -/
def State.request (s : State) (i : Instr) (m : MsgHdr) (k : State → State) : State :=
  if !s.hears m then s
  else if s.mustWait i m then s.postpone i
  else k (if s.cur.held then { s with mail := s.mail.erase i } else s)

/-- A message of a type: its header is checked first. -/
def State.message (s : State) (i : Instr) (m : MsgHdr) (ty : Nat) (k : State → State) : State :=
  s.request i m fun s => match s.hdrCode m with
    | 0 => if bits m.w0 24 8 = ty then k s else s.reply m 1
    | c => s.reply m c

/-- MALFORMED_MESSAGE (R405): the answer, and no other effect. -/
def execMalformedMessage (m : MsgHdr) (s : State) : Out :=
  .next (s.request (.malformedMessage m) m fun s => s.reply m (match s.hdrCode m with | 0 => 1 | c => c))

/-! ### Operator messages (R417) -/

/-- The bytes of an operator message that its signature covers: the header, the body and the counter, every byte before r
(R417). The body's layout is free (log 7). -/
def signedBytes (m : MsgHdr) (b : OperBody) (g : OperSig) : List Byte :=
  bytesOf [m.w0, m.w1, m.w2, m.w3] ++ Config.operBytes b g.key ++ bytesOf [g.counter]

/-- Whether the signature and counter of an operator message are good; on an unowned device only the message that writes
OPKEY is taken, signed by the key it names. -/
def State.operOk (s : State) (m : MsgHdr) (b : OperBody) (g : OperSig) : Bool :=
  let unowned := allZero s.boot.opkey
  (if unowned then (match b with | .fuse (.opkey _) => true | _ => false) else s.boot.opkey == sha384 g.key)
    && Config.ecdsaVerifies g.key (sha384 (signedBytes m b g)) g.r g.s && s.boot.opctr.toNat < g.counter.toNat

/-- An operator message: accepted, it moves the counter. -/
def State.operator (s : State) (i : Instr) (m : MsgHdr) (g : OperSig) (b : OperBody) (k : State → State) : State :=
  s.message i m 1 fun s =>
    if s.operOk m b g then k { s with boot := { s.boot with opctr := g.counter } } else s.reply m 2

/-- Creating a context (R321): every word within its limits, and no context there yet. -/
def State.operCreate (s : State) (m : MsgHdr) (asid : Nat) (w : List Word) : State :=
  let w0 := putBits (w.getD 0 0) 63 1 1
  let ws := (List.range 8).map fun i => if i = 0 then w0 else w.getD i 0
  let bad := ws.zipIdx.any fun e => !ctxOk e.2 e.1
  let noKey := bit w0 62 && (s.keyWords (bits w0 54 8)).all (· == 0)
  if asid = 0 ∨ 1024 ≤ asid ∨ bad then s.reply m 1
  else if noKey then s.reply m 2
  else if (s.ctx asid).valid then s.reply m 4
  else (ws.zipIdx.foldl (fun s e => s.ctxPut asid e.2 e.1) s).reply m 0

/-- A window table entry written at home under ASID 0 (R401). -/
def State.operWindow (s : State) (m : MsgHdr) (idx : Nat) (w0 w1 : Word) : State :=
  if 64 ≤ idx then s.reply m 1
  else
    let r := s.writeHomeVa 0 2 (s.boot.wintab + word (16 * idx)) (leBytes 8 w0.toNat ++ leBytes 8 w1.toNat)
    r.2.reply m (if r.1 then 0 else 2)

/-- Frames reserved for a context's fault service, with their DPAs in the reply (R406, R430). -/
def State.operReserve (s : State) (m : MsgHdr) (asid n : Nat) : State :=
  if !(s.ctx asid).valid then s.reply m 2
  else
    let r := (List.range n).foldl (fun (r : List Nat × Option State) _ => match r.2 with
      | none => r
      | some s => match s.newFrame asid with | some (f, s) => (r.1 ++ [f], some s) | none => (r.1, none)) ([], some s)
    match r.2 with
    | none => s.reply m 3
    | some s => (s.modCtx asid fun c => { c with frames := c.frames ++ r.1 }).reply m 0 0 (r.1.flatMap fun f => leBytes 8 f)

/-- What an OPER message configures (R406). -/
def State.operCmd (s : State) (m : MsgHdr) : OperCmd → State
  | .createContext asid w => s.operCreate m asid w
  | .setPartition n w =>
    if 8 ≤ n then s.reply m 1
    else if !s.partOk n w then s.reply m 2
    else (s.modPart n fun p => { p with en := bit w 63, gran := w.extractLsb' 0 8 }).reply m 0
  | .setWindow i w0 w1 => s.operWindow m i w0 w1
  | .bindConn conn asid =>
    if conn = pcieConn ∨ ¬(asid = 0 ∨ (s.ctx asid).valid) then s.reply m 2 else { s with conns := tput 0 conn asid s.conns }.reply m 0
  | .runList p asids =>
    if 8 ≤ p ∨ 16 < asids.length then s.reply m 1
    else if asids.all fun a => (s.ctx a).valid then (s.modPart p fun q => { q with runList := asids }).reply m 0
    else s.reply m 2
  | .slice p asid ms =>
    if 8 ≤ p ∨ ms < 1 ∨ 1000 < ms then s.reply m 1
    else if (s.ctx asid).valid then (s.modPart p fun q => { q with slices := tset asid ms q.slices }).reply m 0
    else s.reply m 2
  | .certificate => s.reply m 0 0 Config.certificate
  | .reserve asid n => s.operReserve m asid n

/-- OPER (R406, R417). -/
def execOper (m : MsgHdr) (sig : OperSig) (cmd : OperCmd) (s : State) : Out :=
  .next (s.operator (.oper m sig cmd) m sig (.command cmd) fun s => s.operCmd m cmd)

/-- The first 304 bytes of an attestation report (R419). -/
def State.attestation (s : State) (nonce : List Byte) : List Byte :=
  let b := s.boot
  let bits_ := b.slotB.toNat + 2 * b.nodebug.toNat + 4 * (b.debug).toNat + 8 * (allZero b.opkey).toNat
  nonce ++ beNum 48 Config.identityDigest.toNat ++ sha384 b.image ++ sha384 b.config
    ++ b.opkey ++ leBytes 4 b.svn.toNat ++ leBytes 4 b.svnmin.toNat ++ leBytes 2 b.devnum ++ leBytes 1 bits_
    ++ List.replicate 5 0 ++ sha384 s.log.head

/-- The 96 bytes of a signature by the identity key: r and s, each big-endian. -/
def identitySig (digest : List Byte) : List Byte :=
  let g := Config.identitySign digest
  beNum 48 g.1.toNat ++ beNum 48 g.2.toNat

/-- OPER_ATTEST (R419). -/
def execOperAttest (m : MsgHdr) (sig : OperSig) (nonce : List Byte) (s : State) : Out :=
  .next (s.operator (.operAttest m sig nonce) m sig (.attest nonce) fun s =>
    if nonce.length ≠ 48 then s.reply m 1
    else let r := s.attestation nonce; s.reply m 0 0 (r ++ identitySig (sha384 r)))

/-- What a fuse message blows (R412): OPKEY once, SVNMIN upwards, at most to the running SVN, and never with a blown bit at
0; NODEBUG. -/
def State.blow (s : State) (m : MsgHdr) : FuseCmd → State
  | .opkey k =>
    if k.length ≠ 48 ∨ allZero k then s.reply m 1
    else if !allZero s.boot.opkey then s.reply m 2
    else { s with boot := { s.boot with opkey := k } }.reply m 0
  | .svnmin v =>
    if s.boot.svnmin &&& v ≠ s.boot.svnmin ∨ s.boot.svn.toNat < v.toNat then s.reply m 2
    else { s with boot := { s.boot with svnmin := v } }.reply m 0
  | .nodebug => { s with boot := { s.boot with nodebug := true, debug := false } }.reply m 0

/-- OPER_BLOW_FUSE (R412, R417). -/
def execOperBlowFuse (m : MsgHdr) (sig : OperSig) (cmd : FuseCmd) (s : State) : Out :=
  .next (s.operator (.operBlowFuse m sig cmd) m sig (.fuse cmd) fun s => s.blow m cmd)

/-- OPER_MAP (R430): a range mapped with the rights stated (W, X, U from bit 0 on) on zero-filled frames. -/
def execOperMap (m : MsgHdr) (sig : OperSig) (asid : Nat) (va : Word) (len : Nat) (rights : BitVec 3) (s : State) : Out :=
  .next (s.operator (.operMap m sig asid va len rights) m sig (.map asid va len rights) fun s =>
    if len = 0 ∨ ¬spanCanonical va len then s.reply m 1
    else if !(s.ctx asid).valid then s.reply m 2
    else match s.mapWith asid ((pagesOf va len).map fun p => (p, 3 + 4 * rights.toNat)) with
      | some s => s.reply m 0
      | none => s.reply m 2)

/-- OPER_JOIN_DOMAIN (R402): partitions of this device, all at one phase, joined with other devices. -/
def execOperJoinDomain (m : MsgHdr) (sig : OperSig) (parts : List Nat) (remote : List Nat) (s : State) : Out :=
  .next (s.operator (.operJoinDomain m sig parts remote) m sig (.join parts remote) fun s =>
    let bad := parts.isEmpty || parts.any fun p => 8 ≤ p || !(s.part p).en || (s.part p).dom.isSome
    let ph := (s.part (parts.headD 0)).phase
    if bad then s.reply m 2
    else if parts.any fun p => (s.part p).phase != ph then s.reply m 4
    else
      let d := parts.foldl min 7
      let s := parts.foldl (fun s p => s.modPart p fun q => { q with dom := some d }) s
      { s with domRemote := tput [] d remote s.domRemote }.reply m 0)

/-- MEMBER_UNREACHABLE (R402): a member device of a joined domain cannot be reached, or can again. -/
def execMemberUnreachable (dom : Nat) (reachable : Bool) (s : State) : Out :=
  .next (if (tget [] s.domRemote dom).isEmpty then s
    else if reachable then { s with unreachable := s.unreachable.filter fun d => d != dom }
    else if s.unreachable.contains dom then s
    else { s with unreachable := s.unreachable ++ [dom] }.reportHeld 864 6 0 0 0 dom 0)

/-! ### Objects (R407, R408, R430, R415) -/

def State.dropPartial (s : State) (conn : Nat) (base : Word) : State :=
  { s with partials := s.partials.filter fun p => !(p.conn == conn && p.base == base) }

/-- A segment joins its object (R407): the state with it, and the whole object where it completes it, or the code that
refuses it. -/
def State.take (s : State) (conn : Nat) (base : Word) (total off : Nat) (bs : List Byte) : Except Nat (State × Option File) :=
  match s.joined conn base total off bs with
  | none => .error 1
  | some got =>
    if (s.partialOf conn base).isNone ∧ 16 ≤ (s.partials.filter fun p => p.conn == conn).length then .error 3
    else
      let s := s.dropPartial conn base
      if got.length = total then .ok (s, some (got.map (·.2)))
      else .ok ({ s with partials := { conn, base, total, got } :: s.partials }, none)

/-- A segment; the one that completes its object brings the outcome of admission. -/
def State.segment (s : State) (m : MsgHdr) (base : Word) (total off : Nat) (bs : List Byte) : State :=
  match s.take m.conn base total off bs with
  | .error c => s.reply m c
  | .ok (s, none) => s.reply m 0
  | .ok (s, some f) => match s.loadObject (bits m.w2 0 10) base f with
    | some s => s.reply m 0
    | none => s.reply m 2

/-- A segment in recovery: the ROM writes it into the slot as it arrives (R415, R407). -/
def State.recoverySegment (s : State) (m : MsgHdr) (base : Word) (total off : Nat) (bs : List Byte) : State :=
  if 1 < base.toNat ∨ slotBytes < total then s.reply m 1
  else match s.take m.conn base total off bs with
    | .error c => s.reply m c
    | .ok (s, _) =>
      let b := s.boot
      { s with boot := { b with flash := b.flash.writeN (base.toNat * slotBytes + off) bs } }.reply m 0

/-- LOAD (R407). -/
def execLoad (m : MsgHdr) (base total offset : Word) (bytes : List Byte) (s : State) : Out :=
  let bad := bits m.w0 32 32 != 64 + bytes.length || total == 0 || 2 ^ 32 < total.toNat || offset.toNat % 8 != 0
  .next (if s.boot.stage = .recovery then
      (if s.boot.nodebug || m.conn != pcieConn then s
       else if !hdrOk m || bad || bits m.w0 24 8 != 2 || bits m.w2 0 10 != 0 then s.reply m 1
       else s.recoverySegment m base total.toNat offset.toNat bytes)
    else s.message (.load m base total offset bytes) m 2 fun s =>
      if bad ∨ base.toNat % 64 ≠ 0 then s.reply m 1 else s.segment m base total.toNat offset.toNat bytes)

/-! ### Jobs and sequences (R326, R409) -/

/-- The lowest number from n on that p accepts. -/
def lowest (p : Nat → Bool) : Nat → Nat → Option Nat
  | 0, _ => none
  | fuel + 1, n => if p n then some n else lowest p fuel (n + 1)

/-- The limits of a JOB body: job-table words 0 to 4. A KVSTRIDE of 0, which R326 allows, is taken beside a BATCHMAX above 0
too, and such a job's batch headers hold KVSTRIDE 0, outside R295's 64 to 65,472: R326 does not tie the two, and this is the
model's choice (log 80). -/
def jobOk (w : List Word) : Bool :=
  let w0 := w.getD 0 0
  let k := bits (w.getD 4 0) 32 16
  w.length == 5 && bits w0 42 6 == 0 && bits w0 11 21 == 0 && bits w0 0 11 ≤ 1024 && bits (w.getD 1 0) 0 6 == 0
    && bits (w.getD 2 0) 0 6 == 0 && bits (w.getD 3 0) 0 6 == 0 && bits (w.getD 4 0) 48 16 == 0 && bits (w.getD 4 0) 0 32 == 0
    && (k == 0 || strideOk k)

/-- A job as a JOB message gives it. -/
def jobOf (m : MsgHdr) (w : List Word) (record : Bool) (qdist : Nat) : Job :=
  let w0 := w.getD 0 0
  { state := 1, seqctl := bit w0 59, kclose := bit w0 58, kcancel := bit w0 57, auto := bit w0 56, prio := bits w0 48 8,
    asid := bits m.w2 0 10, batchMax := bits w0 0 11, graph := w.getD 1 0, brec := w.getD 2 0, scrbase := w.getD 3 0,
    kvstride := bits (w.getD 4 0) 32 16, conn := m.conn, record := record, qdist := qdist % 2 ^ 32 }

/-- A job enters the table under number n, and a recorded one's recording begins: what its context has been given, its
admission, and its configuration (R396). -/
def State.admitJob (s : State) (m : MsgHdr) (words : List Word) (graph : Word) (record : Bool) (qdist n : Nat) : State :=
  let s := { s with jobs := tset n (Machine.jobOf m words record qdist) s.jobs, recording := tdel n s.recording }
  let c := s.ctx (bits m.w2 0 10)
  let s := c.loaded.foldl (fun s r => s.record n r) s
  let s := s.record n (.admission (.job m words graph record qdist) (bits m.w2 0 10) n [])
  s.record n (.config (bits m.w2 0 10) ((List.range 7).map fun i => c.word 0 (i + 1)) ((List.range 8).map (s.job n).word))

/-- JOB (R409): the lowest free job number, STATE 1. The graph that runs is word 1's; what the graph instance address does
no rule says, and it does nothing here (log 30). -/
def execJob (m : MsgHdr) (words : List Word) (graph : Word) (record : Bool) (qdist : Nat) (s : State) : Out :=
  .next (s.message (.job m words graph record qdist) m 3 fun s =>
    if !jobOk words then s.reply m 1
    else if bits m.w2 0 10 = 0 ∨ ¬(s.ctx (bits m.w2 0 10)).valid then s.reply m 2
    else match lowest (fun n => (s.job n).state == 0) 256 0 with
      | none => s.reply m 3
      | some n => (s.admitJob m words graph record qdist n).reply m 0 (word n))

/-- The limits of a SEQ body (R291, R406). -/
def seqBodyOk (b : SeqBody) : Bool :=
  b.state ≤ 2 && 8 ≤ b.wsize && b.wsize ≤ 64 && b.lend < 2 ^ 32 && b.wbase ≤ b.lend && b.prio ≤ 255
    && bits b.fmap 0 6 == 0 && bits b.pen 0 6 == 0 && b.penlen % 64 == 0 && b.penlen < 2 ^ 20
    && f16Finite b.thf && f16Finite b.tht && f16Finite b.thr && f16Le b.thr b.tht && f16Le b.tht b.thf

/-- A sequence as a SEQ message gives it; one in STATE 1 without a chain is entered as waiting (R304). -/
def seqOf (m : MsgHdr) (b : SeqBody) : Seq :=
  { wbase := b.wbase, mode := b.mode, prio := b.prio, wsize := b.wsize, state := if b.state = 1 ∧ b.kvroot = 0 then 0 else b.state,
    lend := b.lend, job := b.job, asid := bits m.w2 0 10, kvroot := b.kvroot, fmap := b.fmap, thr := b.thr, tht := b.tht,
    thf := b.thf, key := b.key, pen := b.pen, penlen := b.penlen, conn := m.conn, admitted := true }

/-- A sequence enters entry n, which the phase still finds free (R293); its admission is recorded, with its KEY. -/
def State.admitSeq (s : State) (m : MsgHdr) (body : SeqBody) (n : Nat) : State :=
  ({ s with seqs := tset n (seqOf m body) s.seqs } : State).record body.job
    (.admission (.seq m body) (bits m.w2 0 10) body.job [body.key])

/-- SEQ (R409): the lowest free entry. -/
def execSeq (m : MsgHdr) (body : SeqBody) (s : State) : Out :=
  .next (s.message (.seq m body) m 4 fun s =>
    let j := s.job body.job
    if !seqBodyOk body then s.reply m 1
    else if j.asid ≠ bits m.w2 0 10 ∨ ¬(j.state = 1 ∨ j.state = 2 ∨ j.state = 3) then s.reply m 2
    else match s.freeSeqs 1 65536 0 with
      | [] => s.reply m 3
      | n :: _ => (s.admitSeq m body n).reply m 0 (word n))

/-! ### CTRL (R326, R339, R307, R361) -/

/-- A job request for the next boundary, behind those that wait for it, where the job is the connection's context's and in a state that allows it. -/
def State.ctrlJob (s : State) (i : Instr) (m : MsgHdr) (job : Nat) (ok : Job → Bool) (r : JobReq) : State :=
  s.message i m 5 fun s =>
    match s.jobIn (bits m.w2 0 10) job with
    | none => s.reply m 2
    | some j => if ok j then (s.modJob job fun j => { j with reqs := j.reqs ++ [r] }).reply m 0 (word job) else s.reply m 4

/-- CTRL_JOB_HOLD (R326). -/
def execCtrlJobHold (m : MsgHdr) (job : Nat) (s : State) : Out :=
  .next (s.ctrlJob (.ctrlJobHold m job) m job (fun j => j.state == 1 || j.state == 2) .hold)

/-- CTRL_JOB_RESUME (R326). -/
def execCtrlJobResume (m : MsgHdr) (job : Nat) (s : State) : Out :=
  .next (s.ctrlJob (.ctrlJobResume m job) m job (fun j => j.state == 3) .resume)

/-- CTRL_JOB_FINISH (R326). -/
def execCtrlJobFinish (m : MsgHdr) (job : Nat) (s : State) : Out :=
  .next (s.ctrlJob (.ctrlJobFinish m job) m job (fun j => j.state == 1 || j.state == 2 || j.state == 3) .finish)

/-- CTRL_JOB_CANCEL (R339): at once. -/
def execCtrlJobCancel (m : MsgHdr) (job : Nat) (s : State) : Out :=
  .next (s.message (.ctrlJobCancel m job) m 5 fun s =>
    match s.jobIn (bits m.w2 0 10) job with
    | none => s.reply m 2
    | some j => if j.state = 4 ∨ j.state = 5 then s.reply m 4 else (s.cancelJob job).reply m 0 (word job))

/-- A sequence request, applied at the next boundary. -/
def State.ctrlSeq (s : State) (i : Instr) (m : MsgHdr) (n op : Nat) : State :=
  s.message i m 5 fun s =>
    if !s.seqHeld n || (s.seqE n).asid != bits m.w2 0 10 then s.reply m 2
    else if !(s.seqE n).allows op || (tget? s.ctls n).isSome then s.reply m 4
    else { s with ctls := tset n op s.ctls }.reply m 0 (word n)

/-- CTRL_SEQ_PAUSE (R307). -/
def execCtrlSeqPause (m : MsgHdr) (seq : Nat) (s : State) : Out := .next (s.ctrlSeq (.ctrlSeqPause m seq) m seq 0)

/-- CTRL_SEQ_RESUME (R307). -/
def execCtrlSeqResume (m : MsgHdr) (seq : Nat) (s : State) : Out := .next (s.ctrlSeq (.ctrlSeqResume m seq) m seq 1)

/-- CTRL_SEQ_SWAP (R361). -/
def execCtrlSeqSwap (m : MsgHdr) (seq : Nat) (s : State) : Out := .next (s.ctrlSeq (.ctrlSeqSwap m seq) m seq 2)

/-- CTRL_SEQ_RELEASE (R307). -/
def execCtrlSeqRelease (m : MsgHdr) (seq : Nat) (s : State) : Out := .next (s.ctrlSeq (.ctrlSeqRelease m seq) m seq 3)

/-! ### DATA (R430) -/

/-- DATA_WRITE (R430): through existing translations, at machine level; one that a poisoned line holds waits (R388). -/
def execDataWrite (m : MsgHdr) (va : Word) (bytes : List Byte) (s : State) : Out :=
  .next (s.message (.dataWrite m va bytes) m 6 fun s =>
    if bytes.length ≠ 0 ∧ ¬spanCanonical va bytes.length then s.reply m 2
    else match s.xlateSpan (bits m.w2 0 10) 2 .write va bytes.length with
      | (.error _, s) => s.reply m 2
      | (.ok l, s) => ((s.homeWrite (bits m.w2 0 10) (l.zip bytes)).supply (bits m.w2 0 10) (.data (bits m.w2 0 10) va bytes)).reply m 0)

/-- DATA_READ (R430); one that a poisoned line holds waits, and its reply with it (R388, R404). -/
def execDataRead (m : MsgHdr) (va : Word) (len : Nat) (s : State) : Out :=
  .next (s.message (.dataRead m va len) m 6 fun s =>
    if 65536 < len + 32 then s.reply m 1
    else if len ≠ 0 ∧ ¬spanCanonical va len then s.reply m 2
    else match s.xlateSpan (bits m.w2 0 10) 2 .read va len with
      | (.error _, s) => s.reply m 2
      | (.ok l, s) => let r := s.homeAll l; r.2.reply m 0 0 r.1)

/-! ### Replay and log export (R398, R392) -/

/-- A recorded request as a replay runs it: on the replay's connection. -/
def requestOn (r : Request) (conn : Nat) : Request :=
  match r with
  | .job m w g rec q => .job { m with conn } w g rec q
  | .seq m b => .seq { m with conn } b

/-- The context of a record that has one. -/
def recAsid (r : Rec) : Option Nat :=
  match r with | .admission _ a _ _ | .object a _ | .data a _ _ | .config a _ _ => some a | _ => none

/-- REPLAY (R398): from here on the recorded admissions are run and the recorded placements, batches and choices are
enforced, and egress is compared. A recording of another context is refused. -/
def execReplay (m : MsgHdr) (recs : List Rec) (s : State) : Out :=
  .next (s.message (.replay m recs) m 7 fun s =>
    if recs.any fun r => match recAsid r with | some a => a != bits m.w2 0 10 | none => false then s.reply m 2
    else { s with replayed := some (recs.map fun (r : Rec) => match r with
      | .admission q a j k => Rec.admission (requestOn q m.conn) a j k
      | r => r) }.reply m 0)

/-- One recorded input run again (R398): an admission under its job number, a data image, the configuration of its context
but for the table root, which is this device's own. An object, named by its digest, must have been loaded (log 70). none:
it cannot be run, and the replay stops. -/
def State.replayInput (s : State) (r : Rec) : Option State :=
  match r with
  | .admission (.job m w g rec q) _ n _ => if (s.job n).state = 0 then some (s.admitJob m w g rec q n) else none
  | .admission (.seq m b) _ _ _ => match s.freeSeqs 1 65536 0 with | [] => none | n :: _ => some (s.admitSeq m b n)
  | .object a d => if (s.ctx a).loaded.contains (.object a d) then some s else none
  | .data a va bs => (match s.xlateSpan a 2 .write va bs.length with
    | (.ok l, s) => some ((s.homeWrite a (l.zip bs)).supply a r)
    | (.error _, _) => none)
  | .config a ws _ => some ((ws.zipIdx.filter fun e => e.2 != 5).foldl (fun s e => s.ctxPut a (e.2 + 1) e.1) s)
  | _ => some s

/-- The recorded inputs before the next phase's record. -/
def State.replayInputs (s : State) : List Rec :=
  ((s.replayed.getD []).takeWhile fun r => match r with | .phase _ _ _ => false | _ => true).filter fun r => (recAsid r).isSome

/-- The phase of the next phase's record of a replay. -/
def State.replayNext (s : State) : Option Nat :=
  (s.replayed.getD []).findSome? fun r => match r with | .phase ph _ _ => some ph | _ => none

/-- The %phase of a context's domain. -/
def State.ctxPhase (s : State) (asid : Nat) : Nat := (s.part (s.ctx asid).partNo).phase.toNat

/-- They are run in their order, in the phase that comes before that record's (R398), and none before it; where that phase
has gone by, or one of them cannot be run, the replay stops, and Imago reports it (log 70). -/
def State.replaySettle (s : State) : State :=
  let ends := fun (s : State) => ({ s with replayed := none } : State).reportHeld 864 6 0 0 0 0 0
  s.replayInputs.foldl (fun s r =>
    let now := s.ctxPhase ((recAsid r).getD 0) + 1
    let due := s.replayNext.getD now
    if s.replayed.isNone || now < due || (s.replayInputs.head? != some r) then s
    else if due < now then ends s
    else match s.replayInput r with
      | some t => t.passRec r
      | none => ends s) s

/-- The chain value of a record: words 8 to 13 in digest order (R390). -/
def chainOf (ws : List Word) : List Byte := ((ws.drop 8).take 6).flatMap fun w => leBytes 8 w.toNat

/-- LOGX (R392): records EXPORTED + 1 to upTo are signed and sent, once none of them lies in a poisoned line (R388). -/
def execLogx (upTo : Nat) (s : State) : Out :=
  let a := s.log.exported + 1
  let held := (List.range (upTo - s.log.exported)).any fun i => s.homeHeld 0 2 (s.log.lbase + word (128 * ((a + i) % s.log.lcap))) 128
  .next (if upTo < a ∨ s.log.tail ≤ upTo ∨ s.boot.stage ≠ .ready ∨ (!s.poison.isEmpty && held) then s
    else
      let recs := (List.range (upTo - s.log.exported)).map fun i => tget [] s.log.recs ((a + i) % s.log.lcap)
      let hb := chainOf (recs.getLastD [])
      let sig := identitySig (sha384 (leBytes 8 a ++ leBytes 8 upTo ++ s.log.hexp ++ hb))
      { s with log := { s.log with exported := upTo, hexp := hb } }.send fun r => .logx r a upTo recs sig)

end Sys2Proof.Machine
end

