-- ==== Sys2Proof/Machine/Dispatch.lean ====
section
/-! DEFINITION. The one dispatch from an instruction or event to its meaning. -/
namespace Sys2Proof.Machine

open Sys2Proof

def exec (i : Instr) (s : State) : Host.Outcome State Fault Refusal :=
  match i with
  | .add h ty sat d a b => Sys2Proof.Machine.execAdd h ty sat d a b s
  | .sub h ty sat d a b => Sys2Proof.Machine.execSub h ty sat d a b s
  | .addc h w64 c d a b => Sys2Proof.Machine.execAddc h w64 c d a b s
  | .subb h w64 c d a b => Sys2Proof.Machine.execSubb h w64 c d a b s
  | .mul h ty sat d a b => Sys2Proof.Machine.execMul h ty sat d a b s
  | .mulh h ty d a b => Sys2Proof.Machine.execMulh h ty d a b s
  | .mad h ty sat d a b => Sys2Proof.Machine.execMad h ty sat d a b s
  | .madh h ty d a b => Sys2Proof.Machine.execMadh h ty d a b s
  | .min h ty d a b => Sys2Proof.Machine.execMin h ty d a b s
  | .max h ty d a b => Sys2Proof.Machine.execMax h ty d a b s
  | .abs h ty sat d a => Sys2Proof.Machine.execAbs h ty sat d a s
  | .neg h ty sat d a => Sys2Proof.Machine.execNeg h ty sat d a s
  | .and h w64 d a b => Sys2Proof.Machine.execAnd h w64 d a b s
  | .or h w64 d a b => Sys2Proof.Machine.execOr h w64 d a b s
  | .xor h w64 d a b => Sys2Proof.Machine.execXor h w64 d a b s
  | .not h w64 d a => Sys2Proof.Machine.execNot h w64 d a s
  | .andn h w64 d a b => Sys2Proof.Machine.execAndn h w64 d a b s
  | .shl h w64 d a b => Sys2Proof.Machine.execShl h w64 d a b s
  | .shr h w64 d a b => Sys2Proof.Machine.execShr h w64 d a b s
  | .sar h w64 d a b => Sys2Proof.Machine.execSar h w64 d a b s
  | .rotl h w64 d a b => Sys2Proof.Machine.execRotl h w64 d a b s
  | .bfx h ty d a b => Sys2Proof.Machine.execBfx h ty d a b s
  | .bfi h w64 d a b => Sys2Proof.Machine.execBfi h w64 d a b s
  | .popc h w64 d a => Sys2Proof.Machine.execPopc h w64 d a s
  | .clz h w64 d a => Sys2Proof.Machine.execClz h w64 d a s
  | .ctz h w64 d a => Sys2Proof.Machine.execCtz h w64 d a s
  | .brev h w64 d a => Sys2Proof.Machine.execBrev h w64 d a s
  | .bsel h d a b => Sys2Proof.Machine.execBsel h d a b s
  | .lea h sgn k d a b => Sys2Proof.Machine.execLea h sgn k d a b s
  | .mov h w64 d a => Sys2Proof.Machine.execMov h w64 d a s
  | .movSpecial h sr d => Sys2Proof.Machine.execMovSpecial h sr d s
  | .sel h p d a b => Sys2Proof.Machine.execSel h p d a b s
  | .setp h c ty p a b => Sys2Proof.Machine.execSetp h c ty p a b s
  | .addImm h d a imm => Sys2Proof.Machine.execAddImm h d a imm s
  | .subImm h d a imm => Sys2Proof.Machine.execSubImm h d a imm s
  | .mulImm h d a imm => Sys2Proof.Machine.execMulImm h d a imm s
  | .minImm h d a imm => Sys2Proof.Machine.execMinImm h d a imm s
  | .maxImm h d a imm => Sys2Proof.Machine.execMaxImm h d a imm s
  | .andImm h d a imm => Sys2Proof.Machine.execAndImm h d a imm s
  | .orImm h d a imm => Sys2Proof.Machine.execOrImm h d a imm s
  | .xorImm h d a imm => Sys2Proof.Machine.execXorImm h d a imm s
  | .andnImm h d a imm => Sys2Proof.Machine.execAndnImm h d a imm s
  | .shlImm h d a imm => Sys2Proof.Machine.execShlImm h d a imm s
  | .shrImm h d a imm => Sys2Proof.Machine.execShrImm h d a imm s
  | .sarImm h d a imm => Sys2Proof.Machine.execSarImm h d a imm s
  | .rotlImm h d a imm => Sys2Proof.Machine.execRotlImm h d a imm s
  | .leaImm h d a imm => Sys2Proof.Machine.execLeaImm h d a imm s
  | .movi h d imm => Sys2Proof.Machine.execMovi h d imm s
  | .movl h d imm => Sys2Proof.Machine.execMovl h d imm s
  | .fadd h ty rm d a b => Sys2Proof.Machine.execFadd h ty rm d a b s
  | .fsub h ty rm d a b => Sys2Proof.Machine.execFsub h ty rm d a b s
  | .fmul h ty rm d a b => Sys2Proof.Machine.execFmul h ty rm d a b s
  | .fma h ty rm d a b => Sys2Proof.Machine.execFma h ty rm d a b s
  | .fmin h ty d a b => Sys2Proof.Machine.execFmin h ty d a b s
  | .fmax h ty d a b => Sys2Proof.Machine.execFmax h ty d a b s
  | .fsetp h c ty p a b => Sys2Proof.Machine.execFsetp h c ty p a b s
  | .fclass h ty d a => Sys2Proof.Machine.execFclass h ty d a s
  | .frnd h ty rm d a => Sys2Proof.Machine.execFrnd h ty rm d a s
  | .fdiv h ty rm d a b => Sys2Proof.Machine.execFdiv h ty rm d a b s
  | .fsqrt h ty rm d a => Sys2Proof.Machine.execFsqrt h ty rm d a s
  | .frcp h x2 d a => Sys2Proof.Machine.execFrcp h x2 d a s
  | .frsqrt h x2 d a => Sys2Proof.Machine.execFrsqrt h x2 d a s
  | .fexp2 h x2 d a => Sys2Proof.Machine.execFexp2 h x2 d a s
  | .flog2 h x2 d a => Sys2Proof.Machine.execFlog2 h x2 d a s
  | .fscale h ty rm d a b => Sys2Proof.Machine.execFscale h ty rm d a b s
  | .fcvt h c rm d a => Sys2Proof.Machine.execFcvt h c rm d a s
  | .icvt h c rm d a => Sys2Proof.Machine.execIcvt h c rm d a s
  | .bfpPack h bfp4 rm d a b => Sys2Proof.Machine.execBfpPack h bfp4 rm d a b s
  | .bfpUnpack h bfp4 rm d a b => Sys2Proof.Machine.execBfpUnpack h bfp4 rm d a b s
  | .sacc h rm d a b => Sys2Proof.Machine.execSacc h rm d a b s
  | .pdot h ty d a b => Sys2Proof.Machine.execPdot h ty d a b s
  | .nzmask h v d a => Sys2Proof.Machine.execNzmask h v d a s
  | .nzcnt h v d a => Sys2Proof.Machine.execNzcnt h v d a s
  | .flgRd h d => Sys2Proof.Machine.execFlgRd h d s
  | .flgClr h a => Sys2Proof.Machine.execFlgClr h a s
  | .flgArm h a => Sys2Proof.Machine.execFlgArm h a s
  | .rng h d a b => Sys2Proof.Machine.execRng h d a b s
  | .pairWord dist wait x y => Sys2Proof.Machine.execPairWord dist wait x y s
  | .dictionaryCode off idx => Sys2Proof.Machine.execDictionaryCode off idx s
  | .bra h disp => Sys2Proof.Machine.execBra h disp s
  | .call h disp => Sys2Proof.Machine.execCall h disp s
  | .calli h a => Sys2Proof.Machine.execCalli h a s
  | .ret h => Sys2Proof.Machine.execRet h s
  | .exit h => Sys2Proof.Machine.execExit h s
  | .nop h => Sys2Proof.Machine.execNop h s
  | .trap h a => Sys2Proof.Machine.execTrap h a s
  | .rett h => Sys2Proof.Machine.execRett h s
  | .brk h => Sys2Proof.Machine.execBrk h s
  | .suspendK h a b => Sys2Proof.Machine.execSuspendK h a b s
  | .suspendR h a b => Sys2Proof.Machine.execSuspendR h a b s
  | .evAdd h d a b => Sys2Proof.Machine.execEvAdd h d a b s
  | .evRd h d a => Sys2Proof.Machine.execEvRd h d a s
  | .switch h n a payload t0 t1 t2 t3 t4 => Sys2Proof.Machine.execSwitch h n a payload t0 t1 t2 t3 t4 s
  | .lxch h size wrap d a b => Sys2Proof.Machine.execLxch h size wrap d a b s
  | .bcast h d a b => Sys2Proof.Machine.execBcast h d a b s
  | .poll h op neg m b => Sys2Proof.Machine.execPoll h op neg m b s
  | .lred h op d a b => Sys2Proof.Machine.execLred h op d a b s
  | .scan h op d a b => Sys2Proof.Machine.execScan h op d a b s
  | .peer h w64 d a b => Sys2Proof.Machine.execPeer h w64 d a b s
  | .lead h hi p b => Sys2Proof.Machine.execLead h hi p b s
  | .csample h p d a b => Sys2Proof.Machine.execCsample h p d a b s
  | .nbarArr h a b => Sys2Proof.Machine.execNbarArr h a b s
  | .nbarSync h a b => Sys2Proof.Machine.execNbarSync h a b s
  | .nbarWait h a => Sys2Proof.Machine.execNbarWait h a s
  | .nbarRd h d a => Sys2Proof.Machine.execNbarRd h d a s
  | .pbarInit h a b => Sys2Proof.Machine.execPbarInit h a b s
  | .pbarArr h a => Sys2Proof.Machine.execPbarArr h a s
  | .pbarWait h a b => Sys2Proof.Machine.execPbarWait h a b s
  | .ld h sp ty d a disp => Sys2Proof.Machine.execLd h sp ty d a disp s
  | .st h sp ty v a disp => Sys2Proof.Machine.execSt h sp ty v a disp s
  | .ldl h ty d a disp => Sys2Proof.Machine.execLdl h ty d a disp s
  | .pref h a disp => Sys2Proof.Machine.execPref h a disp s
  | .atom h spad op ty d a b => Sys2Proof.Machine.execAtom h spad op ty d a b s
  | .atomFadd h ty rm a b => Sys2Proof.Machine.execAtomFadd h ty rm a b s
  | .cpa h dstS src d a b => Sys2Proof.Machine.execCpa h dstS src d a b s
  | .cpa2 h dstS src d a b => Sys2Proof.Machine.execCpa2 h dstS src d a b s
  | .fence h => Sys2Proof.Machine.execFence h s
  | .fenceOwn h d => Sys2Proof.Machine.execFenceOwn h d s
  | .fenceSeize h k d a b => Sys2Proof.Machine.execFenceSeize h k d a b s
  | .fenceSpw h k a => Sys2Proof.Machine.execFenceSpw h k a s
  | .binCfg h a => Sys2Proof.Machine.execBinCfg h a s
  | .binPut h e8 a b => Sys2Proof.Machine.execBinPut h e8 a b s
  | .binRun h d a => Sys2Proof.Machine.execBinRun h d a s
  | .collPost h d a => Sys2Proof.Machine.execCollPost h d a s
  | .collRd h d a => Sys2Proof.Machine.execCollRd h d a s
  | .edgePush h d a b => Sys2Proof.Machine.execEdgePush h d a b s
  | .accReq h p a => Sys2Proof.Machine.execAccReq h p a s
  | .accRel h a => Sys2Proof.Machine.execAccRel h a s
  | .fibOpen h spad kind f a b => Sys2Proof.Machine.execFibOpen h spad kind f a b s
  | .fibAdvN h f a b => Sys2Proof.Machine.execFibAdvN h f a b s
  | .fibAdvGe h f a b => Sys2Proof.Machine.execFibAdvGe h f a b s
  | .fibEnd h p f b => Sys2Proof.Machine.execFibEnd h p f b s
  | .fibClose h f b => Sys2Proof.Machine.execFibClose h f b s
  | .fibIsect h p d fa fb b => Sys2Proof.Machine.execFibIsect h p d fa fb b s
  | .fibMerge h p d fa fb b => Sys2Proof.Machine.execFibMerge h p d fa fb b s
  | .fibSplit h f a b => Sys2Proof.Machine.execFibSplit h f a b s
  | .fibGet h fld d f b => Sys2Proof.Machine.execFibGet h fld d f b s
  | .sproj h ty d a b => Sys2Proof.Machine.execSproj h ty d a b s
  | .slotRdWord h d a b => Sys2Proof.Machine.execSlotRdWord h d a b s
  | .slotRdTok h d a b => Sys2Proof.Machine.execSlotRdTok h d a b s
  | .slotRdBatch h d => Sys2Proof.Machine.execSlotRdBatch h d s
  | .slotPut h a b => Sys2Proof.Machine.execSlotPut h a b s
  | .slotCfg h a b => Sys2Proof.Machine.execSlotCfg h a b s
  | .seqStPause h a b => Sys2Proof.Machine.execSeqStPause h a b s
  | .seqStResume h a b => Sys2Proof.Machine.execSeqStResume h a b s
  | .seqStSwap h a b => Sys2Proof.Machine.execSeqStSwap h a b s
  | .seqStRelease h a b => Sys2Proof.Machine.execSeqStRelease h a b s
  | .seqStPriority h a b => Sys2Proof.Machine.execSeqStPriority h a b s
  | .seqFork h d a b => Sys2Proof.Machine.execSeqFork h d a b s
  | .csrr h d n => Sys2Proof.Machine.execCsrr h d n s
  | .csrw h n a => Sys2Proof.Machine.execCsrw h n a s
  | .csrx h d n a => Sys2Proof.Machine.execCsrx h d n a s
  | .cbindWrite h a => Sys2Proof.Machine.execCbindWrite h a s
  | .keyLoad h a => Sys2Proof.Machine.execKeyLoad h a s
  | .keyErase h a => Sys2Proof.Machine.execKeyErase h a s
  | .contextCreate h a => Sys2Proof.Machine.execContextCreate h a s
  | .tlbInvAll h b => Sys2Proof.Machine.execTlbInvAll h b s
  | .tlbInvPage h a b => Sys2Proof.Machine.execTlbInvPage h a b s
  | .tlbInvRange h l a b => Sys2Proof.Machine.execTlbInvRange h l a b s
  | .tlbInvDev h => Sys2Proof.Machine.execTlbInvDev h s
  | .fragRdEntry h d a b => Sys2Proof.Machine.execFragRdEntry h d a b s
  | .fragRdFrame h d b => Sys2Proof.Machine.execFragRdFrame h d b s
  | .fragResume h d a b => Sys2Proof.Machine.execFragResume h d a b s
  | .fragKill h d a b => Sys2Proof.Machine.execFragKill h d a b s
  | .ctxHaltTerm h a => Sys2Proof.Machine.execCtxHaltTerm h a s
  | .ctxHaltSave h d a b => Sys2Proof.Machine.execCtxHaltSave h d a b s
  | .ctxHaltLoad h d a b => Sys2Proof.Machine.execCtxHaltLoad h d a b s
  | .ctxHaltClear h a => Sys2Proof.Machine.execCtxHaltClear h a s
  | .probeRd h d a => Sys2Proof.Machine.execProbeRd h d a s
  | .logApp h d a b => Sys2Proof.Machine.execLogApp h d a b s
  | .cntCfg h a b => Sys2Proof.Machine.execCntCfg h a b s
  | .cntRd h d a => Sys2Proof.Machine.execCntRd h d a s
  | .cancelBlock h d a b => Sys2Proof.Machine.execCancelBlock h d a b s
  | .cancelLaunch h d a => Sys2Proof.Machine.execCancelLaunch h d a s
  | .cancelGraph h d a => Sys2Proof.Machine.execCancelGraph h d a s
  | .cancelPhase h d a => Sys2Proof.Machine.execCancelPhase h d a s
  | .cancelJob h d a => Sys2Proof.Machine.execCancelJob h d a s
  | .phaseClose h a => Sys2Proof.Machine.execPhaseClose h a s
  | .accFold h g acc rm a b => Sys2Proof.Machine.execAccFold h g acc rm a b s
  | .accZero h a b => Sys2Proof.Machine.execAccZero h a b s
  | .accCpy h toS d a b => Sys2Proof.Machine.execAccCpy h toS d a b s
  | .dcpCfgStream h a => Sys2Proof.Machine.execDcpCfgStream h a s
  | .dcpCfgTable h a b => Sys2Proof.Machine.execDcpCfgTable h a b s
  | .dcpCfgRedir h a => Sys2Proof.Machine.execDcpCfgRedir h a s
  | .dcpStat h d => Sys2Proof.Machine.execDcpStat h d s
  | .ocInvAll h => Sys2Proof.Machine.execOcInvAll h s
  | .ocInvH h a => Sys2Proof.Machine.execOcInvH h a s
  | .stepRd h d => Sys2Proof.Machine.execStepRd h d s
  | .stepGoResume h => Sys2Proof.Machine.execStepGoResume h s
  | .stepGoAbandon h => Sys2Proof.Machine.execStepGoAbandon h s
  | .cimLdb h a payload => Sys2Proof.Machine.execCimLdb h a payload s
  | .cimRun h a b payload => Sys2Proof.Machine.execCimRun h a b payload s
  | .cimMv h b payload => Sys2Proof.Machine.execCimMv h b payload s
  | .instructionCompletion thread flag => Sys2Proof.Machine.execInstructionCompletion thread flag s
  | .copyRetirement core idx => Sys2Proof.Machine.execCopyRetirement core idx s
  | .planeStep cluster => Sys2Proof.Machine.execPlaneStep cluster s
  | .drainStep cluster => Sys2Proof.Machine.execDrainStep cluster s
  | .loadStep cluster => Sys2Proof.Machine.execLoadStep cluster s
  | .foldStep cluster => Sys2Proof.Machine.execFoldStep cluster s
  | .accUnitStep cluster => Sys2Proof.Machine.execAccUnitStep cluster s
  | .deBlockDecode cluster => Sys2Proof.Machine.execDeBlockDecode cluster s
  | .matrixStreamTrap cluster => Sys2Proof.Machine.execMatrixStreamTrap cluster s
  | .decompressionTimeout core slot => Sys2Proof.Machine.execDecompressionTimeout core slot s
  | .faultPresentation asid => Sys2Proof.Machine.execFaultPresentation asid s
  | .blockResume block => Sys2Proof.Machine.execBlockResume block s
  | .blockPlacement part => Sys2Proof.Machine.execBlockPlacement part s
  | .pendingBlockTimeout part => Sys2Proof.Machine.execPendingBlockTimeout part s
  | .launchCompletion asid lid => Sys2Proof.Machine.execLaunchCompletion asid lid s
  | .phaseBoundary dom => Sys2Proof.Machine.execPhaseBoundary dom s
  | .requantisation die => Sys2Proof.Machine.execRequantisation die s
  | .engineStop eng => Sys2Proof.Machine.execEngineStop eng s
  | .timeSliceExpiry part => Sys2Proof.Machine.execTimeSliceExpiry part s
  | .thermalThrottle => Sys2Proof.Machine.execThermalThrottle s
  | .thermalRecovery => Sys2Proof.Machine.execThermalRecovery s
  | .thermalShutdown => Sys2Proof.Machine.execThermalShutdown s
  | .bootSequence => Sys2Proof.Machine.execBootSequence s
  | .scrub array unit loc found synd => Sys2Proof.Machine.execScrub array unit loc found synd s
  | .remoteAccess r => Sys2Proof.Machine.execRemoteAccess r s
  | .remoteAccessTimeout thread => Sys2Proof.Machine.execRemoteAccessTimeout thread s
  | .oper m sig cmd => Sys2Proof.Machine.execOper m sig cmd s
  | .operAttest m sig nonce => Sys2Proof.Machine.execOperAttest m sig nonce s
  | .operBlowFuse m sig cmd => Sys2Proof.Machine.execOperBlowFuse m sig cmd s
  | .operMap m sig asid va len rights => Sys2Proof.Machine.execOperMap m sig asid va len rights s
  | .operJoinDomain m sig parts remote => Sys2Proof.Machine.execOperJoinDomain m sig parts remote s
  | .load m base total offset bytes => Sys2Proof.Machine.execLoad m base total offset bytes s
  | .job m words graph record qdist => Sys2Proof.Machine.execJob m words graph record qdist s
  | .seq m body => Sys2Proof.Machine.execSeq m body s
  | .ctrlJobHold m job => Sys2Proof.Machine.execCtrlJobHold m job s
  | .ctrlJobResume m job => Sys2Proof.Machine.execCtrlJobResume m job s
  | .ctrlJobCancel m job => Sys2Proof.Machine.execCtrlJobCancel m job s
  | .ctrlJobFinish m job => Sys2Proof.Machine.execCtrlJobFinish m job s
  | .ctrlSeqPause m seq => Sys2Proof.Machine.execCtrlSeqPause m seq s
  | .ctrlSeqResume m seq => Sys2Proof.Machine.execCtrlSeqResume m seq s
  | .ctrlSeqSwap m seq => Sys2Proof.Machine.execCtrlSeqSwap m seq s
  | .ctrlSeqRelease m seq => Sys2Proof.Machine.execCtrlSeqRelease m seq s
  | .dataWrite m va bytes => Sys2Proof.Machine.execDataWrite m va bytes s
  | .dataRead m va len => Sys2Proof.Machine.execDataRead m va len s
  | .replay m recs => Sys2Proof.Machine.execReplay m recs s
  | .logx upTo => Sys2Proof.Machine.execLogx upTo s
  | .malformedMessage m => Sys2Proof.Machine.execMalformedMessage m s
  | .memberUnreachable dom reachable => Sys2Proof.Machine.execMemberUnreachable dom reachable s

end Sys2Proof.Machine
end

