-- ==== Sys2Proof/Machine/Turn.lean ====
section
/-! DEFINITION. What moves next when the agenda names nothing (log 2): the boot ROM first, then the internal events that
can make progress, then the next engine in turn, by the issue order of R336. -/
namespace Sys2Proof.Machine

open Sys2Proof

/-- Whether an event changes the state, beside the free-value counter. -/
def State.advances (s : State) (i : Instr) : Bool :=
  match exec i s with
  | .next t => !decide (({ t with ctr := s.ctr } : State) = s)
  | .fault _ => true
  | .refused _ => true

/-! ### Internal events -/

/-- Count-downs that are due (R105). -/
def State.dueCounts (s : State) : List Instr :=
  s.threads.flatMap fun e => e.2.out.eraseDups.map fun c => .instructionCompletion e.1 c

/-- Copies in flight (R224). -/
def State.dueCopies (s : State) : List Instr :=
  s.cores.flatMap fun e => (List.range e.2.copies.length).map fun i => .copyRetirement e.1 i

/-- Steps of the engines of a cluster (R251-R255, R265, R269). -/
def State.dueSteps (s : State) : List Instr :=
  s.clusters.flatMap fun e =>
    (if e.2.instar.st = 1 then [.loadStep e.1, .planeStep e.1, .drainStep e.1, .foldStep e.1, .accUnitStep e.1] else [])
      ++ (if e.2.de.st = 1 then [.deBlockDecode e.1] else []) ++ (if e.2.de.trap then [.matrixStreamTrap e.1] else [])

/-- What the dispatcher and Imago may do (R37, R327, R331, R333, R337, R369). -/
def State.dueWork (s : State) : List Instr :=
  (s.blocks.filterMap fun e => if e.2.susp.isSome then some (.blockResume e.1) else none)
    ++ (s.parts.map fun e => .blockPlacement e.1)
    ++ (s.launches.map fun e => .launchCompletion (e.1 / 2 ^ 32) (e.1 % 2 ^ 32))
    ++ (s.parts.map fun e => .phaseBoundary e.1)
    ++ (s.ctxs.filterMap fun e => if e.2.faults.isEmpty && e.2.exh.isEmpty then none else some (.faultPresentation e.1))
    ++ (if s.requants.isEmpty then [] else (List.range 4).map fun d => .requantisation d)

/-- Engines of a halted partition stop (R376); an idle partition takes its next context (R337). -/
def State.dueStops (s : State) : List Instr :=
  (if s.parts.any fun e => e.2.halt.isSome then (List.range 1072).map fun e => .engineStop e else [])
    ++ s.parts.filterMap fun e =>
      if (e.2.run && s.hasJob e.2.rasid) || !(s.nextContext e.1).isSome then none else some (.timeSliceExpiry e.1)

/-- The first internal event that makes progress, or else the first message that need wait no longer (R404). -/
def State.dueEvent (s : State) : Option Turn :=
  if s.boot.stage = .reset then some (.event .bootSequence)
  else
    let held : State := { s with cur := { held := true } }
    (((s.dueCounts ++ s.dueCopies ++ s.dueSteps ++ s.dueStops ++ s.dueWork).find? s.advances).map .event).or
      ((s.mailHeads.find? held.advances).map .retry)

/-! ### The issue order (R12, R13, R336) -/

/-- The first number of a list after k, else its first. -/
def nextAfter (k : Nat) (l : List Nat) : Option Nat := (l.find? (k < ·)).or l.head?

/-- Whether a thread that has had to wait would go on if it issued now. -/
def State.goesOn (s : State) (t : Nat) : Bool :=
  let moves := fun (s' : State) => match tget? s'.threads t with
    | some th => th.wait == .none || th.run != .live
    | none => true
  (s.thread t).wait == .none || (match s.prepare [t] with
    | .noThread _ => false
    | .done s' => moves s'
    | .run i s' => match exec i s' with
      | .next s' => moves s'
      | .fault _ | .refused _ => true)

/-- Whether a thread is eligible (R12, R18): it is ready, and what its next instruction waits on is done; for the next
member of a latch chain under way, of every thread of the chain (R14). -/
def State.eligible (s : State) (t : Nat) : Bool :=
  s.canIssue t && s.goesOn t && (match (s.fetch t).1 with
    | .ok i _ => match s.effective t i with
      | .ok j =>
        let all := if s.inChain t then s.groupOf t [t] else [t]
        all.all fun u => (s.thread u).meets j (instrInfo j)
      | .error _ => true
    | .illegal _ _ | .trap _ => true
    | .wait => false)

/-- Eligible threads among those that p selects. -/
def State.eligibles (s : State) (p : Nat → Bool) : List Nat :=
  (s.threads.filter fun e => p e.1 && s.eligible e.1).map (·.1)

/-- Which threads of a core are eligible is noted at each of its turns, with the turn at which each was first found so:
the model's measure of how long a thread has been eligible (R336, log 67). -/
def State.noteEligible (s : State) (c : Nat) : State :=
  let now := (s.coreAt c).turns
  let ts := s.eligibles fun t => engOf t == c
  { s with threads := s.threads.map fun e =>
      if engOf e.1 == c then (e.1, { e.2 with since := if ts.contains e.1 then some (e.2.since.getD now) else none }) else e }

/-- The thread of a list that has been eligible longest, ties to the lowest lane. -/
def State.longest (s : State) (l : List Nat) : Option Nat :=
  l.foldl (fun r t => match r with
    | none => some t
    | some u => if (s.thread t).since.getD 0 < (s.thread u).since.getD 0 then some t else some u) none

/-- The thread around which a lane core's turn forms its group (R336): the turn goes to the next warp slot that holds an
eligible thread, and in it to a latch chain under way, else to the thread that has been eligible longest. -/
def State.coreTurn (s : State) (c : Nat) : Option Nat :=
  let ts := s.eligibles fun t => engOf t == c
  match nextAfter (s.coreAt c).turn ((ts.map slotOf).eraseDups) with
  | none => none
  | some k =>
    let ws := ts.filter fun t => slotOf t == k
    (ws.find? s.inChain).or (s.longest ws)

/-- The threads that a turn of an engine issues, out of those that the agenda names: on a lane core the group forms around
the thread that R336 chooses, and the agenda says which others may join it; none where no thread of the core is eligible.
A conductor or a steward runs one thread. -/
def State.order (s : State) (tids : List Nat) : List Nat × State :=
  match tids.find? s.canIssue with
  | none => (tids, s)
  | some t =>
    if kindOf t ≠ .lane ∨ tids.any (threadLimit ≤ ·) then (tids, s)
    else
      let s := s.noteEligible (engOf t)
      match s.coreTurn (engOf t) with
      | none => ([], s)
      | some lead => (lead :: tids.filter fun u => u != lead && s.eligible u, s)

/-- The next engine's turn, if any thread may issue: all its eligible threads may join. -/
def State.issueTurn (s : State) : Option Turn :=
  match nextAfter s.lastEng (rising ((s.eligibles fun _ => true).map engOf)) with
  | none => none
  | some e => some (.issue (s.eligibles fun t => engOf t == e))

/-- What follows from the state as it stands, before each step: targets of suspended blocks are noted as met (R38), what a
poisoned line no longer holds is done (R237, R234, R388), a replay's inputs are run (R398), and HEAD of each fault ring is
tested (R371). -/
def State.notes (s : State) : State :=
  let s := s.noteMet.edgeSettle.collSettle.replaySettle.noteEnded
  s.ctxs.foldl (fun s e => if e.2.exh.isEmpty then s else s.checkHead e.1) s

/-- What moves next when the agenda is empty; none where nothing can until an input comes. -/
def State.nextTurn (s : State) : Option Turn :=
  s.dueEvent.or s.issueTurn

end Sys2Proof.Machine
end

