-- ==== Sys2Proof/Machine/Step.lean ====
section
/-! DEFINITION. One step of the machine, and how a word is placed so that the next step runs it. -/
namespace Sys2Proof.Machine

open Sys2Proof

/-- A turn: an event's meaning, that of a message that has waited and is the next of its connection (R404), the host's access
of the BAR, or an issue among the threads named. -/
def takeTurn (t : Turn) (s : State) : Host.Outcome State Fault Refusal :=
  match t with
  | .event i => exec i { s with cur := {} }
  | .retry i => if s.mailHeads.contains i then exec i { s with cur := { held := true } } else .next s
  | .hostRead off n => .next (s.hostRead off n)
  | .hostWrite off bs => .next (s.barWrite off bs)
  | .issue tids =>
    let r := s.order tids
    match r.2.prepare r.1 with
    | .noThread t => .fault (.noSuchThread t)
    | .done s => .next s
    | .run i s => exec i s

/-- One step: what follows from the state is noted; then the agenda's first turn, else what moves next by itself, else
nothing. -/
def step (s : State) : Host.Outcome State Fault Refusal :=
  let s := s.notes
  match s.agenda with
  | t :: rest => takeTurn t { s with agenda := rest }
  | [] => match s.nextTurn with
    | some t => takeTurn t s
    | none => .next s

/-! ### Placing a word (log 1) -/

/-- The engine kind that reads an instruction in a row's bits: the first whose decoder takes it. -/
def wordKind (ws : List Word) : EngineKind :=
  match decode .lane 0 ws with
  | .ok _ _ => .lane
  | _ => match decode .cond 0 ws with
    | .ok _ _ => .cond
    | _ => .stew

/-- The seven words of an instruction, the bits above nbits zero. -/
def tableWords (nbits w : Nat) : List Word := (List.range 7).map fun i => BitVec.ofNat 64 ((w % 2 ^ nbits) >>> (64 * i))

/-- The words as bytes from DPA 0. -/
def tableBytes (ws : List Word) : List (Nat × Byte) :=
  (List.range 56).zip (ws.flatMap fun w => (List.range 8).map fun i => w.extractLsb' (8 * i) 8)

/-- A page-table root at DPA 0x10000, and the root pointer to it: its entry 0 maps the first 4 TiB onto the device, with
every right. -/
def tableRoot : Nat × Byte := (0x10000, 31)
def rootPointer : Word := 0x10001

/-- s with an instruction of the table where the next step fetches: context 1 runs on partition 0, whose granule 0 holds
lane core 0; launch 1 of it has one block with one warp, whose thread 0 stands at PC 0; home and the launch's code hold the
words at 0, beside the page table; no other thread of its engine is there. A conductor's instruction is given to the
conductor of cluster 0, bound to the block, and a steward's to steward 0. -/
def State.withFetchWord (s : State) (nbits w : Nat) : State :=
  let ws := tableWords nbits w
  let mem : Memory := (tableBytes ws).foldl (fun m e => tput 0 e.1 e.2 m) [tableRoot]
  let k := wordKind ws
  let tid := match k with | .lane => 0 | .cond => condBase | .stew => stewBase
  let pool : Word := BitVec.ofNat 64 (248 * 2 ^ 48 + 2 ^ 37)
  let launch : Launch := { nblock := 1, st := 1, pool, image := mem }
  let block : Block := { asid := 1, lid := 1, core := 0, slots := [0], pool }
  { s with
    agenda := [.issue [tid]]
    boot := { s.boot with stage := .ready, devnum := 0 }
    ctxs := tset 0 { s.ctx 0 with ptroot := rootPointer } (tset 1 { w0 := BitVec.ofNat 64 (2 ^ 63), ptroot := rootPointer } s.ctxs)
    parts := tset 0 { en := true, run := true, rasid := 1, gran := 1 } s.parts
    launches := tset (gkey 1 1) launch s.launches
    blocks := tset 0 block s.blocks
    clusters := if k = .cond then tset 0 { bound := some 0, bankAsid := 1 } s.clusters else s.clusters
    home := mem
    tlb := []
    walkc := []
    threads := tset tid (if k = .stew then { block := noBlock, lvl := 2 } else {}) (s.threads.filter fun e => engOf e.1 != engOf tid) }

end Sys2Proof.Machine
end

