-- ==== Sys2Proof/WellFormed.lean ====
section
/-! DEFINITION. When an instruction is one that a word of the A96 can hold on an engine of kind k: every operand a value
its field admits (R99-R101, R122), every type one the entry lists (R103), guard and set as the entry fixes them. Events
have no word and are well formed on no engine. -/
namespace Sys2Proof

/-- A source the engine's fields can name (R99, R122). -/
def Src.ok (k : EngineKind) : Src → Bool
  | .w n => k == .lane && n.toNat < 248
  | .b _ | .zero | .lane => k == .lane
  | .k _ => k != .lane

/-- An even register as a source (R178, R213, R223, R227, R283). -/
def Src.evenOk (k : EngineKind) : Src → Bool
  | .w n => k == .lane && n.toNat < 248 && n.toNat % 2 == 0
  | .k n => k != .lane && n.toNat % 2 == 0
  | _ => false

/-- A written destination (R100, R122). -/
def Dst.ok (k : EngineKind) : Dst → Bool
  | .w n => k == .lane && n.toNat < 248
  | .k _ => k != .lane
  | .sup => false

/-- A destination that S may suppress (R100). -/
def Dst.okS (k : EngineKind) : Dst → Bool
  | .sup => k == .lane
  | d => d.ok k

def Dst.evenOk (k : EngineKind) : Dst → Bool
  | .w n => k == .lane && n.toNat < 248 && n.toNat % 2 == 0
  | .k n => k != .lane && n.toNat % 2 == 0
  | .sup => false

/-- A guard that is not the reserved value (R101). -/
def Hdr.ok (h : Hdr) : Bool := h.guard != 0xF

/-- The unguarded form, where the entry demands it (R101). -/
def Hdr.okE (h : Hdr) : Bool := h.guard == 0xE

/-- set = 15, where the entry demands it (R185, R190, R192, R194). -/
def Hdr.set15 (h : Hdr) : Bool := h.set == 15

/-- A predicate that may be written (R152). -/
def predOk (p : BitVec 3) : Bool := p != 7

/-- Integer types of the arithmetic entries on this engine (R125, R156). -/
def IntTy.okOn (k : EngineKind) (t : IntTy) : Bool := k == .lane || t.scalarOk

def LdTy.okOn (k : EngineKind) (t : LdTy) : Bool := k == .lane || t != .b128

def Space.okOn (k : EngineKind) : Space → Bool
  | .g => true
  | .s => k != .stew
  | .a | .p => k == .lane

/-- Whether the pair halves meet rules 1-3 of R115 with legal fields. -/
def PairHalf.ok : PairHalf → Bool
  | .empty => true
  | .op _ d s => d.toNat < 248 && s.ok .lane

/-- Whether the instruction runs on the engine kind (R125, R126). -/
def Instr.wf (k : EngineKind) : Instr → Bool
  | .add h t s d a b | .sub h t s d a b | .mul h t s d a b =>
    h.ok && d.okS k && a.ok k && b.ok k && t.okOn k && !t.isB && (!s || t.wide)
  | .mad h t s d a b => h.ok && d.ok k && a.ok k && b.ok k && t.okOn k && t.wide && (!s || t.wide)
  | .addc h _ _ d a b | .subb h _ _ d a b => h.ok && d.okS k && a.ok k && b.ok k
  | .mulh h t d a b => h.ok && d.okS k && a.ok k && b.ok k && t.okOn k && t.word
  | .madh h t d a b => h.ok && d.ok k && a.ok k && b.ok k && t.okOn k && t.word
  | .min h t d a b | .max h t d a b => h.ok && d.okS k && a.ok k && b.ok k && t.okOn k && !t.isB
  | .abs h t s d a | .neg h t s d a => h.ok && d.okS k && a.ok k && t.okOn k && t.signed && (!s || t.wide)
  | .and h _ d a b | .or h _ d a b | .xor h _ d a b | .andn h _ d a b | .shl h _ d a b | .shr h _ d a b
  | .sar h _ d a b | .rotl h _ d a b | .bfx h _ d a b | .lea h _ _ d a b | .sel h _ d a b =>
    h.ok && d.okS k && a.ok k && b.ok k
  | .not h _ d a | .popc h _ d a | .clz h _ d a | .ctz h _ d a | .brev h _ d a | .mov h _ d a => h.ok && d.okS k && a.ok k
  | .bfi h _ d a b | .bsel h d a b => h.ok && d.ok k && a.ok k && b.ok k
  | .movSpecial h _ d => h.ok && d.okS k
  | .setp h _ _ p a b => h.ok && predOk p && a.ok k && b.ok k
  | .addImm h d a _ | .subImm h d a _ | .mulImm h d a _ | .minImm h d a _ | .maxImm h d a _ | .andImm h d a _
  | .orImm h d a _ | .xorImm h d a _ | .andnImm h d a _ | .shlImm h d a _ | .shrImm h d a _ | .sarImm h d a _
  | .rotlImm h d a _ | .leaImm h d a _ => h.ok && d.okS k && a.ok k
  | .movi h d _ => h.ok && d.okS k
  | .movl h d _ => h.ok && d.ok k
  | .fadd h _ _ d a b | .fsub h _ _ d a b | .fmul h _ _ d a b => k == .lane && h.ok && d.okS k && a.ok k && b.ok k
  | .fma h _ _ d a b | .pdot h _ d a b => k == .lane && h.ok && d.ok k && a.ok k && b.ok k
  | .fmin h _ d a b | .fmax h _ d a b | .bfpPack h _ _ d a b | .bfpUnpack h _ _ d a b | .rng h d a b =>
    k == .lane && h.ok && d.okS k && a.ok k && b.ok k
  | .fsetp h _ _ p a b => k == .lane && h.ok && predOk p && a.ok k && b.ok k
  | .fclass h _ d a | .icvt h _ _ d a | .nzmask h _ d a | .nzcnt h _ d a => k == .lane && h.ok && d.okS k && a.ok k
  | .frnd h t _ d a => k == .lane && h.ok && d.okS k && a.ok k && !t.isNarrow8
  | .fdiv h t _ d a b => k == .lane && h.ok && d.ok k && a.ok k && b.ok k && !t.isNarrow8
  | .fsqrt h t _ d a => k == .lane && h.ok && d.ok k && a.ok k && !t.isNarrow8
  | .frcp h _ d a | .frsqrt h _ d a | .fexp2 h _ d a | .flog2 h _ d a => k == .lane && h.ok && d.ok k && a.ok k
  | .fscale h t _ d a b => k == .lane && h.ok && d.okS k && a.ok k && b.ok k && !t.isNarrow8
  | .fcvt h c r d a => k == .lane && h.ok && d.okS k && a.ok k && (c.code.toNat < 4 || r == .rn)
  | .sacc h _ d a b => k == .lane && h.ok && d.ok k && a.evenOk k && b.ok k
  | .flgRd h d => k == .lane && h.ok && d.ok k
  | .flgClr h a | .flgArm h a => k == .lane && h.ok && a.ok k
  | .pairWord _ _ x y => k == .lane && x.ok && y.ok && pairOk x y
  | .dictionaryCode _ _ => k == .lane
  | .bra h _ | .call h _ => h.ok && h.set15
  | .calli h a => k == .lane && h.ok && h.set15 && a.ok k
  | .ret h | .nop h | .brk h => h.ok && h.set15
  | .exit h | .rett h => h.okE && h.set15
  | .trap h a => h.ok && h.set15 && a.ok k
  | .suspendK h a b | .suspendR h a b => k == .lane && h.okE && h.set15 && a.ok k && b.ok k
  | .evAdd h d a b => h.ok && d.ok k && a.ok k && b.ok k
  | .evRd h d a => h.ok && d.ok k && a.ok k
  | .switch h n a p t0 t1 t2 t3 t4 =>
    k == .lane && h.okE && h.set15 && a.ok k && casesZero (n.toNat + 1) p
      && ((List.range 8).all fun j => j < n.toNat + 1 || caseEntry [t0, t1, t2, t3, t4] j == 0)
      && caseEntry [t0, t1, t2, t3, t4] 9 == 0
  | .lxch h _ _ d a b | .bcast h d a b | .lred h _ d a b | .scan h _ d a b | .peer h _ d a b | .csample h _ d a b
  | .sproj h _ d a b => k == .lane && h.okE && d.ok k && a.ok k && b.ok k
  | .poll h op _ _ b => k == .lane && h.okE && b.ok k
      && (match op with | .mask d | .count d => d.ok k | .ge p | .le p => predOk p)
  | .lead h _ p b => k == .lane && h.okE && predOk p && b.ok k
  | .nbarArr h a b | .nbarSync h a b => k == .lane && h.okE && a.ok k && b.ok k
  | .nbarWait h a => k == .lane && h.okE && a.ok k
  | .nbarRd h d a => k == .lane && h.okE && d.ok k && a.ok k
  | .pbarInit h a b | .pbarWait h a b => k != .stew && h.okE && a.ok k && b.ok k
  | .pbarArr h a => k != .stew && h.okE && a.ok k
  | .ld h sp t d a _ => h.ok && a.ok k && sp.okOn k && t.okOn k && (if t = .b128 then d.evenOk k else d.ok k)
  | .st h sp t v a _ => h.ok && a.ok k && sp.okOn k && t.okOn k && (if t = .b128 then v.evenOk k else v.ok k)
      && t != .i8 && t != .i16 && t != .i32
  | .ldl h t d a _ => k == .lane && h.ok && a.ok k && (if t = .b128 then d.evenOk k else d.ok k)
  | .pref h a _ => k == .lane && h.ok && a.ok k
  | .atom h s op t d a b => h.ok && d.ok k && a.ok k && b.ok k && (!s || k != .stew)
      && (op == .add || op == .min || op == .max || t == .n32 || t == .n64)
  | .atomFadd h _ _ a b => k == .lane && h.ok && a.ok k && b.ok k
  | .cpa h _ sp d a b => k == .lane && h.ok && d.ok k && a.ok k && b.ok k && sp != .p
  | .cpa2 h _ sp d a b => k == .lane && h.ok && d.ok k && a.ok k && b.evenOk k && sp != .p
  | .fence h => h.ok
  | .fenceOwn h d => h.ok && d.ok k
  | .fenceSeize h _ d a b => h.ok && d.evenOk k && a.ok k && b.ok k
  | .fenceSpw h _ a | .binCfg h a | .accRel h a => k == .lane && h.ok && a.ok k
  | .binPut h _ a b => k == .lane && h.ok && a.ok k && b.ok k
  | .binRun h d a | .collPost h d a | .collRd h d a => k == .lane && h.ok && d.ok k && a.ok k
  | .edgePush h d a b => k == .lane && h.ok && d.ok k && a.ok k && b.ok k
  | .accReq h p a => k == .lane && h.ok && predOk p && a.ok k
  | .fibOpen h _ kd _ a b => k == .lane && h.okE && a.evenOk k && b.ok k && kd.toNat < 12
  | .fibAdvN h _ a b | .fibAdvGe h _ a b | .fibSplit h _ a b => k == .lane && h.okE && a.ok k && b.ok k
  | .fibEnd h p _ b => k == .lane && h.okE && predOk p && b.ok k
  | .fibClose h _ b => k == .lane && h.okE && b.ok k
  | .fibIsect h _ d _ _ b | .fibMerge h _ d _ _ b => k == .lane && h.okE && d.evenOk k && b.ok k
  | .fibGet h _ d _ b => k == .lane && h.okE && d.ok k && b.ok k
  | .slotRdWord h d a b | .slotRdTok h d a b => k == .lane && h.ok && d.ok k && a.ok k && b.ok k
  | .slotRdBatch h d => k == .lane && h.ok && d.ok k
  | .slotPut h a b => k == .lane && h.ok && a.ok k && b.ok k
  | .slotCfg h a b | .seqStPause h a b | .seqStResume h a b | .seqStSwap h a b | .seqStRelease h a b
  | .seqStPriority h a b => k != .cond && h.ok && a.ok k && b.ok k
  | .seqFork h d a b => k != .cond && h.ok && d.ok k && a.ok k && b.ok k
  | .csrr h d _ => h.ok && d.ok k
  | .csrw h n a => h.ok && a.ok k && n != 0x0C0
  | .csrx h d _ a => h.ok && d.ok k && a.ok k
  | .cbindWrite h a | .keyLoad h a | .keyErase h a | .contextCreate h a => h.ok && a.ok k
  | .tlbInvAll h b => h.ok && b.ok k
  | .tlbInvPage h a b => h.ok && a.ok k && b.ok k
  | .tlbInvRange h l a b => h.ok && l.ok k && a.ok k && b.ok k
  | .tlbInvDev h => h.ok
  | .fragRdEntry h d a b | .fragResume h d a b | .fragKill h d a b | .ctxHaltSave h d a b | .ctxHaltLoad h d a b
  | .logApp h d a b | .cancelBlock h d a b => h.ok && d.ok k && a.ok k && b.ok k
  | .fragRdFrame h d b => h.ok && d.ok k && b.ok k
  | .ctxHaltTerm h a | .ctxHaltClear h a | .phaseClose h a => h.ok && a.ok k
  | .probeRd h d a | .cntRd h d a | .cancelLaunch h d a | .cancelGraph h d a | .cancelPhase h d a
  | .cancelJob h d a => h.ok && d.ok k && a.ok k
  | .cntCfg h a b => h.ok && a.ok k && b.ok k
  | .accFold h _ _ _ a b | .accZero h a b | .dcpCfgTable h a b | .cimRun h a b _ =>
    k == .cond && h.okE && a.ok k && b.ok k
  | .accCpy h _ d a b => k == .cond && h.okE && d.ok k && a.ok k && b.ok k
  | .dcpCfgStream h a | .dcpCfgRedir h a | .ocInvH h a | .cimLdb h a _ => k == .cond && h.okE && a.ok k
  | .cimMv h b _ => k == .cond && h.okE && b.ok k
  | .dcpStat h d | .stepRd h d => k == .cond && h.okE && d.ok k
  | .ocInvAll h | .stepGoResume h | .stepGoAbandon h => k == .cond && h.okE
  | .instructionCompletion .. | .copyRetirement .. | .planeStep .. | .drainStep .. | .loadStep .. | .foldStep ..
  | .accUnitStep .. | .deBlockDecode .. | .matrixStreamTrap .. | .decompressionTimeout .. | .faultPresentation ..
  | .blockResume .. | .blockPlacement .. | .pendingBlockTimeout .. | .launchCompletion .. | .phaseBoundary ..
  | .requantisation .. | .engineStop .. | .timeSliceExpiry .. | .thermalThrottle | .thermalRecovery | .thermalShutdown
  | .bootSequence | .scrub .. | .remoteAccess .. | .remoteAccessTimeout .. | .oper .. | .operAttest .. | .operBlowFuse ..
  | .operMap .. | .operJoinDomain .. | .load .. | .job .. | .seq .. | .ctrlJobHold .. | .ctrlJobResume ..
  | .ctrlJobCancel .. | .ctrlJobFinish .. | .ctrlSeqPause .. | .ctrlSeqResume .. | .ctrlSeqSwap .. | .ctrlSeqRelease ..
  | .dataWrite .. | .dataRead .. | .replay .. | .logx .. | .malformedMessage .. | .memberUnreachable .. => false

/-- Whether the decoder gives this constructor for its own word: a word shared by several rows (seq.st, and csrw of
KEYCTL and CTXW0) decodes to one of them, and issue renames it (log 8). -/
def Instr.ownWord : Instr → Bool
  | .seqStResume .. | .seqStSwap .. | .seqStRelease .. | .seqStPriority .. | .keyLoad .. | .keyErase ..
  | .contextCreate .. => false
  | _ => true

end Sys2Proof
end

