-- ==== Sys2Proof/Safety.lean ====
section
/-! DEFINITION. The terms in which the statements speak: which registers an instruction may write, what a computing
instruction is, the well-formed states, and the issue groups that statements quantify over. -/
namespace Sys2Proof

/-! ### Destinations -/

/-- Register n is the one that a destination writes: k0 discards writes (R122), and a suppressed destination writes none
(R100). -/
def Dst.names : Dst → Nat → Bool
  | .w m, n => m.toNat == n
  | .k m, n => m != 0 && m.toNat == n
  | .sup, _ => false

/-! ### Computing instructions -/

/-- What an instruction that computes in each lane on its own has of R110 and R153: its header, whether its result enters
the latches (class A or M, writing a lane register), its destination, and the predicate it writes. -/
structure Lane where
  h : Hdr
  push : Bool
  d : Dst
  p : Option (BitVec 3) := none

/-- The computing instructions: opcode-table rows 0 to 76 but for the three that concern the block status word. -/
def Instr.lane : Instr → Option Lane
  | .add h _ _ d _ _ | .sub h _ _ d _ _ | .mul h _ _ d _ _ | .mulh h _ d _ _ | .mad h _ _ d _ _ | .madh h _ d _ _
  | .min h _ d _ _ | .max h _ d _ _ | .abs h _ _ d _ | .neg h _ _ d _ => some { h, push := true, d }
  | .addc h _ c d _ _ | .subb h _ c d _ _ => some { h, push := true, d, p := some c }
  | .and h _ d _ _ | .or h _ d _ _ | .xor h _ d _ _ | .not h _ d _ | .andn h _ d _ _ | .shl h _ d _ _ | .shr h _ d _ _
  | .sar h _ d _ _ | .rotl h _ d _ _ | .bfx h _ d _ _ | .bfi h _ d _ _ | .popc h _ d _ | .clz h _ d _ | .ctz h _ d _
  | .brev h _ d _ | .bsel h d _ _ | .lea h _ _ d _ _ | .mov h _ d _ | .movSpecial h _ d | .sel h _ d _ _ =>
    some { h, push := true, d }
  | .setp h _ _ p _ _ => some { h, push := false, d := .sup, p := some p }
  | .addImm h d _ _ | .subImm h d _ _ | .mulImm h d _ _ | .minImm h d _ _ | .maxImm h d _ _ | .andImm h d _ _
  | .orImm h d _ _ | .xorImm h d _ _ | .andnImm h d _ _ | .shlImm h d _ _ | .shrImm h d _ _ | .sarImm h d _ _
  | .rotlImm h d _ _ | .leaImm h d _ _ | .movi h d _ => some { h, push := true, d }
  | .movl h d _ => some { h, push := false, d }
  | .fadd h _ _ d _ _ | .fsub h _ _ d _ _ | .fmul h _ _ d _ _ | .fma h _ _ d _ _ | .fmin h _ d _ _ | .fmax h _ d _ _
  | .fclass h _ d _ | .frnd h _ _ d _ | .fscale h _ _ d _ _ | .fcvt h _ _ d _ | .icvt h _ _ d _ =>
    some { h, push := true, d }
  | .fsetp h _ _ p _ _ => some { h, push := false, d := .sup, p := some p }
  | .fdiv h _ _ d _ _ | .fsqrt h _ _ d _ | .frcp h _ d _ | .frsqrt h _ d _ | .fexp2 h _ d _ | .flog2 h _ d _ =>
    some { h, push := false, d }
  | .bfpPack h _ _ d _ _ | .bfpUnpack h _ _ d _ _ | .sacc h _ d _ _ | .pdot h _ d _ _ | .nzmask h _ d _ | .nzcnt h _ d _
  | .rng h d _ _ => some { h, push := true, d }
  | _ => none

/-- The length that the decoder gives: a long word with its payload counts 16 bytes, any other word 8 (R97, R121). -/
def wordsLength (i : Instr) : Nat := if (encode i).length = 1 then 8 else 16

/-- The full-word instruction that a half of a pair word has the effect of (R114, R116): dest and srca are d, srcb is s; no
guard, no set flag, rounding to nearest. -/
def HalfOp.full (o : HalfOp) (d : BitVec 8) (s : Src) : Instr :=
  let h : Hdr := { dist := 0, wait := 0, set := 15, guard := 0xE }
  let r := Src.w d
  let q := Dst.w d
  match o with
  | .addI64 => .add h .i64 false q r s | .subI64 => .sub h .i64 false q r s | .and => .and h true q r s | .or => .or h true q r s
  | .xor => .xor h true q r s | .andn => .andn h true q r s | .shl => .shl h true q r s | .shr => .shr h true q r s
  | .sar => .sar h true q r s | .minI64 => .min h .i64 q r s | .maxI64 => .max h .i64 q r s | .minN64 => .min h .n64 q r s
  | .maxN64 => .max h .n64 q r s | .mov => .mov h true q s | .addI32 => .add h .i32 false q r s | .subI32 => .sub h .i32 false q r s
  | .mulI32 => .mul h .i32 false q r s | .mulI64 => .mul h .i64 false q r s | .faddF32 => .fadd h .f32 .rn q r s
  | .fsubF32 => .fsub h .f32 .rn q r s | .fmulF32 => .fmul h .f32 .rn q r s | .fminF32 => .fmin h .f32 q r s
  | .fmaxF32 => .fmax h .f32 q r s | .faddF16x4 => .fadd h .f16x4 .rn q r s | .fmulF16x4 => .fmul h .f16x4 .rn q r s
  | .addI32x2 => .add h .i32x2 false q r s | .addI16x4 => .add h .i16x4 false q r s

namespace Machine

/-! ### Dictionary codes -/

/-- The register fields below 248 of a full or pair word that decodes to i, each with its lowest bit and whether it must be
even (R98, R99, R114, R118): the fields that the format of the opcode names as registers, a suppressed destination left out
(bit 24, which opcode 0x144 uses itself, R218), or those of each half that is not empty. -/
def offsetFields (i : Instr) (w : Word) : List (Nat × Bool) :=
  let fields := match bits w 62 2 with
    | 0 => ([16, 8, 0].zip (instrUses i)).filterMap fun (f : Nat × FieldUse × BitVec 8) =>
        if useReg f.2.1 && !(f.1 == 16 && bit w 24 && bits w 30 9 != 0x144) then
          some (f.1, f.2.1 == FieldUse.evenSrc || f.2.1 == FieldUse.evenDst)
        else none
    | _ => (if bits w 39 7 = 0 then [] else [(31, false), (23, false)]) ++ if bits w 16 7 = 0 then [] else [(8, false), (0, false)]
  fields.filter fun f => bits w f.1 8 < 248

/-! ### Well-formed states -/

/-- A thread whose tables are in canonical form and whose counts keep their limits: completion counts at most 63 (R105),
at most four trap frames (R365), at most sixteen call frames on chip (R189). -/
def Thread.wf (th : Thread) : Bool :=
  twf 0 th.regs && twf 0 th.flags && (th.flags.all fun e => e.2 ≤ 63) && decide (th.traps.length ≤ 4) && decide (th.frames.length ≤ 16)

/-- The memories and the thread table are in canonical form. -/
def State.wf (s : State) : Bool :=
  Memory.wf s.home && tsorted s.threads && (s.threads.all fun e => e.2.wf)
    && (s.blocks.all fun e => Memory.wf e.2.spad && Memory.wf e.2.acc)

/-- What every step keeps (the statement StepKeepsInvariant): memory at home in its canonical form; every table in rising
key order; translation caches that hold only valid entries, leaves in one and non-leaf entries in the other (R351, R352); an
OPKEY of 48 bytes (R412); a job's PRIO in its 8 bits (R326); a named barrier's counts in their 11 bits (R204); images whose
tables are in order. -/
structure State.Inv (s : State) : Prop where
  home : Memory.wf s.home = true
  threads : tsorted s.threads = true
  blocks : tsorted s.blocks = true
  parts : tsorted s.parts = true
  ctxs : tsorted s.ctxs = true
  jobs : tsorted s.jobs = true
  launches : tsorted s.launches = true
  tlb : ∀ t ∈ s.tlb, bit t.entry 0 = true ∧ bit t.entry 1 = true
  walkc : ∀ t ∈ s.walkc, bit t.entry 0 = true ∧ bit t.entry 1 = false
  opkey : s.boot.opkey.length = 48
  prio : ∀ e ∈ s.jobs, e.2.prio ≤ 255
  nbars : ∀ e ∈ s.blocks, ∀ b ∈ e.2.nbars, b.2.arrived < 2048 ∧ b.2.expected < 2048
  imageTables : ∀ i ∈ s.images, tsorted i.threads = true ∧ tsorted i.blocks = true
  imageNbars : ∀ i ∈ s.images, ∀ e ∈ i.blocks, ∀ b ∈ e.2.nbars, b.2.arrived < 2048 ∧ b.2.expected < 2048

/-! ### Issue groups -/

/-- The issue group is the one thread t, whose state is th. -/
def State.only (s : State) (t : Nat) (th : Thread) : Prop := s.cur.tids = [t] ∧ tget? s.threads t = some th

/-- Thread t is listed in the issue group with state th, and its guard is true. -/
def State.acts (s : State) (h : Hdr) (t : Nat) (th : Thread) : Prop :=
  t ∈ s.cur.tids ∧ tget? s.threads t = some th ∧ th.guardTrue h.guard = true

/-- Whether an instruction's result enters the latches of a lane thread (R110). -/
def pushes (i : Instr) : Bool := i.lane.elim false (·.push)

/-- In a thread whose guard is true, instruction i gives a value that P allows of the state and the thread before it: the
register that destination d names holds it, and where d is suppressed, the first latch of a lane thread does, if the
result enters the latches (R100, R110). -/
def gives (i : Instr) (h : Hdr) (d : Dst) (P : State → Nat → Thread → Word → Prop) : Prop :=
  ∀ (s : State) (u : Nat) (th : Thread), s.acts h u th → ∃ t th', exec i s = .next t ∧ tget? t.threads u = some th' ∧
    (∀ n, d.names n = true → P s u th (th'.reg n)) ∧ (d = .sup → kindOf u = .lane → pushes i = true → P s u th th'.lat.b0)

/-- The same of predicate p, which is not p7. -/
def setsPred (i : Instr) (h : Hdr) (p : BitVec 3) (P : State → Nat → Thread → Bool → Prop) : Prop :=
  ∀ (s : State) (u : Nat) (th : Thread), s.acts h u th → p ≠ 7 →
    ∃ t th', exec i s = .next t ∧ tget? t.threads u = some th' ∧ P s u th (th'.pred p)

/-- What an ordinary instruction leaves of the thread th whose guard is true: it stands at the next PC, its set flag has
been counted, the destination d and the predicate p may have changed, and every other register, predicate and field of the
thread is as it was. push: its result enters the latches of a lane thread (R110). -/
def LaneEnds (s : State) (l : Lane) (u : Nat) (th th' : Thread) : Prop :=
  (∀ n, l.d.names n = false → th'.reg n = th.reg n) ∧
  (∀ q, l.p ≠ some q → th'.pred q = th.pred q) ∧
  th'.pc = th.pc + word s.cur.next ∧
  (∀ c, th'.flagCount c = th.flagCount c + if l.h.set.toNat = c ∧ c < 12 then 1 else 0) ∧
  (if l.push ∧ kindOf u = .lane then
      (∀ n, l.d.names n = true → th'.lat.b0 = th'.reg n) ∧ th'.lat.b1 = th.lat.b0 ∧ th'.lat.b2 = th.lat.b1 ∧ th'.lat.b3 = th.lat.b2
    else th'.lat = th.lat) ∧
  th' = { th with regs := th'.regs, preds := th'.preds, lat := th'.lat, flags := th'.flags, out := th'.out,
                  tick := th'.tick, pc := th'.pc, wait := .none, vectored := false, rewalk := false }

/-! ### Integers (R42-R45) -/

/-- Sub-element j of a word, as an integer of the type. -/
def elem (ty : IntTy) (w : Word) (j : Nat) : Int :=
  let (n, _, sg) := intShape ty
  toInt n sg (sub_ w n j)

/-- What a result register holds: the sub-element of a packed type; for an unpacked type the whole register, which R44
fills from the result. -/
def held (ty : IntTy) (w : Word) (j : Nat) : Int :=
  let (n, cnt, sg) := intShape ty
  if cnt = 1 then (if sg then w.toInt else w.toNat) else toInt n sg (sub_ w n j)

/-- res_int (R155, R43): clamped to the type's range where the type is narrower than 32 bits or .sat is given, else modulo
2^n. -/
def narrow (ty : IntTy) (sat : Bool) (x : Int) : Int :=
  let (n, _, sg) := intShape ty
  let lo : Int := if sg then -(2 ^ (n - 1)) else 0
  let hi : Int := if sg then 2 ^ (n - 1) - 1 else 2 ^ n - 1
  if n < 32 ∨ sat then max lo (min hi x) else if sg then Int.bmod x (2 ^ n) else x % 2 ^ n

/-- The b64 value, or the low half zero-extended for b32 (R44, R103). -/
def zext (w64 : Bool) (w : Word) : Word := if w64 then w else (w.setWidth 32).setWidth 64

/-- Sub-elements of the type. -/
def elems (ty : IntTy) : Nat := (intShape ty).2.1

/-! ### Floating point (R46-R57) -/

/-- The magnitude that a magnitude code stands for, as if the format's exponents had no upper bound (R46, R49). -/
def FpFmt.magVal (f : FpFmt) (c : Nat) : ℚ :=
  if c >>> f.p = 0 then (c : ℚ) * 2 ^ f.qmin else ((2 ^ f.p + c % 2 ^ f.p : Nat) : ℚ) * 2 ^ (f.qmin + (c >>> f.p : Nat) - 1)

/-- The exact value of a number (R46). -/
def FVal.toRat : FVal → ℚ
  | .num neg m e => (if neg then -1 else 1) * (m : ℚ) * 2 ^ e
  | _ => 0

/-- c is the magnitude x ≥ 0 rounded under rm (R48), among the magnitudes v 0 = 0 < v 1 < v 2 < …, of a result with the
sign given: rn takes the nearest, and of two the even one; rz the one toward zero; ru and rd the one toward ±∞. -/
def Rounds (v : Nat → ℚ) (rm : Rm) (neg : Bool) (x : ℝ) (c : Nat) : Prop :=
  let down := (v c : ℝ) ≤ x ∧ x < (v (c + 1) : ℝ)
  let up := x ≤ (v c : ℝ) ∧ (c = 0 ∨ (v (c - 1) : ℝ) < x)
  match rm with
  | .rz => down
  | .ru => if neg then down else up
  | .rd => if neg then up else down
  | .rn => (c = 0 ∨ (v (c - 1) : ℝ) + v c < 2 * x ∨ ((v (c - 1) : ℝ) + v c = 2 * x ∧ c % 2 = 0)) ∧
      (2 * x < (v c : ℝ) + v (c + 1) ∨ (2 * x = (v c : ℝ) + v (c + 1) ∧ c % 2 = 0))

/-- The encoding delivered for a rounded magnitude code (R49, R52): past the largest finite value, f32 gives ∞ or the
largest finite value as IEEE 754 says and the narrow types give the largest finite value; under flush, a subnormal result
is a zero. -/
def FpFmt.deliver (f : FpFmt) (fl : Bool) (rm : Rm) (neg : Bool) (c : Nat) : Nat :=
  if f.maxMag < c then
    f.signed neg (if f = fmtF32 ∧ (rm = .rn ∨ (rm = .ru ∧ neg = false) ∨ (rm = .rd ∧ neg = true)) then f.infMag else f.maxMag)
  else f.signed neg (if fl ∧ f.flush ∧ c < 2 ^ f.p then 0 else c)

/-- r is the encoding of the exact real result of magnitude x with the sign given. -/
def FpFmt.gets (f : FpFmt) (fl : Bool) (rm : Rm) (neg : Bool) (x : ℝ) (r : Nat) : Prop :=
  ∃ c, Rounds f.magVal rm neg x c ∧ r = f.deliver fl rm neg c

/-- v is a number with the sign n and the exact magnitude x. -/
def FVal.isMag (v : FVal) (n : Bool) (x : ℝ) : Prop :=
  match v with
  | .num k m e => n = k ∧ x = (m : ℝ) * 2 ^ e
  | _ => False

/-- v is below zero (R47). -/
def FVal.below (v : FVal) : Prop :=
  match v with
  | .num n m _ => n = true ∧ m ≠ 0
  | .inf n => n = true
  | .nan _ => False

/-- An exact result saturates in this format (R49): its rounded magnitude is past the largest finite value, and the format is
not f32, which overflows to ∞. -/
def FpFmt.saturates (f : FpFmt) (rm : Rm) (n : Bool) (x : ℝ) : Prop := f ≠ fmtF32 ∧ ∃ c, Rounds f.magVal rm n x c ∧ f.maxMag < c

/-- An exact result is flushed (R52): it is nonzero after rounding, and subnormal. -/
def FpFmt.flushesOut (f : FpFmt) (fl : Bool) (rm : Rm) (n : Bool) (x : ℝ) : Prop :=
  fl = true ∧ f.flush = true ∧ ∃ c, Rounds f.magVal rm n x c ∧ 0 < c ∧ c < 2 ^ f.p

/-- An operand is flushed (R52): it is subnormal. -/
def FpFmt.flushesIn (f : FpFmt) (fl : Bool) (v : Nat) : Prop :=
  fl = true ∧ f.flush = true ∧ ∃ n m e, f.decode v = .num n m e ∧ 0 < m ∧ m < 2 ^ f.p

/-- r is what fout(res_fp(v)) delivers for an exact result v (R49, R50, R155). -/
def FpFmt.delivers (f : FpFmt) (fl : Bool) (rm : Rm) (v : FVal) (r : Nat) : Prop :=
  match v with
  | .nan _ => r = f.nan
  | .inf neg => r = f.signed neg (if f.hasInf then f.infMag else f.maxMag)
  | .num neg m e => f.gets fl rm neg ((m : ℝ) * 2 ^ e) r

/-- Every sub-element of the result is in relation R to the operands' sub-elements, and the bits above them are zero
(R44, R45). -/
def felems (ty : FpTy) (a b d r : Word) (R : FpFmt → Nat → Nat → Nat → Nat → Prop) : Prop :=
  let (f, n) := fpShape ty
  r.toNat < 2 ^ (f.w * n) ∧ ∀ i, i < n → R f (sub_ a f.w i) (sub_ b f.w i) (sub_ d f.w i) (sub_ r f.w i)

/-- With every change applied, flag k of the group's block is set exactly where it was set before or F holds of a lane
whose guard is true (R58, R59); the group is not a steward, which has no block (log 57). -/
def raisesFlag (i : Instr) (h : Hdr) (k : Nat) (F : State → Nat → Thread → Prop) : Prop :=
  ∀ (s : State) (bl : Block), kindOf s.lead_ ≠ .stew → tget? s.blocks s.curBlockKey = some bl → ∃ t bl', exec i s = .next t ∧
    tget? t.blocks s.curBlockKey = some bl' ∧
    (bit bl'.bswAll k = true ↔ bit bl.bswAll k = true ∨ ∃ u th, s.acts h u th ∧ F s u th)

/-- The instruction is one full word with this opcode and mod (R99). -/
def codedAs (i : Instr) (op mod : Nat) : Prop := ∃ w, encode i = [w] ∧ bits w 30 9 = op ∧ bits w 25 5 = mod

/-! ### Groups, ends and traps -/

/-- The words ws stand from va on where thread t fetches, and reading them leaves s1 (R96). -/
def State.fetches (t : Nat) : State → Word → List Word → State → Prop
  | s, _, [], s1 => s1 = s
  | s, va, w :: ws, s1 => ∃ s', s.fetchWord t va = (.ok w, s') ∧ State.fetches t s' (va + 8) ws s1


/-- An instruction that only changes the group's threads: the others stay, a thread whose guard is false goes to the next
PC, and one whose guard is true ends in relation P to its state before. -/
def moves (i : Instr) (h : Hdr) (P : State → Nat → Thread → Thread → Prop) : Prop :=
  ∀ s : State, ∃ t, exec i s = .next t ∧ t = { s with threads := t.threads } ∧
    (∀ u, u ∉ s.cur.tids → tget? t.threads u = tget? s.threads u) ∧
    ∀ u th, u ∈ s.cur.tids → tget? s.threads u = some th → ∃ th', tget? t.threads u = some th' ∧
      if th.guardTrue h.guard then P s u th th' else th' = th.adv s.cur.next

/-- After an ordinary instruction of the one thread u, that thread is as th', with the set flag counted and the PC at the
next instruction; no other thread changes. -/
def Ends (s t : State) (h : Hdr) (u : Nat) (th' : Thread) : Prop :=
  tget? t.threads u = some (th'.finish h s.cur.next) ∧ ∀ v, v ≠ u → tget? t.threads v = tget? s.threads v

/-- The handler for a trap class (R364, R366): word CLASS of the vector table at VT, read at home; where that word is zero
or does not translate, word 0. No poisoned line keeps the table from being read (R388). -/
def State.vectors (s : State) (u cls : Nat) (pc : Word) : Prop :=
  let asid := s.asidOf u
  let vt := (s.ctx asid).tvec &&& ~~~(127 : Word)
  let at_ := fun (s : State) (n : Nat) => s.readHomeWord asid (if kindOf u = .stew then 2 else 1) (vt + word (8 * n))
  vt ≠ 0 ∧ pc ≠ 0 ∧ ((at_ s cls).1 = some pc ∨
    (((at_ s cls).1 = none ∨ (at_ s cls).1 = some 0) ∧ (at_ (at_ s cls).2 0).1 = some pc)) ∧ s.handlerHeld u cls = false

/-- Thread u, which was th, has taken a precise trap: a frame holds the class, the cause, the sub-cause, the level it came
from and INFO, its PC, the return PC and the address; the level is raised and the PC is the handler's. No register,
predicate, flag or count has changed, and beside the thread only what reading the vector table touches (R364, R365, R367). -/
def Trapped (s t : State) (u : Nat) (th : Thread) (cls cause sub info : Nat) (addr rpc pc : Word) : Prop :=
  ∃ f : TrapFrame, bits f.w0 56 8 = cls ∧ bits f.w0 48 8 = cause ∧ bits f.w0 40 8 = sub ∧ bits f.w0 32 8 = th.lvl.toNat ∧
    bits f.w0 0 32 = info ∧ f.tpc = th.pc ∧ f.rpc = rpc ∧ f.addr = addr ∧
    tget? t.threads u = some { th with traps := f :: th.traps, lvl := if kindOf u = .stew then 2 else 1,
                                       pc := pc, wait := .none, chain := {}, vectored := true, rewalk := false } ∧
    (∀ v, v ≠ u → tget? t.threads v = tget? s.threads v) ∧
    t = { s with threads := t.threads, tlb := t.tlb, walkc := t.walkc, ctr := t.ctr, remote := t.remote }

/-- The one thread u of the group may take a trap and go on: it is live and fewer than four frames are in use. -/
def State.traps (s : State) (u : Nat) (th : Thread) : Prop := s.only u th ∧ th.run = .live ∧ th.traps.length < 4

/-- Every thread of the issue group is listed, and belongs to the group's block (R12). -/
def State.grouped (s : State) : Prop := ∀ u ∈ s.cur.tids, ∃ th, tget? s.threads u = some th ∧ th.block = s.curBlockKey

/-- The issue group is the whole of one cross-lane step (R15): lanes of one warp whose keys start at base, live at one PC,
each with a member mask, the high half of its word b, that names exactly the group's lanes; the warp holds no arrival. -/
def State.meets (s : State) (b : Src) (base : Nat) (lanes : List Nat) (pc : Word) : Prop :=
  s.cur.tids = lanes.map (base + ·) ∧ lanes ≠ [] ∧ lanes.Pairwise (· < ·) ∧ (∀ l ∈ lanes, l < 32) ∧ base % 32 = 0 ∧
    base + 31 < condBase ∧ (∀ e ∈ s.threads, e.1 / 32 = base / 32 → e.2.arrMask = none) ∧
    ∀ l ∈ lanes, ∃ th, tget? s.threads (base + l) = some th ∧ th.run = .live ∧ th.pc = pc ∧
      ∀ k, k < 32 → (bit (readSrc l th b) (32 + k) = true ↔ k ∈ lanes)

/-- A cross-lane instruction completes for such a group: no member is absent, and each goes on to the next PC in relation P
to its state before; src gives the members' source words. -/
def joins (i : Instr) (b : Src) (P : State → (Src → Nat → Word) → List Nat → Nat → Thread → Thread → Prop) : Prop :=
  ∀ (s : State) (base : Nat) (lanes : List Nat) (pc : Word), s.meets b base lanes pc → ∃ t, exec i s = .next t ∧
    (∀ u, u ∉ s.cur.tids → tget? t.threads u = tget? s.threads u) ∧
    ∀ l ∈ lanes, ∃ th', tget? t.threads (base + l) = some th' ∧ th'.pc = pc + word s.cur.next ∧ th'.absent = false ∧
      P s (fun a k => readSrc k (s.thread (base + k)) a) lanes l (s.thread (base + l)) th'

/-- The access of thread u to the n bytes at ea translates to dl, leaving s1: beside it, only the translation caches and the
free-value counter may have moved on (R346, R352, R374). -/
def State.maps (s : State) (u : Nat) (acc : Acc) (ea : Word) (n : Nat) (dl : List Nat) (s1 : State) : Prop :=
  s.xlateSpans u [(acc, ea, n)] = (.ok [dl], s1)

/-- The descriptor of the one thread u at ea is w, at the addresses dl, and nothing stops its reading (R229, R233, R142):
the span is canonical, aligned to its size but to 64 bytes at most, and translates, leaving s1, to memory of this device. -/
def State.describes (s : State) (u : Nat) (acc : Acc) (ea : Word) (w : List Word) (dl : List Nat) (s1 : State) : Prop :=
  spanCanonical ea (8 * w.length) = true ∧ ea.toNat % min (8 * w.length) 64 = 0 ∧
    s.maps u acc ea (8 * w.length) dl s1 ∧ s.poison = [] ∧ dl.all s.isLocal = true ∧
    w = (List.range w.length).map fun i => word (leNat (((dl.drop (8 * i)).take 8).map s.homeByte))

/-- The node of two inputs of a reduction tree: an empty one passes the other through (R69). -/
def pairUp (op : Nat → Nat → Nat) : Option Nat → Option Nat → Option Nat
  | some x, some y => some (op x y)
  | some x, none => some x
  | none, y => y

/-- v k i is the node of level k that covers lanes i × 2^k on, over the leaves given (R69). -/
def IsTree (op : Nat → Nat → Nat) (leaf : Nat → Option Nat) (v : Nat → Nat → Option Nat) : Prop :=
  (∀ i, v 0 i = leaf i) ∧ ∀ k i, v (k + 1) i = pairUp op (v k (2 * i)) (v k (2 * i + 1))

/-- r is the inclusive scan of lane l over that tree: the aligned blocks of lanes 0 to l, from left to right (R70). -/
def IsScan (op : Nat → Nat → Nat) (v : Nat → Nat → Option Nat) (l : Nat) (r : Option Nat) : Prop :=
  ∃ acc : Nat → Option Nat, acc 6 = none ∧ acc 0 = r ∧ ∀ k, k < 6 →
    acc k = if (l + 1).testBit k then pairUp op (acc (k + 1)) (v k ((l + 1) / 2 ^ (k + 1) * 2)) else acc (k + 1)

/-- The operation of a floating-point reduction on f32 patterns (R200, R166, R167). -/
def redFloat (fl : Bool) (op : RedOp) (x y : Nat) : Nat :=
  match op with
  | .fmin => (fmtF32.minMax fl false x y).1
  | .fmax => (fmtF32.minMax fl true x y).1
  | _ => (fin2 fmtF32 fl x y (fmtF32.add fl .rn)).1

/-- The operation of an integer reduction on n-bit patterns (R200). -/
def redInt (op : RedOp) (x y : Nat) : Nat :=
  let lt := fun (ty : CmpTy) => toInt (cmpShape ty).1 (cmpShape ty).2 x < toInt (cmpShape ty).1 (cmpShape ty).2 y
  match op with
  | .add ty => (x + y) % 2 ^ (cmpShape ty).1
  | .min ty => if lt ty then x else y
  | .max ty => if lt ty then y else x
  | .and _ => x &&& y
  | .or _ => x ||| y
  | .xor _ => x ^^^ y
  | _ => x

end Machine
end Sys2Proof
end

