-- ==== Sys2Proof/Certificates/Slice0/Obligations.lean ====
section
/-! DEFINITION. The statements of this model, one `def Obligations.<Name> : Prop` each. Their words are those of
Sys2Proof/Safety.lean and of the machine; each docstring names the rule that the statement formalises. -/

open Sys2Proof Sys2Proof.Machine

/-! ### Encodings, steps and reset -/

/-- Words written out in the manual's own examples decode to the instructions beside them: lane instructions (the table after
R165), a branch (R186), a store (R214), an atomic (R218), a macro-op (R257's chapter) and a system register (R320). -/
def Obligations.DecodeOfManualWords : Prop :=
  decode .lane 0 [0x00007F080E03FCFC] = .ok (.setp ⟨0, 0, 15, 0xE⟩ .ne .n64 3 .zero .zero) 8 ∧
  decode .lane 0 [0x00007F00DA0A0103] = .ok (.addc ⟨0, 0, 15, 0xE⟩ true 3 (.w 10) (.w 1) (.w 3)) 8 ∧
  decode .lane 0 [0x00007F07D0070809] = .ok (.sel ⟨0, 0, 15, 0xE⟩ 2 (.w 7) (.w 8) (.w 9)) 8 ∧
  decode .lane 0 [0x00007F07A4050000] = .ok (.movSpecial ⟨0, 0, 15, 0xE⟩ .tid (.w 5)) 8 ∧
  decode .lane 0 [0x00007F2412030400] = .ok (.fcvt ⟨0, 0, 15, 0xE⟩ .e4m3f32 .rz (.w 3) (.w 4)) 8 ∧
  decode .lane 0 [0x00007F3080140A0C] = .ok (.sacc ⟨0, 0, 15, 0xE⟩ .rn (.w 20) (.w 10) (.w 12)) 8 ∧
  decode .lane 0 [0x00007F4000000020] = .ok (.bra ⟨0, 0, 15, 0xE⟩ 0x20) 8 ∧
  decode .lane 0 [0x00007F50480704FE] = .ok (.st ⟨0, 0, 15, 0xE⟩ .g .b32 (.w 7) (.w 4) (-2)) 8 ∧
  decode .lane 0 [0x00000F513E050607] = .ok (.atom ⟨0, 0, 1, 0xE⟩ false .cas .n64 (.w 5) (.w 6) (.w 7)) 8 ∧
  decode .cond 0 [0xC000070440000304, 0x0000000008800040] = .ok (.cimRun ⟨0, 0, 0, 0xE⟩ (.k 3) (.k 4) 0x08800040) 16 ∧
  decode .lane 0 [0x00007F6848000200] = .ok (.csrw ⟨0, 0, 15, 0xE⟩ 0x400 (.w 2)) 8

/-- Decoding the words of a well-formed computing instruction gives it back, whatever its operands, types and scheduling
fields, on every kind of engine that runs it (R98-R103, R155-R183). -/
def Obligations.DecodeEncodeComputing : Prop :=
  ∀ (k : EngineKind) (i : Instr), i.wf k = true → i.lane.isSome = true → decode k 0 (encode i) = .ok i (wordsLength i)

/-- The same of every other instruction of a lane core that has a word of its own: pair words, dictionary codes, flags,
control flow, cross-lane, barrier, memory, fibre, slot and system instructions (R113-R121, R185-R395). -/
def Obligations.DecodeEncodeLane : Prop :=
  ∀ i : Instr, i.wf .lane = true → i.lane = none → i.ownWord = true → decode .lane 0 (encode i) = .ok i (wordsLength i)

/-- The same of every other instruction of a conductor or steward, the matrix instructions among them (R122, R254-R273). -/
def Obligations.DecodeEncodeConductorSteward : Prop :=
  ∀ (k : EngineKind) (i : Instr), k ≠ .lane → i.wf k = true → i.lane = none → i.ownWord = true →
    decode k 0 (encode i) = .ok i (wordsLength i)

/-- A word that is no dictionary word stands for one instruction: what decodes from it is well formed on that engine, and
encodes to that word and the payload words after it. No bit of a word is left unread (R7, R99, R124). -/
def Obligations.WordsHaveOneMeaning : Prop :=
  ∀ (k : EngineKind) (w : Word) (rest : List Word) (i : Instr) (n : Nat), w.extractLsb' 62 2 ≠ 2 →
    decode k 0 (w :: rest) = .ok i n → i.wf k = true ∧ encode i <+: (w :: rest)

/-- One step on an agenda that names threads is the meaning, for the group, of the instruction that the words at its PC decode
to, after what follows from the state has been noted, the issue has been noted and resolved fragments have rejoined; and one
on an agenda that names an event is that event's meaning. The group forms around the thread that the issue order puts first
(R336); the members of a latch chain issue together (R14); the rest of the group is the threads whose awaited flags are done.
State.row renames the rows that share a word (log 8); j is the instruction itself, or the entry that a dictionary code
executes (R12, R96, R97, R106, R118). -/
def Obligations.StepRunsDecodedInstruction : Prop :=
  (∀ (s : State) (rest : List Turn) (tids : List Nat) (t : Nat) (ws : List Word) (i j : Instr) (n : Nat) (s1 : State),
    let r := ({ s.notes with agenda := rest } : State).order tids
    let s0 : State := { r.2 with cur := { tids := r.2.groupOf t r.1, noReply := r.2.late.contains t }, late := r.2.late.filter (· != t) }
    let pc := (s0.thread t).pc
    let slot := pc.extractLsb' 0 3
    s.notes.agenda = .issue tids :: rest → (∀ u ∈ r.1, u < threadLimit) → r.1.find? r.2.canIssue = some t → ws.length ≤ 7 →
    State.fetches t s0 (pc &&& ~~~(7 : Word)) ws s1 → decode (kindOf t) slot ws = .ok i n →
    (∀ k, 1 ≤ k → k < ws.length → decode (kindOf t) slot (ws.take k) = .truncated) → s1.effective t i = .ok j →
    let f := instrInfo j
    let ts := s1.cur.tids.filter fun u => (s1.thread u).meets j f
    let s2 : State := { s1 with cur := { s1.cur with tids := ts, next := n } }
    ((∀ o x, i ≠ .dictionaryCode o x) → j = i) ∧
    (ts ≠ [] → (s1.chainBound t f = true → ts = s1.cur.tids) → s2.issueTrap ts f = none → (∀ u ∈ ts, s2.regsHeld u f = false) →
      step s = exec (s2.row i) (s2.noteIssue j f).rejoin)) ∧
  (∀ (s : State) (rest : List Turn) (i : Instr), s.notes.agenda = .event i :: rest →
    step s = exec i { s.notes with agenda := rest, cur := {} })

/-! ### Computing instructions -/

/-- Every computing instruction completes, in every state and for every operand. It changes the thread table and the flag
records of the group's block and nothing else of the machine. Threads outside the group do not change; a thread whose guard
is false goes to the next PC, pushing zero where the instruction pushes; a thread whose guard is true ends as LaneEnds says
(R101, R105, R110, R153). The value that enters the latches where the destination is suppressed is what the statements of
results say (`gives` in Safety.lean). -/
def Obligations.ComputingInstructionsFrame : Prop :=
  ∀ (i : Instr) (l : Lane) (s : State), i.lane = some l → ∃ t, exec i s = .next t ∧
    t = { s with threads := t.threads, blocks := t.blocks } ∧
    (∀ u, u ∉ s.cur.tids → tget? t.threads u = tget? s.threads u) ∧
    (∀ u th, u ∈ s.cur.tids → tget? s.threads u = some th → th.guardTrue l.h.guard = false →
      tget? t.threads u = some ((if l.push then pushOn u 0 th else th).adv s.cur.next)) ∧
    (∀ u th, s.acts l.h u th → ∃ th', tget? t.threads u = some th' ∧ LaneEnds s l u th th') ∧
    (∀ b, ∃ recs, tget? t.blocks b = (tget? s.blocks b).map fun x =>
      if b = s.curBlockKey then { x with flagLog := x.flagLog ++ recs } else x)

/-- Integer arithmetic, sub-element by sub-element, exactly and then through res_int (R44, R45, R155, R156); mulh and madh
give floor(x × y / 2^n), and its sum with the old destination. -/
def Obligations.IntegerArithmeticResults : Prop :=
  ∀ (h : Hdr) (ty : IntTy) (sat : Bool) (d : Dst) (a b : Src),
    let result := fun (sat : Bool) (op : Int → Int → Int → Int) (_ : State) (u : Nat) (th : Thread) (r : Word) =>
      ∀ j, j < elems ty → held ty r j =
        narrow ty sat (op (elem ty (readSrc (laneOf u) th a) j) (elem ty (readSrc (laneOf u) th b) j) (elem ty (readDst th d) j))
    gives (.add h ty sat d a b) h d (result sat fun x y _ => x + y) ∧
    gives (.sub h ty sat d a b) h d (result sat fun x y _ => x - y) ∧
    gives (.mul h ty sat d a b) h d (result sat fun x y _ => x * y) ∧
    gives (.mad h ty sat d a b) h d (result sat fun x y z => z + x * y) ∧
    gives (.min h ty d a b) h d (result false fun x y _ => min x y) ∧
    gives (.max h ty d a b) h d (result false fun x y _ => max x y) ∧
    gives (.abs h ty sat d a) h d (result sat fun x _ _ => (x.natAbs : Int)) ∧
    gives (.neg h ty sat d a) h d (result sat fun x _ _ => -x) ∧
    (ty.word = true →
      let n := (intShape ty).1
      let high := fun (u : Nat) (th : Thread) => elem ty (readSrc (laneOf u) th a) 0 * elem ty (readSrc (laneOf u) th b) 0 / 2 ^ n
      gives (.mulh h ty d a b) h d (fun _ u th r => held ty r 0 = high u th) ∧
      gives (.madh h ty d a b) h d (fun _ u th r => held ty r 0 = narrow ty false (elem ty (readDst th d) 0 + high u th)))

/-- SAT after an add: with every change applied, the block's SAT flag is set exactly where it was set before or a true-guard
lane's exact sum left the type's range on a type that saturates; the other flags stay (R43, R58, R59). A steward, which has
no block, leaves every block as it is: the model's choice (log 57). And addc and subb: the result and the carry, through the
predicate (R157). -/
def Obligations.SaturationAndCarry : Prop :=
  (∀ (h : Hdr) (ty : IntTy) (sat : Bool) (d : Dst) (a b : Src) (s : State) (bl : Block),
    tget? s.blocks s.curBlockKey = some bl →
    (kindOf s.lead_ = .stew → ∃ t, exec (.add h ty sat d a b) s = .next t ∧ t.blocks = s.blocks) ∧
    (kindOf s.lead_ ≠ .stew → ∃ t bl', exec (.add h ty sat d a b) s = .next t ∧ tget? t.blocks s.curBlockKey = some bl' ∧
      (bit bl'.bswAll 0 = true ↔ bit bl.bswAll 0 = true ∨ ∃ u th j, s.acts h u th ∧ j < elems ty ∧
        ((intShape ty).1 < 32 ∨ sat = true) ∧
        let x := elem ty (readSrc (laneOf u) th a) j + elem ty (readSrc (laneOf u) th b) j
        narrow ty true x ≠ x) ∧
      (∀ k, 1 ≤ k → k < 4 → bit bl'.bswAll k = bit bl.bswAll k))) ∧
  (∀ (h : Hdr) (w64 : Bool) (c : BitVec 3) (d : Dst) (a b : Src), let t := 4 * c.toNat + if w64 then 1 else 0
    codedAs (.addc h w64 c d a b) 0x003 t ∧ codedAs (.subb h w64 c d a b) 0x004 t) ∧
  ∀ (h : Hdr) (w64 : Bool) (c : BitVec 3) (d : Dst) (a b : Src) (s : State) (u : Nat) (th : Thread) (n : Nat),
    s.acts h u th → d.names n = true →
    let m : Int := 2 ^ bW w64
    let x : Int := bits (readSrc (laneOf u) th a) 0 (bW w64)
    let y : Int := bits (readSrc (laneOf u) th b) 0 (bW w64)
    let cin : Int := if th.pred c then 1 else 0
    (∃ t th', exec (.addc h w64 c d a b) s = .next t ∧ tget? t.threads u = some th' ∧
      ((th'.reg n).toNat : Int) = (x + y + cin) % m ∧ (c ≠ 7 → (th'.pred c = true ↔ m ≤ x + y + cin))) ∧
    (∃ t th', exec (.subb h w64 c d a b) s = .next t ∧ tget? t.threads u = some th' ∧
      ((th'.reg n).toNat : Int) = (x - y - cin) % m ∧ (c ≠ 7 → (th'.pred c = true ↔ x - y - cin < 0)))

/-- Logic: bitwise on the low n bits, a b32 result zero-extended. Shifts and the rotate: the count is b mod n; sar's 32-bit
result is sign-extended, the others' zero-extended (R44, R158, R162). -/
def Obligations.LogicAndShiftResults : Prop :=
  (∀ (h : Hdr) (w64 : Bool) (d : Dst) (a b : Src),
    let t := if w64 then 15 else 14
    codedAs (.and h w64 d a b) 0x00D t ∧ codedAs (.or h w64 d a b) 0x00E t ∧ codedAs (.xor h w64 d a b) 0x00F t ∧
    codedAs (.not h w64 d a) 0x010 t ∧ codedAs (.andn h w64 d a b) 0x011 t ∧ codedAs (.shl h w64 d a b) 0x012 t ∧
    codedAs (.shr h w64 d a b) 0x013 t ∧ codedAs (.sar h w64 d a b) 0x014 (if w64 then 6 else 4) ∧
    codedAs (.rotl h w64 d a b) 0x015 t) ∧
  (∀ (h : Hdr) (w64 : Bool) (d : Dst) (a b : Src),
    let result := fun (op : Word → Word → Word) (_ : State) (u : Nat) (th : Thread) (r : Word) =>
      r = zext w64 (op (readSrc (laneOf u) th a) (readSrc (laneOf u) th b))
    gives (.and h w64 d a b) h d (result fun x y => x &&& y) ∧
    gives (.or h w64 d a b) h d (result fun x y => x ||| y) ∧
    gives (.xor h w64 d a b) h d (result fun x y => x ^^^ y) ∧
    gives (.not h w64 d a) h d (result fun x _ => ~~~x) ∧
    gives (.andn h w64 d a b) h d (result fun x y => x &&& ~~~y) ∧
    gives (.mov h w64 d a) h d (result fun x _ => x)) ∧
  ∀ (h : Hdr) (w64 : Bool) (d : Dst) (a b : Src),
    let n := bW w64
    let result := fun (P : Word → Nat → Word → Prop) (_ : State) (u : Nat) (th : Thread) (r : Word) =>
      P (readSrc (laneOf u) th a) ((readSrc (laneOf u) th b).toNat % n) r
    gives (.shl h w64 d a b) h d (result fun x k r => r = zext w64 (x <<< k)) ∧
    gives (.shr h w64 d a b) h d (result fun x k r => r = zext w64 x >>> k) ∧
    gives (.sar h w64 d a b) h d (result fun x k r => r.toInt = toInt n true (bits x 0 n) / 2 ^ k) ∧
    gives (.rotl h w64 d a b) h d (result fun x k r =>
      ∀ i, r.getLsbD i = if i < n then x.getLsbD ((i + n - k) % n) else false)

/-- Bit fields: the length is cut at the type's width, and an empty field gives 0 or the old destination (R159). Bit counts, bit
reversal and byte selection (R160, R161). -/
def Obligations.BitFieldAndCountResults : Prop :=
  (∀ (h : Hdr) (ty : CmpTy) (w64 : Bool) (d : Dst) (a b : Src),
    let t := if w64 then 15 else 14
    codedAs (.bfx h ty d a b) 0x016 (match ty with | .i32 => 4 | .n32 => 5 | .i64 => 6 | .n64 => 7) ∧ codedAs (.bfi h w64 d a b) 0x017 t ∧
    codedAs (.popc h w64 d a) 0x018 t ∧ codedAs (.clz h w64 d a) 0x019 t ∧ codedAs (.ctz h w64 d a) 0x01A t ∧
    codedAs (.brev h w64 d a) 0x01B t ∧ codedAs (.bsel h d a b) 0x01C 15) ∧
  (∀ (h : Hdr) (ty : CmpTy) (w64 : Bool) (d : Dst) (a b : Src),
    gives (.bfx h ty d a b) h d (fun _ u th r =>
      let x := readSrc (laneOf u) th a
      let pos := bits (readSrc (laneOf u) th b) 0 8
      let len := bits (readSrc (laneOf u) th b) 8 8
      let n := (cmpShape ty).1
      if len = 0 ∨ n ≤ pos then r = 0
      else
        let len := min len (n - pos)
        if (cmpShape ty).2 then r.toInt = toInt len true (bits x pos len) else r.toNat = bits x pos len) ∧
    gives (.bfi h w64 d a b) h d (fun _ u th r =>
      let x := readSrc (laneOf u) th a
      let pos := bits (readSrc (laneOf u) th b) 0 8
      let len := bits (readSrc (laneOf u) th b) 8 8
      ∀ i, r.getLsbD i =
        if bW w64 ≤ i then false
        else if pos ≤ i ∧ i < pos + len then x.getLsbD (i - pos) else (readDst th d).getLsbD i)) ∧
  ∀ (h : Hdr) (w64 : Bool) (d : Dst) (a b : Src),
    let n := bW w64
    let src := fun (u : Nat) (th : Thread) => readSrc (laneOf u) th a
    gives (.popc h w64 d a) h d (fun _ u th r => r.toNat = ((List.range n).filter fun i => (src u th).getLsbD i).length) ∧
    gives (.clz h w64 d a) h d (fun _ u th r => r.toNat ≤ n ∧
      (∀ i, i < r.toNat → (src u th).getLsbD (n - 1 - i) = false) ∧ (r.toNat < n → (src u th).getLsbD (n - 1 - r.toNat) = true)) ∧
    gives (.ctz h w64 d a) h d (fun _ u th r => r.toNat ≤ n ∧
      (∀ i, i < r.toNat → (src u th).getLsbD i = false) ∧ (r.toNat < n → (src u th).getLsbD r.toNat = true)) ∧
    gives (.brev h w64 d a) h d (fun _ u th r => ∀ i, r.getLsbD i = if i < n then (src u th).getLsbD (n - 1 - i) else false) ∧
    gives (.bsel h d a b) h d (fun _ u th r => ∀ i j, i < 8 → j < 8 →
      let sel := bits (readDst th d) (8 * i) 8
      let byte := fun (k : Nat) (j : Nat) =>
        if k < 8 then (readSrc (laneOf u) th a).getLsbD (8 * k + j) else (readSrc (laneOf u) th b).getLsbD (8 * (k - 8) + j)
      let v := fun (j : Nat) => byte (sel % 16) (if sel.testBit 6 then 7 - j else j)
      r.getLsbD (8 * i + j) = if sel.testBit 4 then false else if sel.testBit 5 then v 7 else v j)

/-- Moves, selection, comparison and addresses (R162-R165): what each writes. The special registers are those of R9 that a
lane thread reads; its %warp and %tid follow its place in its block. -/
def Obligations.MoveSelectCompareResults : Prop :=
  ∀ (h : Hdr) (p : BitVec 3) (sgn : Bool) (k : BitVec 3) (c : Cond) (ty : CmpTy) (d : Dst) (a b : Src) (imm : Word),
    codedAs (.sel h p d a b) 0x01F (4 * p.toNat) ∧
    gives (.sel h p d a b) h d (fun _ u th r => r = if th.pred p then readSrc (laneOf u) th a else readSrc (laneOf u) th b) ∧
    gives (.lea h sgn k d a b) h d (fun _ u th r =>
      r = readSrc (laneOf u) th a + wordI (toInt 32 sgn (bits (readSrc (laneOf u) th b) 0 32) * 2 ^ k.toNat)) ∧
    gives (.movl h d imm) h d (fun _ _ _ r => r = imm) ∧
    setsPred (.setp h c ty p a b) h p (fun _ u th r =>
      let n := (cmpShape ty).1
      let x := toInt n (cmpShape ty).2 (bits (readSrc (laneOf u) th a) 0 n)
      let y := toInt n (cmpShape ty).2 (bits (readSrc (laneOf u) th b) 0 n)
      r = true ↔ match c with
        | .eq => x = y | .ne => x ≠ y | .lt => x < y | .le => x ≤ y | .gt => y < x | .ge => y ≤ x
        | .tst => bits (readSrc (laneOf u) th a &&& readSrc (laneOf u) th b) 0 n ≠ 0) ∧
    (∀ sr, gives (.movSpecial h sr d) h d (fun s u th r => kindOf u = .lane → tget? s.threads u = some th →
      let bl := s.block th.block
      match sr with
        | .lane => r = word (u % 32)
        | .warp => r = word (bl.warpNo (u / 32 % 32))
        | .tid => r = word (32 * bl.warpNo (u / 32 % 32) + u % 32)
        | .block => r = word bl.blk
        | .launch => r = word bl.lid
        | .core => r = word (u / 1024)
        | .cluster => r = word (u / 1024 / 8)
        | .stk => r = th.stk
        | .nblock => r = word (s.launch (gkey bl.asid bl.lid)).nblock
        | .job => r = word (s.launch (gkey bl.asid bl.lid)).job
        | .phase => ∀ p, s.partOfEng (u / 1024) = some p → r = (s.part p).phase
        | .status => th.traps.length ≤ 4 → bits r 0 4 = th.traps.length ∧ bit r 4 = th.absent ∧ bit r 5 = th.empty ∧ bit r 6 = th.resumed))

/-- The immediate forms compute what their register forms do, with the sign-extended immediate in place of b (R102, R155). -/
def Obligations.ImmediateResults : Prop :=
  ∀ (h : Hdr) (d : Dst) (a : Src) (imm : BitVec 13),
    let result := fun (f : Word → Word → Word) (_ : State) (u : Nat) (th : Thread) (r : Word) =>
      r = f (readSrc (laneOf u) th a) (imm.signExtend 64)
    let signed := fun (f : Int → Int → Int) (_ : State) (u : Nat) (th : Thread) (r : Word) =>
      r.toInt = f (readSrc (laneOf u) th a).toInt imm.toInt
    let k := imm.toNat % 64
    gives (.addImm h d a imm) h d (result fun x y => x + y) ∧ gives (.subImm h d a imm) h d (result fun x y => x - y) ∧
    gives (.mulImm h d a imm) h d (result fun x y => x * y) ∧
    gives (.minImm h d a imm) h d (signed fun x y => min x y) ∧ gives (.maxImm h d a imm) h d (signed fun x y => max x y) ∧
    gives (.andImm h d a imm) h d (result fun x y => x &&& y) ∧ gives (.orImm h d a imm) h d (result fun x y => x ||| y) ∧
    gives (.xorImm h d a imm) h d (result fun x y => x ^^^ y) ∧ gives (.andnImm h d a imm) h d (result fun x y => x &&& ~~~y) ∧
    gives (.shlImm h d a imm) h d (result fun x _ => x <<< k) ∧ gives (.shrImm h d a imm) h d (result fun x _ => x >>> k) ∧
    gives (.sarImm h d a imm) h d (result fun x _ => x.sshiftRight k) ∧
    gives (.rotlImm h d a imm) h d (result fun x _ => x.rotateLeft k) ∧
    gives (.leaImm h d a imm) h d (result fun x y => x + y * 8) ∧ gives (.movi h d imm) h d (result fun _ y => y)

/-! ### Slots and sequences -/

/-- The slot and sequence instructions, by one thread that may name the sequence (R291, R292, R296, R298, R299, R300, R307,
R308): slot.rd reads the entry's words, its tokens and the batch record's address; slot.put keeps the submission of the
greatest confidence and then the smallest token, and a NaN is dropped; slot.cfg and seq.st are kept for the next boundary,
once a phase each; seq.fork takes the lowest free entry for the child, counts the parent's fork, and copies the bitmap and
the penalty bytes at home. An entry admitted in the current phase is as free (R293). The slot traps 0x01, 0x04, 0x05 and
0x06. -/
def Obligations.SlotInstructions : Prop :=
  ∀ (h : Hdr) (d : Dst) (a b : Src) (s s1 : State) (u : Nat) (th : Thread) (l1 l2 l3 l4 : List Nat), s.only u th →
    th.guardTrue h.guard = true → s.replayed = none →
    let va := readSrc (laneOf u) th a
    let vb := readSrc (laneOf u) th b
    let n := bits va 0 16
    let bl := s.block th.block
    let job := (s.launch (gkey bl.asid bl.lid)).job
    let asid := s.asidOf u
    let answers := fun (i : Instr) (v : Word) => ∃ t, exec i s = .next t ∧ t = { s with threads := t.threads } ∧ Ends s t h u (writeDst d v th)
    let traps := fun (i : Instr) (cause : Nat) => ∀ hp, s.traps u th → s.vectors u 8 hp →
      ∃ t, exec i s = .next t ∧ Trapped s t u th 8 cause 0 0 0 th.pc hp
    let st : List (Nat × Instr) := [(0, .seqStPause h a b), (1, .seqStResume h a b), (2, .seqStSwap h a b), (3, .seqStRelease h a b),
      (4, .seqStPriority h a b)]
    answers (.slotRdBatch h d) (if (s.job job).took = true ∧ (s.job job).batchMax ≠ 0 then (s.job job).brec else 0) ∧
    (∀ i ∈ [Instr.slotRdWord h d a b, .slotRdTok h d a b, .slotPut h a b, .slotCfg h a b, .seqFork h d a b] ++ st.map (·.2),
      (∀ q, tget? s.seqs n = some q → q.reserved = true ∨ q.admitted = true) → traps i 1) ∧
    (∀ q, tget? s.seqs n = some q → q.reserved = false → q.admitted = false → (th.lvl ≠ 0 ∨ (q.job = job ∧ q.asid = asid)) →
      let weff := min q.wsize (q.lend - q.wbase)
      let slotSt := fun (i : Nat) => if i < weff then tget 0 q.smap i else 0
      let opens := fun (i : Nat) => i < weff ∧ tget 0 q.smap i ≠ 2
      let allowed := th.lvl ≠ 0 ∨ (s.job job).seqctl = true
      (bits va 16 48 = 0 → vb.toNat ≤ 10 → (∀ i, tget 0 q.smap i ≤ 2) → q.wbase < 2 ^ 32 → q.prio < 256 → q.wsize < 128 →
        q.state < 8 → q.lend < 2 ^ 32 → q.job < 256 → q.asid < 1024 → q.forks < 65536 →
        ∃ v, answers (.slotRdWord h d a b) v ∧ match vb.toNat with
          | 0 => bits v 32 32 = q.wbase ∧ bits v 26 6 = 0 ∧ bit v 25 = q.done ∧ bit v 24 = q.mode ∧ bits v 16 8 = q.prio ∧
              bits v 9 7 = q.wsize ∧ bits v 3 6 = 0 ∧ bits v 0 3 = q.state
          | 1 => bits v 32 32 = q.lend ∧ bits v 24 8 = q.job ∧ bits v 10 14 = 0 ∧ bits v 0 10 = q.asid
          | 2 => v = q.kvroot
          | 3 => v = q.fmap
          | 4 => bits v 48 16 = q.forks ∧ bits v 32 16 = q.thr.toNat ∧ bits v 16 16 = q.tht.toNat ∧ bits v 0 16 = q.thf.toNat
          | 5 => v = q.key
          | 6 => v = q.ctr
          | 7 => v = q.pen
          | 8 => v = word q.penlen
          | 9 => ∀ i, i < 32 → bits v (2 * i) 2 = slotSt i
          | _ => ∀ i, i < 32 → bits v (2 * i) 2 = slotSt (32 + i)) ∧
      (bits va 16 48 = 0 → vb.toNat ≤ 63 →
        answers (.slotRdTok h d a b) (if vb.toNat < weff then (tget 0xFFFFFFFF q.tok vb.toNat).setWidth 64 else 0xFFFFFFFF)) ∧
      (let slot := bits va 16 6
       let tok := va.extractLsb' 32 32
       let c := vb.extractLsb' 0 16
       let val := fun (x : BitVec 16) => fmtF16.decode x.toNat
       let finite := fun (x : BitVec 16) => (val x).isNan = false ∧ (val x).isInf = false
       opens slot → bits va 22 10 = 0 → bits vb 16 48 = 0 → tok ≠ 0xFFFFFFFF → n ∈ (s.job job).batch → q.state = 2 →
         ((val c).isNan = true → ∃ t, exec (.slotPut h a b) s = .next t ∧ t.subs = s.subs ∧
           ∃ x, tget? t.threads u = some x ∧ x.pc = th.pc + word s.cur.next ∧ x.regs = th.regs) ∧
         ((val c).isNan = false → ∃ t k, exec (.slotPut h a b) s = .next t ∧ t = { s with threads := t.threads, subs := t.subs } ∧
           Ends s t h u th ∧ tget? t.subs (64 * n + slot) = some k ∧
           (∀ j, j ≠ 64 * n + slot → tget? t.subs j = tget? s.subs j) ∧
           (tget? s.subs (64 * n + slot) = none → k = (c, tok)) ∧
           ∀ c0 t0, tget? s.subs (64 * n + slot) = some (c0, t0) → finite c → finite c0 →
             k = if (val c0).toRat < (val c).toRat ∨ ((val c0).toRat = (val c).toRat ∧ tok.toNat < t0.toNat) then (c, tok) else (c0, t0))) ∧
      (bits va 17 47 = 0 → bits vb 48 16 = 0 → cfgOk vb = true →
        (tget? s.cfgs n = none → allowed → ∃ t, exec (.slotCfg h a b) s = .next t ∧ Ends s t h u th ∧ t.seqs = s.seqs ∧
          tget? t.cfgs n = some { mode := bit va 16, thf := vb.extractLsb' 0 16, tht := vb.extractLsb' 16 16, thr := vb.extractLsb' 32 16 }) ∧
        (tget? s.cfgs n ≠ none → traps (.slotCfg h a b) 5) ∧
        (tget? s.cfgs n = none → ¬allowed → traps (.slotCfg h a b) 6)) ∧
      (∀ op i, (op, i) ∈ st → bits va 16 3 = op → bits va 19 45 = 0 → bits vb 8 56 = 0 → (op ≠ 4 → vb = 0) →
        let fits := match op with
          | 0 => q.state = 2
          | 1 => (q.state = 3 ∧ q.done = false) ∨ q.state = 4
          | 2 => q.state = 3
          | 3 => q.state = 0 ∨ q.state = 3 ∨ q.state = 4
          | _ => True
        let taken := tget? (if op = 4 then s.prios else s.sts) n ≠ none
        (fits → ¬taken → allowed → ∃ t, exec i s = .next t ∧ Ends s t h u th ∧ t.seqs = s.seqs ∧
          (op = 4 → tget? t.prios n = some (bits vb 0 8) ∧ t.sts = s.sts) ∧ (op ≠ 4 → tget? t.sts n = some op ∧ t.prios = s.prios)) ∧
        (¬fits → traps i 4) ∧ (fits → taken → traps i 5) ∧ (fits → ¬taken → ¬allowed → traps i 6)) ∧
      (∀ c, bits va 16 48 = 0 → vb.toNat % 64 = 0 → (q.state = 2 ∨ (q.state = 3 ∧ q.done = false)) → c < 65536 → tget? s.seqs c = none →
        (∀ k, k < c → tget? s.seqs k ≠ none) → allowed →
        let bytes := (q.lend + 7) / 8
        let pen := vb + word (64 * ((q.lend + 511) / 512))
        let spans : List (Machine.Acc × Word × Nat) :=
          [(.read, q.fmap, bytes), (.read, q.pen, q.penlen), (.write, vb, bytes), (.write, pen, q.penlen)]
        (∀ e ∈ spans, e.2.2 = 0 ∨ spanCanonical e.2.1 e.2.2 = true) → s.xlateUnder u q.asid spans = (.ok [l1, l2, l3, l4], s1) →
        (l1 ++ l2 ++ l3 ++ l4).all s.isLocal = true → s.poison = [] → ((l3 ++ l4 ++ l2).map (· % devBytes)).Nodup →
        ∃ t f, exec (.seqFork h d a b) s = .next t ∧ Ends s t h u (writeDst d (word c) th) ∧ l3.map t.homeByte = l1.map s.homeByte ∧
          l4.map t.homeByte = l2.map s.homeByte ∧ tget? t.seqs n = some { q with forks := (q.forks + 1) % 65536 } ∧
          t.forks = s.forks ++ [f] ∧ f.parent = n ∧ f.child = c ∧ f.f = q.forks ∧ f.fmap = vb ∧ f.pen = pen ∧
          ∃ r, tget? t.seqs c = some r ∧ r.reserved = true))

/-! ### System registers -/

/-- csrr, csrw and csrx, by one thread (R316, R317, R318, R319, R320, R321, R323): what each register reads as; a write-only
one reads zero; CSTAT's fields (R246); what a write that meets the register's limits changes, and nothing else (with SPILL, the
spill slots of the context's threads, of those in saved images too, follow it: the model's choice, log 63); csrx reads and writes
as one step; and the system traps: a level below the number's, an unassigned number, a write to a read-only one, a value outside
limits. The writes of CBIND, KEYCTL and CTXW0 are the next statement's. -/
def Obligations.SystemRegisters : Prop :=
  ∀ (h : Hdr) (d : Dst) (a : Src) (n : BitVec 12) (s : State) (u : Nat) (th : Thread), s.only u th → th.guardTrue h.guard = true →
    let k := n.toNat
    let v := readSrc (laneOf u) th a
    let asid := s.asidOf u
    let ctx := s.ctx asid
    let sel := s.ctxSel.toNat
    let entry := fun (c : Context) (asid i : Nat) (r : Word) => match i with
      | 0 => bits r 0 10 = asid % 1024 ∧ ∀ j, 10 ≤ j → j < 64 → bit r j = bit c.w0 j
      | 1 => r = c.spill
      | 2 => r = c.oarea
      | 3 => r = c.tvec
      | 4 => r = c.fpol
      | 5 => r = c.admitW
      | 6 => r = c.ptroot
      | _ => r = c.kvpool
    let assigned := (k = 0x0C0 ∧ kindOf u = .lane) ∨ (k = 0x2C0 ∧ kindOf u ≠ .stew) ∨ k = 0x2C1 ∨ (0x400 ≤ k ∧ k ≤ 0x406) ∨ k = 0x600 ∨
      (0x800 ≤ k ∧ k ≤ 0x807) ∨ (0x810 ≤ k ∧ k ≤ 0x819) ∨ k = 0x820 ∨ (0x830 ≤ k ∧ k ≤ 0x837)
    let allowed := k / 1024 < 3 ∧ k / 1024 ≤ th.lvl.toNat
    let traps := fun (i : Instr) (cause : Nat) => ∀ hp, s.traps u th → s.vectors u 9 hp →
      ∃ t, exec i s = .next t ∧ Trapped s t u th 9 cause 0 0 0 th.pc hp
    let writes := fun (P : State → Prop) => ∃ t, exec (.csrw h n a) s = .next t ∧ Ends s t h u th ∧ P t
    let sets := fun (c : Nat) (e : Context) => writes fun t =>
      t = { s with threads := t.threads, ctxs := t.ctxs } ∧ t.ctx c = e ∧ ∀ x, x ≠ c → t.ctx x = s.ctx x
    let spills := fun (c : Nat) => ∃ t, exec (.csrw h n a) s = .next t ∧
      t = { s with threads := t.threads, ctxs := t.ctxs, images := t.images } ∧
      t.ctx c = { s.ctx c with spill := v } ∧ (∀ x, x ≠ c → t.ctx x = s.ctx x) ∧
      let moved := fun (x : Nat) (y : Thread) => if x < condBase then { y with stk := y.stk + (t.slotTopOf c x - s.slotTopOf c x) } else y
      (∀ x y, tget? s.threads x = some y →
        let y' := if s.asidOf x = c then moved x y else y
        tget? t.threads x = some (if x = u then y'.finish h s.cur.next else y')) ∧
      t.images = s.images.map fun i => if i.asid = c then { i with threads := i.threads.map fun e => (e.1, moved e.1 e.2) } else i
    (assigned → allowed → ∃ r t, exec (.csrr h d n) s = .next t ∧ t = { s with threads := t.threads } ∧ Ends s t h u (writeDst d r th) ∧
      (k = 0x2C1 → r = word th.lvl.toNat) ∧ (k = 0x600 → entry ctx asid 0 r) ∧ (k = 0x810 → r = s.keyIdx.setWidth 64) ∧
      (k = 0x820 → r = s.ctxSel.setWidth 64) ∧ (∀ i, 1 ≤ i → i ≤ 7 → k = 0x3FF + i → entry ctx asid i r) ∧
      (∀ i, i ≤ 7 → k = 0x830 + i → entry (s.ctx sel) sel i r) ∧
      (∀ p, p ≤ 7 → k = 0x800 + p → bit r 63 = (s.part p).en ∧ bit r 62 = (s.part p).run ∧ bits r 42 20 = 0 ∧
        bits r 32 10 = (if (s.part p).run then (s.part p).rasid % 1024 else 0) ∧ bits r 8 24 = 0 ∧ bits r 0 8 = (s.part p).gran.toNat) ∧
      (k = 0x2C0 → match (s.cluster (clusterOf (engOf u))).bound with
        | none => r = 0
        | some bk => bit r 0 = true ∧ (bit r 1 = true ↔ bk = th.block) ∧ bits r 2 3 = (s.block bk).core % 8 ∧ bits r 5 59 = 0) ∧
      ((k = 0x0C0 ∨ (0x811 ≤ k ∧ k ≤ 0x819)) → r = 0)) ∧
    (allowed → s.csrOk k v = true →
      (k = 0x400 → spills asid) ∧ (k = 0x831 → spills sel) ∧
      (k = 0x401 → sets asid { ctx with oarea := v }) ∧ (k = 0x832 → sets sel { s.ctx sel with oarea := v }) ∧
      (k = 0x402 → sets asid { ctx with tvec := v }) ∧ (k = 0x833 → sets sel { s.ctx sel with tvec := v }) ∧
      (k = 0x403 → sets asid { ctx with fpol := v }) ∧ (k = 0x834 → sets sel { s.ctx sel with fpol := v }) ∧
      (k = 0x404 → sets asid { ctx with admitW := v }) ∧ (k = 0x835 → sets sel { s.ctx sel with admitW := v }) ∧
      (k = 0x405 → sets asid { ctx with ptroot := v }) ∧ (k = 0x836 → sets sel { s.ctx sel with ptroot := v }) ∧
      (k = 0x406 → sets asid { ctx with kvpool := v }) ∧ (k = 0x837 → sets sel { s.ctx sel with kvpool := v }) ∧
      (∀ p, p ≤ 7 → k = 0x800 + p → writes fun t => t = { s with threads := t.threads, parts := t.parts } ∧
        t.part p = { s.part p with en := bit v 63, gran := v.extractLsb' 0 8 } ∧ ∀ q, q ≠ p → t.part q = s.part q) ∧
      (k = 0x810 → writes fun t => t = { s with threads := t.threads, keyIdx := v.extractLsb' 0 8 }) ∧
      (∀ i, i ≤ 7 → k = 0x811 + i → writes fun t => t = { s with threads := t.threads, keyStage := t.keyStage } ∧
        ∀ j, tget 0 t.keyStage j = if j = i then v else tget 0 s.keyStage j) ∧
      (k = 0x820 → writes fun t => t = { s with threads := t.threads, ctxSel := v.extractLsb' 0 10 })) ∧
    (assigned → allowed → k / 512 % 2 = 0 → k ≠ 0x0C0 → s.csrOk k v = true → s.keyBusy k v = false →
      ∃ t t1 t2 r, exec (.csrw h n a) s = .next t1 ∧ exec (.csrr h d n) s = .next t2 ∧ exec (.csrx h d n a) s = .next t ∧
        t = { t1 with threads := t.threads } ∧ Ends s t2 h u (writeDst d r th) ∧
        ∀ x, tget? t.threads x = if x = u then (tget? t1.threads u).map (writeDst d r) else tget? t1.threads x) ∧
    (k / 1024 < 3 → th.lvl.toNat < k / 1024 → traps (.csrr h d n) 1 ∧ traps (.csrw h n a) 1 ∧ traps (.csrx h d n a) 1) ∧
    ((3 ≤ k / 1024 ∨ (allowed ∧ ¬assigned)) → traps (.csrr h d n) 2 ∧ traps (.csrw h n a) 2 ∧ traps (.csrx h d n a) 2) ∧
    (assigned → allowed → k / 512 % 2 = 1 → traps (.csrw h n a) 3 ∧ traps (.csrx h d n a) 3) ∧
    (assigned → allowed → k / 512 % 2 = 0 → s.csrOk k v = false → traps (.csrw h n a) 4 ∧ traps (.csrx h d n a) 4)

/-- The limits of the system registers (R246, R321, R322, R323, R343, R357, R366, R368; that a PARTn write with EN 0 keeps apart
from other partitions' granules, that CTXW0's bits [9:0] are not looked at, and that KVPOOL's alignment is a limit, is the
model's reading, log 37), and the writes of CBIND, KEYCTL and CTXW0, by one thread (R246, R249, R321, R322): CBIND starts the cluster's conductor for the block, and waits while it is
busy; LOAD copies the staged words into the slot that KEYIDX names and zeroes them, ERASE zeroes the slot, and a slot in use
takes system trap 0x06; VALID := 1 creates the context that CTXSEL names with every other word zero, and no weight bank keeps what an earlier context
of its ASID left. -/
def Obligations.KeysContextsBinding : Prop :=
  (∀ (s : State) (v : Word),
    (s.csrOk 0x0C0 v = true ↔ bits v 0 3 = 0) ∧ (s.csrOk 0x402 v = true ↔ bits v 0 7 = 0) ∧
    (s.csrOk 0x400 v = true ↔ (bits v 54 10 = 0 ∨ bits v 54 10 = 1023) ∧ bits v 11 5 = 0 ∧ bits v 0 11 ≤ 1024 ∧ bits v 0 11 % 8 = 0) ∧
    (s.csrOk 0x405 v = true ↔ bits v 50 14 = 0 ∧ bits v 1 15 = 0) ∧ (s.csrOk 0x406 v = true ↔ bits v 0 6 = 0) ∧
    (s.csrOk 0x403 v = true ↔ bits v 9 7 = 0 ∧ bit v 3 = false ∧ bits v 7 2 ≠ 3) ∧
    (s.csrOk 0x810 v = true ↔ v.toNat < 256) ∧ (s.csrOk 0x819 v = true ↔ v.toNat < 3) ∧ (s.csrOk 0x820 v = true ↔ v.toNat < 1024) ∧
    (s.csrOk 0x830 v = true ↔ bits v 10 41 = 0) ∧
    ∀ p, p ≤ 7 → (s.csrOk (0x800 + p) v = true ↔ bits v 42 20 = 0 ∧ bits v 8 24 = 0 ∧ (bit v 63 = true → bits v 0 8 ≠ 0) ∧
      (∀ q x, (q, x) ∈ s.parts → q ≠ p → x.en = true → x.gran &&& v.extractLsb' 0 8 = 0) ∧
      ((s.part p).run = true → bit v 63 = (s.part p).en ∧ v.extractLsb' 0 8 = (s.part p).gran))) ∧
  ∀ (h : Hdr) (a : Src) (s : State) (u : Nat) (th : Thread), s.only u th → th.guardTrue h.guard = true →
    let v := readSrc (laneOf u) th a
    let cl := clusterOf (engOf u)
    let slot := s.keyIdx.toNat
    let keyOf := fun (s : State) (k : Nat) => tget (List.replicate 8 0) s.keys k
    let busy := ∃ x c, (x, c) ∈ s.ctxs ∧ bit c.w0 63 = true ∧ bit c.w0 62 = true ∧ bits c.w0 54 8 = slot
    let sel := s.ctxSel.toNat
    (kindOf u = .lane → bits v 0 3 = 0 → s.replayed = none →
      ((s.cluster cl).bound = none → ∃ t x, exec (.cbindWrite h a) s = .next t ∧ tget? t.threads u = some (th.finish h s.cur.next) ∧ t.home = s.home ∧ t.blocks = s.blocks ∧
        (t.cluster cl).bound = some th.block ∧ (t.cluster cl).bankAsid = s.asidOf u ∧
        ((s.cluster cl).bankAsid ≠ s.asidOf u → (t.cluster cl).banks = []) ∧ tget? t.threads (condBase + cl) = some x ∧
        x.block = th.block ∧ x.pc = v ∧ x.run = .live ∧ x.lvl = 0 ∧ x.regs = [] ∧ x.frames = [] ∧ x.traps = []) ∧
      ((s.cluster cl).bound ≠ none → ∃ t, exec (.cbindWrite h a) s = .next t ∧ tget? t.threads u = some { th with wait := .cbind } ∧
        t.clusters = s.clusters)) ∧
    (2 ≤ th.lvl.toNat → ¬busy →
      (v = 1 → ∃ t, exec (.keyLoad h a) s = .next t ∧ Ends s t h u th ∧ keyOf t slot = (List.range 8).map (tget 0 s.keyStage ·) ∧
        t.keyStage = [] ∧ ∀ k, k ≠ slot → keyOf t k = keyOf s k) ∧
      (v = 2 → ∃ t, exec (.keyErase h a) s = .next t ∧ Ends s t h u th ∧ keyOf t slot = List.replicate 8 0 ∧ t.keyStage = s.keyStage ∧
        ∀ k, k ≠ slot → keyOf t k = keyOf s k)) ∧
    (∀ hp, 2 ≤ th.lvl.toNat → busy → s.traps u th → s.vectors u 9 hp → (v = 1 ∨ v = 2) →
      ∃ t, exec (.keyLoad h a) s = .next t ∧ Trapped s t u th 9 6 0 0 0 th.pc hp) ∧
    (2 ≤ th.lvl.toNat → bits v 10 41 = 0 → bit v 63 = true → bit v 62 = false → bit (s.ctx sel).w0 63 = false →
      ∃ t, exec (.contextCreate h a) s = .next t ∧ Ends s t h u th ∧ (t.ctx sel).w0 >>> 10 = v >>> 10 ∧ (t.ctx sel).spill = 0 ∧
        (t.ctx sel).oarea = 0 ∧ (t.ctx sel).tvec = 0 ∧ (t.ctx sel).fpol = 0 ∧ (t.ctx sel).admitW = 0 ∧ (t.ctx sel).ptroot = 0 ∧
        (t.ctx sel).kvpool = 0 ∧ (∀ x, x ≠ sel → t.ctx x = s.ctx x) ∧ ∀ e ∈ t.clusters, e.2.bankAsid = sel → e.2.banks = [])

/-! ### System instructions -/

/-- tlb.inv, probe.rd, log.app and the counters, by one thread (R318, R325, R353, R354, R389, R390, R391, R393, R394, R395):
what each form of tlb.inv drops, of the caches (one for the device, log 29) and nothing else, and that it then waits for the
copies that went through what it dropped; the words a probe reads; a record appended, and a record lost while the log is full; a
counter configured and read; and the traps. The order of a thread's and a fibre's words, and a pool granule's place, are the
model's (log 14); what a free granule holds is free, and so is what an enabled counter has counted (log 4). -/
def Obligations.InvalidationProbeLogCounters : Prop :=
  ∀ (h : Hdr) (d : Dst) (l a b : Src) (s : State) (u : Nat) (th : Thread), s.only u th → th.guardTrue h.guard = true →
    let v := readSrc (laneOf u) th a
    let w := readSrc (laneOf u) th b
    let lvl := th.lvl.toNat
    let asid := if lvl = 2 then bits w 0 10 else s.asidOf u
    let len := (readSrc (laneOf u) th l).toNat
    let top := if vaBits v < 2 ^ 54 then 2 ^ 54 else 2 ^ 55
    let idle := (∀ c x, (c, x) ∈ s.cores → x.copies = []) ∧ ∀ on, th.wait ≠ .inval on
    let bOk := 1 ≤ lvl ∧ (lvl = 2 → bits w 10 54 = 0)
    let flying := fun (id : Nat) => ∃ c x k, (c, x) ∈ s.cores ∧ k ∈ x.copies ∧ k.id = id
    let through := fun (id : Nat) => ∃ c x k, (c, x) ∈ s.cores ∧ k ∈ x.copies ∧ k.id = id ∧ ∃ e ∈ k.via, e.asid = asid
    let drops := fun (i : Instr) (P : TlbEntry → Prop) => ∃ t, exec i s = .next t ∧ Ends s t h u th ∧
      t = { s with threads := t.threads, tlb := t.tlb, walkc := t.walkc } ∧
      ∀ e, (e ∈ t.tlb ↔ e ∈ s.tlb ∧ ¬P e) ∧ (e ∈ t.walkc ↔ e ∈ s.walkc ∧ ¬P e)
    let reads := fun (i : Instr) (r : Word) => ∃ t, exec i s = .next t ∧ Ends s t h u (writeDst d r th) ∧ t = { s with threads := t.threads }
    let traps := fun (i : Instr) (cause : Nat) => ∀ hp, s.traps u th → s.vectors u 9 hp →
      ∃ t, exec i s = .next t ∧ Trapped s t u th 9 cause 0 0 0 th.pc hp
    (idle → bOk → drops (.tlbInvAll h b) fun e => e.asid = asid) ∧
    (idle → bOk → canonical v = true → drops (.tlbInvPage h a b) fun e => e.asid = asid ∧ e.idx = vaBits v / spanOf e.lvl) ∧
    (idle → bOk → canonical v = true → 1 ≤ len → len ≤ 2 ^ 40 → vaBits v + len ≤ top → drops (.tlbInvRange h l a b) fun e =>
      e.asid = asid ∧ e.idx * spanOf e.lvl < vaBits v + len ∧ vaBits v < (e.idx + 1) * spanOf e.lvl) ∧
    (idle → lvl = 2 → drops (.tlbInvDev h) fun _ => True) ∧
    (bOk → (∀ on, th.wait ≠ .inval on) → (∃ id, through id) →
      ∃ t on, exec (.tlbInvAll h b) s = .next t ∧ tget? t.threads u = some { th with wait := .inval on } ∧ (∀ id, id ∈ on ↔ through id) ∧
        ∀ e, (e ∈ t.tlb ↔ e ∈ s.tlb ∧ e.asid ≠ asid) ∧ (e ∈ t.walkc ↔ e ∈ s.walkc ∧ e.asid ≠ asid)) ∧
    (∀ on, bOk → th.wait = .inval on →
      ((∃ id ∈ on, flying id) → ∃ t on', exec (.tlbInvAll h b) s = .next t ∧ t = { s with threads := t.threads } ∧
        tget? t.threads u = some { th with wait := .inval on' } ∧ ∀ id, id ∈ on' ↔ id ∈ on ∧ flying id) ∧
      ((∀ id ∈ on, ¬flying id) → ∃ t, exec (.tlbInvAll h b) s = .next t ∧ t = { s with threads := t.threads } ∧ Ends s t h u th)) ∧
    (lvl = 0 → traps (.tlbInvAll h b) 1 ∧ traps (.tlbInvPage h a b) 1 ∧ traps (.tlbInvRange h l a b) 1 ∧ traps (.tlbInvDev h) 1 ∧
      traps (.probeRd h d a) 1 ∧ traps (.logApp h d a b) 1) ∧
    (lvl = 1 → traps (.tlbInvDev h) 1) ∧
    (1 ≤ lvl → ((lvl = 2 ∧ bits w 10 54 ≠ 0) → traps (.tlbInvAll h b) 4) ∧ (canonical v = false → traps (.tlbInvPage h a b) 4) ∧
      ((len = 0 ∨ 2 ^ 40 < len ∨ canonical v = false) → traps (.tlbInvRange h l a b) 4) ∧
      (bits v 32 32 ≠ 0 → traps (.logApp h d a b) 4) ∧ (5 ≤ bits v 56 8 → traps (.probeRd h d a) 5)) ∧
    (lvl = 2 →
      (∀ c k n, c < 768 → k < 64 → n < 8 → v = word (c * 2 ^ 40 + 7 * 2 ^ 32 + 8 * k + n) →
        let e : Cocoon := tget {} (s.coreAt c).cocoon k
        reads (.probeRd h d a) (if 5 ≤ n then 0 else if e.st = 0 then 0xFFFFFFFFFFFFFFFF else e.wordAt c k n)) ∧
      (∀ c n, c < 96 → n < 5 → v = word (2 ^ 56 + c * 2 ^ 40 + 2 * 2 ^ 32 + n) →
        let i := (s.cluster c).instar
        reads (.probeRd h d a) ([i.stateWord, i.word, i.payload, i.va, i.vb].getD n 0)) ∧
      (∀ j, j < 256 → v = word (4 * 2 ^ 56 + 2 * 2 ^ 32 + 8 * j + 1) → reads (.probeRd h d a) (s.job j).graph) ∧
      (∀ n, n < 16 → v = word (4 * 2 ^ 56 + 0x20 * 2 ^ 32 + n) → reads (.probeRd h d a) (s.log.words.getD n 0)) ∧
      (∀ c e x, c < 768 → e < 1024 → tget? s.threads (1024 * c + e) = some x → v = word (c * 2 ^ 40 + 1 * 2 ^ 32 + 8 * e) →
        reads (.probeRd h d a) x.pc) ∧
      (∀ c e k n, c < 768 → e < 1024 → k < 4 → n < 8 → v = word (c * 2 ^ 40 + 3 * 2 ^ 32 + 8 * (4 * e + k) + n) →
        reads (.probeRd h d a) (match (tget? s.threads (1024 * c + e)).bind fun x => x.traps[k]? with
          | some f => [f.w0, f.tpc, f.rpc, f.addr].getD n 0
          | none => 0)) ∧
      (∀ c f n, c < 768 → f < 256 → n < 5 → v = word (c * 2 ^ 40 + 6 * 2 ^ 32 + 16 * f + n) → let x := tget {} s.fibres (256 * c + f)
        ∃ r, reads (.probeRd h d a) r ∧ match n with
          | 0 => bit r 0 = x.opened ∧ bit r 1 = x.bad ∧ bit r 2 = x.spad ∧ bits r 4 4 = x.kind % 16 ∧ bits r 32 32 = x.len % 2 ^ 32
          | 1 => r = x.base
          | 2 => bits r 0 32 = x.origin % 2 ^ 32 ∧ bits r 32 32 = x.lim % 2 ^ 32
          | 3 => bits r 0 32 = x.pos % 2 ^ 32 ∧ bits r 32 32 = x.coord % 2 ^ 32
          | _ => bits r 0 32 = x.off % 2 ^ 32 ∧ bits r 32 32 = x.elen % 2 ^ 32) ∧
      (∀ c bk i n, c < 768 → n < 2048 → s.poolSpot c i = some (bk, 1, 0) → i < 64 → granKey bk 1 0 ∉ s.poisonPool →
        v = word (c * 2 ^ 40 + 4 * 2 ^ 32 + 2048 * i + n) → reads (.probeRd h d a) ((s.block bk).spad.word (8 * n))) ∧
      (∀ c g, c < 768 → g < 64 → s.poolSpot c g = none → v = word (c * 2 ^ 40 + 4 * 2 ^ 32 + 2048 * g) →
        ((s.spareAt c g).2 = true → ∃ t, exec (.probeRd h d a) s = .next t ∧ t = { s with threads := t.threads } ∧
          tget? t.threads u = some { th with wait := .poison }) ∧
        ((s.spareAt c g).2 = false →
        ∃ t r, exec (.probeRd h d a) s = .next t ∧ Ends s t h u (writeDst d r th) ∧ t = { s with threads := t.threads, ctr := t.ctr }))) ∧
    (1 ≤ lvl → bits v 32 32 = 0 → u < threadLimit → s.asidOf u < 1024 → s.poison = [] →
      (s.log.full = false → s.log.owed = 0 → ∃ t r, exec (.logApp h d a b) s = .next t ∧
        Ends s t h u (writeDst d (word s.log.tail) th) ∧ t.log.tail = s.log.tail + 1 ∧ t.log.lost = s.log.lost ∧
        tget? t.log.recs (s.log.tail % s.log.lcap) = some r ∧ r.getD 0 0 = word s.log.tail ∧ bits (r.getD 1 0) 56 8 = 5 ∧
        bits (r.getD 1 0) 48 8 = 0 ∧ bits (r.getD 1 0) 32 10 = (if lvl = 2 then 0 else s.asidOf u) ∧ r.getD 2 0 = 0 ∧
        r.getD 3 0 = word (bits v 0 32) ∧ r.getD 5 0 = w ∧ r.getD 7 0 = 0 ∧ r.length = 16 ∧
        t.log.head = sha384 (s.log.head ++ (r.take 8).flatMap fun x => leBytes 8 x.toNat) ∧
        ∀ n, n ≠ s.log.tail % s.log.lcap → tget? t.log.recs n = tget? s.log.recs n) ∧
      (s.log.full = true → ∃ t, exec (.logApp h d a b) s = .next t ∧ Ends s t h u (writeDst d 0 th) ∧
        t = { s with threads := t.threads, log := { s.log with lost := s.log.lost + 1, owed := s.log.owed + 1 } })) ∧
    (bits v 3 61 = 0 → let i := bits v 0 3
      let old := tget {} (s.eng (engOf u)).cnt i
      ((¬(bits w 10 54 = 0 ∧ bits w 6 2 = 0 ∧ srcOk (bits w 0 6) = true) → traps (.cntCfg h a b) 4) ∧
      (bits w 10 54 = 0 → bits w 6 2 = 0 → srcOk (bits w 0 6) = true → ∃ t c, exec (.cntCfg h a b) s = .next t ∧ Ends s t h u th ∧
        t = { s with threads := t.threads, emem := t.emem, ctr := t.ctr } ∧ tget {} (t.eng (engOf u)).cnt i = c ∧
        c.en = bit w 8 ∧ c.src = bits w 0 6 ∧ (bit w 9 = true → c.val = 0) ∧ (bit w 9 = false → old.en = false → c.val = old.val) ∧
        (∀ j, j ≠ i → tget {} (t.eng (engOf u)).cnt j = tget {} (s.eng (engOf u)).cnt j) ∧ ∀ e, e ≠ engOf u → t.eng e = s.eng e) ∧
      (old.en = false → reads (.cntRd h d a) old.val) ∧
      (old.en = true → ∃ t r, exec (.cntRd h d a) s = .next t ∧ Ends s t h u (writeDst d r th) ∧
        tget {} (t.eng (engOf u)).cnt i = { old with val := r }))) ∧
    (bits v 3 61 ≠ 0 → traps (.cntCfg h a b) 4 ∧ traps (.cntRd h d a) 4)

/-- frag.rd, frag.resume and frag.kill, by one live thread (R24, R26, R27, R29, R318, R365, R372, R373, R374): the words read;
a stale identity gives 1 and a resolved one 2, with nothing done; a resumed fragment's lanes are live with RESUMED set, and
their access walks anew; a
killed fragment's lanes exit, its entry is free and the threads held on the core issue again. -/
def Obligations.FragmentInstructions : Prop :=
  ∀ (h : Hdr) (d : Dst) (a b : Src) (s : State) (u : Nat) (th : Thread), s.only u th → th.guardTrue h.guard = true → th.run = .live →
    tsorted s.threads = true →
    let v := readSrc (laneOf u) th a
    let w := readSrc (laneOf u) th b
    let lvl := th.lvl.toNat
    let core := bits v 22 10
    let n := bits v 16 6
    let e : Cocoon := tget {} (s.coreAt core).cocoon n
    let named := e.st ≠ 0 ∧ e.gen = v.extractLsb' 0 16
    let mine := lvl = 2 ∨ (lvl = 1 ∧ s.partOfEng core = s.partOfEng (engOf u))
    let fits := bits v 32 32 = 0 ∧ core ≤ 767
    let parked := fun (x : Nat) (y : Thread) => x < condBase ∧ engOf x = core ∧ y.run = .parked n
    let reads := fun (i : Instr) (r : Word) => ∃ t, exec i s = .next t ∧ Ends s t h u (writeDst d r th) ∧ t = { s with threads := t.threads }
    let traps := fun (i : Instr) (cause : Nat) => ∀ hp, s.traps u th → s.vectors u 9 hp →
      ∃ t, exec i s = .next t ∧ Trapped s t u th 9 cause 0 0 0 th.pc hp
    (mine → fits → w.toNat ≤ 4 → reads (.fragRdEntry h d a b) (if named then e.wordAt core n w.toNat else 0xFFFFFFFFFFFFFFFF)) ∧
    (1 ≤ lvl → bits w 4 60 = 0 → reads (.fragRdFrame h d b) (match th.traps[bits w 2 2]? with
      | some f => (if bits w 0 2 = 0 then f.w0 else if bits w 0 2 = 1 then f.tpc else if bits w 0 2 = 2 then f.rpc else f.addr)
      | none => 0)) ∧
    (mine → fits →
      ((¬named ∨ e.rsn.toNat ≠ bits w 0 32) → reads (.fragResume h d a b) 1 ∧ reads (.fragKill h d a b) 1) ∧
      (named → e.rsn.toNat = bits w 0 32 → e.st = 2 → reads (.fragResume h d a b) 2 ∧ reads (.fragKill h d a b) 2) ∧
      (named → e.rsn.toNat = bits w 0 32 → e.st = 1 →
        (∃ t, exec (.fragResume h d a b) s = .next t ∧ t = { s with threads := t.threads, cores := t.cores } ∧
          tget? t.threads u = some ((writeDst d 0 th).finish h s.cur.next) ∧
          (∀ x y, x ≠ u → tget? s.threads x = some y → (parked x y →
              tget? t.threads x = some { y with run := .live, resumed := true, wait := .none, chain := {}, rewalk := true }) ∧
            (¬parked x y → tget? t.threads x = some y)) ∧
          (∀ k, tget {} (t.coreAt core).cocoon k = if k = n then { e with st := 2 } else tget {} (s.coreAt core).cocoon k) ∧
          ∀ c, c ≠ core → t.coreAt c = s.coreAt c) ∧
        ((∀ x y, tget? s.threads x = some y → parked x y → (s.block y.block).susp = none) →
          ∃ t, exec (.fragKill h d a b) s = .next t ∧ tget? t.threads u = some ((writeDst d 0 th).finish h s.cur.next) ∧
          tget {} (t.coreAt core).cocoon n = { gen := e.gen } ∧
          (∀ x y, tget? s.threads x = some y → parked x y → tget? t.threads x = none ∨
            ∃ y', tget? t.threads x = some y' ∧ y'.run = .exited) ∧
          ∀ x y, tget? s.threads x = some y → engOf x = core → y.run = .held → tget? t.threads x = some { y with run := .live }))) ∧
    (lvl = 0 → traps (.fragRdEntry h d a b) 1 ∧ traps (.fragRdFrame h d b) 1 ∧ traps (.fragResume h d a b) 1 ∧ traps (.fragKill h d a b) 1) ∧
    (lvl = 1 → core ≤ 767 → s.partOfEng core ≠ s.partOfEng (engOf u) →
      traps (.fragRdEntry h d a b) 1 ∧ traps (.fragResume h d a b) 1 ∧ traps (.fragKill h d a b) 1) ∧
    (lvl = 2 → ¬fits → traps (.fragRdEntry h d a b) 4 ∧ traps (.fragResume h d a b) 4 ∧ traps (.fragKill h d a b) 4) ∧
    (mine → fits → 4 < w.toNat → traps (.fragRdEntry h d a b) 4) ∧
    (1 ≤ lvl → bits w 4 60 ≠ 0 → traps (.fragRdFrame h d b) 4)

/-- ctx.halt, by one thread outside the partition it names (R318, R368, R375, R376, R378, R379, R380, R381, R385, R395): .term
raises the halt line with TCAUSE 1; .clear lowers it, frees the engines and sets RUN to 0, and then TERM applies to the
context that ran when the line rose: how TERM and RUN follow each other is the model's reading (log 24). .save and .load first
stop the partition, and give 4 where its line rises meanwhile; .save then writes the image at home, zeroes the event counters
and frees the engines of a partition that is not halted, with the status of each failure; .load puts the image back. The words
of a section that no chapter orders are the model's, and the structures are kept as plain data beside the bytes at home: an
image whose bytes are none that was saved is read from its sections (log 22). -/
def Obligations.ContextHalt : Prop :=
  ∀ (h : Hdr) (d : Dst) (a b : Src) (s : State) (u : Nat) (th : Thread), s.only u th → th.guardTrue h.guard = true →
    tsorted s.threads = true → tsorted s.blocks = true →
    let v := readSrc (laneOf u) th a
    let va := readSrc (laneOf u) th b
    let lvl := th.lvl.toNat
    let p := bits v 0 3
    let q := s.part p
    let outside := s.inPart p (engOf u) = false
    let gets := fun (t : State) (r : Nat) => tget? t.threads u = some ((writeDst d (word r) th).finish h s.cur.next)
    let freed := fun (t : State) => (∀ x, x ≠ u → tget? t.threads x = if s.inPart p (engOf x) then none else tget? s.threads x) ∧
      (∀ e, e ∈ t.blocks ↔ e ∈ s.blocks ∧ s.inPart p e.2.core = false) ∧ ∀ o, o ≠ p → t.part o = s.part o
    let traps := fun (i : Instr) (cause : Nat) => ∀ hp, s.traps u th → s.vectors u 9 hp →
      ∃ t, exec i s = .next t ∧ Trapped s t u th 9 cause 0 0 0 th.pc hp
    let ended := fun (i : Instr) (r : Nat) => ∃ t, exec i s = .next t ∧ gets t r ∧ t.home = s.home ∧ t.part p = { q with saving := none } ∧
      ∀ o, o ≠ p → t.part o = s.part o
    -- the first issue stops the partition; the line's rise since then ends the operation
    let opens := fun (i : Instr) =>
      (q.saving = none → ∃ t, exec i s = .next t ∧ t = { s with threads := t.threads, parts := t.parts } ∧
        tget? t.threads u = some { th with wait := .scoreboard [] } ∧ t.part p = { q with saving := some (u, q.halt.isSome) } ∧
        ∀ o, o ≠ p → t.part o = s.part o) ∧
      (q.saving = some (u, false) → q.halt ≠ none → ended i 4)
    let goes := ∃ x, q.saving = some (u, x) ∧ (q.halt = none ∨ x = true)
    -- a boundary of the domain that is under way comes to its end first
    let waits := fun (i : Instr) => ∃ t, exec i s = .next t ∧ t = { s with threads := t.threads } ∧
      tget? t.threads u = some { th with wait := .scoreboard [] }
    (bits v 3 61 = 0 → (lvl = 2 ∨ (lvl = 1 ∧ s.partOfEng (engOf u) = some p)) → ∃ t, exec (.ctxHaltTerm h a) s = .next t ∧
      Ends s t h u th ∧ t = { s with threads := t.threads, parts := t.parts } ∧ (∀ o, o ≠ p → t.part o = s.part o) ∧
      t.part p = if q.halt = none then
        { q with halt := some 1, haltAt := none, haltAddr := 0, haltJob := none, haltCtx := if q.run then some q.rasid else none } else q) ∧
    (bits v 3 61 = 0 → lvl = 2 → outside →
      ((∀ c, q.haltCtx = some c → bits (s.ctx c).fpol 7 2 = 0) → ∃ t, exec (.ctxHaltClear h a) s = .next t ∧
        tget? t.threads u = some (th.finish h s.cur.next) ∧ freed t ∧ (t.part p).halt = none ∧ (t.part p).run = false ∧
        (t.part p).rasid = 0 ∧ t.home = s.home ∧ t.jobs = s.jobs) ∧
      (∀ c, q.haltCtx = some c → bits (s.ctx c).fpol 7 2 = 1 → ∃ t, exec (.ctxHaltClear h a) s = .next t ∧
        (t.part p).halt = none ∧ (t.part p).run = false ∧ bit (t.ctx c).w0 63 = false) ∧
      (∀ c, q.haltCtx = some c → bits (s.ctx c).fpol 7 2 = 2 → ∃ t, exec (.ctxHaltClear h a) s = .next t ∧
        (t.part p).halt = none ∧ (t.part p).run = true ∧ (t.part p).rasid = c)) ∧
    (bits v 3 61 = 0 → bits va 0 16 = 0 → lvl = 2 →
      (q.run = false → ∃ t, exec (.ctxHaltSave h d a b) s = .next t ∧ gets t 1 ∧ t = { s with threads := t.threads }) ∧
      (q.run = true → ∃ t, exec (.ctxHaltLoad h d a b) s = .next t ∧ gets t 1 ∧ t = { s with threads := t.threads }) ∧
      (q.run = true → opens (.ctxHaltSave h d a b)) ∧ (q.run = false → opens (.ctxHaltLoad h d a b)) ∧
      (outside → q.run = true → goes → (s.partBusy p = true → q.halt = none → waits (.ctxHaltSave h d a b))) ∧
      (outside → q.run = false → goes → s.partBusy p = true → waits (.ctxHaltLoad h d a b)) ∧
      (outside → q.run = true → goes → (s.partBusy p = false ∨ q.halt ≠ none) → (∀ c x, (c, x) ∈ s.cores → x.copies = []) → s.poison = [] →
        let s0 := s.quiesce p
        let bs := imageBytes q.gran q.halt.isSome q.rasid q.phase (s.ctx q.rasid).rsn (s0.sections p)
        (spanCanonical va bs.length = false → ended (.ctxHaltSave h d a b) 3) ∧
        (∀ e s1, spanCanonical va bs.length = true → s0.xlateSpan 0 2 .write va bs.length = (.error e, s1) → e.waits = false →
          ended (.ctxHaltSave h d a b) 3) ∧
        (∀ ds s1, spanCanonical va bs.length = true → s0.xlateSpan 0 2 .write va bs.length = (.ok ds, s1) → ds.all s.isLocal = true →
          ds.Nodup →
          ∃ t i, exec (.ctxHaltSave h d a b) s = .next t ∧ gets t 0 ∧ (q.halt = none → freed t) ∧ (t.part p).run = false ∧
            (t.part p).rasid = 0 ∧ (t.part p).halt = q.halt ∧ (t.part p).saving = none ∧ i ∈ t.images ∧ i.addr = va.toNat ∧
            i.asid = q.rasid ∧ i.live = true ∧ i.halted = q.halt.isSome ∧ i.gran = q.gran ∧ i.bytes = bs ∧
            i.blocks = s.blocks.filter (fun e => s.inPart p e.2.core) ∧
            (∀ e, s.inPart p e = true → (t.eng e).cnt = []) ∧
            (∀ x, tget? i.threads x = if s.inPart p (engOf x) then (tget? s.threads x).map (s.stopThread x) else none) ∧
            ds.map t.homeByte = bs ∧
            let hw := fun (k : Nat) => word (leNat ((bs.drop (8 * k)).take 8))
            bits (hw 0) 0 16 = 0xA96C ∧ bits (hw 0) 16 10 = q.rasid % 1024 ∧ bits (hw 0) 26 6 = 0 ∧
            bit (hw 0) 32 = q.halt.isSome ∧ bits (hw 0) 33 7 = 0 ∧ bits (hw 0) 40 8 = q.gran.toNat ∧ bits (hw 0) 48 16 = 0 ∧
            hw 1 = word bs.length ∧ hw 2 = q.phase ∧ hw 3 = (s.ctx q.rasid).rsn.setWidth 64 ∧ hw 4 = word (s0.sections p).length ∧
            hw 5 = 0 ∧ hw 6 = 0 ∧ hw 7 = 0)) ∧
      (outside → q.run = false → goes → s.partBusy p = false →
        (∀ s1, s.readImage va 64 = (.error false, s1) → ended (.ctxHaltLoad h d a b) 3) ∧
        (∀ hd s1, s.readImage va 64 = (.ok hd, s1) → leNat (hd.take 2) ≠ 0xA96C →
          ∃ t, exec (.ctxHaltLoad h d a b) s = .next t ∧ gets t 2 ∧ t.home = s.home ∧ t.part p = { q with saving := none }) ∧
        (∀ i secs s1, s.findImage va = (.edited i secs, s1) →
          ((i.halted = true ∨ i.poisoned = true ∨ i.gran ≠ q.gran ∨ (s.ctx i.asid).valid = false) →
            ∃ t, exec (.ctxHaltLoad h d a b) s = .next t ∧ gets t 2 ∧ t.part p = { q with saving := none }) ∧
          (i.halted = false → i.poisoned = false → i.gran = q.gran → (s.ctx i.asid).valid = true → tget? i.threads u = none →
            ∃ t, exec (.ctxHaltLoad h d a b) s = .next t ∧ gets t 0 ∧ (t.part p).run = true ∧ (t.part p).rasid = i.asid ∧
              (t.part p).saving = none ∧ (t.ctx i.asid).rsn = i.rsn ∧ ∀ o, o ≠ p → t.part o = s.part o)) ∧
        (∀ i s1, s.findImage va = (.image i, s1) → i ∈ s.images ∧
          ((i.halted = true ∨ i.poisoned = true ∨ i.gran ≠ q.gran ∨ (s.ctx i.asid).valid = false) →
            ∃ t, exec (.ctxHaltLoad h d a b) s = .next t ∧ gets t 2 ∧ t.part p = { q with saving := none }) ∧
          (i.halted = false → i.poisoned = false → i.gran = q.gran → (s.ctx i.asid).valid = true → tget? i.threads u = none →
            tsorted i.threads = true → tsorted i.blocks = true →
              ∃ t, exec (.ctxHaltLoad h d a b) s = .next t ∧ gets t 0 ∧ (t.part p).run = true ∧ (t.part p).rasid = i.asid ∧
                (t.part p).saving = none ∧ (t.ctx i.asid).rsn = i.rsn ∧ (∀ o, o ≠ p → t.part o = s.part o) ∧
                (∀ x, x ≠ u → tget? t.threads x = (tget? i.threads x).or (if s.inPart p (engOf x) then none else tget? s.threads x)) ∧
                ∀ k, tget? t.blocks k = (tget? i.blocks k).or ((tget? s.blocks k).filter fun x => !s.inPart p x.core))))) ∧
    (lvl = 0 → traps (.ctxHaltTerm h a) 1) ∧ (lvl = 1 → s.partOfEng (engOf u) ≠ some p → traps (.ctxHaltTerm h a) 1) ∧
    (lvl < 2 → traps (.ctxHaltClear h a) 1 ∧ traps (.ctxHaltSave h d a b) 1 ∧ traps (.ctxHaltLoad h d a b) 1) ∧
    (lvl = 2 → (bits v 3 61 ≠ 0 → traps (.ctxHaltTerm h a) 4 ∧ traps (.ctxHaltClear h a) 4) ∧
      ((bits v 3 61 ≠ 0 ∨ bits va 0 16 ≠ 0) → traps (.ctxHaltSave h d a b) 4 ∧ traps (.ctxHaltLoad h d a b) 4))

/-- cancel and phase.close, by one live lane thread, while nothing is replayed (R34, R35, R224, R338, R339, R340, R341): d is 1 for
a unit that has completed, 2 for one cancelled before, and else 0, and the unit is cancelled, while the boundary does not run;
what that leaves of each unit; and the traps. A thread whose own block ends is gone, and a block whose copies are in flight keeps
its place until they have retired. A launch has completed once its counter is final, its ordered adds applied or not (log 60);
the final counter of a cancelled edge-fed launch is log 19, JOBEND log 30; that a level 2 operand's bits [63:58] and [47:32] must
be zero and that cancel.phase of a job in no phase answers 1 is the model's reading (log 32). -/
def Obligations.CancelAndClose : Prop :=
  ∀ (h : Hdr) (d : Dst) (a b : Src) (s : State) (u : Nat) (th : Thread), s.only u th → th.guardTrue h.guard = true →
    kindOf u = .lane → th.run = .live → s.replayed = none → tsorted s.threads = true → tsorted s.blocks = true →
    let v := readSrc (laneOf u) th a
    let lvl := th.lvl.toNat
    let asid := if lvl = 2 then bits v 48 10 else s.asidOf u
    let fits := if lvl = 2 then bits v 58 6 = 0 ∧ bits v 32 16 = 0 else bits v 32 32 = 0
    let id := bits v 0 32
    let k := gkey asid id
    let n := bits v 0 8
    let x := s.block th.block
    let own := (s.launch (gkey x.asid x.lid)).job
    let kcan := (s.job own).kcancel = true
    let tells := fun (i : Instr) (r : Nat) => ∃ t, exec i s = .next t ∧ Ends s t h u (writeDst d (word r) th) ∧ t = { s with threads := t.threads }
    let cancels := fun (i : Instr) (P : State → Prop) => ∃ t, exec i s = .next t ∧ P t ∧
      (tget? t.threads u = none ∨ tget? t.threads u = some ((writeDst d 0 th).finish h s.cur.next))
    let traps := fun (i : Instr) (cause : Nat) => ∀ hp, s.traps u th → s.vectors u 9 hp →
      ∃ t, exec i s = .next t ∧ Trapped s t u th 9 cause 0 0 0 th.pc hp
    let waits := fun (i : Instr) => ∃ t, exec i s = .next t ∧ t = { s with threads := t.threads } ∧
      tget? t.threads u = some { th with wait := .edge }
    let idle := s.ctxBusy asid = false
    let isOf := fun (z : Block) (lid : Nat) => z.asid = asid ∧ z.lid = lid ∧ z.leaving = false
    let dead := fun (t : State) (lid : Nat) => ∀ l, tget? s.launches (gkey asid lid) = some l →
      if 2 ≤ l.st ∨ s.launchOver asid l = true then tget? t.launches (gkey asid lid) = some l
      else ∃ ls, tget? t.launches (gkey asid lid) = some { l with
          st := 3, pending := [], queue := [], uncounted := [], count := l.final, cancelledBlocks := l.cancelledBlocks ++ ls } ∧
        ∀ x, ((∃ e, (x, e) ∈ l.pending) ∨ ∃ y z, (y, z) ∈ s.blocks ∧ isOf z lid ∧ z.blk = x) → x ∈ ls
    let graphDead := fun (t : State) (gid : Nat) => ∀ g, tget? s.graphs (gkey asid gid) = some g → g.st = 1 → s.graphOver asid g = false →
      tget? t.graphs (gkey asid gid) = some { g with st := 3, count := g.nodes.length } ∧ ∀ lid ∈ g.nodes, dead t lid
    -- no launch of a job's graph that a cancel reaches has its ordered adds still to apply
    let settled := fun (gid : Nat) => ∀ g, tget? s.graphs (gkey asid gid) = some g → ∀ lid ∈ g.nodes,
      2 ≤ (s.launch (gkey asid lid)).st ∨ (g.st = 1 ∧ s.graphOver asid g = false ∧ s.launchOver asid (s.launch (gkey asid lid)) = false)
    (∀ l, fits → tget? s.launches k = some l → (1 ≤ lvl ∨ (kcan ∧ l.job = own)) →
      ((l.st = 2 ∨ (l.st < 2 ∧ s.launchOver asid l = true)) → tells (.cancelLaunch h d a) 1) ∧
      ((l.st = 3 ∨ l.st = 4) → tells (.cancelLaunch h d a) 2) ∧
      (l.st < 2 → s.launchOver asid l = false → (¬idle → waits (.cancelLaunch h d a)) ∧ (idle → cancels (.cancelLaunch h d a) fun t => dead t id ∧ (∀ y z, (y, z) ∈ t.blocks → ¬isOf z id) ∧
        (∀ y w z, (y, w) ∈ t.threads → y < condBase → tget? s.blocks w.block = some z → ¬isOf z id) ∧
        (¬isOf x id → tget? t.threads u = some ((writeDst d 0 th).finish h s.cur.next))))) ∧
    (∀ l, let blk := bits (readSrc (laneOf u) th b) 0 32
      let live := (∃ e, (blk, e) ∈ l.pending) ∨ (∃ y z, (y, z) ∈ s.blocks ∧ isOf z id ∧ z.blk = blk) ∨
        ∃ z ∈ s.savedBlocks asid, z.lid = id ∧ z.blk = blk
      fits → bits (readSrc (laneOf u) th b) 32 32 = 0 → tget? s.launches k = some l →
      (1 ≤ lvl ∨ ((kcan ∨ (id = x.lid ∧ blk = x.blk)) ∧ l.job = own)) →
      (¬(live ∧ l.st < 3) → (blk ∈ l.cancelledBlocks ∨ (blk ∉ l.doneBlocks ∧ blk < l.nblock ∧ 3 ≤ l.st)) → tells (.cancelBlock h d a b) 2) ∧
      (¬(live ∧ l.st < 3) → blk ∉ l.cancelledBlocks → blk ∈ l.doneBlocks → tells (.cancelBlock h d a b) 1) ∧
      (live → l.st < 3 → (¬idle → waits (.cancelBlock h d a b)) ∧ (idle → cancels (.cancelBlock h d a b) fun t => ∃ l',
        tget? t.launches k = some l' ∧ blk ∈ l'.cancelledBlocks ∧ blk ∈ l'.doneBlocks ∧ l'.st = l.st)) ∧
      (1 ≤ lvl → ¬(live ∧ l.st < 3) → blk ∉ l.cancelledBlocks → blk ∉ l.doneBlocks → l.nblock ≤ blk → traps (.cancelBlock h d a b) 7)) ∧
    (∀ g, fits → tget? s.graphs k = some g → (1 ≤ lvl ∨ (kcan ∧ g.job = own)) →
      ((g.st = 2 ∨ (g.st = 1 ∧ s.graphOver asid g = true)) → tells (.cancelGraph h d a) 1) ∧ (g.st = 3 → tells (.cancelGraph h d a) 2) ∧
      (g.st = 1 → s.graphOver asid g = false → (¬idle → waits (.cancelGraph h d a)) ∧
        (idle → cancels (.cancelGraph h d a) fun t => graphDead t id))) ∧
    (∀ j, fits → bits v 8 24 = 0 → tget? s.jobs n = some j → j.state ≠ 0 → j.asid = asid → (1 ≤ lvl ∨ (kcan ∧ n = own)) →
      (j.phaseCancelled = true → tells (.cancelPhase h d a) 2) ∧
      (j.phaseCancelled = false → j.took = false → tells (.cancelPhase h d a) 1) ∧
      (¬idle → (j.phaseCancelled = false → j.took = true → waits (.cancelPhase h d a)) ∧ (j.state < 4 → waits (.cancelJob h d a))) ∧
      (j.phaseCancelled = false → j.took = true → idle → cancels (.cancelPhase h d a) fun t => graphDead t j.gcur ∧
        t.job n = { j with closed := true, phaseCancelled := true } ∧ (∀ e ∈ t.subs, e.1 / 64 ∉ s.seqsOf n) ∧
        (∀ f ∈ t.forks, f.parent ∉ s.seqsOf n) ∧ (∀ e ∈ t.cfgs, e.1 ∉ s.seqsOf n) ∧ (∀ e ∈ t.sts, e.1 ∉ s.seqsOf n) ∧
        ∀ e ∈ t.prios, e.1 ∉ s.seqsOf n) ∧
      (j.state = 4 → tells (.cancelJob h d a) 1) ∧ (j.state = 5 → tells (.cancelJob h d a) 2) ∧
      (j.state < 4 → idle → settled j.gcur → cancels (.cancelJob h d a) fun t => graphDead t j.gcur ∧ ∃ ws,
        t.job n = { j with closed := true, phaseCancelled := true, state := 5, owesEnd := false
                           out := j.out ++ bytesOf (word n :: 5 :: ws) } ∧
        (s.boot.stage = .ready → t.egress = .jobend j.conn s.imagoReq j.asid n 5 ws :: s.egress)) ∧
      (j.state < 4 → idle → ¬settled j.gcur → cancels (.cancelJob h d a) fun t => graphDead t j.gcur ∧ t.egress = s.egress ∧
        t.job n = { j with closed := true, phaseCancelled := true, state := 5, owesEnd := true })) ∧
    (∀ j, fits → bits v 8 24 = 0 → tget? s.jobs n = some j → j.state ≠ 0 → j.asid = asid → (1 ≤ lvl ∨ ((s.job own).kclose = true ∧ n = own)) →
      (j.state = 2 → ¬idle → waits (.phaseClose h a)) ∧
      (j.state = 2 → idle → ∃ t, exec (.phaseClose h a) s = .next t ∧ Ends s t h u th ∧ t = { s with threads := t.threads, jobs := t.jobs } ∧
        t.job n = { j with closed := true } ∧ ∀ m, m ≠ n → t.job m = s.job m) ∧
      (j.state ≠ 2 → traps (.phaseClose h a) 8)) ∧
    (lvl = 0 → (s.job own).kcancel = false → traps (.cancelLaunch h d a) 1 ∧ traps (.cancelGraph h d a) 1 ∧ traps (.cancelPhase h d a) 1 ∧
      traps (.cancelJob h d a) 1 ∧ (id ≠ x.lid → traps (.cancelBlock h d a b) 1)) ∧
    (lvl = 0 → (s.job own).kclose = false → traps (.phaseClose h a) 1) ∧
    (1 ≤ lvl → ¬fits → traps (.cancelBlock h d a b) 4 ∧ traps (.cancelLaunch h d a) 4 ∧ traps (.cancelGraph h d a) 4 ∧
      traps (.cancelPhase h d a) 4 ∧ traps (.cancelJob h d a) 4 ∧ traps (.phaseClose h a) 4) ∧
    (1 ≤ lvl → fits → (tget? s.launches k = none → traps (.cancelLaunch h d a) 7) ∧ (tget? s.graphs k = none → traps (.cancelGraph h d a) 7) ∧
      (bits v 8 24 = 0 → (s.job n).state = 0 → traps (.cancelPhase h d a) 7 ∧ traps (.cancelJob h d a) 7 ∧ traps (.phaseClose h a) 7) ∧
      (bits v 8 24 ≠ 0 → traps (.cancelPhase h d a) 4 ∧ traps (.cancelJob h d a) 4 ∧ traps (.phaseClose h a) 4))

/-! ### The matrix array -/

/-- The matrix class, by one conductor thread (R253-R263, R265-R268, R272): a macro-op whose fields pass enters an idle Instar
with its steps and operand values, and its set flag stays up; it waits while Instar runs; what each of causes 0x01 to 0x05
and 0x07 catches; the decompression engine's configuration and state word; step.rd, step.go and oc.inv. -/
def Obligations.MatrixInstructions : Prop :=
  ∀ (h : Hdr) (d : Dst) (r a b : Src) (p : Word) (g : BitVec 2) (acc toS : Bool) (rm : Rm) (s : State) (u : Nat) (th : Thread) (bl : Block),
    s.only u th → th.guardTrue h.guard = true → kindOf u = .cond → tget? s.blocks th.block = some bl →
    let cl := clusterOf (engOf u)
    let c := s.cluster cl
    let ins := c.instar
    let va := readSrc (laneOf u) th a
    let vb := readSrc (laneOf u) th b
    let vd := readSrc (laneOf u) th r
    let hd := bits va 0 16
    let k := (macros vb).length
    let tile := fun (n : Nat) => hd / 2 ^ 13 = bl.core % 8 ∧ hd % 2 ^ 13 * 128 + n ≤ bl.spadBytes
    let traps := fun (i : Instr) (cause : Nat) => ∀ hp, s.traps u th → s.vectors u 6 hp →
      ∃ t, exec i s = .next t ∧ Trapped s t u th 6 cause 0 0 0 th.pc hp
    let takes := fun (i : Instr) (x : Instar) =>
      (ins.st = 0 → ∃ t, exec i s = .next t ∧ t = { s with threads := t.threads, clusters := t.clusters } ∧
        tget? t.threads u = some ((th.issueOpen h.set).adv s.cur.next) ∧ (∀ v, v ≠ u → tget? t.threads v = tget? s.threads v) ∧
        t.cluster cl = { c with instar := { x with st := 1, word := (encode i).headD 0, flag := setFlag h.set } } ∧
        ∀ o, o ≠ cl → t.cluster o = s.cluster o) ∧
      (ins.st = 1 → ∃ t, exec i s = .next t ∧ tget? t.threads u = some { th with wait := .instar } ∧ t.clusters = s.clusters) ∧
      (ins.st = 2 → traps i 7)
    let fails := fun (i : Instr) (cause : Nat) => ins.st ≠ 1 → traps i cause
    let sets := fun (i : Instr) (x : Cluster) => ∃ t, exec i s = .next t ∧ Ends s t h u th ∧
      t = { s with threads := t.threads, clusters := t.clusters } ∧ t.cluster cl = x ∧ ∀ o, o ≠ cl → t.cluster o = s.cluster o
    let reads := fun (i : Instr) (w : Word) => ∃ t, exec i s = .next t ∧ Ends s t h u (writeDst d w th) ∧ t = { s with threads := t.threads }
    -- cim.ldb
    (let nt := bits p 6 6 + 1
      let n := nt * (bits p 16 6 + 1) * if bit p 22 then 32 else 64
      let fits := bits p 23 41 = 0 ∧ bits va 16 48 = 0 ∧ bits p 0 6 + nt ≤ 64
      (¬fits → fails (.cimLdb h a p) 1) ∧ (fits → ¬tile n → fails (.cimLdb h a p) 2) ∧
      (fits → tile n → takes (.cimLdb h a p) { op := 1, total := nt, payload := p, va := va })) ∧
    -- cim.run
    (let m := bits p 16 6 + 1
      let f4 := bit p 26
      let fits := bits p 28 36 = 0 ∧ bits va 16 48 = 0 ∧ vb ≠ 0
      let room := bits p 0 16 * 16 + m * (64 * k) * 32 ≤ bl.accBytes
      let n := m * if f4 then 32 else 64
      (¬fits → fails (.cimRun h a b p) 1) ∧ (fits → ¬tile n → fails (.cimRun h a b p) 2) ∧
      (fits → tile n → ¬room → fails (.cimRun h a b p) 3) ∧
      (fits → tile n → room → takes (.cimRun h a b p)
        { op := 2, total := m * ((if f4 then 2 else 6) + 1), payload := p, va := va, vb := vb })) ∧
    -- cim.mv
    (let n := bits p 16 12 + 1
      let fits := bits p 36 28 = 0 ∧ vb ≠ 0
      let room := bits p 0 16 * 16 + n * (bits p 32 3 + 1) * k * 32 ≤ bl.accBytes
      let stream := (c.de.st = 1 ∨ c.de.st = 3) ∧ c.de.toReg = false
      (¬fits → fails (.cimMv h b p) 1) ∧ (fits → ¬room → fails (.cimMv h b p) 3) ∧
      (fits → room → (c.de.st = 0 ∨ c.de.st = 2 ∨ c.de.toReg = true) → fails (.cimMv h b p) 5) ∧
      (fits → room → stream → takes (.cimMv h b p) { op := 3, total := n * ((if c.de.bfp4 then 2 else 6) + 1), payload := p, vb := vb })) ∧
    -- acc.fold
    (let gg := 2 ^ g.toNat
      let n := bits va 40 16 + 1
      let pa := bits va 0 20
      let oa := bits va 20 20
      let fits := bits va 56 8 = 0 ∧ bits vb 20 44 = 0
      let inside := pa % 16 = 0 ∧ oa % 4 = 0 ∧ vb.toNat % 4 = 0 ∧ pa + 16 * n * gg ≤ bl.accBytes ∧ oa + 4 * n ≤ bl.accBytes ∧
        vb.toNat + 4 * n * gg ≤ bl.spadBytes
      let apart := oa + 4 * n ≤ pa ∨ pa + 16 * n * gg ≤ oa
      (¬fits → fails (.accFold h g acc rm a b) 1) ∧ (fits → ¬inside → fails (.accFold h g acc rm a b) 3) ∧
      (fits → inside → ¬apart → fails (.accFold h g acc rm a b) 4) ∧
      (fits → inside → apart → takes (.accFold h g acc rm a b) { op := 4, total := n, va := va, vb := vb })) ∧
    -- acc.zero and acc.cpy
    (let n := vb.toNat
      let fits := 16 ≤ n ∧ n ≤ 2 ^ 20 ∧ n % 16 = 0
      let src := va.toNat % 16 = 0 ∧ va.toNat + n ≤ bl.accBytes
      let dst := vd.toNat % 16 = 0 ∧ vd.toNat + n ≤ if toS then bl.spadBytes else bl.accBytes
      let apart := toS = true ∨ va.toNat + n ≤ vd.toNat ∨ vd.toNat + n ≤ va.toNat
      let total := (n + 4095) / 4096
      (¬fits → fails (.accZero h a b) 1 ∧ fails (.accCpy h toS r a b) 1) ∧
      (fits → ¬src → fails (.accZero h a b) 3) ∧ (fits → ¬(src ∧ dst) → fails (.accCpy h toS r a b) 3) ∧
      (fits → src → takes (.accZero h a b) { op := 5, total, va := va, vb := vb }) ∧
      (fits → src → dst → ¬apart → fails (.accCpy h toS r a b) 4) ∧
      (fits → src → dst → apart → takes (.accCpy h toS r a b) { op := 6, total, va := va, vb := vb, vd := vd })) ∧
    -- dcp.cfg and dcp.stat
    (let w := fun (i : Nat) => word (leNat (bl.spad.readN (va.toNat + 8 * i) 8))
      let reg := bit (w 2) 33
      let limits := bits (w 0) 0 6 = 0 ∧ bits (w 1) 32 32 = 0 ∧ bits (w 1) 16 16 ≠ 0 ∧ bits (w 1) 0 16 ≠ 0 ∧ bits (w 2) 34 30 = 0 ∧
        bits (w 2) 20 12 = 0 ∧ bits (w 3) 53 11 = 0 ∧ (reg = true → bits (w 2) 0 6 = 0 ∧ 64 ≤ bits (w 3) 32 21 ∧
          bits (w 3) 32 21 ≤ 2 ^ 20 ∧ bits (w 2) 0 20 + bits (w 3) 32 21 ≤ bl.spadBytes)
      (c.de.st = 1 → ∃ t, exec (.dcpCfgStream h a) s = .next t ∧ tget? t.threads u = some { th with wait := .instar } ∧
        t.clusters = s.clusters) ∧
      (∀ hp, c.de.st ≠ 1 → bl.spadBytes < va.toNat + 32 → s.traps u th → s.vectors u 5 hp →
        ∃ t, exec (.dcpCfgStream h a) s = .next t ∧ Trapped s t u th 5 4 0 0 va th.pc hp) ∧
      (c.de.st ≠ 1 → va.toNat + 32 ≤ bl.spadBytes → s.notReady u .s false (addrsOf va.toNat 32) = none →
        (¬limits → traps (.dcpCfgStream h a) 5) ∧ (limits → ins.st = 2 → traps (.dcpCfgStream h a) 7) ∧
        (limits → ins.st ≠ 2 → ∃ t x acq, exec (.dcpCfgStream h a) s = .next t ∧ Ends s t h u { th with acq := acq } ∧
          t = { s with threads := t.threads, clusters := t.clusters } ∧ t.cluster cl = { c with de := x, instar := { ins with
            own := decide (ins.op = 3 ∧ ins.st = 1 ∧ ins.step % (ins.planes + 1) ≠ 0) } } ∧
          (∀ o, o ≠ cl → t.cluster o = s.cluster o) ∧ x =
            { tabs := c.de.tabs, st := 1, owner := some th.block, sbase := w 0, nblk := bits (w 1) 16 16, bstride := bits (w 1) 0 16,
              toReg := reg, bfp4 := bit (w 2) 32, rbase := bits (w 2) 0 20, rsize := bits (w 3) 32 21,
              tmo := if reg then bits (w 3) 0 32 else 0 }))) ∧
    (bits vb 4 60 ≠ 0 → traps (.dcpCfgTable h a b) 1) ∧ (bits vb 4 60 = 0 → c.de.st = 1 → traps (.dcpCfgTable h a b) 5) ∧
    (∀ l s1, bits vb 4 60 = 0 → c.de.st ≠ 1 → spanCanonical va 16 = true → s.poison = [] →
      s.xlateSpan (s.asidOf u) th.lvl.toNat .read va 16 = (.ok l, s1) →
      let img := (s1.loadBytes u l).1
      let lens := img.map (·.toNat)
      let here := lens.filter (· ≠ 0)
      (∀ x ∈ lens, x ≤ 8) → (((here.map fun x => ((1 : ℚ) / 2) ^ x).sum = 1) ∨ here = [1]) →
      ∃ t, exec (.dcpCfgTable h a b) s = .next t ∧ tget? (t.cluster cl).de.tabs (bits vb 0 4) = some img ∧
        (∀ o, o ≠ bits vb 0 4 → tget? (t.cluster cl).de.tabs o = tget? c.de.tabs o) ∧ (t.cluster cl).de.st = c.de.st) ∧
    (va.toNat % 64 ≠ 0 → traps (.dcpCfgRedir h a) 1) ∧ (va.toNat % 64 = 0 → c.de.st ≠ 2 → traps (.dcpCfgRedir h a) 5) ∧
    (va.toNat % 64 = 0 → c.de.st = 2 → sets (.dcpCfgRedir h a) { c with de := { c.de with redir := some (c.de.blk, va) } }) ∧
    (c.de.st < 4 → c.de.cause < 256 → ∃ w, reads (.dcpStat h d) w ∧ bits w 62 2 = c.de.st ∧ bits w 56 6 = 0 ∧ bits w 48 8 = c.de.cause ∧
      bits w 32 16 = c.de.blk % 65536 ∧ bits w 0 32 = c.de.landed % 2 ^ 32) ∧
    -- oc.inv, step.rd and step.go
    sets (.ocInvAll h) { c with oc := [] } ∧
    (bits va 16 48 ≠ 0 → traps (.ocInvH h a) 1) ∧
    (bits va 16 48 = 0 → sets (.ocInvH h a) { c with oc := c.oc.filter fun e => e.1 / 2 ^ 32 != va.toNat }) ∧
    (ins.st < 4 → ins.op < 8 → ∃ w, reads (.stepRd h d) w ∧ bits w 62 2 = ins.st ∧ bits w 59 3 = ins.op ∧ bits w 56 3 = 0 ∧
      bits w 28 28 = ins.total % 2 ^ 28 ∧ bits w 0 28 = ins.step % 2 ^ 28) ∧
    sets (.stepGoResume h) { c with
      de := if c.de.st = 2 then { c.de with st := 1, cause := 0, trap := false, held := false } else c.de
      instar := if ins.st = 2 then { ins with st := 1, held := false } else ins } ∧
    (ins.st ≠ 2 → sets (.stepGoAbandon h) c) ∧
    (ins.st = 2 → ∃ t, exec (.stepGoAbandon h) s = .next t ∧ (t.cluster cl).instar.st = 0 ∧ (t.cluster cl).instar.flag = none ∧
      t.blocks = s.blocks ∧ (∀ f, ins.flag = some f → u = condBase + cl → ∃ th', tget? t.threads u = some th' ∧ f ∈ th'.out))

/-- The steps of Instar, the decompression engine and their traps (R249, R251, R252, R254, R255, R259-R262, R264-R266, R268,
R269, R215), each where its engine runs and nothing holds it back: a load step's bank; what a plane step adds to the exact
sums; the plane sets that a drain writes; the value of a fold step; the bytes of acc.zero and acc.cpy; a block decoded and
delivered, and one that fails; the matrix trap; and the fragment of lanes whose wait in ldl has run out. -/
def Obligations.MatrixSteps : Prop :=
  (∀ (s : State) (cl bk : Nat) (bl : Block), (s.cluster cl).bound = some bk → tget? s.blocks bk = some bl →
    s.engRuns (768 + cl) = true → s.poisonPool = [] → s.poisonBank = [] → (∀ e x, (e, x) ∈ s.cores → x.copies = []) →
    let c := s.cluster cl
    let i := c.instar
    i.st = 1 →
    let rows := if i.op = 2 then bits i.payload 16 6 + 1 else bits i.payload 16 12 + 1
    let planes := i.total / rows - 1
    let m := i.step / (planes + 1)
    let ph := i.step % (planes + 1)
    let cols := if i.op = 2 then 64 else bits i.payload 32 3 + 1
    let bank := if i.op = 2 then bits i.payload 22 4 else bits i.payload 28 4
    let k := (macros i.vb).length
    let row1 := if planes = 2 then 32 else 64
    let rowLen := if i.op = 2 then row1 else row1 * k
    let hd := bits i.va 0 16 % 2 ^ 13 * 128
    -- element e of a row or column: sign, selector, magnitude
    let el := fun (b4 : Bool) (bs : Nat → Byte) (e : Nat) =>
      if b4 then let x := (bs (e / 2)).toNat / 16 ^ (e % 2) % 16; (x / 8, x / 4 % 2, x % 4)
      else let x := (bs e).toNat; (x / 128, x / 64 % 2, x % 64)
    let row := fun (j : Nat) => if ph ≠ 0 ∨ i.own = true then i.row.getD j 0 else if i.op = 2 then bl.spad.read (hd + m * rowLen + j) else c.de.buf.getD j 0
    let at_ := fun (r n hf : Nat) => bits i.payload 0 16 * 16 + if i.op = 2 then ((m * (64 * k) + 64 * r + n) * 2 + hf) * 16
      else ((m * cols + n) * (2 * k) + 2 * r + hf) * 16
    let sum := fun (t : Tab Int) (r n hf x : Nat) => tget 0 t (((r * 64 + n) * 2 + hf) * 4 + x)
    let next := fun (t : State) => (t.cluster cl).instar.step = i.step + 1 ∧
      (t.cluster cl).instar.st = if i.step + 1 < i.total then 1 else 0
    (i.op = 1 → c.oc = [] → ∃ t, exec (.loadStep cl) s = .next t ∧ next t ∧ t.blocks = s.blocks ∧
      let ncol := bits i.payload 16 6 + 1
      let cb := if bit i.payload 22 then 32 else 64
      let x := tget ({} : Bank) (t.cluster cl).banks (16 * (bits i.payload 0 6 + i.step) + bits i.payload 12 4)
      x.bfp4 = bit i.payload 22 ∧ ∀ n j, n < 64 → j < cb → x.data.read (64 * n + j) =
        if n < ncol then bl.spad.read (hd + i.step * ncol * cb + n * cb + j) else 0) ∧
    ((i.op = 2 ∨ i.op = 3) → (planes = 2 ∨ planes = 6) → i.step + 1 < i.total → ph ≠ planes → c.oc = [] →
      (i.op = 3 → ph = 0 → rowLen ≤ c.de.buf.length) → ∃ t, exec (.planeStep cl) s = .next t ∧ next t ∧ t.blocks = s.blocks ∧
      let q := planes - 1 - ph
      ∀ r n hf x, r < k → n < cols → hf < 2 → x < 4 → sum (t.cluster cl).instar.sums r n hf x = sum i.sums r n hf x +
        ∑ e ∈ Finset.range 32,
          let y := 32 * hf + e
          let a := el (planes == 2) (fun j => row (if i.op = 2 then j else r * row1 + j)) y
          let bkt := c.bankOf ((macros i.vb).getD r 0) bank
          let b := el bkt.bfp4 (fun j => bkt.data.read (64 * n + j)) y
          if a.2.2.testBit q = true ∧ a.2.1 = x / 2 ∧ b.2.1 = x % 2 then (-1 : Int) ^ (a.1 + b.1) * b.2.2 * 2 ^ q else 0) ∧
    ((i.op = 2 ∨ i.op = 3) → ph = planes → k ≤ 64 → ∃ t bl', exec (.drainStep cl) s = .next t ∧ next t ∧
      tget? t.blocks bk = some bl' ∧ bl' = { bl with acc := bl'.acc } ∧ (t.cluster cl).instar.sums = [] ∧
      (∀ r n hf x, r < k → n < cols → hf < 2 → x < 4 → bl'.acc.i32 (at_ r n hf + 4 * x) = Int.bmod
        ((if (if i.op = 2 then bit i.payload 27 else bit i.payload 35) then bl.acc.i32 (at_ r n hf + 4 * x) else 0) + sum i.sums r n hf x) (2 ^ 32)) ∧
      (∀ a, (∀ r n hf x, r < k → n < cols → hf < 2 → x < 16 → a ≠ at_ r n hf + x) → bl'.acc.read a = bl.acc.read a) ∧
      (i.op = 3 → (t.cluster cl).de = if i.own = true then c.de else { c.de with buf := c.de.buf.drop rowLen, pos := c.de.pos + rowLen }) ∧
      (t.cluster cl).instar.own = false) ∧
    (i.op = 4 → ∃ t bl' r, exec (.foldStep cl) s = .next t ∧ next t ∧ tget? t.blocks bk = some bl' ∧
      let g := 2 ^ bits i.word 28 2
      let o := bits i.va 20 20 + 4 * i.step
      let fl := bl.flush
      let rm := rmOf (i.word.extractLsb' 25 2)
      let plane := fun (x : Nat) => bl.acc.i32 (bits i.va 0 20 + 16 * g * i.step + 4 * x)
      let sc := fun (j y : Nat) => ((bl.spad.read (i.vb.toNat + 4 * (g * i.step + j) + y)).toNat : Int)
      bl'.acc = bl.acc.writeN o (leBytes 4 r) ∧ bl'.spad = bl.spad ∧
      match if bit i.word 27 then (fmtF32.fin fl (leNat (bl.acc.readN o 4))).1 else fmtF32.decode 0 with
      | .nan _ => r = fmtF32.nan
      | .inf n => r = fmtF32.signed n fmtF32.infMag
      | .num n m e => ∃ c : Nat → Nat, fmtF32.decode (c 0) = .num n m e ∧ r = c (4 * g) ∧ ∀ y, y < 4 * g →
          let ex := sc (y / 4) (y % 4 / 2) + sc (y / 4) (2 + y % 2) - 254
          if plane y = 0 then c (y + 1) = c y
          else match fmtF32.decode (c y) with
            | .num n' m' e' => fmtF32.delivers fl rm
                (exactAdd rm (.num n' m' e') (.num (decide (plane y < 0)) (plane y).natAbs ex)) (c (y + 1))
            | _ => c (y + 1) = c y) ∧
    ((i.op = 5 ∨ i.op = 6) → ∃ t bl', exec (.accUnitStep cl) s = .next t ∧ next t ∧ tget? t.blocks bk = some bl' ∧
      let o := 4096 * i.step
      let n := min 4096 (i.vb.toNat - o)
      let toS := i.op = 6 ∧ bit i.word 25 = true
      let dst := o + if i.op = 5 then i.va.toNat else i.vd.toNat
      let new := fun (old : Byte) (a : Nat) => if dst ≤ a ∧ a < dst + n then
        (if i.op = 5 then 0 else bl.acc.read (i.va.toNat + o + (a - dst))) else old
      ∀ a, bl'.acc.read a = (if toS then bl.acc.read a else new (bl.acc.read a) a) ∧
        bl'.spad.read a = if toS then new (bl.spad.read a) a else bl.spad.read a)) ∧
  (∀ (s : State) (cl bk : Nat) (bl : Block) (r : Except Nat (List Byte)) (s1 : State),
    let de := (s.cluster cl).de
    let i := de.next
    let a := (de.addrOf i).1
    de.owner = some bk → tget? s.blocks bk = some bl → de.st = 1 → s.engRuns (768 + cl) = true → de.finished = false →
    (de.toReg = true ∨ de.buf.length + 4096 ≤ 16384) → (∀ e x, (e, x) ∈ s.cores → x.copies = []) → s.poisonPool = [] →
    s.deBlock cl bl.asid i de a = (r, s1) →
    (de.redir = none → a = (de.moved.lookup i).getD (de.sbase + word (i * de.bstride * 64))) ∧
    (∀ w, de.redir = some (i % 65536, w) → a = w) ∧
    (∀ cause, r = .error cause → cause ≠ deHeld → ∃ t, exec (.deBlockDecode cl) s = .next t ∧ (t.cluster cl).de.st = 2 ∧ (t.cluster cl).de.cause = cause ∧
      (t.cluster cl).de.blk = i % 65536 ∧ (t.cluster cl).de.landed = de.landed ∧ (t.cluster cl).de.trap = true ∧ t.blocks = s1.blocks) ∧
    (∀ raw, r = .ok raw → ∃ t x, exec (.deBlockDecode cl) s = .next t ∧ (t.cluster cl).de = x ∧ x.next = i + 1 ∧ x.blk = i % 65536 ∧
      (x.st = if de.nblk ≤ i + 1 ∨ (de.toReg = true ∧ de.rsize ≤ x.landed) then 3 else 1) ∧
      (de.toReg = false → x.buf = de.buf ++ raw.drop de.skip ∧ t.blocks = s1.blocks) ∧
      (de.toReg = true → let n := min raw.length (de.rsize - de.landed)
        x.landed = de.landed + n ∧ ∀ b1, tget? s1.blocks bk = some b1 → ∃ bl', tget? t.blocks bk = some bl' ∧
          bl' = { b1 with spad := b1.spad.writeN (de.rbase + de.landed) (raw.take n) }))) ∧
  (∀ (img coded raw : List Byte) (rlen : Nat), img.length = 16 → rawBytes (codes img) rlen coded = some raw → raw.length = rlen ∧
    ∃ pad, pad.length < 8 ∧ (∀ x ∈ pad, x = false) ∧ coded.flatMap msbBits = (raw.flatMap fun x =>
      [x.toNat % 16, x.toNat / 16].flatMap fun sym => ((codes img).find? fun c => c.2.2 == sym).elim [] fun c =>
        (List.range c.1).map fun j => c.2.1.testBit (c.1 - 1 - j)) ++ pad) ∧
  (∀ (s : State) (cl : Nat) (th : Thread) (hp : Word),
    let u := condBase + cl
    let c := s.cluster cl
    let s0 : State := { s with clusters := tset cl { c with de := { c.de with trap := false } } s.clusters }
    c.de.trap = true → c.bound ≠ none → s.engRuns (768 + cl) = true → tget? s.threads u = some th → th.run = .live →
    th.traps.length < 4 → c.de.blk < 65536 → s.vectors u 6 hp → ∃ t, exec (.matrixStreamTrap cl) s = .next t ∧
      Trapped s0 t u th 6 6 0 c.de.blk (if c.de.cause = 8 then 0 else c.de.failAt) th.pc hp) ∧
  (∀ (s : State) (core slot n v : Nat) (th : Thread), tsorted s.threads = true → v / 32 = 32 * core + slot → v < condBase → slot < 32 →
    tget? s.threads v = some th → th.run = .live → (∃ a, th.wait = .ldl a) →
    (∀ x y, tget? s.threads x = some y → x / 32 = v / 32 → y.run = .live → (∃ a, y.wait = .ldl a) → y.pc = th.pc ∧ y.block = th.block) →
    let de := (s.cluster (core / 8)).de
    de.owner = some th.block → de.tmo ≠ 0 → de.st ≠ 3 → s.engRuns core = true → s.freeCocoon core = some n →
    ∃ t e, exec (.decompressionTimeout core slot) s = .next t ∧ tget? (t.coreAt core).cocoon n = some e ∧ e.st = 1 ∧ e.kind = 3 ∧
      e.tcode = 0 ∧ e.slot = slot ∧ e.pc = th.pc ∧ e.gen = (tget {} (s.coreAt core).cocoon n).gen + 1 ∧
      tget? t.threads v = some { th with run := .parked n, resumed := false, wait := .none } ∧
      ∀ l, l < 32 → (e.lanes.getLsbD l = true ↔ ∃ y, tget? s.threads (32 * (32 * core + slot) + l) = some y ∧ y.run = .live ∧ ∃ a, y.wait = .ldl a))

/-! ### Placing, completing, and the phase boundary -/

/-- Placement and completion (R11, R78, R118, R333, R334, R337, R34, R40, R93, R331): the order of pending blocks, the core
that a block takes, and the block and threads as placement leaves them; blocks that have been pending for 10 µs, which hold
back those after them, and which time decides (log 9); a launch that completes, with its queued add, which LAUNCH_COMPLETION
applies (log 60), and its graph; the context that a partition switches to, while no boundary of its domain is under way
(log 20). -/
def Obligations.PlacementAndCompletion : Prop :=
  (∀ (s : State) (asid : Nat), tsorted s.launches = true → (∀ j, (s.job j).prio ≤ 255) →
    let prio := fun (x : Pend) => (s.job (s.launch (gkey asid x.lid)).job).prio
    (s.pendings asid).Pairwise fun x y => prio y < prio x ∨ (prio x = prio y ∧ (x.lid < y.lid ∨ (x.lid = y.lid ∧ x.blk ≤ y.blk)))) ∧
  (∀ (s : State) (p asid c : Nat) (q : Pend), s.replayed = none → s.coreFor p asid q = some c →
    let l := s.launch (gkey asid q.lid)
    let fits := fun (x : Nat) => poolG l.pool ≤ s.freeGran x ∧ poolNwarp l.pool ≤ (s.freeSlots x).length ∧
      (∀ e ∈ s.blocks, e.2.core = x → e.2.leaving = false → ∀ z, e.2.susp = some z → z.met = none) ∧
      (l.dlen = 0 ∨ gkey asid q.lid ∈ s.dictBanks x ∨ (s.dictBanks x).length < 2)
    let turn := fun (x : Nat) => match l.lastCore with | none => x | some k => if k < x then x else x + 768
    c < 768 ∧ (s.part p).gran.getLsbD (granOf c) = true ∧ fits c ∧
      ∀ x, x < 768 → (s.part p).gran.getLsbD (granOf x) = true → fits x → turn c ≤ turn x) ∧
  (∀ (s : State) (part c : Nat) (q : Pend) (pre suf : List Pend) (l : Launch),
    let p := s.part part
    let lk := gkey p.rasid q.lid
    p.active = true → s.candidates part p.rasid = pre ++ q :: suf → (∀ x ∈ pre, s.coreFor part p.rasid x = none) →
    s.coreFor part p.rasid q = some c → q.edge = none → tget? s.launches lk = some l → ∃ t, exec (.blockPlacement part) s = .next t ∧
      let slots := (s.freeSlots c).take (poolNwarp l.pool)
      let bk := 32 * c + slots.headD 0
      tget? t.blocks bk = some
        { asid := p.rasid, lid := q.lid, blk := q.blk, core := c, slots := slots, pool := l.pool, accg := poolAccg l.pool,
          flush := l.flush, bsw := word (l.arm.toNat * 256), uid := s.uids + 1 } ∧
      (∀ b, b ≠ bk → tget? t.blocks b = tget? s.blocks b) ∧
      (∀ k i, k ∈ slots → i < 32 → let u := 1024 * c + 32 * k + i
        tget? t.threads u = some { block := bk, inc := s.uids + 1, pc := l.entry, stk := t.slotTop u }) ∧
      (∀ u, (∀ k i, k ∈ slots → i < 32 → u ≠ 1024 * c + 32 * k + i) → tget? t.threads u = tget? s.threads u) ∧
      tget? t.launches lk = some { l with st := 1, lastCore := some c, pending := l.pending.erase (q.blk, none) } ∧
      ∀ x, x ≠ lk → tget? t.launches x = tget? s.launches x) ∧
  (∀ (s : State) (part : Nat), let p := s.part part
    p.active = true →
    ((s.candidates part p.rasid).all (fun q => (s.coreFor part p.rasid q).isNone) = true → exec (.blockPlacement part) s = .next s) ∧
    (s.pendings p.rasid ≠ [] → ∃ t q, q ∈ s.pendings p.rasid ∧ exec (.pendingBlockTimeout part) s = .next t ∧
      t = { s with parts := t.parts, ctr := t.ctr } ∧
      t.part part = { p with blocked := p.blocked.filter (· != q.name p.rasid) ++ [q.name p.rasid] })) ∧
  (∀ (s : State) (part asid : Nat), let late := fun (q : Pend) => q.name asid ∈ (s.part part).blocked
    ((∀ q ∈ s.pendings asid, ¬late q) → s.candidates part asid = s.pendings asid) ∧
    (∀ pre q suf, s.pendings asid = pre ++ q :: suf → late q → (∀ x ∈ pre, ¬late x) → s.candidates part asid = pre ++ [q])) ∧
  (∀ (s : State) (asid lid : Nat) (l : Launch), let lk := gkey asid lid
    tget? s.launches lk = some l → s.replayed = none → l.nblock ≠ 0 →
    (l.st < 2 → l.ended = none → l.count ≠ l.nblock → exec (.launchCompletion asid lid) s = .next s) ∧
    (l.st < 2 → l.count = l.nblock → l.queue = [] → ∃ t, exec (.launchCompletion asid lid) s = .next t ∧
      tget? t.launches lk = some { l with st := 2, flags := 0 } ∧ (∀ x, x ≠ lk → tget? t.launches x = tget? s.launches x) ∧
      t.home = s.home ∧ t.threads = s.threads ∧
      ∀ g, tget? s.graphs (gkey asid l.gid) = some g → g.st = 1 → g.edges = [] →
        (∀ n ∈ g.nodes, n = lid ∨ 2 ≤ (s.launch (gkey asid n)).st) →
        tget? t.graphs (gkey asid l.gid) = some { g with st := 2, count := g.nodes.length } ∧
        ((s.job g.job).auto = true → (t.job g.job).closed = true) ∧ ((s.job g.job).auto = false → (s.job g.job).owesEnd = false →
          t.job g.job = s.job g.job)) ∧
    (∀ e a m1 e1 n1 m2 e2 n2, l.st < 2 → l.count = l.nblock → l.queue = [e] → s.poison = [] → e.ty = .f32 →
      (∀ k m, (k, m) ∈ s.launches → k ≠ lk → m.queue = []) →
      e.dpa = (List.range 4).map (a + ·) → a % 4 = 0 → s.isLocal a = true →
      (fmtF32.fin l.flush (leNat (e.dpa.map s.homeByte))).1 = .num n1 m1 e1 → (fmtF32.fin l.flush (bits e.val 0 32)).1 = .num n2 m2 e2 →
      ∃ t l' r, exec (.launchCompletion asid lid) s = .next t ∧ tget? t.launches lk = some l' ∧ l'.st = 2 ∧ l'.queue = [] ∧
        leNat (e.dpa.map t.homeByte) = r ∧ fmtF32.delivers l.flush e.rm (exactAdd e.rm (.num n1 m1 e1) (.num n2 m2 e2)) r ∧
        ∀ x, s.isLocal x = true → x ∉ e.dpa → t.homeByte x = s.homeByte x)) ∧
  (∀ (s : State) (part a : Nat), let q := s.part part
    q.en = true → q.halt = none → q.saving = none → tget? s.bnd (s.domOf part) = none → s.nextContext part = some a → tsorted s.ctxs = true →
    (s.ctx a).valid = true ∧ (s.ctx a).partNo = part ∧ (∃ j x, (j, x) ∈ s.jobs ∧ x.asid = a ∧ x.state = 2) ∧ ¬(q.run = true ∧ a = q.rasid) ∧
    (q.run = false → (∀ i ∈ s.images, ¬(i.live = true ∧ i.asid = a)) → ∃ t, exec (.timeSliceExpiry part) s = .next t ∧
      t = { s with parts := t.parts } ∧ t.part part = { q with run := true, rasid := a, lastAsid := a }) ∧
    (∀ i, q.run = false → s.images.find? (fun i => i.live && i.asid == a) = some i → i.halted = false → i.poisoned = false →
      i.gran = q.gran → tsorted i.threads = true → ∃ t, exec (.timeSliceExpiry part) s = .next t ∧ (t.part part).run = true ∧
        (t.part part).rasid = a ∧ ∀ u, tget? t.threads u = (tget? i.threads u).or (tget? s.threads u)) ∧
    (q.run = true → tsorted s.threads = true → (∀ c x, (c, x) ∈ s.cores → x.copies = []) → s.remote = [] →
      (∀ i ∈ s.images, ¬(i.live = true ∧ i.asid = a)) → ∃ t i, exec (.timeSliceExpiry part) s = .next t ∧ (t.part part).run = true ∧
        (t.part part).rasid = a ∧ i ∈ t.images ∧ i.live = true ∧ i.asid = q.rasid ∧ i.gran = q.gran ∧ i.phase = q.phase ∧
        (∀ x, tget? i.threads x = if s.inPart part (engOf x) then (tget? s.threads x).map (s.stopThread x) else none) ∧
        ∀ x, tget? t.threads x = if s.inPart part (engOf x) then none else tget? s.threads x))

/-- The phase boundary, in a domain without sequences (R88, R326, R327, R328, R402, R429), and the prefetch engine (R359, R176): a
boundary begins once its conditions hold, and not before: the domain has work, every job that took part has closed its phase
and its graph has completed, no partition of it is halted or being saved, and every member device has come so far; one under
way waits for a member; where no other turn stands in the agenda it runs to its end (log 20): every engine's stores are written back, %phase is one higher with the snapshot
at home, each job that took part has its PHCNT raised, requests and admitted jobs take effect, and running jobs take part in
the next phase. The last store of an engine to a byte wins, and of two engines' the higher-numbered one's. A requantised page
takes its place at home, with the least scale that holds its values. -/
def Obligations.PhaseBoundary : Prop :=
  (∀ (s : State) (dom : Nat), s.boundaryDue dom = false → tget? s.bnd dom = none → exec (.phaseBoundary dom) s = .next s) ∧
  (∀ (s : State) (dom : Nat), tget [] s.domRemote dom = [] → (∀ c x, (c, x) ∈ s.cores → x.copies = []) → (∀ i ∈ s.images, i.live = false) →
    s.domParts dom ≠ [] → (∀ p ∈ s.domParts dom, (s.part p).halt = none ∧ (s.part p).saving = none) → dom ∉ s.unreachable →
    (s.boundaryDue dom = true ↔
      (∃ n ∈ s.domJobs dom, let j := s.job n; j.state = 1 ∨ j.state = 2 ∨ (j.state = 3 ∧ .resume ∈ j.reqs)) ∧
      ∀ n ∈ s.domJobs dom, let j := s.job n
        j.took = true → (j.closed = true ∨ j.state = 5) ∧ ∀ g, tget? s.graphs (gkey j.asid j.gcur) = some g →
          g.st ≠ 1 ∧ ∀ lid ∈ g.nodes, 2 ≤ (s.launch (gkey j.asid lid)).st)) ∧
  (∀ (s : State) (dom p : Nat), s.boundaryDue dom = true → dom ∉ s.unreachable ∧
    (p ∈ s.domParts dom → (s.part p).halt = none ∧ (s.part p).saving = none ∧ ∀ i n j, i ∈ s.images → i.live = true → i.halted = false →
      (s.ctx i.asid).partNo = p → (n, j) ∈ s.jobs → j.asid = i.asid → j.closeSaved ≠ 1) ∧
    ∀ v ∈ tget [] s.domRemote dom, ∃ ph k, tget? s.domDone (2048 * dom + v) = some (ph, k) ∧
      (s.part ((s.domParts dom).headD 0)).phase.toNat ≤ ph.toNat) ∧
  (∀ (s : State) (dom v : Nat) (b : Bnd), tget? s.bnd dom = some b → v ∈ tget [] s.domRemote dom → 1 ≤ b.stage →
    (tget? s.domDone (2048 * dom + v) = none ∨ ∃ k, tget? s.domDone (2048 * dom + v) = some (b.phase, k) ∧ k < if b.stage ≤ 3 then 1 else 2) →
    (b.stage ≤ 3 ∨ b.stage = 6) → exec (.phaseBoundary dom) s = .next s) ∧
  (∀ (s : State) (dom : Nat), s.boundaryDue dom = true → tget? s.bnd dom = none → s.agenda = [] → tget [] s.domRemote dom = [] → s.poison = [] → s.seqs = [] → s.requants = [] → s.replayed = none → tsorted s.jobs = true →
    (∀ n j, (n, j) ∈ s.jobs → j.batchMax = 0) → (∀ a c, (a, c) ∈ s.ctxs → bit c.fpol 4 = false) →
    let ps := s.domParts dom
    let phase := (s.part (ps.headD 0)).phase
    ∃ t, exec (.phaseBoundary dom) s = .next t ∧ t.home = (s.writeBackAll dom).home ∧ t.threads = s.threads ∧
      (∀ p ∈ ps, (t.part p).phase = phase + 1 ∧ (t.part p).snap = (s.writeBackAll dom).home) ∧
      (∀ p, p ∉ ps → t.part p = s.part p) ∧
      (∀ e m, (e, m) ∈ t.emem → s.engInDom dom e = true → m.stores = [] ∧ m.fresh = []) ∧
      ∀ n ∈ s.domJobs dom, let j := s.job n
        let asked := j.reqs.foldl (fun st r => match r with
          | .hold => if st = 1 ∨ st = 2 then 3 else st
          | .resume => if st = 3 then 2 else st
          | .finish => if st = 1 ∨ st = 2 ∨ st = 3 then 4 else st) j.state
        (t.job n).state = (if asked = 1 then 2 else asked) ∧ (t.job n).reqs = [] ∧
        (t.job n).phcnt = (if j.took then j.phcnt + 1 else j.phcnt) ∧ (t.job n).phaseCancelled = (j.phaseCancelled && !j.took) ∧
        ((t.job n).took = true ↔ (t.job n).state = 2)) ∧
  (∀ (s : State) (dom e1 e2 x : Nat) (m1 m2 : EngMem) (v : Byte), s.emem = [(e1, m1), (e2, m2)] → e1 < e2 → s.engInDom dom e1 = true →
    s.engInDom dom e2 = true → s.images = [] → (∀ st ∈ m1.stores ++ m2.stores, st.home = false) → s.isLocal x = true →
    let writes := ((m1.stores ++ m2.stores).flatMap fun st => st.data).filter fun b => b.1 == x
    (writes = [] → (s.writeBackAll dom).homeByte x = s.homeByte x) ∧
    (writes.getLast? = some (x, v) → (s.writeBackAll dom).homeByte x = v)) ∧
  (∀ (s : State) (die : Nat) (r : Requant) (p : Page) (bs : List Byte) (w1 w2 w3 : Se), s.requants = [r] → r.new ≠ 0 → r.ready = false →
    s.dieOfPage r.asid r.old = die → (s.part (s.ctx r.asid).partNo).halt = none →
    ({ s := s } : Se).page r.asid r.old = .ok (p, w1) → w1.read r.asid (r.old + 64) (pageBytes - 64) = .ok (bs, w2) →
    w2.write r.asid r.new (requantPage p bs) = .ok w3 → ∃ t, exec (.requantisation die) s = .next t ∧ t.home = w3.s.home ∧
      t.threads = s.threads ∧ t.requants = [{ r with ready := true }]) ∧
  (∀ bs : List Byte, bs.length = 64 →
    let val := fun (i : Nat) => match fmtF16.decode (leNat ((bs.drop (2 * i)).take 2)) with | .num _ m e => (m : ℚ) * 2 ^ e | _ => 0
    (requantBlock bs).1.length = 16 ∧
    ((∀ i, i < 32 → val i = 0) → (requantBlock bs).2 = [0, 0]) ∧
    ((∃ i, i < 32 ∧ val i ≠ 0) → ∃ eB, eB < 256 ∧ (requantBlock bs).2 = [BitVec.ofNat 8 (eB - 2), BitVec.ofNat 8 eB] ∧
      (∀ i, i < 32 → val i ≤ 3 * 2 ^ ((eB : Int) - 127)) ∧ ∀ e, e < eB → ∃ i, i < 32 ∧ 3 * 2 ^ ((e : Int) - 127) < val i))

/-- The events of the device outside its instruction engines (R368-R371, R376, R377, R386-R388, R390, R401, R413-R416, R421):
a fault presented on the ring, held back by a full ring, or reported; the stop record of every kind of engine; the clock steps
and the shutdown; boot from slot A, from slot B, or into recovery; what a scrub logs and poisons; accesses of other devices,
under the first of the 64 entries of the window table that permits them; the host's reads and writes of the PCIe BAR, which
reads zero and discards writes where the link is not enabled, and shows the failed boot steps in recovery (R411, R415; that the
host's accesses are turns of the agenda is log 32). The skid of a stop record and its PC are timing values (log 4). The model's choices: the report forms and their engine 864 (log 30), that a shutdown halts every enabled partition and
what a reset keeps (log 51), which granule stands at an offset of a pool and which line in a home cache (log 14), and the
flash and firmware addresses (log 6); signatures are an uninterpreted relation (log 7). -/
def Obligations.DeviceEvents : Prop :=
  (∀ (s : State) (asid : Nat) (f : FaultRec) (rest : List FaultRec) (ws : List Word), (s.ctx asid).exh = [] →
    (s.ctx asid).faults = f :: rest → s.partRunning asid ≠ none → (∀ p, s.partRunning asid = some p → (s.part p).saving = none) →
    s.poison = [] → s.boot.stage = .ready →
    let ring := (s.ctx asid).fpol &&& ~~~(0xFFFF : Word)
    let ran := fun (P : State → Prop) => ∃ t, exec (.faultPresentation asid) s = .next t ∧ (t.ctx asid).faults = rest ∧ P t
    (f.kind = 1 → ∀ e, tget? (s.coreAt f.core).cocoon f.entry = some e → e.st ≠ 0 → e.rsn = f.rsn →
      s.ringWords f = some [e.word0 f.core f.entry, e.word1, e.va, e.pc, e.diff.setWidth 64, 1, 0, 0]) ∧
    (s.ringWords f = some ws → ring = 0 → ran fun t => t.egress = .report s.imagoReq asid 1 ws :: s.egress ∧ t.home = s.home) ∧
    (∀ e s1, s.ringWords f = some ws → ring ≠ 0 → s.xlateSpan asid 1 .write ring 16 = (.error e, s1) → e.waits = false →
      ran fun t => t.egress = .report s.imagoReq asid 1 ws :: s.egress ∧ t.home = s.home) ∧
    (∀ hd ds s1 s2, s.ringWords f = some ws → ring ≠ 0 → s.xlateSpan asid 1 .write ring 16 = (.ok hd, s1) →
      (hd ++ ds).all s.isLocal = true → (hd ++ ds).Nodup →
      let tail := word (leNat ((hd.take 8).map s.homeByte))
      let head := word (leNat ((hd.drop 8).map s.homeByte))
      (tail - head = 1023 → exec (.faultPresentation asid) s = .next s) ∧
      (tail - head ≠ 1023 → s1.xlateSpan asid 1 .write (ring + 64 + word (64 * (tail.toNat % 1023))) 64 = (.ok ds, s2) →
        ran fun t => leNat ((hd.take 8).map t.homeByte) = (tail + 1).toNat ∧
          (∀ i, i < 8 → leNat (((ds.drop (8 * i)).take 8).map t.homeByte) = (ws.getD i 0).toNat) ∧
          (∀ x, s.isLocal x = true → x ∉ hd.take 8 → x ∉ ds → t.homeByte x = s.homeByte x) ∧
          (f.kind = 2 → (t.ctx asid).exh = [(tail.toNat, f.core, (s.coreAt f.core).freed, f.w2, f.job)])))) ∧
  (∀ (s : State) (e p tc : Nat), let q := s.part p
    e < 864 → p < 8 → tc < 256 → s.partOfEng e = some p →
    ((q.halt = none ∨ tget? s.stops e ≠ none) → exec (.engineStop e) s = .next s) ∧
    (q.halt = some tc → tget? s.stops e = none → s.boot.stage = .ready → q.haltCtx.getD q.lastAsid < 1024 →
      ∃ t r, exec (.engineStop e) s = .next t ∧ tget? t.stops e = some r ∧ (∀ x, x ≠ e → tget? t.stops x = tget? s.stops x) ∧
      t.egress = .report s.imagoReq (q.haltCtx.getD q.lastAsid) 2 r :: s.egress ∧
      r.length = 8 ∧ bits (r.getD 0 0) 48 16 = e ∧ bits (r.getD 0 0) 40 8 = (if e < 768 then 0 else 1) ∧ bits (r.getD 0 0) 32 8 = tc ∧
      bits (r.getD 0 0) 11 21 = 0 ∧ bits (r.getD 0 0) 0 11 ≤ 1024 ∧ r.getD 4 0 = (if q.haltAt = some e then q.haltAddr else 0) ∧
      bits (r.getD 5 0) 19 45 = 0 ∧ bits (r.getD 5 0) 16 3 = p ∧ bits (r.getD 5 0) 0 10 = q.haltCtx.getD q.lastAsid ∧ bits (r.getD 5 0) 10 6 = 0 ∧
      r.getD 6 0 = q.phase ∧ r.getD 7 0 = 0 ∧
      (e < 768 → r.getD 3 0 = word ((s.coreAt e).cocoon.filter fun x => x.2.st != 0).length ∧
        ∀ k, k < 64 → (bit (r.getD 2 0) k = true ↔ k < 32 ∧ ∃ u x, (u, x) ∈ s.threads ∧ u < condBase ∧ u / 32 = 32 * e + k ∧ x.run ≠ .exited)) ∧
      (768 ≤ e → r.getD 3 0 = (s.cluster (e - 768)).de.stopped.stateWord ∧ ((s.cluster (e - 768)).instar.st = 1 → (s.cluster (e - 768)).instar.op < 8 →
        bits (r.getD 2 0) 62 2 = 2 ∧ (t.cluster (e - 768)).instar = { (s.cluster (e - 768)).instar.rewind with st := 2, held := true })) ∧
      t.parts = s.parts ∧ t.threads = s.threads)) ∧
  (∀ (s : State) (e : Nat), (864 ≤ e ∧ e < 872) ∨ 1072 ≤ e → exec (.engineStop e) s = .next s) ∧
  (∀ (s : State) (e p tc : Nat), let q := s.part p
    872 ≤ e → e < 1072 → p < 8 → tc < 256 → (∀ c, e = 872 + c ∨ e = 968 + c → c < 96 → s.partOfEng (768 + c) = some p) →
    (∀ d, e = 1064 + d ∨ e = 1068 + d → d < 4 → s.partOfGran (2 * d) = some p) →
    q.halt = some tc → tget? s.stops e = none → s.boot.stage = .ready → q.haltCtx.getD q.lastAsid < 1024 →
    ∃ t r, exec (.engineStop e) s = .next t ∧ tget? t.stops e = some r ∧ (∀ x, x ≠ e → tget? t.stops x = tget? s.stops x) ∧
      t.egress = .report s.imagoReq (q.haltCtx.getD q.lastAsid) 2 r :: s.egress ∧ t.parts = s.parts ∧ t.threads = s.threads ∧
      r.length = 8 ∧ bits (r.getD 0 0) 48 16 = e ∧ bits (r.getD 0 0) 32 8 = tc ∧ bits (r.getD 0 0) 11 21 = 0 ∧ bits (r.getD 0 0) 0 11 ≤ 1024 ∧
      r.getD 1 0 = 0 ∧ r.getD 3 0 = 0 ∧ r.getD 4 0 = (if q.haltAt = some e then q.haltAddr else 0) ∧ bits (r.getD 5 0) 16 3 = p ∧
      bits (r.getD 5 0) 0 10 = q.haltCtx.getD q.lastAsid ∧ r.getD 6 0 = q.phase ∧ r.getD 7 0 = 0 ∧
      (∀ c, e = 872 + c → c < 96 → let de := (s.cluster c).de
        bits (r.getD 0 0) 40 8 = 2 ∧ r.getD 2 0 = de.stopped.stateWord ∧ (t.cluster c).de = de.stopped ∧
        (de.st = 1 → bits (r.getD 2 0) 62 2 = 2)) ∧
      (∀ c, e = 968 + c → c < 96 → bits (r.getD 0 0) 40 8 = 3 ∧
        ((∀ bk b, (bk, b) ∈ s.blocks → b.core / 8 = c → b.binRun = none) → r.getD 2 0 = 0) ∧
        (∀ bk b x, s.blocks = [(bk, b)] → b.core / 8 = c → b.binRun = some x → x.region < 65536 →
          bits (r.getD 2 0) 16 16 = x.region ∧ bits (r.getD 2 0) 32 32 = 0)) ∧
      (∀ d, e = 1064 + d → d < 4 → bits (r.getD 0 0) 40 8 = 4 ∧ r.getD 2 0 = word (tget 0 s.seLast d)) ∧
      (∀ d, e = 1068 + d → bits (r.getD 0 0) 40 8 = 5 ∧ r.getD 2 0 = 0)) ∧
  (∀ s : State, (∃ t, exec .thermalThrottle s = .next t ∧ t = { s with clock := max 625 (s.clock - 125) }) ∧
    (∃ t, exec .thermalRecovery s = .next t ∧ t = { s with clock := min 1250 (s.clock + 125) }) ∧
    (tsorted s.parts = true → s.boot.stage = .ready → ∃ t, exec .thermalShutdown s = .next t ∧
      t.egress = .report s.imagoReq 0 4 [word (864 * 2 ^ 48 + 6 * 2 ^ 40 + 6 * 2 ^ 32), 0, 0, 0, 0, 0, (s.part 0).phase, 0] :: s.egress ∧
      ∀ p q, tget? s.parts p = some q → (t.part p).halt = if q.en = true ∧ q.halt = none then some 6 else q.halt)) ∧
  (∀ (s : State) (off : Nat) (im : BootImage) (a b : Nat),
    let hd := s.boot.flash.readN off 64
    let body := s.boot.flash.readN (off + 64) (leNat ((hd.drop 8).take 8))
    let c := s.boot.flash.readN (128 * 2 ^ 20) 64
    let sg := sigOf (s.boot.flash.readN (off + 64 + body.length) 160)
    let ready := fun (slotB : Bool) => ∀ t1, s.coldReset.bootSlot slotB = .ok t1 → ∃ t, exec .bootSequence s = .next t ∧ t.boot.stage = .ready ∧ t.boot.slotB = slotB ∧
      t.boot.svn = im.svn ∧ t.boot.devnum = leNat (c.take 2) ∧ t.log.tail = 1 ∧ t.log.lcap = leNat ((c.drop 24).take 4) ∧
      t.jobs = [] ∧ t.parts = [] ∧ (∀ k, k < 8 → tget? t.threads (stewBase + k) = some { block := noBlock, pc := Config.firmwareBase + word im.entry, lvl := 2 }) ∧
      t.boot.opkey = s.boot.opkey ∧ t.boot.svnmin = s.boot.svnmin ∧ t.boot.nodebug = s.boot.nodebug ∧ t.stewSnap = t.home ∧
      (t.boot.debug = true ↔ leNat ((c.drop 2).take 1) = 1 ∧ s.boot.nodebug = false)
    (s.boot.check off = .ok im → hd.take 4 = [0xA9, 0x6F, 0x57, 0x1A] ∧ im.body = body ∧ im.entry = leNat ((hd.drop 16).take 8) ∧
      im.entry < body.length ∧ im.entry % 8 = 0 ∧ s.boot.svnmin.toNat ≤ im.svn.toNat ∧ im.svn.toNat = leNat ((hd.drop 4).take 4) ∧
      sg.key = beNum 48 Config.rootKey.toNat ∧ Config.ecdsaVerifies sg.key (sha384 (hd ++ body)) sg.r sg.s = true ∧ bootConfigOk c = true) ∧
    (s.boot.flash = [] → s.boot.check off = .error 2) ∧
    (∀ slotB, s.boot.check (if slotB then slotBytes else 0) = .error a → s.coldReset.bootSlot slotB = .error a) ∧
    (∀ slotB, s.boot.check (if slotB then slotBytes else 0) = .ok im → s.coldReset.bootSlot slotB = .error a → a = 6 ∨ a = 7) ∧
    (s.boot.check 0 = .ok im → ready false) ∧ (s.coldReset.bootSlot false = .error a → s.boot.check slotBytes = .ok im → ready true) ∧
    (s.coldReset.bootSlot false = .error a → s.coldReset.bootSlot true = .error b → ∃ t, exec .bootSequence s = .next t ∧ t.boot.stage = .recovery ∧
      t.boot.failA = a ∧ t.boot.failB = b ∧ t.threads = [] ∧ t.home = [] ∧ t.boot.flash = s.boot.flash)) ∧
  (∀ (s : State) (arr unit loc : Nat) (syn : Word), arrayHas arr unit = true → s.ownerOf arr unit loc < 1024 →
    let owner := s.ownerOf arr unit loc
    let logged := fun (t : State) (kind : Nat) => t.log.tail = s.log.tail + 1 ∧ ∃ r, tget? t.log.recs (s.log.tail % s.log.lcap) = some r ∧
      r.getD 0 0 = word s.log.tail ∧ bits (r.getD 1 0) 56 8 = kind ∧ bits (r.getD 1 0) 48 8 = arr ∧ bits (r.getD 1 0) 32 10 = owner ∧
      bits (r.getD 1 0) 0 32 = unit ∧ r.getD 2 0 = word (if arr = 8 then loc / 64 * 64 else loc) ∧ r.getD 3 0 = syn
    let seen := fun (t : State) => t.threads = s.threads ∧ t.blocks = s.blocks ∧ t.parts = s.parts ∧ t.ctxs = s.ctxs ∧
      t.poisonPool = s.poisonPool ∧ t.poisonBank = s.poisonBank
    exec (.scrub arr unit loc .clean syn) s = .next s ∧
    (s.log.full = false → s.log.owed = 0 →
      (arr ≠ 4 → arr ≠ 5 → ∃ t, exec (.scrub arr unit loc .corrected syn) s = .next t ∧ logged t 1 ∧ seen t) ∧
      (4 ≤ arr → arr ≤ 7 → ∃ t, exec (.scrub arr unit loc .recovered syn) s = .next t ∧ logged t 2 ∧ seen t) ∧
      ((arr = 4 ∨ arr = 5) → ∃ t, exec (.scrub arr unit loc .uncorrectable syn) s = .next t ∧ logged t 2 ∧ seen t) ∧
      (arr ≠ 4 → arr ≠ 5 → ∃ t, exec (.scrub arr unit loc .uncorrectable syn) s = .next t ∧ logged t 3 ∧
        (arr = 1 → (owner = 0 ∨ s.partRunning owner ≠ none) → ∀ bk r i, s.poolSpot unit (loc / Config.granuleBytes) = some (bk, r, i) →
          granKey bk r i ∈ t.poisonPool) ∧
        (arr = 1 → (owner = 0 ∨ s.partRunning owner ≠ none) → s.poolSpot unit (loc / Config.granuleBytes) = none →
          loc / Config.granuleBytes < Config.nGranules → (t.spareAt unit (loc / Config.granuleBytes)).2 = true) ∧
        (arr = 3 → (owner = 0 ∨ s.partRunning owner ≠ none) → 1024 * (unit - 768) + loc / 4096 % 1024 ∈ t.poisonBank) ∧
        (owner = 0 → s.boot.stage = .ready → t.parts = s.parts ∧ t.egress = .report s.imagoReq 0 4
          [word ((if unit < 1072 then unit else 864) * 2 ^ 48 + (if unit < 1072 then engineKindNo unit else 6) * 2 ^ 40 + 5 * 2 ^ 32),
            0, 0, 0, word loc, 0, (s.part 0).phase, 0] :: s.egress) ∧
        (∀ p, owner ≠ 0 → s.partRunning owner = some p → (t.part p).halt = some ((s.part p).halt.getD 5) ∧
          ∀ o, o ≠ p → t.part o = s.part o) ∧
        (owner ≠ 0 → s.partRunning owner = none → (∃ i ∈ s.images, i.asid = owner ∧ i.live = true) → bit (t.ctx owner).w0 63 = false ∧ ∀ i ∈ t.images, i.asid = owner → i.poisoned = true))) ∧
    (6 ≤ arr → s.log.full = true → owner = 0 → ∃ t, exec (.scrub arr unit loc .uncorrectable syn) s = .next t ∧
      s.lineAt arr unit loc ∈ t.poison ∧ t.log.lost = s.log.lost + 1 ∧ t.home = s.home)) ∧
  (∀ (s : State) (r : RemoteReq) (w : List Word) (s1 : State), s.boot.stage = .ready → s.isLocal r.dpa = true → 0 < r.len →
    r.dpa % devBytes + r.len ≤ devBytes → s.poison = [] → r.phase = none →
    let writes := fun (bs : List Byte) (P : State → Prop) => ∃ t, exec (.remoteAccess r) s = .next t ∧ P t ∧ ∀ x, s.isLocal x = true →
      t.homeByte x = if r.dpa ≤ x ∧ x < r.dpa + r.len then bs.getD (x - r.dpa) 0 else s.homeByte x
    (windowPermits w r = true ↔ bit (w.getD 0 0) 63 = true ∧ bits (w.getD 0 0) 52 10 = 0 ∧ bits (w.getD 0 0) 22 10 = 0 ∧
      bits (w.getD 1 0) 55 9 = 0 ∧ bits (w.getD 1 0) 23 9 = 0 ∧ bits (w.getD 0 0) 0 11 ≤ r.dev ∧ r.dev ≤ bits (w.getD 0 0) 11 11 ∧
      bits (w.getD 0 0) 32 10 = r.asid ∧ bits (w.getD 1 0) 0 23 ≤ r.dpa % devBytes / 65536 ∧
      (r.dpa % devBytes + r.len - 1) / 65536 ≤ bits (w.getD 1 0) 32 23 ∧ (r.write = none ∨ bit (w.getD 0 0) 62 = true)) ∧
    (∀ bs, r.write = some bs → bs.length = r.len → (r.asid = 0 → writes bs fun _ => True) ∧
      (r.asid ≠ 0 → s.windowFor r = (some w, s1) → writes bs fun t => ∀ x, r.dpa ≤ x → x < r.dpa + r.len →
        tget 0 t.owner (x % devBytes / 64) = bits (w.getD 0 0) 42 10) ∧
      (r.asid ≠ 0 → s.windowFor r = (none, s1) → ∃ t, exec (.remoteAccess r) s = .next t ∧ t.home = s.home ∧ t.owner = s.owner)) ∧
    (r.write = none → ∃ t, exec (.remoteAccess r) s = .next t ∧ t.home = s.home ∧ t.owner = s.owner ∧ t.threads = s.threads)) ∧
  (∀ (s : State) (r : RemoteReq) (st : Nat → State) (ds : Nat → List Nat), st 0 = s →
    (∀ i, i < 64 → (st i).xlateSpan 0 2 .read (s.boot.wintab + word (16 * i)) 16 = (.ok (ds i), st (i + 1)) ∧ (ds i).all s.isLocal = true) →
    let entry := fun (i : Nat) => [word (leNat (((ds i).take 8).map s.homeByte)), word (leNat (((ds i).drop 8).map s.homeByte))]
    (s.windowFor r).1 = ((List.range 64).map entry).find? (windowPermits · r)) ∧
  (∀ (s : State) (u : Nat) (th : Thread), tget? s.threads u = some th → u ∉ s.late →
    ∃ t, exec (.remoteAccessTimeout u) s = .next t ∧ t = { s with late := s.late ++ [u] }) ∧
  (∀ (s : State) (rest : List Turn) (off : Nat), let s0 := s.notes
    let b := s0.boot
    let on := (b.stage = .ready ∧ b.debug = true) ∨ (b.stage = .recovery ∧ b.nodebug = false)
    (∀ n, s0.agenda = .hostRead off n :: rest → ∃ bs, step s = .next { s0 with agenda := rest, barSeen := (off, bs) :: s0.barSeen } ∧
      bs.length = n ∧ (¬on → bs = List.replicate n 0) ∧ (on → off + n ≤ 65536 → ∀ i, i < n → bs[i]? = some (
        if b.stage = .recovery ∧ off + i < 8 then ([BitVec.ofNat 8 b.failA, BitVec.ofNat 8 b.failB].getD (off + i) 0) else s0.bar.read (off + i)))) ∧
    (∀ bs, s0.agenda = .hostWrite off bs :: rest → (¬on → step s = .next { s0 with agenda := rest }) ∧
      (on → off + bs.length ≤ 65536 → ∃ m, step s = .next { s0 with agenda := rest, bar := m } ∧
        ∀ x, m.read x = if off ≤ x ∧ x < off + bs.length then bs.getD (x - off) 0 else s0.bar.read x)))

/-! ### Messages to Imago -/

/-- Operator messages (R402, R405, R406, R412, R417, R419, R430), and the header that every message must have: a malformed one
is answered with code 1 or 2 and has no other effect; an operator message whose signature, key or counter is not good is
answered with code 2 and has none; an accepted one moves the counter and does what it says: it creates a context, sets a
partition, a window entry, a connection, a run list or a slice, gives the certificate, reserves frames, attests, blows a fuse, maps a page, joins partitions.
Then the reports about a joined device, whose boundaries do not run. Signatures and the choice of frames are uninterpreted
(log 7, 13). The model's readings: code 4 for a context that is VALID, which operator message an unowned device takes and when
PCIe is heard (log 49), that partitions join at one phase and which domain a MEMBER_UNREACHABLE concerns (log 52), that SVNMIN
never falls, and the report's engine 864 (log 30); no message is answered while a boundary is under way (log 20). -/
def Obligations.OperatorMessages : Prop :=
  (∀ (s : State) (m : MsgHdr) (g : OperSig), s.mail = [] → s.poison = [] → s.bnd = [] →
    let ty := bits m.w0 24 8
    let heard := s.boot.stage = .ready ∧ (m.conn ≠ 2 ^ 32 ∨ s.boot.debug = true)
    let limits := bits m.w0 0 16 = 0x1A96 ∧ bits m.w0 16 8 = 1 ∧ bits m.w0 32 32 % 8 = 0 ∧ 32 ≤ bits m.w0 32 32 ∧
      bits m.w0 32 32 ≤ 65536 ∧ bits m.w2 10 54 = 0 ∧ m.w3 = 0
    let mine := bits m.w2 0 10 = tget 0 s.conns m.conn
    let said := fun (code : Nat) (bs : List Byte) => Egress.status m.conn m.w1 code 0 bs :: s.egress
    let verified := fun (b : OperBody) => Config.ecdsaVerifies g.key (sha384 (bytesOf [m.w0, m.w1, m.w2, m.w3] ++
      Config.operBytes b g.key ++ leBytes 8 g.counter.toNat)) g.r g.s = true ∧ s.boot.opctr.toNat < g.counter.toNat
    let owned := allZero s.boot.opkey = false
    let signed := fun (b : OperBody) => owned ∧ s.boot.opkey = sha384 g.key ∧ verified b
    let counted := { s with boot := { s.boot with opctr := g.counter } }
    let onlySays := fun (i : Instr) (s0 : State) (code : Nat) => ∃ t, exec i s = .next t ∧ t = { s0 with egress := said code [] }
    let fromStack := fun (asid f : Nat) => f % 65536 = 0 ∧ f / devBytes = s.boot.devnum ∧
      (s.part (s.ctx asid).partNo).gran.getLsbD (f % devBytes / 2 ^ 36) = true
    (heard → (¬limits ∨ ty = 0 ∨ 7 < ty → onlySays (.malformedMessage m) s 1) ∧
      (limits → 1 ≤ ty → ty ≤ 7 → ¬mine → onlySays (.malformedMessage m) s 2)) ∧
    (¬heard → exec (.malformedMessage m) s = .next s) ∧
    (heard → limits → mine → ty = 1 →
      ((∀ cmd, ¬signed (.command cmd) → onlySays (.oper m g cmd) s 2) ∧
        (∀ nonce, ¬signed (.attest nonce) → onlySays (.operAttest m g nonce) s 2) ∧
        (∀ v, ¬signed (.fuse (.svnmin v)) → onlySays (.operBlowFuse m g (.svnmin v)) s 2) ∧
        (¬signed (.fuse .nodebug) → onlySays (.operBlowFuse m g .nodebug) s 2) ∧
        (∀ asid va n rights, ¬signed (.map asid va n rights) → onlySays (.operMap m g asid va n rights) s 2) ∧
        ∀ parts remote, ¬signed (.join parts remote) → onlySays (.operJoinDomain m g parts remote) s 2) ∧
      (∀ k, k.length = 48 → allZero k = false → ¬owned → (¬verified (.fuse (.opkey k)) → onlySays (.operBlowFuse m g (.opkey k)) s 2) ∧
        (verified (.fuse (.opkey k)) → ∃ t, exec (.operBlowFuse m g (.opkey k)) s = .next t ∧
          t = { s with boot := { s.boot with opctr := g.counter, opkey := k }, egress := said 0 [] })) ∧
      (∀ k, owned → ∃ t, exec (.operBlowFuse m g (.opkey k)) s = .next t ∧ t.boot.opkey = s.boot.opkey) ∧
      (∀ asid w, signed (.command (.createContext asid w)) →
        let v := fun (i : Nat) => if i = 0 then putBits (w.getD 0 0) 63 1 1 else w.getD i 0
        1 ≤ asid → asid ≤ 1023 → (∀ i, i < 8 → ctxOk i (v i) = true) → bit (v 0) 62 = false →
        (bit (s.ctx asid).w0 63 = true → onlySays (.oper m g (.createContext asid w)) counted 4) ∧
        (bit (s.ctx asid).w0 63 = false → ∃ t, exec (.oper m g (.createContext asid w)) s = .next t ∧
          t = { counted with ctxs := t.ctxs, clusters := t.clusters, poisonBank := t.poisonBank, threads := t.threads, images := t.images, egress := said 0 [] } ∧
          t.images.length = s.images.length ∧ (∀ (k : Nat) (i : Image), t.images[k]? = some i → ∃ j : Image, s.images[k]? = some j ∧ i = { j with threads := i.threads } ∧
            (j.asid ≠ asid → i = j)) ∧
          (∀ b, b ≠ asid → t.ctx b = s.ctx b) ∧
          (∀ k, tget? t.clusters k = (tget? s.clusters k).map fun c => if c.bankAsid = asid then { c with banks := [] } else c) ∧
          (∀ u th, tget? s.threads u = some th → ∃ p, tget? t.threads u = some { th with stk := p } ∧ (s.asidOf u ≠ asid → p = th.stk)) ∧
          t.ctx asid = { w0 := putBits (v 0) 0 10 0, spill := v 1, oarea := v 2, tvec := v 3, fpol := v 4, admitW := v 5,
                         ptroot := v 6, kvpool := v 7, lastPart := (s.ctx asid).lastPart })) ∧
      (∀ n w, signed (.command (.setPartition n w)) → n < 8 → (s.partOk n w = false → onlySays (.oper m g (.setPartition n w)) counted 2) ∧
        (s.partOk n w = true → ∃ t, exec (.oper m g (.setPartition n w)) s = .next t ∧
          t = { counted with parts := t.parts, egress := said 0 [] } ∧ (∀ p, p ≠ n → t.part p = s.part p) ∧
          t.part n = { s.part n with en := bit w 63, gran := w.extractLsb' 0 8 })) ∧
      (∀ idx w0 w1 l, signed (.command (.setWindow idx w0 w1)) → idx < 64 →
        (counted.xlateSpan 0 2 .write (s.boot.wintab + word (16 * idx)) 16).1 = .ok l → l.all s.isLocal = true →
        l.Nodup → ∃ t, exec (.oper m g (.setWindow idx w0 w1)) s = .next t ∧ t.egress = said 0 [] ∧
          leNat ((l.take 8).map t.homeByte) = w0.toNat ∧ leNat ((l.drop 8).map t.homeByte) = w1.toNat ∧
          ∀ x, s.isLocal x = true → x ∉ l → t.homeByte x = s.homeByte x) ∧
      (∀ conn asid, signed (.command (.bindConn conn asid)) → conn ≠ 2 ^ 32 → (asid = 0 ∨ (s.ctx asid).valid = true) →
        ∃ t, exec (.oper m g (.bindConn conn asid)) s = .next t ∧
        t = { counted with conns := t.conns, egress := said 0 [] } ∧ ∀ k, tget 0 t.conns k = if k = conn then asid else tget 0 s.conns k) ∧
      (∀ p asids, signed (.command (.runList p asids)) → p < 8 → asids.length ≤ 16 → (∀ a ∈ asids, (s.ctx a).valid = true) →
        ∃ t, exec (.oper m g (.runList p asids)) s = .next t ∧
        t = { counted with parts := t.parts, egress := said 0 [] } ∧ (∀ q, q ≠ p → t.part q = s.part q) ∧
        t.part p = { s.part p with runList := asids }) ∧
      (∀ p asid ms, signed (.command (.slice p asid ms)) → p < 8 → (s.ctx asid).valid = true →
        (ms < 1 ∨ 1000 < ms → onlySays (.oper m g (.slice p asid ms)) counted 1) ∧
        (1 ≤ ms → ms ≤ 1000 → ∃ t, exec (.oper m g (.slice p asid ms)) s = .next t ∧ t = { counted with parts := t.parts, egress := said 0 [] } ∧
          (∀ q, q ≠ p → t.part q = s.part q) ∧ tget? (t.part p).slices asid = some ms)) ∧
      (signed (.command .certificate) → ∃ t, exec (.oper m g .certificate) s = .next t ∧ t = { counted with egress := said 0 Config.certificate }) ∧
      (∀ asid n, signed (.command (.reserve asid n)) → asid ≠ 0 → (s.ctx asid).valid = true → (s.part (s.ctx asid).partNo).gran ≠ 0 →
        s.frames.length + n ≤ 2 ^ 20 →
        ∃ t fs, exec (.oper m g (.reserve asid n)) s = .next t ∧ t.egress = said 0 (fs.flatMap fun f => leBytes 8 f) ∧ fs.length = n ∧
          fs.Nodup ∧ (t.ctx asid).frames = (s.ctx asid).frames ++ fs ∧
          ∀ f ∈ fs, f ∉ s.frames ∧ fromStack asid f ∧ ∀ i, i < 65536 → t.homeByte (f + i) = 0) ∧
      (∀ nonce, signed (.attest nonce) → nonce.length = 48 → s.boot.opkey.length = 48 → ∃ t r, exec (.operAttest m g nonce) s = .next t ∧
        t = { counted with egress := said 0 (r ++ identitySig (sha384 r)) } ∧ (identitySig (sha384 r)).length = 96 ∧
        r.length = 304 ∧ r.take 48 = nonce ∧ (r.drop 48).take 48 = beNum 48 Config.identityDigest.toNat ∧
        (r.drop 96).take 48 = sha384 s.boot.image ∧ (r.drop 144).take 48 = sha384 s.boot.config ∧ (r.drop 192).take 48 = s.boot.opkey ∧
        leNat ((r.drop 240).take 4) = s.boot.svn.toNat ∧ leNat ((r.drop 244).take 4) = s.boot.svnmin.toNat ∧
        leNat ((r.drop 248).take 2) = s.boot.devnum % 65536 ∧
        leNat ((r.drop 250).take 1) = s.boot.slotB.toNat + 2 * s.boot.nodebug.toNat + (if s.boot.debug then 4 else 0) ∧
        r.drop 256 = sha384 s.log.head) ∧
      (∀ v : BitVec 32, signed (.fuse (.svnmin v)) →
        (s.boot.svnmin &&& v = s.boot.svnmin → v ≤ s.boot.svn → ∃ t, exec (.operBlowFuse m g (.svnmin v)) s = .next t ∧
          t = { s with boot := { s.boot with opctr := g.counter, svnmin := v }, egress := said 0 [] }) ∧
        ((∃ i, i < 32 ∧ s.boot.svnmin.getLsbD i = true ∧ v.getLsbD i = false) ∨ s.boot.svn < v →
          onlySays (.operBlowFuse m g (.svnmin v)) counted 2)) ∧
      (signed (.fuse .nodebug) → ∃ t, exec (.operBlowFuse m g .nodebug) s = .next t ∧
        t = { s with boot := { s.boot with opctr := g.counter, nodebug := true, debug := false }, egress := said 0 [] }) ∧
      (∀ asid va n (rights : BitVec 3) a lvl e, signed (.map asid va n rights) → (s.ctx asid).valid = true → asid ≠ 0 → 0 < n →
        n + va.toNat % 65536 ≤ 65536 → spanCanonical va n = true → s.entryOf asid va = some (a, lvl, e) →
        (∀ i, i < 8 → s.isLocal (a + i) = true) →
        let low := 3 + 4 * rights.toNat
        (bit e 0 = true → (bits e 0 5 &&& low = low → onlySays (.operMap m g asid va n rights) counted 0) ∧
          (bits e 0 5 &&& low ≠ low → onlySays (.operMap m g asid va n rights) counted 2)) ∧
        (bit e 0 = false → lvl = 2 → (s.part (s.ctx asid).partNo).gran ≠ 0 → s.frames.length < 2 ^ 20 →
          ∃ t f, exec (.operMap m g asid va n rights) s = .next t ∧
          t.egress = said 0 [] ∧ f ∉ s.frames ∧ fromStack asid f ∧ t.homeWord a = word (f + low) ∧
          (∀ i, i < 65536 → (f + i < a ∨ a + 8 ≤ f + i) → t.homeByte (f + i) = 0) ∧
          ∀ x, s.isLocal x = true → (x < a ∨ a + 8 ≤ x) → (x < f ∨ f + 65536 ≤ x) → t.homeByte x = s.homeByte x)) ∧
      (∀ parts remote, signed (.join parts remote) → let ph := (s.part (parts.headD 0)).phase
        parts ≠ [] → (∀ p ∈ parts, p < 8 ∧ (s.part p).en = true ∧ (s.part p).dom = none) →
        ((∃ p ∈ parts, (s.part p).phase ≠ ph) → onlySays (.operJoinDomain m g parts remote) counted 4) ∧
        ((∀ p ∈ parts, (s.part p).phase = ph) → ∃ t, exec (.operJoinDomain m g parts remote) s = .next t ∧
          t = { counted with parts := t.parts, domRemote := t.domRemote, egress := said 0 [] } ∧ ∃ d ∈ parts, (∀ p ∈ parts, d ≤ p) ∧
            tget [] t.domRemote d = remote ∧ ∀ p, t.part p = if p ∈ parts then { s.part p with dom := some d } else s.part p)))) ∧
  (∀ (s : State) (dom : Nat), tget [] s.domRemote dom ≠ [] →
    (∃ t, exec (.memberUnreachable dom true) s = .next t ∧ t = { s with unreachable := s.unreachable.filter fun d => d != dom }) ∧
    (dom ∉ s.unreachable → s.boot.stage = .ready → ∃ t, exec (.memberUnreachable dom false) s = .next t ∧
      t = { s with
        unreachable := s.unreachable ++ [dom]
        egress := .report s.imagoReq 0 4 [word (864 * 2 ^ 48 + 6 * 2 ^ 40), 0, 0, 0, 0, word (dom * 2 ^ 16), (s.part dom).phase, 0] :: s.egress
        imagoReq := s.imagoReq + 1 } ∧
      exec (.phaseBoundary dom) t = .next t))

/-- Messages of contexts (R307, R326, R339, R361, R392, R398, R405-R409, R430), each with a good header: what LOAD does with a
segment, and with the object that it completes; a JOB and a SEQ take the lowest free entry; a CTRL request is kept for the next
boundary, but a job's cancel acts at once, and JOBEND follows once every launch that had completed has its final status (log
60); DATA goes through existing translations; REPLAY; the signed export of the log. A request that its state does not allow gets
code 4, one of another context's job or sequence code 2, and has no effect. The model's readings: one CTRL request of a sequence
waits at a time, and those of a job in their order (log 43); job numbers are never freed (log 47); the graph instance address is
not used, and JOBEND is part of the digest (log 30); connections (log 49); sections at base plus offset (log 50); what a replay
runs (log 70); no message is answered while a boundary of its context is under way (log 20). -/
def Obligations.ContextMessages : Prop :=
  (∀ (s : State) (m : MsgHdr),
    let ty := bits m.w0 24 8
    let asid := bits m.w2 0 10
    let limits := bits m.w0 0 16 = 0x1A96 ∧ bits m.w0 16 8 = 1 ∧ bits m.w0 32 32 % 8 = 0 ∧ 32 ≤ bits m.w0 32 32 ∧
      bits m.w0 32 32 ≤ 65536 ∧ bits m.w2 10 54 = 0 ∧ m.w3 = 0
    let said := fun (code : Nat) (v : Word) (bs : List Byte) (q : List Egress) => Egress.status m.conn m.w1 code v bs :: q
    let onlySays := fun (i : Instr) (code : Nat) => ∃ t, exec i s = .next t ∧ t = { s with egress := said code 0 [] s.egress }
    (s.boot.stage = .ready → (m.conn ≠ 2 ^ 32 ∨ s.boot.debug = true) → limits → asid = tget 0 s.conns m.conn → s.mail = [] → s.poison = [] →
      s.bnd = [] →
      (∀ (base total off : Word) (bs : List Byte) (old : Option Partial), ty = 2 → bits m.w0 32 32 = 64 + bs.length → 1 ≤ total.toNat →
        total.toNat ≤ 2 ^ 32 → off.toNat % 8 = 0 → base.toNat % 64 = 0 →
        s.partials.find? (fun p => p.conn == m.conn && p.base == base) = old →
        let got : Tab Byte := match old with | some p => if p.total = total.toNat then p.got else [] | none => []
        let clash := ∃ i x, i < bs.length ∧ tget? got (off.toNat + i) = some x ∧ x ≠ bs.getD i 0
        let i := Instr.load m base total off bs
        (total.toNat < off.toNat + bs.length ∨ clash → onlySays i 1) ∧
        (off.toNat + bs.length ≤ total.toNat → ¬clash →
          (old = none → 16 ≤ (s.partials.filter fun p => p.conn == m.conn).length → onlySays i 3) ∧
          ((old ≠ none ∨ (s.partials.filter fun p => p.conn == m.conn).length < 16) → ∃ got' : Tab Byte,
            (tsorted got = true → tsorted got' = true) ∧
            (∀ x, tget? got' x = if off.toNat ≤ x ∧ x < off.toNat + bs.length then some (bs.getD (x - off.toNat) 0) else tget? got x) ∧
            let rest := s.partials.filter fun p => !(p.conn == m.conn && p.base == base)
            (got'.length ≠ total.toNat → 
              let now : Partial := { conn := m.conn, base := base, total := total.toNat, got := got' }
              ∃ t, exec i s = .next t ∧ t = { s with partials := now :: rest, egress := said 0 0 [] s.egress }) ∧
            (got'.length = total.toNat → ∃ t, exec i s = .next t ∧
              match State.loadObject { s with partials := rest } asid base (got'.map fun e => e.2) with
              | none => t = { s with partials := rest, egress := said 2 0 [] s.egress }
              | some s' => t = { s' with egress := said 0 0 [] s'.egress })))) ∧
      (∀ words graph record qdist n, ty = 3 → jobOk words = true → asid ≠ 0 → tsorted s.recording = true →
        (bit (s.ctx asid).w0 63 = false → onlySays (.job m words graph record qdist) 2) ∧
        ((∀ k, k < 256 → (s.job k).state ≠ 0) → bit (s.ctx asid).w0 63 = true → onlySays (.job m words graph record qdist) 3) ∧
        (bit (s.ctx asid).w0 63 = true → n < 256 → (s.job n).state = 0 → (∀ k, k < n → (s.job k).state ≠ 0) →
          ∃ t, exec (.job m words graph record qdist) s = .next t ∧
            t = { s with jobs := t.jobs, recording := t.recording, egress := said 0 (word n) [] s.egress } ∧
            (record = false → tget? t.recording n = none) ∧
            (record = true → tget? t.recording n = some (.config asid ((List.range 7).map fun i => (s.ctx asid).word 0 (i + 1))
              ((List.range 8).map (t.job n).word) :: .admission (.job m words graph record qdist) asid n [] :: (s.ctx asid).loaded.reverse)) ∧
            (∀ k, k ≠ n → tget? t.recording k = tget? s.recording k) ∧ (∀ k, k ≠ n → tget? t.jobs k = tget? s.jobs k) ∧
            let w := fun (i : Nat) => words.getD i 0
            tget? t.jobs n = some
            { state := 1, seqctl := bit (w 0) 59, kclose := bit (w 0) 58, kcancel := bit (w 0) 57, auto := bit (w 0) 56,
              prio := bits (w 0) 48 8, asid := asid, batchMax := bits (w 0) 0 11, graph := w 1, brec := w 2, scrbase := w 3,
              kvstride := bits (w 4) 32 16, conn := m.conn, record := record, qdist := qdist % 2 ^ 32 })) ∧
      (∀ b n, ty = 4 → seqBodyOk b = true →
        let j := s.job b.job
        let ours := j.asid = asid ∧ 1 ≤ j.state ∧ j.state ≤ 3
        (¬ours → onlySays (.seq m b) 2) ∧
        (ours → (∀ k, k < 65536 → (tget? s.seqs k).isSome = true) → onlySays (.seq m b) 3) ∧
        (ours → n < 65536 → tget? s.seqs n = none → (∀ k, k < n → (tget? s.seqs k).isSome = true) → ∃ t, exec (.seq m b) s = .next t ∧
          t = { s with seqs := t.seqs, recording := t.recording, egress := said 0 (word n) [] s.egress } ∧
          (∀ k, k ≠ n → tget? t.seqs k = tget? s.seqs k) ∧
          tget? t.seqs n = some
          { wbase := b.wbase, mode := b.mode, prio := b.prio, wsize := b.wsize,
            state := if b.state = 1 ∧ b.kvroot = 0 then 0 else b.state, lend := b.lend, job := b.job, asid := asid, kvroot := b.kvroot,
            fmap := b.fmap, thr := b.thr, tht := b.tht, thf := b.thf, key := b.key, pen := b.pen, penlen := b.penlen, conn := m.conn, admitted := true })) ∧
      (∀ n, ty = 5 →
        let j := s.job n
        let none_ := tget? s.jobs n = none ∨ j.state = 0 ∨ j.asid ≠ asid
        let asks := fun (i : Instr) (states : List Nat) (r : JobReq) => (none_ → onlySays i 2) ∧
          (¬none_ → j.state ∉ states → onlySays i 4) ∧
          (¬none_ → j.state ∈ states → ∃ t, exec i s = .next t ∧ t = { s with jobs := t.jobs, egress := said 0 (word n) [] s.egress } ∧
            tget? t.jobs n = some { j with reqs := j.reqs ++ [r] } ∧ ∀ k, k ≠ n → tget? t.jobs k = tget? s.jobs k)
        asks (.ctrlJobHold m n) [1, 2] .hold ∧ asks (.ctrlJobResume m n) [3] .resume ∧ asks (.ctrlJobFinish m n) [1, 2, 3] .finish ∧
        (none_ → onlySays (.ctrlJobCancel m n) 2) ∧ (¬none_ → 4 ≤ j.state → j.state ≤ 5 → onlySays (.ctrlJobCancel m n) 4) ∧
        (let graph := tget? s.graphs (gkey asid j.gcur)
         let final := fun (lid : Nat) => 2 ≤ (s.launch (gkey asid lid)).st
         let settled := ∀ gr, graph = some gr → ∀ lid ∈ gr.nodes, tget? s.launches (gkey asid lid) ≠ none ∧
           (gr.st ≠ 1 ∨ s.nodeOver asid lid = true → final lid)
         ¬none_ → j.state < 4 → ∃ t, exec (.ctrlJobCancel m n) s = .next t ∧
          (settled → ∃ ws, t.egress = said 0 (word n) [] (.jobend j.conn s.imagoReq asid n 5 ws :: s.egress) ∧
            t.job n = { j with closed := true, phaseCancelled := true, state := 5, owesEnd := false, out := j.out ++ bytesOf (word n :: 5 :: ws) }) ∧
          ((∃ gr lid, graph = some gr ∧ lid ∈ gr.nodes ∧ s.nodeOver asid lid = true ∧ ¬final lid) → t.egress = said 0 (word n) [] s.egress ∧
            t.job n = { j with closed := true, phaseCancelled := true, state := 5, owesEnd := true }) ∧
          ∀ gr, graph = some gr → gr.st = 1 → s.graphOver asid gr = false →
            tget? t.graphs (gkey asid j.gcur) = some { gr with st := 3, count := gr.nodes.length })) ∧
      (∀ n q, ty = 5 → tget? s.seqs n = some q →
        let asks := fun (i : Instr) (op : Nat) (may : Prop) => ((q.reserved = true ∨ q.asid ≠ asid) → onlySays i 2) ∧
          (q.reserved = false → q.asid = asid → (¬may ∨ (tget? s.ctls n).isSome = true) → onlySays i 4) ∧
          (q.reserved = false → q.asid = asid → may → tget? s.ctls n = none → ∃ t, exec i s = .next t ∧
            t = { s with ctls := t.ctls, egress := said 0 (word n) [] s.egress } ∧ ∀ k, tget? t.ctls k = if k = n then some op else tget? s.ctls k)
        asks (.ctrlSeqPause m n) 0 (q.state = 2) ∧ asks (.ctrlSeqResume m n) 1 ((q.state = 3 ∧ q.done = false) ∨ q.state = 4) ∧
        asks (.ctrlSeqSwap m n) 2 (q.state = 3) ∧ asks (.ctrlSeqRelease m n) 3 (q.state = 0 ∨ q.state = 3 ∨ q.state = 4)) ∧
      (∀ va bs l s1, ty = 6 → spanCanonical va bs.length = true →
        (∀ e, s.xlateSpan asid 2 .write va bs.length = (.error e, s1) → ∃ t, exec (.dataWrite m va bs) s = .next t ∧
          t = { s1 with egress := said 2 0 [] s1.egress } ∧ t.home = s.home) ∧
        (s.xlateSpan asid 2 .write va bs.length = (.ok l, s1) → l.all s.isLocal = true → l.Nodup → ∃ t, exec (.dataWrite m va bs) s = .next t ∧
          t.egress = said 0 0 [] s.egress ∧ l.map t.homeByte = bs ∧ (∀ x, s.isLocal x = true → x ∉ l → t.homeByte x = s.homeByte x) ∧
          t.threads = s.threads)) ∧
      (∀ va n l s1, ty = 6 → n ≤ 65504 → spanCanonical va n = true →
        (∀ e, s.xlateSpan asid 2 .read va n = (.error e, s1) → ∃ t, exec (.dataRead m va n) s = .next t ∧
          t.egress = said 2 0 [] s.egress ∧ t.home = s.home) ∧
        (s.xlateSpan asid 2 .read va n = (.ok l, s1) → l.all s.isLocal = true → s.poison = [] → ∃ t, exec (.dataRead m va n) s = .next t ∧
          t.egress = said 0 0 (l.map s.homeByte) s.egress ∧ t.home = s.home ∧ t.threads = s.threads)) ∧
      (∀ recs, ty = 7 → ((∃ r ∈ recs, ∃ a, recAsid r = some a ∧ a ≠ asid) → onlySays (.replay m recs) 2) ∧
        ((∀ r ∈ recs, ∀ a, recAsid r = some a → a = asid) → ∃ t, exec (.replay m recs) s = .next t ∧
          t = { s with
            replayed := some (recs.map fun r => match r with | .admission q a j k => .admission (requestOn q m.conn) a j k | r => r)
            egress := said 0 0 [] s.egress }))) ∧
    (s.boot.stage = .recovery → ∀ (base total off : Word) (bs : List Byte), bits m.w0 32 32 = 64 + bs.length → limits → ty = 2 → asid = 0 →
      m.conn = 2 ^ 32 → base.toNat ≤ 1 → 1 ≤ total.toNat → total.toNat ≤ 64 * 2 ^ 20 → off.toNat % 8 = 0 → off.toNat + bs.length ≤ total.toNat →
      (s.boot.nodebug = true → exec (.load m base total off bs) s = .next s) ∧
      (∀ old, s.boot.nodebug = false → s.partials.find? (fun p => p.conn == m.conn && p.base == base) = old →
        (old ≠ none ∨ (s.partials.filter fun p => p.conn == m.conn).length < 16) →
        let got : Tab Byte := match old with | some p => if p.total = total.toNat then p.got else [] | none => []
        let clash := ∃ i x, i < bs.length ∧ tget? got (off.toNat + i) = some x ∧ x ≠ bs.getD i 0
        (clash → onlySays (.load m base total off bs) 1) ∧
        (¬clash → ∃ t, exec (.load m base total off bs) s = .next t ∧
        t = { s with boot := { s.boot with flash := t.boot.flash }, partials := t.partials, egress := said 0 0 [] s.egress } ∧
        let at_ := base.toNat * (64 * 2 ^ 20) + off.toNat
        ∀ x, t.boot.flash.read x = if at_ ≤ x ∧ x < at_ + bs.length then bs.getD (x - at_) 0 else s.boot.flash.read x)))) ∧
  (∀ (s s' : State) (asid : Nat) (base : Word) (f : File), s.loadObject asid base f = some s' → ∃ l, f.sections = some l ∧
    let a := (s.ctx asid).admitW
    match f.signature l with
    | none => bit a 0 = false
    | some g => (∃ x, sectionOf l 12 = some x ∧ g.covered = x.off ∧ g.alg = 1 ∧ g.curve = 1 ∧
          Config.ecdsaVerifies g.key (sha384 (f.take x.off)) g.r g.s = true) ∧
        (bit a 1 = true ∨ ∃ i, i < bits a 8 8 ∧
          (s.readHomeVa asid 1 ((a &&& ~~~(0xFFFF : Word)) + word (48 * i)) 48).1 = some g.key)) ∧
  (∀ (s : State) (asid : Nat) (base : Word) (f g : File) (x : Section) (a lvl : Nat) (e : Word), f.relocate base [x] = some g →
    loadable x.ty = true → 0 < x.size → x.size + (base + word x.off).toNat % 65536 ≤ 65536 → spanCanonical (base + word x.off) x.size = true →
    (base + word x.off).toNat % 2 ^ x.al = 0 → s.entryOf asid (base + word x.off) = some (a, lvl, e) → bit e 0 = true →
    let at_ := ptePa e + vaBits (base + word x.off) % spanOf lvl
    (∀ i, i < x.size → s.isLocal (at_ + i) = true) → (x.ty = 5 ∨ (g.bytesOf x).length = x.size) →
    (bits e 0 5 &&& sectionLow x.ty ≠ sectionLow x.ty → s.loadFile asid base f [x] = none) ∧
    (bits e 0 5 &&& sectionLow x.ty = sectionLow x.ty → ∃ s', s.loadFile asid base f [x] = some s' ∧
      (∀ i, i < x.size → s'.homeByte (at_ + i) = if x.ty = 5 then 0 else (g.bytesOf x).getD i 0) ∧
      ∀ y, s.isLocal y = true → (y < at_ ∨ at_ + x.size ≤ y) → s'.homeByte y = s.homeByte y)) ∧
  (∀ (s : State) (b : Nat), s.boot.stage = .ready → s.log.exported < b → b < s.log.tail → s.poison = [] →
    let recs := (List.range (b - s.log.exported)).map fun i => tget [] s.log.recs ((s.log.exported + 1 + i) % s.log.lcap)
    let last := chainOf (recs.getLastD [])
    ∃ t sig, exec (.logx b) s = .next t ∧ t = { s with log := { s.log with exported := b, hexp := last }, egress := t.egress, imagoReq := t.imagoReq } ∧
      sig = identitySig (sha384 (leBytes 8 (s.log.exported + 1) ++ leBytes 8 b ++ s.log.hexp ++ last)) ∧ sig.length = 96 ∧
      t.egress = .logx s.imagoReq (s.log.exported + 1) b recs sig :: s.egress)

/-! ### Translation -/

/-- The translation of one access (R342-R347), with nothing in the caches and no poisoned line:
the walk reads one entry a level from the root on,
and its first failure ends it with the TCODE and level named; a leaf gives frame + offset, and its rights are checked, U
first. Then the caches (R352): whatever they hold, a local translation is the walk's or a cached leaf's; an access of a context
to another device that gets no reply fails with TCODE 0x7 (R401). ASID 0 may use every stack of this device, and one set of
cached entries stands for every cache (log 15, log 29). -/
def Obligations.Translation : Prop :=
  (∀ (s : State) (asid lvl : Nat) (acc : Acc) (va e : Word) (k : Nat), s.tlb = [] → s.walkc = [] → s.poison = [] →
    let root := (s.ctx asid).ptroot
    let pa := fun (e : Word) => bits e 16 34 * 2 ^ 16
    let mine := fun (dpa : Nat) => asid = 0 ∨ (s.part (s.ctx asid).partNo).gran.getLsbD (dpa / 2 ^ 36 % 8) = true
    let local_ := fun (dpa : Nat) => dpa / 2 ^ 39 = s.boot.devnum
    let reserved := fun (e : Word) => bits e 50 14 ≠ 0 ∨ bits e 5 7 ≠ 0
    let node := fun (e : Word) => bit e 0 = true ∧ ¬reserved e ∧ bit e 1 = false ∧ bits e 2 3 = 0 ∧ local_ (pa e) ∧ mine (pa e)
    let e0 := s.homeWord (pa root + 8 * bits va 42 13)
    let e1 := s.homeWord (pa e0 + 8 * bits va 29 13)
    let e2 := s.homeWord (pa e1 + 8 * bits va 16 13)
    let rooted := bit root 0 = true ∧ local_ (pa root) ∧ mine (pa root)
    let at_ := rooted ∧ ((k = 0 ∧ e = e0) ∨ (k = 1 ∧ node e0 ∧ e = e1) ∨ (k = 2 ∧ node e0 ∧ node e1 ∧ e = e2))
    let span := if k = 0 then 2 ^ 42 else if k = 1 then 2 ^ 29 else 2 ^ 16
    let dpa := pa e + va.toNat % span
    let fails := fun (tcode level : Nat) => (s.xlate asid lvl acc va).1 = .fail tcode level
    (bit root 0 = false → fails 6 0) ∧ (bit root 0 = true → ¬rooted → fails 5 0) ∧
    (at_ →
      (bit e 0 = false → fails 1 k) ∧ (bit e 0 = true → reserved e → fails 5 k) ∧
      (bit e 0 = true → ¬reserved e → bit e 1 = false → (k = 2 ∨ ¬node e) → fails 5 k) ∧
      (bit e 0 = true → ¬reserved e → bit e 1 = true →
        (pa e % span ≠ 0 ∨ (local_ dpa ∧ ¬mine dpa) → fails 5 k) ∧
        (pa e % span = 0 → local_ dpa → mine dpa → s.boot.devnum < 1536 →
          (lvl = 0 → bit e 4 = false → fails 4 k) ∧
          (¬(lvl = 0 ∧ bit e 4 = false) →
            ((acc = .write ∨ acc = .atomic) → bit e 2 = false → fails 2 k) ∧ (acc = .fetch → bit e 3 = false → fails 3 k) ∧
            ((acc = .read ∨ ((acc = .write ∨ acc = .atomic) ∧ bit e 2 = true) ∨ (acc = .fetch ∧ bit e 3 = true)) →
              ∃ t, s.xlate asid lvl acc va = (.ok dpa e, t) ∧ t = { s with tlb := t.tlb, walkc := t.walkc, ctr := t.ctr }))) ∧
        (pa e % span = 0 → ¬local_ dpa → dpa / 2 ^ 39 < 1536 → rightsFail acc lvl e = 0 → s.cur.noReply = true → fails 7 k)))) ∧
  (∀ (s t : State) (asid lvl : Nat) (acc : Acc) (va e : Word) (dpa : Nat), s.walkc = [] → s.isLocal dpa = true →
    s.xlate asid lvl acc va = (.ok dpa e, t) →
    (State.xlate { s with tlb := [] } asid lvl acc va).1 = .ok dpa e ∨
    ∃ c ∈ s.tlb, c.asid = asid ∧ c.entry = e ∧ c.idx = vaBits va / spanOf c.lvl ∧ dpa = ptePa e + vaBits va % spanOf c.lvl)

/-! ### Reset, and what every step keeps -/

/-- The machine at reset (R321, R322, R323, R326, R389, R412, R415): the fields whose tables give a reset value, the empty key
slots, the clock and the other values that the model names where the spec gives none (log 5), and the invariant. Flash is
empty there (log 6), so booting ends in recovery. -/
def Obligations.ResetState : Prop :=
  let s := State.reset
  (∀ asid, s.ctx asid = {} ∧ bit (s.ctx asid).w0 63 = false ∧ (s.ctx asid).ptroot = 0 ∧ (s.ctx asid).fpol = 0) ∧
  (∀ p, (s.part p).en = false ∧ (s.part p).run = false ∧ (s.part p).gran = 0 ∧ (s.part p).halt = none) ∧
  (∀ n, (s.job n).state = 0 ∧ (s.job n).phcnt = 0) ∧ s.keyIdx = 0 ∧ s.ctxSel = 0 ∧ (∀ k, s.keyWords k = List.replicate 8 0) ∧
  s.log.tail = 1 ∧ s.log.exported = 0 ∧ s.log.lost = 0 ∧ s.log.head = List.replicate 48 0 ∧
  allZero s.boot.opkey = true ∧ s.boot.svnmin = 0 ∧ s.boot.nodebug = false ∧ s.clock = 1250 ∧ s.threads = [] ∧ s.home = [] ∧
  (∃ t, exec .bootSequence s = .next t ∧ t.boot.stage = .recovery ∧ t.boot.failA = 2 ∧ t.boot.failB = 2) ∧ s.Inv

/-- Every step keeps the invariant, and no fuse falls back (R412): SVNMIN never falls, NODEBUG stays set, and an OPKEY once
written stays. -/
def Obligations.StepKeepsInvariant : Prop :=
  ∀ s t : State, s.Inv → step s = .next t →
    t.Inv ∧ s.boot.svnmin ≤ t.boot.svnmin ∧ (s.boot.nodebug = true → t.boot.nodebug = true) ∧
    (allZero s.boot.opkey = false → t.boot.opkey = s.boot.opkey)

/-! ### Floating point -/

/-- The value of every encoding of the five formats (R46): the encoding with sign S, exponent E and fraction F is the zero,
subnormal, normal, infinite or NaN value of the table, with the table's canonical NaN and largest finite value; magnitude
codes are ordered as their values are. -/
def Obligations.EncodingValues : Prop :=
  (fmtF32.w, fmtF32.p, fmtF32.bias, fmtF32.maxMag, fmtF32.nan) = (32, 23, 127, 0x7F7FFFFF, 0x7FC00000) ∧
  (fmtF16.w, fmtF16.p, fmtF16.bias, fmtF16.maxMag, fmtF16.nan) = (16, 10, 15, 0x7BFF, 0x7E00) ∧
  (fmtBf16.w, fmtBf16.p, fmtBf16.bias, fmtBf16.maxMag, fmtBf16.nan) = (16, 7, 127, 0x7F7F, 0x7FC0) ∧
  (fmtE4m3.w, fmtE4m3.p, fmtE4m3.bias, fmtE4m3.maxMag, fmtE4m3.nan) = (8, 3, 7, 0x7E, 0x7F) ∧
  (fmtE5m2.w, fmtE5m2.p, fmtE5m2.bias, fmtE5m2.maxMag, fmtE5m2.nan) = (8, 2, 15, 0x7B, 0x7E) ∧
  ∀ f ∈ [fmtF32, fmtF16, fmtBf16, fmtE4m3, fmtE5m2], ∀ (neg : Bool) (e frac : Nat), e ≤ f.emax → frac < 2 ^ f.p →
    let v := f.signed neg (e * 2 ^ f.p + frac)
    (e = f.emax → f = fmtE4m3 → frac = 7 → f.decode v = .nan false) ∧
    (e = f.emax → f ≠ fmtE4m3 → f.decode v = if frac = 0 then .inf neg else .nan (decide (frac < 2 ^ (f.p - 1)))) ∧
    ((e < f.emax ∨ (f = fmtE4m3 ∧ frac ≠ 7)) → ∃ m q, f.decode v = .num neg m q ∧ (m = 0 ↔ e = 0 ∧ frac = 0) ∧
      (e = 0 → (FVal.num false m q).toRat = (frac : ℚ) * 2 ^ (1 - (f.bias : Int) - f.p)) ∧
      (e ≠ 0 → (FVal.num false m q).toRat = (1 + (frac : ℚ) * 2 ^ (-(f.p : Int))) * 2 ^ ((e : Int) - f.bias)) ∧
      (FVal.num false m q).toRat = f.magVal (e * 2 ^ f.p + frac)) ∧
    (∀ c, f.magVal c < f.magVal (c + 1))

/-- The one rounding of the model is IEEE 754's (R48, R49): in every format, mode and sign, an exact nonzero dyadic number is
rounded to the magnitude that the mode names, and what is delivered for it saturates, overflows and flushes as R49 and R52
say. -/
def Obligations.RoundingIsIeee : Prop :=
  ∀ f ∈ [fmtF32, fmtF16, fmtBf16, fmtE4m3, fmtE5m2], ∀ (fl : Bool) (rm : Rm) (v : FVal), f.delivers fl rm v (f.result fl rm v).1

/-- Every floating-point addition, product and fused product, sub-element by sub-element, in the order of tests of R166;
the sum and product are exact before their one rounding. -/
def Obligations.FloatArithmeticResults : Prop :=
  (∀ (h : Hdr) (ty : FpTy) (rm : Rm) (d : Dst) (a b : Src),
    let result := fun (op : FpFmt → Bool → FVal → FVal → FVal → Nat → Prop) (s : State) (u : Nat) (th : Thread) (r : Word) =>
      felems ty (readSrc (laneOf u) th a) (readSrc (laneOf u) th b) (readDst th d) r fun f x y z r =>
        op f s.flushBit (f.fin s.flushBit x).1 (f.fin s.flushBit y).1 (f.fin s.flushBit z).1 r
    gives (.fadd h ty rm d a b) h d (result fun f fl x y _ r =>
      if x.isNan ∨ y.isNan ∨ infInf x y then r = f.nan else f.delivers fl rm (exactAdd rm x y) r) ∧
    gives (.fsub h ty rm d a b) h d (result fun f fl x y _ r =>
      if x.isNan ∨ y.isNan ∨ infInf x y.negate then r = f.nan else f.delivers fl rm (exactAdd rm x y.negate) r) ∧
    gives (.fmul h ty rm d a b) h d (result fun f fl x y _ r =>
      if x.isNan ∨ y.isNan ∨ zeroInf x y then r = f.nan else f.delivers fl rm (exactMul x y) r) ∧
    gives (.fma h ty rm d a b) h d (result fun f fl x y z r =>
      if x.isNan ∨ y.isNan ∨ z.isNan ∨ zeroInf x y ∨ infInf (exactMul x y) z then r = f.nan
      else f.delivers fl rm (exactAdd rm (exactMul x y) z) r)) ∧
  (∀ (rm : Rm) (n k : Bool) (m m' : Nat) (e e' : Int),
    (exactAdd rm (.num n m e) (.num k m' e')).toRat = (FVal.num n m e).toRat + (FVal.num k m' e').toRat ∧
    (exactMul (.num n m e) (.num k m' e')).toRat = (FVal.num n m e).toRat * (FVal.num k m' e').toRat)

/-- The flags of floating-point instructions, raised by any lane and sub-element (R47, R49-R52, R59, R166-R168, R170-R175). INV:
an operand is a signalling NaN, or the operation is invalid. DZ: a finite nonzero number is divided by zero, or a special
function has its pole at a zero operand. SAT: a narrow result is finite and rounds past the largest finite value, or is infinite
in a format without infinity. FLUSH: under the launch's flush bit a subnormal f32 or f16 operand is read, or such a result would
be written; of the special functions' results only flog2's are stated here. -/
def Obligations.FloatArithmeticFlags : Prop :=
  (∀ (h : Hdr) (ty : FpTy) (rm : Rm) (d : Dst) (a b : Src),
    let lane := fun (op : FpFmt → Bool → Nat → Nat → Nat → Prop) (s : State) (u : Nat) (th : Thread) =>
      let (f, n) := fpShape ty
      ∃ i, i < n ∧ op f s.flushBit (sub_ (readSrc (laneOf u) th a) f.w i) (sub_ (readSrc (laneOf u) th b) f.w i) (sub_ (readDst th d) f.w i)
    let some_ := fun (op : FVal → FVal → FVal → Prop) => lane fun f fl v w z => op (f.fin fl v).1 (f.fin fl w).1 (f.fin fl z).1
    let rounds := fun (i : Instr) (reads : Nat) (result : FpFmt → FVal → FVal → FVal → Nat → Bool → ℝ → Prop) =>
      let exact := fun (f : FpFmt) (fl : Bool) (v w z : Nat) => result f (f.fin fl v).1 (f.fin fl w).1 (f.fin fl z).1 w
      raisesFlag i h 0 (lane fun f fl v w z => ∃ n x, exact f fl v w z n x ∧ f.saturates rm n x) ∧
      raisesFlag i h 3 (lane fun f fl v w z => f.flushesIn fl v ∨ (2 ≤ reads ∧ f.flushesIn fl w) ∨ (3 ≤ reads ∧ f.flushesIn fl z) ∨
        ∃ n x, exact f fl v w z n x ∧ f.flushesOut fl rm n x)
    raisesFlag (.fadd h ty rm d a b) h 1 (some_ fun x y _ => x.isSig ∨ y.isSig ∨ infInf x y) ∧
    raisesFlag (.fsub h ty rm d a b) h 1 (some_ fun x y _ => x.isSig ∨ y.isSig ∨ infInf x y.negate) ∧
    raisesFlag (.fmul h ty rm d a b) h 1 (some_ fun x y _ => x.isSig ∨ y.isSig ∨ zeroInf x y) ∧
    raisesFlag (.fma h ty rm d a b) h 1 (some_ fun x y z => zeroInf x y ∨ x.isSig ∨ y.isSig ∨ z.isSig ∨
      (x.isNan = false ∧ y.isNan = false ∧ infInf (exactMul x y) z)) ∧
    raisesFlag (.fdiv h ty rm d a b) h 1 (some_ fun x y _ => x.isSig ∨ y.isSig ∨ (x.isInf ∧ y.isInf) ∨ (x.isZero ∧ y.isZero)) ∧
    raisesFlag (.fdiv h ty rm d a b) h 2 (some_ fun x y _ =>
      y.isZero ∧ x.isZero = false ∧ x.isInf = false ∧ x.isNan = false) ∧
    raisesFlag (.fsqrt h ty rm d a) h 1 (some_ fun x _ _ => x.isSig ∨ x.below) ∧
    raisesFlag (.frnd h ty rm d a) h 1 (some_ fun x _ _ => x.isSig) ∧
    raisesFlag (.fscale h ty rm d a b) h 1 (some_ fun x _ _ => x.isSig) ∧
    raisesFlag (.fmin h ty d a b) h 1 (some_ fun x y _ => x.isSig ∨ y.isSig) ∧
    raisesFlag (.fmax h ty d a b) h 1 (some_ fun x y _ => x.isSig ∨ y.isSig) ∧
    rounds (.fadd h ty rm d a b) 2 (fun _ x y _ _ => (exactAdd rm x y).isMag) ∧
    rounds (.fsub h ty rm d a b) 2 (fun _ x y _ _ => (exactAdd rm x y.negate).isMag) ∧
    rounds (.fmul h ty rm d a b) 2 (fun _ x y _ _ => (exactMul x y).isMag) ∧
    rounds (.fma h ty rm d a b) 3 (fun _ x y z _ => (exactAdd rm (exactMul x y) z).isMag) ∧
    (ty ≠ .e4m3x8 → ty ≠ .e5m2x8 →
      rounds (.fdiv h ty rm d a b) 2 (fun _ x y _ _ n q => ∃ k m e k' m' e', x = .num k m e ∧ y = .num k' m' e' ∧ m' ≠ 0 ∧ n = (k != k') ∧
        q = (m : ℝ) * 2 ^ e / ((m' : ℝ) * 2 ^ e')) ∧
      rounds (.fsqrt h ty rm d a) 1 (fun _ x _ _ _ n q => ∃ r : ℝ, x.isMag false r ∧ n = false ∧ q = Real.sqrt r) ∧
      rounds (.fscale h ty rm d a b) 1 (fun f x _ _ w n q => ∃ r, x.isMag n r ∧ q = r * 2 ^ toInt f.w true w) ∧
      raisesFlag (.frnd h ty rm d a) h 0 (fun _ _ _ => False) ∧
      raisesFlag (.frnd h ty rm d a) h 3 (lane fun f fl v _ _ => f.flushesIn fl v))) ∧
  (∀ (h : Hdr) (c : FCond) (ct : FCmpTy) (p : BitVec 3) (a b : Src), raisesFlag (.fsetp h c ct p a b) h 1 (fun s u th =>
    let f := match ct with | .f32 => fmtF32 | .f16 => fmtF16 | .bf16 => fmtBf16
    (f.fin s.flushBit (sub_ (readSrc (laneOf u) th a) f.w 0)).1.isSig ∨ (f.fin s.flushBit (sub_ (readSrc (laneOf u) th b) f.w 0)).1.isSig)) ∧
  (∀ (h : Hdr) (x2 : Bool) (d : Dst) (a : Src),
    let lane := fun (op : Bool → Nat → Prop) (s : State) (u : Nat) (th : Thread) =>
      ∃ i, i < (if x2 then 2 else 1) ∧ op s.flushBit (sub_ (readSrc (laneOf u) th a) 32 i)
    let some_ := fun (op : FVal → Prop) => lane fun fl v => op (fmtF32.fin fl v).1
    let flushes := fun (i : Instr) => ∀ (s : State) (bl : Block) (u : Nat) (th : Thread), kindOf s.lead_ ≠ .stew →
      tget? s.blocks s.curBlockKey = some bl → s.acts h u th → lane (fun fl v => fmtF32.flushesIn fl v) s u th →
      ∃ t bl', exec i s = .next t ∧ tget? t.blocks s.curBlockKey = some bl' ∧ bit bl'.bswAll 3 = true
    raisesFlag (.frcp h x2 d a) h 1 (some_ fun x => x.isSig) ∧ raisesFlag (.frcp h x2 d a) h 2 (some_ fun x => x.isZero) ∧
    raisesFlag (.frsqrt h x2 d a) h 1 (some_ fun x => x.isSig ∨ x.below) ∧ raisesFlag (.frsqrt h x2 d a) h 2 (some_ fun x => x.isZero) ∧
    raisesFlag (.fexp2 h x2 d a) h 1 (some_ fun x => x.isSig) ∧ raisesFlag (.fexp2 h x2 d a) h 2 (fun _ _ _ => False) ∧
    raisesFlag (.flog2 h x2 d a) h 1 (some_ fun x => x.isSig ∨ x.below) ∧ raisesFlag (.flog2 h x2 d a) h 2 (some_ fun x => x.isZero) ∧
    raisesFlag (.flog2 h x2 d a) h 3 (lane fun fl v => fmtF32.flushesIn fl v) ∧
    flushes (.frcp h x2 d a) ∧ flushes (.frsqrt h x2 d a) ∧ flushes (.fexp2 h x2 d a)) ∧
  (∀ (h : Hdr) (c : FCvt) (rm : Rm) (d : Dst) (a : Src),
    let f := (fcvtFmts c).1
    let g := (fcvtFmts c).2
    let operand := fun (u : Nat) (th : Thread) => sub_ (readSrc (laneOf u) th a) f.w 0
    let value := fun (s : State) (u : Nat) (th : Thread) => (f.fin s.flushBit (operand u th)).1
    raisesFlag (.fcvt h c rm d a) h 0 (fun s u th => ((value s u th).isInf ∧ g = fmtE4m3) ∨ ∃ n x, (value s u th).isMag n x ∧ g.saturates rm n x) ∧
    raisesFlag (.fcvt h c rm d a) h 1 (fun s u th => (value s u th).isSig) ∧
    raisesFlag (.fcvt h c rm d a) h 3 (fun s u th => f.flushesIn s.flushBit (operand u th) ∨
      ∃ n x, (value s u th).isMag n x ∧ g.flushesOut s.flushBit rm n x)) ∧
  ∀ (h : Hdr) (ic : ICvt) (rm : Rm) (d : Dst) (a : Src),
    let value := fun (s : State) (u : Nat) (th : Thread) => (fmtF32.fin s.flushBit (bits (readSrc (laneOf u) th a) 0 32)).1
    let limits : Option (Int × Int) := match ic with
      | .i32f32 => some (-(2 ^ 31), 2 ^ 31 - 1) | .n32f32 => some (0, 2 ^ 32 - 1)
      | .i64f32 => some (-(2 ^ 63), 2 ^ 63 - 1) | .n64f32 => some (0, 2 ^ 64 - 1) | _ => none
    raisesFlag (.icvt h ic rm d a) h 0 (fun s u th => ∃ lo hi, limits = some (lo, hi) ∧ ((value s u th).isInf ∨
      ∃ n x, ∃ k : Nat, (value s u th).isMag n x ∧ Rounds (fun c => (c : ℚ)) rm n x k ∧
        ((if n then -(k : Int) else k) < lo ∨ hi < if n then -(k : Int) else k))) ∧
    raisesFlag (.icvt h ic rm d a) h 1 (fun s u th => limits ≠ none ∧ (value s u th).isNan) ∧
    raisesFlag (.icvt h ic rm d a) h 3 (fun s u th => limits ≠ none ∧ fmtF32.flushesIn s.flushBit (bits (readSrc (laneOf u) th a) 0 32))

/-- fmin, fmax, fsetp and fclass (R167, R168, R169). -/
def Obligations.FloatOrderResults : Prop :=
  ∀ (h : Hdr) (ty : FpTy) (c : FCond) (ct : FCmpTy) (kt : FClassTy) (p : BitVec 3) (d : Dst) (a b : Src),
    let pick := fun (better : FVal → FVal → Bool) (s : State) (u : Nat) (th : Thread) (r : Word) =>
      felems ty (readSrc (laneOf u) th a) (readSrc (laneOf u) th b) 0 r fun f v w _ r =>
        let x := (f.fin s.flushBit v).1
        let y := (f.fin s.flushBit w).1
        let flushed := fun (v : Nat) (x : FVal) => if x.isZero then f.signed x.neg? 0 else v
        if x.isNan ∧ y.isNan then r = f.nan
        else if x.isNan then r = flushed w y
        else if y.isNan then r = flushed v x
        else r = if better y x then flushed w y else flushed v x
    gives (.fmin h ty d a b) h d (pick fun y x => fLt true y x) ∧
    gives (.fmax h ty d a b) h d (pick fun y x => fLt true x y) ∧
    setsPred (.fsetp h c ct p a b) h p (fun s u th r =>
      let f := match ct with | .f32 => fmtF32 | .f16 => fmtF16 | .bf16 => fmtBf16
      let x := (f.fin s.flushBit (sub_ (readSrc (laneOf u) th a) f.w 0)).1
      let y := (f.fin s.flushBit (sub_ (readSrc (laneOf u) th b) f.w 0)).1
      let un := x.isNan ∨ y.isNan
      r = true ↔ match c with
        | .uno => un | .ord => ¬un
        | .lt => fLt false x y | .gt => fLt false y x
        | .le => ¬un ∧ ¬fLt false y x | .ge => ¬un ∧ ¬fLt false x y
        | .eq => ¬un ∧ ¬fLt false x y ∧ ¬fLt false y x | .ne => un ∨ fLt false x y ∨ fLt false y x) ∧
    gives (.fclass h kt d a) h d (fun _ u th r =>
      let f := match kt with | .f32 => fmtF32 | .f16 => fmtF16 | .bf16 => fmtBf16 | .e4m3 => fmtE4m3 | .e5m2 => fmtE5m2
      let v := sub_ (readSrc (laneOf u) th a) f.w 0
      let x := f.decode v
      let sub := v / 2 ^ f.p % (f.emax + 1) = 0
      ∃ k, r = word (2 ^ k) ∧ k = match x with
        | .nan sig => if sig then 8 else 9
        | .inf neg => if neg then 0 else 7
        | .num neg m _ => if m = 0 then (if neg then 3 else 4) else if sub then (if neg then 2 else 5) else (if neg then 1 else 6)) ∧
    (∀ (zs n k : Bool) (m m' : Nat) (e e' : Int), fLt zs (.num n m e) (.num k m' e') = true ↔
      (FVal.num n m e).toRat < (FVal.num k m' e').toRat ∨ (zs = true ∧ m = 0 ∧ m' = 0 ∧ n = true ∧ k = false))

/-- Division, square root, rounding to an integer and scaling (R170, R171, R173, R68): the special operands of the tables,
and the correctly rounded quotient, root, integer and product otherwise. -/
def Obligations.FloatDivideRootResults : Prop :=
  ∀ (h : Hdr) (ty : FpTy) (rm : Rm) (d : Dst) (a b : Src),
    let result := fun (op : FpFmt → Bool → Nat → Nat → FVal → FVal → Nat → Prop) (s : State) (u : Nat) (th : Thread) (r : Word) =>
      felems ty (readSrc (laneOf u) th a) (readSrc (laneOf u) th b) 0 r fun f v w _ r =>
        op f s.flushBit v w (f.fin s.flushBit v).1 (f.fin s.flushBit w).1 r
    gives (.fdiv h ty rm d a b) h d (result fun f fl _ _ x y r => match x, y with
      | .nan _, _ | _, .nan _ | .inf _, .inf _ => r = f.nan
      | .inf n, .num k _ _ => f.delivers fl rm (.inf (n != k)) r
      | .num n _ _, .inf k => r = f.signed (n != k) 0
      | .num n m e, .num k m' e' =>
        if m' = 0 then (if m = 0 then r = f.nan else f.delivers fl rm (.inf (n != k)) r)
        else f.gets fl rm (n != k) ((m : ℝ) * 2 ^ e / ((m' : ℝ) * 2 ^ e')) r) ∧
    gives (.fsqrt h ty rm d a) h d (result fun f fl _ _ x _ r => match x with
      | .nan _ => r = f.nan
      | .inf n => if n then r = f.nan else f.delivers fl rm (.inf false) r
      | .num n m e => if m = 0 then r = f.signed n 0 else if n then r = f.nan else f.gets fl rm false (Real.sqrt ((m : ℝ) * 2 ^ e)) r) ∧
    gives (.frnd h ty rm d a) h d (result fun f _ v _ x _ r => match x with
      | .nan _ => r = f.nan
      | .inf _ => r = v
      | .num n m e => ∃ k m' e', Rounds (fun c => (c : ℚ)) rm n ((m : ℝ) * 2 ^ e) k ∧ f.decode r = .num n m' e' ∧
          (FVal.num false m' e').toRat = k) ∧
    gives (.fscale h ty rm d a b) h d (result fun f fl v w x _ r => match x with
      | .nan _ => r = f.nan
      | .inf _ => r = v
      | .num n m e => if m = 0 then r = f.signed n 0 else f.gets fl rm n ((m : ℝ) * 2 ^ e * 2 ^ toInt f.w true w) r)

/-- The special functions, for each f32 sub-element: the special operands of R63 to R66, and exact results where R67
guarantees them (frcp and flog2 at powers of two, fexp2 at integers, frsqrt at powers of four). -/
def Obligations.SpecialFunctionResults : Prop :=
  ∀ (h : Hdr) (x2 : Bool) (d : Dst) (a : Src),
    let result := fun (op : FVal → Nat → Prop) (s : State) (u : Nat) (th : Thread) (r : Word) =>
      felems (if x2 then .f32x2 else .f32) (readSrc (laneOf u) th a) 0 0 r fun f v _ _ r => op (f.fin s.flushBit v).1 r
    let inf := fmtF32.infMag
    let nan := fmtF32.nan
    let pow := fun (n : Bool) (k : Int) (r : Nat) => -126 ≤ k → k ≤ 127 → r = fmtF32.signed n ((127 + k).toNat * 2 ^ 23)
    gives (.frcp h x2 d a) h d (result fun x r => match x with
      | .nan _ => r = nan
      | .inf n => r = fmtF32.signed n 0
      | .num n m e => (m = 0 → r = fmtF32.signed n inf) ∧ (∀ j : Nat, m = 2 ^ j → pow n (-(j + e)) r)) ∧
    gives (.frsqrt h x2 d a) h d (result fun x r => match x with
      | .nan _ => r = nan
      | .inf n => r = if n then nan else 0
      | .num n m e => (m = 0 → r = fmtF32.signed n inf) ∧ (m ≠ 0 → n = true → r = nan) ∧
          (∀ (j : Nat) (i : Int), m = 2 ^ j → n = false → j + e = 2 * i → pow false (-i) r)) ∧
    gives (.fexp2 h x2 d a) h d (result fun x r => match x with
      | .nan _ => r = nan
      | .inf n => r = if n then 0 else inf
      | .num n m e => (128 ≤ (FVal.num n m e).toRat → r = inf) ∧ ((FVal.num n m e).toRat < -151 → r = 0) ∧
          (∀ k : Int, (FVal.num n m e).toRat = k → pow false k r)) ∧
    gives (.flog2 h x2 d a) h d (result fun x r => match x with
      | .nan _ => r = nan
      | .inf n => r = if n then nan else inf
      | .num n m e => (m = 0 → r = fmtF32.signed true inf) ∧ (m ≠ 0 → n = true → r = nan) ∧
          (∀ j : Nat, m = 2 ^ j → n = false → ∃ k m' e', fmtF32.decode r = .num k m' e' ∧
            (FVal.num k m' e').toRat = ((j + e : Int) : ℚ)))

/-- Conversions between formats and with integers (R174, R175, R51). -/
def Obligations.ConversionResults : Prop :=
  ∀ (h : Hdr) (c : FCvt) (ic : ICvt) (rm : Rm) (d : Dst) (a : Src),
    gives (.fcvt h c rm d a) h d (fun s u th r =>
      let (f, g) := match c with
        | .f16f32 => (fmtF32, fmtF16) | .bf16f32 => (fmtF32, fmtBf16) | .e4m3f32 => (fmtF32, fmtE4m3) | .e5m2f32 => (fmtF32, fmtE5m2)
        | .f32f16 => (fmtF16, fmtF32) | .f32bf16 => (fmtBf16, fmtF32) | .f32e4m3 => (fmtE4m3, fmtF32) | .f32e5m2 => (fmtE5m2, fmtF32)
      g.delivers s.flushBit rm (f.fin s.flushBit (sub_ (readSrc (laneOf u) th a) f.w 0)).1 r.toNat) ∧
    gives (.icvt h ic rm d a) h d (fun s u th r =>
      let w := readSrc (laneOf u) th a
      let toF := fun (x : Int) => ∃ c, Rounds fmtF32.magVal rm (decide (x < 0)) |(x : ℝ)| c ∧ r.toNat = fmtF32.signed (decide (x < 0)) c
      let toI := fun (n : Nat) (sg : Bool) =>
        let lo : Int := if sg then -(2 ^ (n - 1)) else 0
        let hi : Int := if sg then 2 ^ (n - 1) - 1 else 2 ^ n - 1
        let v : Int := if sg then r.toInt else r.toNat
        match (fmtF32.fin s.flushBit (bits w 0 32)).1 with
        | .nan _ => v = 0
        | .inf neg => v = if neg then lo else hi
        | .num neg m e => ∃ k : Nat, Rounds (fun c => (c : ℚ)) rm neg ((m : ℝ) * 2 ^ e) k ∧ v = max lo (min hi (if neg then -(k : Int) else k))
      match ic with
      | .f32i32 => toF (toInt 32 true (bits w 0 32)) | .f32n32 => toF (bits w 0 32)
      | .f32i64 => toF w.toInt | .f32n64 => toF w.toNat
      | .i32f32 => toI 32 true | .n32f32 => toI 32 false | .i64f32 => toI 64 true | .n64f32 => toI 64 false)

/-- The narrow formats: bfp.pack, bfp.unpack and sacc (R57, R176, R177, R178); dot products, nonzero tests and the random
number (R179, R180, R183). -/
def Obligations.NarrowFormatResults : Prop :=
  (∀ (h : Hdr) (b4 : Bool) (rm : Rm) (d : Dst) (a b : Src),
    let mmax := if b4 then 3 else 63
    let w := if b4 then 4 else 8
    gives (.bfpPack h b4 rm d a b) h d (fun s u th r =>
      let eOf := fun (sel : Nat) => bits (readSrc (laneOf u) th b) (8 * sel) 8
      let lo := if eOf 1 < eOf 0 then 1 else 0
      let hi := 1 - lo
      r.toNat < 2 ^ (2 * w) ∧ ∀ i, i < 2 →
        let put := fun (neg : Bool) (sel m : Nat) =>
          sub_ r w i = if m = 0 then 0 else (if neg then 2 ^ (w - 1) else 0) + sel * 2 ^ (w - 2) + m
        match (fmtF32.fin s.flushBit (sub_ (readSrc (laneOf u) th a) 32 i)).1 with
        | .nan _ => sub_ r w i = 0
        | .inf neg => put neg hi mmax
        | .num neg m e => ∃ k : Nat → Nat, (∀ sel, sel < 2 →
              Rounds (fun c => (c : ℚ)) rm neg ((m : ℝ) * 2 ^ e * 2 ^ (127 - (eOf sel : Int))) (k sel)) ∧
            if k lo ≤ mmax then put neg lo (k lo) else if k hi ≤ mmax then put neg hi (k hi) else put neg hi mmax) ∧
    gives (.bfpUnpack h b4 rm d a b) h d (fun s u th r => ∀ i, i < 2 →
      let v := sub_ (readSrc (laneOf u) th a) w i
      let m := v % 2 ^ (w - 2)
      let sel := v / 2 ^ (w - 2) % 2
      let e := bits (readSrc (laneOf u) th b) (8 * sel) 8
      if m = 0 then sub_ r 32 i = 0
      else fmtF32.gets s.flushBit rm (v.testBit (w - 1)) ((m : ℝ) * 2 ^ ((e : Int) - 127)) (sub_ r 32 i)) ∧
    gives (.sacc h rm d a b) h d (fun s u th r =>
      let acc := (fmtF32.fin s.flushBit (bits (readDst th d) 0 32)).1
      let sc := fun (k : Nat) => (bits (readSrc (laneOf u) th b) (8 * k) 8 : Int)
      let plane := fun (i : Nat) => toInt 32 true (sub_ (if i < 2 then readSrc (laneOf u) th a else th.reg (srcNum a + 1)) 32 (i % 2))
      match acc with
      | .nan _ => r = word fmtF32.nan
      | .inf n => r = word (fmtF32.signed n fmtF32.infMag)
      | .num n m e => ∃ c : Nat → Nat, fmtF32.decode (c 0) = .num n m e ∧ r = word (c 4) ∧ ∀ i, i < 4 →
          let k := sc (i / 2) + sc (2 + i % 2) - 254
          if plane i = 0 then c (i + 1) = c i
          else match fmtF32.decode (c i) with
            | .num n' m' e' => fmtF32.delivers s.flushBit rm
                (exactAdd rm (.num n' m' e') (.num (decide (plane i < 0)) (plane i).natAbs k)) (c (i + 1))
            | _ => c (i + 1) = c i)) ∧
  ∀ (h : Hdr) (sat : Bool) (rm : Rm) (d : Dst) (a b : Src),
    let idot := fun (n cnt : Nat) (sg : Bool) (_ : State) (u : Nat) (th : Thread) (r : Word) =>
      let x := toInt 32 sg (bits (readDst th d) 0 32) + ∑ i ∈ Finset.range cnt,
        toInt n sg (sub_ (readSrc (laneOf u) th a) n i) * toInt n sg (sub_ (readSrc (laneOf u) th b) n i)
      held (if sg then .i32 else .n32) r 0 = narrow (if sg then .i32 else .n32) sat x
    let fdot := fun (f : FpFmt) (n : Nat) (s : State) (u : Nat) (th : Thread) (r : Word) =>
      let z := (fmtF32.fin s.flushBit (bits (readDst th d) 0 32)).1
      let x := fun i => f.decode (sub_ (readSrc (laneOf u) th a) f.w i)
      let y := fun i => f.decode (sub_ (readSrc (laneOf u) th b) f.w i)
      let term := fun i => exactMul (x i) (y i)
      let sum : ℚ := z.toRat + ∑ i ∈ Finset.range n, (term i).toRat
      let infs := fun (neg : Bool) => z = .inf neg ∨ ∃ i, i < n ∧ term i = .inf neg
      r.toNat < 2 ^ 32 ∧
        if z.isNan ∨ (∃ i, i < n ∧ ((x i).isNan ∨ (y i).isNan ∨ zeroInf (x i) (y i))) ∨ (infs true ∧ infs false) then r = word fmtF32.nan
        else (infs true → r = word (fmtF32.signed true fmtF32.infMag)) ∧ (infs false → r = word fmtF32.infMag) ∧
          (¬infs true → ¬infs false → if sum = 0 then r.toNat % 2 ^ 31 = 0
            else fmtF32.gets s.flushBit rm (decide (sum < 0)) |(sum : ℝ)| r.toNat)
    gives (.pdot h (.i8x8 sat) d a b) h d (idot 8 8 true) ∧ gives (.pdot h (.n8x8 sat) d a b) h d (idot 8 8 false) ∧
    gives (.pdot h (.i16x4 sat) d a b) h d (idot 16 4 true) ∧ gives (.pdot h (.n16x4 sat) d a b) h d (idot 16 4 false) ∧
    gives (.pdot h (.e4m3x8 rm) d a b) h d (fdot fmtE4m3 8) ∧ gives (.pdot h (.e5m2x8 rm) d a b) h d (fdot fmtE5m2 8) ∧
    gives (.pdot h (.bf16x4 rm) d a b) h d (fdot fmtBf16 4) ∧
    (∀ v : NzView,
      let (w, n, k) := match v with
        | .b64 => (64, 1, 64) | .b32x2 => (32, 2, 32) | .b16x4 => (16, 4, 16) | .b8x8 => (8, 8, 8)
        | .f32x2 => (32, 2, 31) | .f16x4 => (16, 4, 15) | .bf16x4 => (16, 4, 15) | .e4m3x8 => (8, 8, 7) | .e5m2x8 => (8, 8, 7)
        | .bfp8 => (8, 8, 6) | .bfp4 => (4, 16, 2)
      let nz := fun (u : Nat) (th : Thread) (i : Nat) => i < n ∧ bits (readSrc (laneOf u) th a) (w * i) k ≠ 0
      gives (.nzmask h v d a) h d (fun _ u th r => ∀ i, r.getLsbD i = true ↔ nz u th i) ∧
      gives (.nzcnt h v d a) h d (fun _ u th r => r.toNat = ((Finset.range 16).filter fun i => nz u th i).card)) ∧
    gives (.rng h d a b) h d (fun _ u th r => ∃ x : Nat → Word, x 0 = readSrc (laneOf u) th b ∧ x 6 = r ∧ ∀ i, i < 6 →
      let y := readSrc (laneOf u) th a + word (i + 1) * 0x6A4CE3B1952F0D87
      let t := x i + y
      let q := (t ^^^ (t >>> 29)) * 0x9F3A6C51E08B27D5
      x (i + 1) = q ^^^ (q >>> 32))

/-! ### Block flags, pair words, dictionary codes -/

/-- flg.rd, flg.clr and flg.arm (R181, R182, R61): a thread to which every change of the status word is ordered reads the
word with all of them, in an order that keeps theirs and is settled from then on (that reading is log 10's; of a word with
changes that the thread has not seen nothing is said here); where every two changes whose order shows are ordered, that is
the order of issue; a clear takes away the OR of the true-guard lanes' masks and no arm bit; an arm takes its bits from the
highest-numbered true-guard lane and changes no flag; every true-guard lane has the change ordered before what it does next. -/
def Obligations.BlockFlagInstructions : Prop :=
  ∀ (h : Hdr) (d : Dst) (a : Src) (s : State) (bl : Block), s.grouped → tget? s.blocks s.curBlockKey = some bl →
    (∀ u th n, s.acts h u th → d.names n = true → (∀ r ∈ bl.flagLog, ∃ w ∈ r.who, th.sees (th.me u) w.1 w.2 = true) →
      ∃ t th' bl', exec (.flgRd h d) s = .next t ∧ tget? t.threads u = some th' ∧ tget? t.blocks s.curBlockKey = some bl' ∧
        th'.reg n = bl'.bswAll ∧
        ((bl'.flagLog.map fun r => { r with seen := [] }).Perm (bl.flagLog.map fun r => { r with seen := [] })) ∧
        (bl.flagLog.Pairwise (fun r q => r.clash q = true → r.before q = true) → th'.reg n = bl.bswAll)) ∧
    (∃ t bl', exec (.flgClr h a) s = .next t ∧ tget? t.blocks s.curBlockKey = some bl' ∧
      (∀ k, k < 4 → (bit bl'.bswAll k = true ↔ bit bl.bswAll k = true ∧ ¬∃ u th, s.acts h u th ∧ bit (readSrc (laneOf u) th a) k = true)) ∧
      (∀ k, 8 ≤ k → k < 12 → bit bl'.bswAll k = bit bl.bswAll k) ∧
      ∀ u th, s.acts h u th → ∃ th', tget? t.threads u = some th' ∧ ∀ r ∈ bl'.flagLog, r ∉ bl.flagLog → th'.seesFlag u r = true) ∧
    (∀ u, (s.active h.guard).getLast? = some u → ∃ t bl', exec (.flgArm h a) s = .next t ∧ tget? t.blocks s.curBlockKey = some bl' ∧
      (∀ k, k < 4 → bit bl'.bswAll k = bit bl.bswAll k ∧ bit bl'.bswAll (8 + k) = bit (readSrc (laneOf u) (s.thread u) a) k) ∧
      ∀ v th, s.acts h v th → ∃ th', tget? t.threads v = some th' ∧ ∀ r ∈ bl'.flagLog, r ∉ bl.flagLog → th'.seesFlag v r = true)

/-- A pair word (R114, R116, R110): each half writes what the full-word instruction named in R116 writes, both having read
before either writes; the flags are those of either; no other register changes, and no flag is counted. On a lane core the
first half's result enters the latches before the second's. An empty half does nothing. A dictionary code executes its entry
as if the entry stood at the code's PC (R118). The entry that executes is the word with the offset added to every register
field whose value is below 248, every other bit as it stood: latch, zero and %lane values, a suppressed destination,
immediates and the guard are not offset. A sum above 247 is out of budget (R32), and where the sum makes a register that
must be even odd it is a reserved register (R124). An entry of the wrong kind, an unsupplied one, or one that the offset
makes illegal takes the illegal-instruction trap with the cause that decoding it names (R120, R124). -/
def Obligations.CompressedWords : Prop :=
  (∀ (dist : BitVec 3) (wait : BitVec 12) (x y : PairHalf) (s : State),
    (∀ o d r o' d' r', x = .op o d r → y = .op o' d' r' → d ≠ d') → ∃ t, exec (.pairWord dist wait x y) s = .next t ∧
      (∀ u, u ∉ s.cur.tids → tget? t.threads u = tget? s.threads u) ∧
      (∀ u th, u ∈ s.cur.tids → tget? s.threads u = some th → ∃ th', tget? t.threads u = some th' ∧
        th' = { th with regs := th'.regs, lat := th'.lat, tick := th'.tick, pc := th.pc + word s.cur.next, wait := .none,
                        vectored := false, rewalk := false } ∧
        (∀ o d r, x = .op o d r ∨ y = .op o d r →
          ∃ t1 th1, exec (o.full d r) s = .next t1 ∧ tget? t1.threads u = some th1 ∧ th'.reg d.toNat = th1.reg d.toNat) ∧
        (∀ n, (∀ o d r, x = .op o d r ∨ y = .op o d r → d.toNat ≠ n) → th'.reg n = th.reg n) ∧
        (kindOf u = .lane → [th'.lat.b0, th'.lat.b1, th'.lat.b2, th'.lat.b3] = match x, y with
          | .empty, .empty => [th.lat.b0, th.lat.b1, th.lat.b2, th.lat.b3]
          | .op _ d _, .empty | .empty, .op _ d _ => [th'.reg d.toNat, th.lat.b0, th.lat.b1, th.lat.b2]
          | .op _ d _, .op _ e _ => [th'.reg e.toNat, th'.reg d.toNat, th.lat.b0, th.lat.b1])) ∧
      (∀ bl, kindOf s.lead_ ≠ .stew → tget? s.blocks s.curBlockKey = some bl → ∃ bl', tget? t.blocks s.curBlockKey = some bl' ∧
        ∀ k, k < 4 → (bit bl'.bswAll k = true ↔ bit bl.bswAll k = true ∨ ∃ o d r, (x = .op o d r ∨ y = .op o d r) ∧
          ∃ t1 b1, exec (o.full d r) s = .next t1 ∧ tget? t1.blocks s.curBlockKey = some b1 ∧ bit b1.bswAll k = true))) ∧
  (∀ (off : BitVec 6) (idx : BitVec 10) (s : State) (w : Word), kindOf s.lead_ = .lane →
    tget 0 (s.launchOf s.lead_).dict idx.toNat = w →
    (∀ i, decodeEntry off.toNat w = .ok i → ∃ t, exec (.dictionaryCode off idx) s = .next t ∧ exec i s = .next t) ∧
    (∀ c u th pc, decodeEntry off.toNat w = .error c → s.traps u th → s.vectors u 1 pc →
      ∃ t, exec (.dictionaryCode off idx) s = .next t ∧ Trapped s t u th 1 c.toNat 0 0 0 th.pc pc) ∧
    (2 ≤ bits w 62 2 → decodeEntry off.toNat w = .error 2) ∧ (w = 0 → decodeEntry off.toNat w = .error 3)) ∧
  (∀ (off : BitVec 6) (w : Word) (i : Instr), decodeEntry 0 w = .ok i →
    let sum := fun p : Nat => bits w p 8 + off.toNat
    let odd := ∃ f ∈ offsetFields i w, f.2 = true ∧ sum f.1 % 2 = 1
    let high := ∃ f ∈ offsetFields i w, 247 < sum f.1
    (odd → decodeEntry off.toNat w = .error 7) ∧ (¬odd → high → decodeEntry off.toNat w = .error 9) ∧
    (¬odd → ¬high → ∃ j v, decodeEntry off.toNat w = .ok j ∧ encode j = [v] ∧ (∀ f ∈ offsetFields i w, bits v f.1 8 = sum f.1) ∧
      ∀ k, k < 64 → (∀ f ∈ offsetFields i w, k < f.1 ∨ f.1 + 8 ≤ k) → bit v k = bit w k))

/-! ### Control flow -/

/-- bra, switch, nop and pref (R185, R186, R188, R192, R216): the PC of a thread whose guard is true moves to the target,
which ends its latch chain, or to the next instruction; nothing else of the machine changes. switch takes the lowest case
that equals its operand, else the default entry. -/
def Obligations.BranchResults : Prop :=
  ∀ (h : Hdr) (disp : BitVec 25) (n : BitVec 3) (a : Src) (d8 : BitVec 8) (payload t0 t1 t2 t3 t4 : Word),
    let go := fun (th : Thread) (k : Word) => { th with pc := th.pc + 2 * k, wait := .none, chain := {}, vectored := false, rewalk := false }
    moves (.bra h disp) h (fun _ _ th th' => th' = go th (disp.signExtend 64)) ∧
    moves (.nop h) h (fun s _ th th' => th' = th.finish h s.cur.next) ∧
    moves (.pref h a d8) h (fun s _ th th' => th' = th.finish h s.cur.next) ∧
    moves (.switch h n a payload t0 t1 t2 t3 t4) h (fun _ u th th' =>
      let v := readSrc (laneOf u) th a
      let case := fun (i : Nat) => (payload.extractLsb' (8 * i) 8).signExtend 64
      let entry := fun (i : Nat) => (([t0, t1, t2, t3, t4].getD (i / 2) 0).extractLsb' (32 * (i % 2)) 32).signExtend 64
      ∃ j, th' = go th (entry j) ∧ ((j ≤ n.toNat ∧ v = case j ∧ ∀ i, i < j → v ≠ case i) ∨ (j = 8 ∧ ∀ i, i ≤ n.toNat → v ≠ case i)))

/-- trap and brk (R192, R364, R365): a thread whose guard is true takes a software or breakpoint trap and returns to the next
instruction. With four frames in use no frame is pushed: the thread escalates and is reported, under ESC = 0 (R367, R368); that the report
has the form of a stop record with the frame's words in it is log 30. rett
(R192, R367): the top frame is popped, and the PC and level are the ones it holds; with no frame it takes control trap 0x03. -/
def Obligations.TrapEntryAndReturn : Prop :=
  (∀ (h : Hdr) (a : Src) (s : State) (u : Nat) (th : Thread) (pc : Word), s.only u th → th.run = .live → th.guardTrue h.guard = true →
    let cause := bits (readSrc (laneOf u) th a) 0 8
    let rpc := th.pc + word s.cur.next
    (th.traps.length < 4 → s.vectors u 10 pc → ∃ t, exec (.trap h a) s = .next t ∧ Trapped s t u th 10 cause 0 0 0 rpc pc) ∧
    (th.traps.length < 4 → s.vectors u 11 pc → ∃ t, exec (.brk h) s = .next t ∧ Trapped s t u th 11 0 0 0 0 rpc pc) ∧
    (th.traps.length = 4 → kindOf u ≠ .stew → bits (s.ctx (s.asidOf u)).fpol 5 2 = 0 → ∃ t w0 r, exec (.trap h a) s = .next t ∧
      tget? t.threads u = some { th with run := .escalated, wait := .none } ∧
      (∀ v, v ≠ u → tget? t.threads v = tget? s.threads v) ∧
      (s.boot.stage = .ready → t.egress = .report s.imagoReq (s.asidOf u) 0 r :: s.egress) ∧ r.length = 8 ∧
      bits (r.getD 0 0) 48 16 = engOf u ∧ bits (r.getD 0 0) 32 8 = 4 ∧ r.getD 1 0 = th.pc ∧ r.getD 2 0 = w0 ∧ r.getD 3 0 = rpc ∧
      r.getD 4 0 = 0 ∧ bits w0 56 8 = 10 ∧ bits w0 48 8 = cause ∧ bits w0 32 8 = th.lvl.toNat)) ∧
  (∀ (h : Hdr) (s : State), s.grouped → (∀ u th, s.acts h u th → th.traps ≠ []) → ∃ t, exec (.rett h) s = .next t ∧
    t = { s with threads := t.threads } ∧
    ∀ u th, u ∈ s.cur.tids → tget? s.threads u = some th → tget? t.threads u =
      if th.guardTrue h.guard then
        th.traps.head?.map fun f => { th with traps := th.traps.tail, lvl := BitVec.ofNat 2 (bits f.w0 32 8), pc := f.rpc, wait := .none,
                                              chain := {}, vectored := false, rewalk := false }
      else some (th.adv s.cur.next)) ∧
  (∀ (h : Hdr) (s : State) (u : Nat) (th : Thread) (pc : Word), s.traps u th → th.traps = [] → th.guardTrue h.guard = true →
    s.vectors u 4 pc → ∃ t, exec (.rett h) s = .next t ∧ Trapped s t u th 4 3 0 0 0 th.pc pc)

/-- call, calli and ret (R189, R190): a call pushes the next PC on the frames on chip, a return takes the newest; a lane
thread with four frames first stores the oldest below its stack pointer, and one with none left reads the frame back; with
no room, or nothing to return to, control traps 0x01 and 0x02 are taken. -/
def Obligations.CallReturn : Prop :=
  ∀ (h : Hdr) (disp : BitVec 25) (a : Src) (s : State) (u : Nat) (th : Thread), s.only u th → th.guardTrue h.guard = true →
    let ret := th.pc + word s.cur.next
    let max := if kindOf u = .lane then 4 else 16
    (∀ i pc, (i = .call h disp ∧ pc = th.pc + 2 * disp.signExtend 64) ∨ (i = .calli h a ∧ pc = readSrc (laneOf u) th a) →
      (th.frames.length < max → ∃ t, exec i s = .next t ∧ t = { s with threads := t.threads } ∧
        tget? t.threads u = some { th with frames := th.frames ++ [ret], pc := pc, wait := .none, chain := {}, vectored := false,
                                           rewalk := false } ∧
        ∀ v, v ≠ u → tget? t.threads v = tget? s.threads v) ∧
      (∀ f fs l s1, kindOf u = .lane → th.frames = f :: fs → fs.length = 3 →
        (s.slotBottom u).toNat ≤ (th.stk - 8).toNat → 8 ≤ th.stk.toNat → spanCanonical (th.stk - 8) 8 = true →
        s.maps u .write (th.stk - 8) 8 l s1 → l ≠ [] → s1.notReady u .g true l = none →
        ∃ t st, exec i s = .next t ∧ t.home = s.home ∧ (t.eng (engOf u)).stores = (s.eng (engOf u)).stores ++ [st] ∧
          st.tid = th.me u ∧ st.data = l.zip (leBytes 8 f.toNat) ∧
          tget? t.threads u = some { th with frames := fs ++ [ret], stk := th.stk - 8, tick := th.tick + 1, pc := pc,
                                             wait := .none, chain := {}, vectored := false, rewalk := false }) ∧
      (∀ hp, s.traps u th → s.vectors u 4 hp → max ≤ th.frames.length →
        (kindOf u ≠ .lane ∨ th.stk.toNat < 8 ∨ (th.stk - 8).toNat < (s.slotBottom u).toNat) →
        ∃ t, exec i s = .next t ∧ Trapped s t u th 4 1 0 0 0 th.pc hp)) ∧
    (∀ fs r, th.frames = fs ++ [r] → ∃ t, exec (.ret h) s = .next t ∧ t = { s with threads := t.threads } ∧
      tget? t.threads u = some { th with frames := fs, pc := r, wait := .none, chain := {}, vectored := false, rewalk := false } ∧
      ∀ v, v ≠ u → tget? t.threads v = tget? s.threads v) ∧
    (∀ l s1, kindOf u = .lane → th.frames = [] → th.stk.toNat < (s.slotTop u).toNat →
      spanCanonical th.stk 8 = true → s.maps u .read th.stk 8 l s1 → l ≠ [] → s1.notReady u .g false l = none →
      ∃ t th', exec (.ret h) s = .next t ∧ tget? t.threads u = some th' ∧ th'.pc = word (leNat (s1.loadBytes u l).1) ∧
        th' = { th with stk := th.stk + 8, pc := th'.pc, acq := th'.acq, wait := .none, chain := {}, vectored := false, rewalk := false }) ∧
    (∀ hp, s.traps u th → s.vectors u 4 hp → th.frames = [] → (kindOf u ≠ .lane ∨ (s.slotTop u).toNat ≤ th.stk.toNat) →
      ∃ t, exec (.ret h) s = .next t ∧ Trapped s t u th 4 2 0 0 0 th.pc hp)

/-- exit (R192, R16, R34, R79, R247): the thread becomes absent. The last thread of a block without a conductor ends the
block: it leaves the machine, its granules return to the core's pool, and it counts for its launch. A conductor releases
its block, and a steward stops for good. -/
def Obligations.ThreadExit : Prop :=
  ∀ (h : Hdr) (s : State) (u : Nat) (th : Thread), s.only u th → th.guardTrue h.guard = true →
    let gone := { th with run := .exited, wait := .none, arrMask := none, sync := [] }
    let others := fun (v : Nat) => v ≠ u ∧ v < condBase ∧ ∃ x, (v, x) ∈ s.threads ∧ x.block = th.block
    (kindOf u = .lane → (∃ v, others v ∧ (s.thread v).run ≠ .exited) → (s.block th.block).susp = none →
      ∃ t, exec (.exit h) s = .next t ∧ t = { s with threads := t.threads } ∧ tget? t.threads u = some gone ∧
        ∀ v, v ≠ u → tget? t.threads v = tget? s.threads v) ∧
    (∀ bl l, kindOf u = .lane → (∀ v, others v → (s.thread v).run = .exited) → tget? s.blocks th.block = some bl →
      bl.leaving = false → s.condOf th.block = none → bl.edge = none → tget? s.launches (gkey bl.asid bl.lid) = some l → l.drained = false →
      ∃ t l', exec (.exit h) s = .next t ∧ tget? t.blocks th.block = none ∧
        (∀ v x, (v, x) ∈ t.threads → v < condBase → x.block ≠ th.block) ∧
        tget? t.launches (gkey bl.asid bl.lid) = some l' ∧ l'.count = l.count + 1 ∧
        (t.coreAt bl.core).accFree = (s.coreAt bl.core).accFree + word bl.granules) ∧
    (kindOf u = .stew → ∃ t, exec (.exit h) s = .next t ∧ t = { s with threads := t.threads } ∧ tget? t.threads u = some gone ∧
        ∀ v, v ≠ u → tget? t.threads v = tget? s.threads v) ∧
    (kindOf u = .cond → (s.cluster (clusterOf (engOf u))).instar.st = 0 →
      ∃ t, exec (.exit h) s = .next t ∧ (t.cluster (clusterOf (engOf u))).bound = none ∧ ∃ x, tget? t.threads u = some x ∧ x.run = .exited)

/-- suspend.k, suspend.r and the resuming of a block (R37, R38, R194, R193), by a thread that names a counter of the machine.
While another thread of the block is live the thread only suspends, and the block holds its handle, target and
continuation. The last live thread suspends the block: with suspend.k it goes on at the continuation at once where the
counter has met the target; suspend.r gives the register granules back. A suspended block whose counter meets its target
resumes at the continuation: after suspend.k with all its state, after suspend.r, once the granules are free, with zero
registers but the first words that it saved. -/
def Obligations.Suspension : Prop :=
  (∀ (h : Hdr) (a b : Src) (s : State) (u : Nat) (th : Thread) (bl : Block), s.only u th → th.guardTrue h.guard = true →
    let hd := readSrc (laneOf u) th a
    let target := readSrc (laneOf u) th b
    let cont := th.pc + word s.cur.next
    let others := fun (v : Nat) => v ≠ u ∧ v < condBase ∧ ∃ x, (v, x) ∈ s.threads ∧ x.block = th.block
    let suspended := fun (i : Instr) (Q : State → Susp → Prop) => ∃ t bl' q, exec i s = .next t ∧
      tget? t.blocks th.block = some bl' ∧ bl'.susp = some q ∧ q.handle = hd ∧ q.target = target ∧ q.cont = cont ∧
      (∃ x, tget? t.threads u = some x ∧ x.run = .suspended ∧ x.pc = th.pc) ∧ Q t q
    kindOf u = .lane → th.run = .live → tget? s.blocks th.block = some bl → bl.susp = none → s.handleGood u hd = true →
    handleKind hd ≠ 6 → handleKind hd ≠ 4 →
    ((∃ v, others v ∧ (s.thread v).run = .live) →
      suspended (.suspendK h a b) (fun _ q => q.release = false ∧ q.order = 0) ∧
      suspended (.suspendR h a b) (fun _ q => q.release = true ∧ q.order = 0)) ∧
    ((∀ v, others v → (s.thread v).run = .suspended ∨ (s.thread v).run = .exited) →
      let val := s.counterVal bl.asid (s.jobOf bl) bl.core hd
      (val.toNat < target.toNat → suspended (.suspendK h a b) (fun _ q => q.release = false ∧ q.order ≠ 0)) ∧
      (target.toNat ≤ val.toNat → ∃ t bl', exec (.suspendK h a b) s = .next t ∧ tget? t.blocks th.block = some bl' ∧ bl'.susp = none ∧
        tget? t.threads u = some { th with pc := cont, run := .live, wait := .none, chain := {}, vectored := false, rewalk := false }) ∧
      suspended (.suspendR h a b) (fun t q => q.release = true ∧ q.order ≠ 0 ∧ (t.block th.block).regHeld = false ∧
        (t.coreAt bl.core).accFree = (s.coreAt bl.core).accFree + word (poolRegGran bl.pool)))) ∧
  (∀ (s : State) (bk : Nat) (bl : Block) (q : Susp), tget? s.blocks bk = some bl → bl.susp = some q → q.order ≠ 0 →
    handleKind q.handle ≠ 5 → (q.release = false → s.suspMet bl q = true) →
    (q.release = true → ∃ n, q.met = some n ∧ poolRegGran bl.pool ≤ s.freeGran bl.core ∧
      ∀ c x r m, (c, x) ∈ s.blocks → x.core = bl.core → x.susp = some r → r.met = some m → n ≤ m) →
    ∃ t bl', exec (.blockResume bk) s = .next t ∧ tget? t.blocks bk = some bl' ∧ bl'.susp = none ∧ bl'.regHeld = true ∧
      ∀ v x, tget? s.threads v = some x → v < condBase → x.block = bk → x.run = .suspended → ∃ x', tget? t.threads v = some x' ∧
        x'.run = .live ∧ x'.pc = q.cont ∧ x'.traps = x.traps ∧
        (q.release = false → x' = { x with pc := q.cont, run := .live, wait := .none, chain := {}, vectored := false, rewalk := false }) ∧
        (q.release = true → ∀ n, x'.reg n = if n = 0 ∧ 32 * bl.warpNo (slotOf v) + laneOf v < 16
          then q.saved.getD (32 * bl.warpNo (slotOf v) + laneOf v) 0 else 0))

/-- ev.add and ev.rd (R195, R193): an atomic add to an event word at its home, answering the old value; a read of any
counter. Which handles are good, by kind (R193; that kind 4 is good on lane threads only, kind 2 on no steward, and that an
index has no other bit are log 35). A handle that is not good takes control trap 0x04, and so does ev.add on a good handle of
another kind than 6. -/
def Obligations.EventHandles : Prop :=
  ∀ (h : Hdr) (d : Dst) (a b : Src) (s : State) (u : Nat) (th : Thread), s.only u th → th.guardTrue h.guard = true →
    let hd := readSrc (laneOf u) th a
    let bl := s.block th.block
    (∀ l s1, s.handleGood u hd = true → handleKind hd = 6 → (handleVa hd).toNat % 8 = 0 → (s.ctx (s.asidOf u)).exh = [] →
      spanCanonical (handleVa hd) 8 = true → s.maps u .atomic (handleVa hd) 8 l s1 →
      l.all s.isLocal = true → s1.notReady u .g true l = none →
      let old := leNat (l.map s.homeByte)
      ∃ t acq aclk, exec (.evAdd h d a b) s = .next t ∧ Ends s t h u (writeDst d (word old) { th with acq := acq, aclk := aclk }) ∧
        leNat (l.map t.homeByte) = (old + (readSrc (laneOf u) th b).toNat) % 2 ^ 64 ∧
        ∀ x, x ∉ l.map (· % devBytes) → t.home.read x = s.home.read x) ∧
    (s.handleGood u hd = true → handleKind hd ≠ 6 → (handleKind hd = 5 → ∀ k, s.domainDevs k = []) →
      ∃ t v, exec (.evRd h d a) s = .next t ∧ t = { s with threads := t.threads } ∧
      Ends s t h u (writeDst d v th) ∧
      let i := handleIndex hd
      match handleKind hd with
      | 0 => v = word (s.launch (gkey (s.asidOf u) i)).count
      | 1 => v = word (tget {} s.graphs (gkey (s.asidOf u) i)).count
      | 2 => v = (s.job (s.launch (gkey bl.asid bl.lid)).job).phcnt
      | 3 => v = if (s.job i).state = 4 ∨ (s.job i).state = 5 then BitVec.allOnes 64 else (s.job i).phcnt
      | 4 => v = (s.coreAt (engOf u)).accFree
      | _ => v = (tget {} s.colls i).count) ∧
    (∀ l s1, s.handleGood u hd = true → handleKind hd = 6 → (handleVa hd).toNat % 8 = 0 → spanCanonical (handleVa hd) 8 = true →
      s.maps u .read (handleVa hd) 8 l s1 → l.all s.isLocal = true → s1.notReady u .g false l = none →
      ∃ t acq aclk, exec (.evRd h d a) s = .next t ∧ t.home = s.home ∧
        Ends s t h u (writeDst d (word (leNat (l.map s.homeByte))) { th with acq := acq, aclk := aclk })) ∧
    (let i := bits hd 0 55
     s.handleGood u hd = true ↔ bits hd 55 4 = 0 ∧ (match bits hd 59 5 with
      | 0 => i < 2 ^ 32 ∧ ∃ l, tget? s.launches (gkey (s.asidOf u) i) = some l
      | 1 => i < 2 ^ 32 ∧ ∃ g, tget? s.graphs (gkey (s.asidOf u) i) = some g
      | 2 => i = 0 ∧ kindOf u ≠ .stew
      | 3 => i < 256 ∧ (s.job i).state ≠ 0 ∧ (s.job i).asid = s.asidOf u
      | 4 => i = 0 ∧ kindOf u = .lane
      | 5 => i < 2 ^ 32 ∧ (i / 2 ^ 21 = s.boot.devnum ∨ ∃ p, s.partOfEng (engOf u) = some p ∧ i / 2 ^ 21 ∈ s.domainDevs p)
      | 6 => True
      | _ => False)) ∧
    (∀ hp, s.traps u th → s.vectors u 4 hp →
      (s.handleGood u hd = false → ∃ t, exec (.evRd h d a) s = .next t ∧ Trapped s t u th 4 4 0 0 0 th.pc hp) ∧
      (s.handleGood u hd = false ∨ handleKind hd ≠ 6 → ∃ t, exec (.evAdd h d a b) s = .next t ∧ Trapped s t u th 4 4 0 0 0 th.pc hp))

/-! ### Cross-lane instructions -/

/-- lxch, bcast, poll, peer and lead (R197, R198, R199): what each member of a whole group receives. -/
def Obligations.CrossLaneMoves : Prop :=
  ∀ (h : Hdr) (size : BitVec 2) (wrap : Bool) (w64 hi neg : Bool) (p m : BitVec 3) (d : Dst) (a b : Src) (n : Nat), d.names n = true →
    joins (.lxch h size wrap d a b) b (fun _ src lanes l _ th' => ∀ j, j < 2 ^ size.toNat →
      let cnt := 2 ^ size.toNat
      let w := 64 / cnt
      let q := src b l
      let own := sub_ (src a l) w j
      let e : Int := (((l * cnt + j &&& (1023 - bits q 8 8)) ^^^ bits q 0 8 : Nat) : Int) + toInt 10 true (bits q 16 10)
      let from_ := fun (e : Nat) => if e / cnt ∈ lanes then sub_ (src a (e / cnt)) w (e % cnt) else own
      sub_ (th'.reg n) w j = if 0 ≤ e ∧ e < 32 * cnt then from_ e.toNat else if wrap then from_ (e % (32 * cnt)).toNat else own) ∧
    joins (.bcast h d a b) b (fun _ src lanes _ _ th' => th'.reg n = src a (lanes.headD 0)) ∧
    joins (.peer h w64 d a b) b (fun _ src lanes l _ th' =>
      let key := fun k => bits (src a k) 0 (bW w64)
      let cls := lanes.filter fun k => key k = key l
      let first := cls.headD 0
      let r := th'.reg n
      (∀ k, k < 32 → (bit r k = true ↔ k ∈ cls)) ∧ bits r 32 8 = cls.length ∧ bits r 40 8 = (cls.filter (· < l)).length ∧
        bits r 48 8 = first ∧
        bits r 56 8 = (lanes.filter fun k => k < first ∧ ∀ j ∈ lanes, key j = key k → k ≤ j).length) ∧
    (p ≠ 7 → joins (.lead h hi p b) b (fun _ _ lanes l _ th' => th'.pred p = true ↔ if hi then ∀ k ∈ lanes, k ≤ l else ∀ k ∈ lanes, l ≤ k)) ∧
    (let holds := fun (s : State) (base k : Nat) => (s.thread (base + k)).pred m != neg
     let trues := fun (s : State) (lanes : List Nat) => lanes.filter fun k => holds s (warpOf s.lead_) k
     joins (.poll h (.mask d) neg m b) b (fun s _ lanes _ _ th' => ∀ k, bit (th'.reg n) k = true ↔ k ∈ trues s lanes) ∧
     joins (.poll h (.count d) neg m b) b (fun s _ lanes _ _ th' => th'.reg n = word (trues s lanes).length) ∧
     (p ≠ 7 → joins (.poll h (.ge p) neg m b) b (fun s src lanes _ _ th' =>
        th'.pred p = true ↔ bits (src b (lanes.headD 0)) 0 6 ≤ (trues s lanes).length)) ∧
     (p ≠ 7 → joins (.poll h (.le p) neg m b) b (fun s src lanes _ _ th' =>
        th'.pred p = true ↔ (trues s lanes).length ≤ bits (src b (lanes.headD 0)) 0 6)))

/-- lred, scan and csample (R200, R201, R69, R70): each of them completes for a whole group, whatever its destination; integer
reductions and scans combine the members' values; the floating-point ones combine them along the fixed tree and its aligned
blocks; csample gives every member the same draw: the lowest member of nonzero weight whose scan lies above the rounded part
of the total, 32 where every weight is zero, 33 where one is NaN or negative. -/
def Obligations.CrossLaneReductions : Prop :=
  ∀ (h : Hdr) (op : RedOp) (p : BitVec 3) (d : Dst) (a b : Src),
    let (w, sg, ident) := redShape op
    let val := fun (src : Src → Nat → Word) (k : Nat) => bits (src a k) 0 w
    let all := fun (src : Src → Nat → Word) (ks : List Nat) => fill w sg (ks.foldl (fun x k => redInt op x (val src k)) ident)
    let leaf := fun (f : Nat → Nat) (lanes : List Nat) (k : Nat) => if k ∈ lanes then some (f k) else none
    let float := op = .fadd ∨ op = .fmin ∨ op = .fmax
    (∀ (s : State) (i : Instr) (base : Nat) (lanes : List Nat) (pc : Word), s.meets b base lanes pc →
      (i = .lred h op d a b ∨ i = .scan h op d a b ∨ i = .csample h p d a b) →
      ∃ t, exec i s = .next t ∧ ∀ l ∈ lanes, ∃ x, tget? t.threads (base + l) = some x ∧ x.pc = pc + word s.cur.next ∧ x.arrMask = none) ∧
    (∀ n, d.names n = true →
      (¬float → joins (.lred h op d a b) b (fun _ src lanes _ _ th' => th'.reg n = all src lanes)) ∧
      (¬float → joins (.scan h op d a b) b (fun _ src lanes l _ th' =>
        th'.reg n = all src (lanes.filter fun k => if bit (src b l) 0 then k < l else k ≤ l))) ∧
      (float → joins (.lred h op d a b) b (fun s src lanes _ _ th' => ∃ v, IsTree (redFloat s.flushBit op) (leaf (val src) lanes) v ∧
        v 5 0 = some (th'.reg n).toNat)) ∧
      (float → joins (.scan h op d a b) b (fun s src lanes l _ th' => ∃ v, IsTree (redFloat s.flushBit op) (leaf (val src) lanes) v ∧
        if bit (src b l) 0 then (l = 0 → (th'.reg n).toNat = ident) ∧
          (0 < l → ∃ x, IsScan (redFloat s.flushBit op) v (l - 1) x ∧ (th'.reg n).toNat = x.getD ident)
        else IsScan (redFloat s.flushBit op) v l (some (th'.reg n).toNat))) ∧
      joins (.csample h p d a b) b (fun s src lanes _ _ th' =>
        let wt := fun k => (fmtF32.fout s.flushBit (bits (src a k) 0 32)).1
        let bad := fun k => (fmtF32.decode (wt k)).isNan = true ∨ (2 ^ 31 ≤ wt k ∧ wt k % 2 ^ 31 ≠ 0)
        let live := fun k => k ∈ lanes ∧ wt k % 2 ^ 31 ≠ 0
        let r := (th'.reg n).toNat
        ((∃ k ∈ lanes, bad k) → r = 33) ∧
        ((∀ k ∈ lanes, ¬bad k) → (∀ k ∈ lanes, wt k % 2 ^ 31 = 0) → r = 32) ∧
        ((∀ k ∈ lanes, ¬bad k) → (∃ k, live k) → ∃ (v : Nat → Nat → Option Nat) (sc : Nat → Option Nat) (c : Nat), IsTree (redFloat s.flushBit .fadd) (leaf wt lanes) v ∧
          (∀ l, l < 32 → IsScan (redFloat s.flushBit .fadd) v l (sc l)) ∧
          let total := (v 5 0).getD 0
          (total < fmtF32.infMag → Rounds fmtF32.magVal .rn false
            ((bits (src b (lanes.headD 0)) 0 32 : ℝ) * 2 ^ (-32 : Int) * ((fmtF32.decode total).toRat : ℝ)) c) ∧
          let past := fun k => (sc k).getD 0 = fmtF32.infMag ∨
            (total < fmtF32.infMag ∧ fmtF32.magVal c < (fmtF32.decode ((sc k).getD 0)).toRat)
          live r ∧ ((∃ k, live k ∧ past k) → past r ∧ ∀ k, live k → past k → r ≤ k) ∧
            ((∀ k, live k → ¬past k) → ∀ k, live k → k ≤ r)) ∧
        th'.empty = decide (r = 32) ∧ (p ≠ 7 → (th'.pred p = true ↔ r < 32)))) ∧
    (∀ (s : State) (u : Nat) (th : Thread) (hp : Word), s.traps u th → s.vectors u 2 hp → kindOf u = .lane → th.arrMask = none →
      bit (readSrc (laneOf u) th b) (32 + laneOf u) = false →
      ∃ t, exec (.lred h op d a b) s = .next t ∧ Trapped s t u th 2 13 1 0 0 th.pc hp)

/-! ### Barriers -/

/-- The named barriers, by a group of one thread of a block with no armed flag set (R202, R203, R204, R205, R60): an arrival
is counted, and completes the phase where it brings the count to the expected one; a thread that synchronises goes on then,
and waits at its PC before; nbar.wait and nbar.rd. The traps: a set armed flag, no free state, a count out of range, a
count that differs from the open phase's. -/
def Obligations.NamedBarriers : Prop :=
  ∀ (h : Hdr) (d : Dst) (a b : Src) (s : State) (u : Nat) (th : Thread) (bl : Block), s.only u th →
    tget? s.blocks th.block = some bl → bl.flagLog = [] →
    let n := bits (readSrc (laneOf u) th a) 0 6
    let c := bits (readSrc (laneOf u) th b) 0 11
    let bar := tget {} bl.nbars n
    let bound := (tget? bl.nbars n).isSome = true
    let room := bound ∨ s.boundBars bl.core < 64
    let clear := bswFlags bl.bsw &&& bswArm bl.bsw = 0
    let fresh := tget? th.sync th.traps.length = none
    let traps := fun (cls cause info : Nat) => ∀ hp, s.traps u th → s.vectors u cls hp →
      (∃ t, exec (.nbarArr h a b) s = .next t ∧ Trapped s t u th cls cause 0 info 0 th.pc hp) ∧
      (fresh → ∃ t, exec (.nbarSync h a b) s = .next t ∧ Trapped s t u th cls cause 0 info 0 th.pc hp)
    let counted := fun (t : State) => ∃ bl' b', tget? t.blocks th.block = some bl' ∧ tget? bl'.nbars n = some b' ∧ b'.expected = c ∧
      (∀ m, m ≠ n → tget? bl'.nbars m = tget? bl.nbars m) ∧
      if c ≤ bar.arrived + 1 then b'.phase = bar.phase + 1 ∧ b'.arrived = 0 else b'.phase = bar.phase ∧ b'.arrived = bar.arrived + 1
    (clear → room → 1 ≤ c → c ≤ 1024 → (bar.arrived = 0 ∨ bar.expected = c) →
      (∃ t, exec (.nbarArr h a b) s = .next t ∧ counted t ∧ Ends s t h u { th with lastArr := tput 0 n (bar.phase + 1) th.lastArr }) ∧
      (fresh → ∃ t x, exec (.nbarSync h a b) s = .next t ∧ counted t ∧ tget? t.threads u = some x ∧ x.regs = th.regs ∧
        if c ≤ bar.arrived + 1 then x.pc = th.pc + word s.cur.next ∧ tget? x.sync th.traps.length = none
        else x.pc = th.pc ∧ tget? x.sync th.traps.length = some (n, bar.phase) ∧ x.wait = .barrier)) ∧
    (let k := tget 0 th.lastArr n
     (k ≤ bar.phase → ∃ t vc, exec (.nbarWait h a) s = .next t ∧ Ends s t h u { th with vc := vc }) ∧
     (bar.phase < k → ∃ t, exec (.nbarWait h a) s = .next t ∧ tget? t.threads u = some { th with wait := .barrier })) ∧
    (bar.arrived < 2048 → bar.expected < 2048 → ∃ t v, exec (.nbarRd h d a) s = .next t ∧ t = { s with threads := t.threads } ∧
      Ends s t h u (writeDst d v th) ∧ (¬bound → v = 0) ∧ (bound → bit v 63 = true ∧ bits v 32 31 = bar.phase % 2 ^ 31 ∧
        bits v 22 10 = 0 ∧ bits v 11 11 = (if bar.arrived = 0 then 0 else bar.expected) ∧ bits v 0 11 = bar.arrived)) ∧
    (¬clear → traps 12 (bswFlags bl.bsw &&& bswArm bl.bsw).toNat (bits bl.bsw 0 12)) ∧
    (clear → ¬room → traps 4 5 n) ∧ (clear → room → (c = 0 ∨ 1024 < c) → traps 4 6 n) ∧
    (clear → 1 ≤ c → c ≤ 1024 → bound → bar.arrived ≠ 0 → bar.expected ≠ c → traps 4 7 n)

/-- The phase-bit barriers, by a group of one thread whose barrier word is aligned, in bounds and ready (R206, R207, R60):
pbar.init writes the word, pbar.arr counts an arrival down and opens the next phase at the last, pbar.wait goes on once the
phase named has completed and waits at its PC before. A zero count takes control trap 0x06, a word that pbar.init did not
make 0x08. No other byte of the scratchpad changes. -/
def Obligations.PhaseBarriers : Prop :=
  ∀ (h : Hdr) (a b : Src) (s : State) (u : Nat) (th : Thread) (bl : Block), s.only u th → th.guardTrue h.guard = true →
    tget? s.blocks th.block = some bl → bl.flagLog = [] → bswFlags bl.bsw &&& bswArm bl.bsw = 0 →
    (kindOf u = .cond → (s.cluster (clusterOf (engOf u))).instar.st = 0) →
    let o := (readSrc (laneOf u) th a).toNat
    let w := bl.spad.word o
    let pending := bits w 0 11
    let expected := bits w 11 11
    let phase := bits w 32 16
    let c := bits (readSrc (laneOf u) th b) 0 11
    let p := bits (readSrc (laneOf u) th b) 0 16
    let bad := expected = 0 ∨ bits w 48 16 ≠ 0 ∨ bits w 22 10 ≠ 0 ∨ pending = 0 ∨ expected < pending
    let holds := fun (t : State) (v : Word) => ∃ bl', tget? t.blocks th.block = some bl' ∧ bl'.spad.word o = v ∧
      ∀ x, x < o ∨ o + 8 ≤ x → bl'.spad.read x = bl.spad.read x
    let done := 1 ≤ (phase + 65536 - p) % 65536 ∧ (phase + 65536 - p) % 65536 ≤ 32768
    o % 8 = 0 → o + 8 ≤ bl.spadBytes →
    (s.notReady u .s true (addrsOf o 8) = none →
      (c ≠ 0 → ∃ t, exec (.pbarInit h a b) s = .next t ∧ holds t (word (c * 2 ^ 11 + c)) ∧ Ends s t h u { th with tick := th.tick + 1 }) ∧
      (¬bad → ∃ t, exec (.pbarArr h a) s = .next t ∧ Ends s t h u { th with tick := th.tick + 1 } ∧
        holds t (if pending = 1 then word ((phase + 1) % 65536 * 2 ^ 32 + expected * 2 ^ 11 + expected) else w - 1))) ∧
    (s.notReady u .s false (addrsOf o 8) = none →
      (done → ∃ t vc, exec (.pbarWait h a b) s = .next t ∧ Ends s t h u { th with vc := vc }) ∧
      (¬done → ∃ t, exec (.pbarWait h a b) s = .next t ∧ tget? t.threads u = some { th with wait := .barrier })) ∧
    (∀ hp, s.traps u th → s.vectors u 4 hp →
      (c = 0 → ∃ t, exec (.pbarInit h a b) s = .next t ∧ Trapped s t u th 4 6 0 0 0 th.pc hp) ∧
      (bad → s.notReady u .s true (addrsOf o 8) = none → ∃ t, exec (.pbarArr h a) s = .next t ∧ Trapped s t u th 4 8 0 0 0 th.pc hp))

/-! ### Loads, stores and atomics -/

/-- ld, ldl and st on a block's own spaces, by one thread whose access is aligned, in bounds and ready (R212, R213, R214,
R215, R74): a load gives the bytes that the pool or the parameter block holds, extended as the type says; a store replaces
the bytes at the address and no other byte; ldl reads a region that the decompression engine feeds once the bytes have
landed, and waits before. A parameter store is an illegal instruction. -/
def Obligations.PoolLoadStore : Prop :=
  ∀ (h : Hdr) (ty : LdTy) (d : Dst) (v a : Src) (disp : BitVec 8) (s : State) (u : Nat) (th : Thread) (bl : Block) (n : Nat),
    s.only u th → th.guardTrue h.guard = true → tget? s.blocks th.block = some bl →
    let size := ldSize ty
    let ea := (readSrc (laneOf u) th a + disp.signExtend 64 * word size).toNat
    let de := (s.cluster (bl.core / 8)).de
    let fed := de.owner = some th.block ∧ de.toReg = true ∧ de.st ≠ 0
    let inside := de.rbase ≤ ea ∧ ea + size ≤ de.rbase + de.rsize
    let landed := ¬fed ∨ ea + size ≤ de.rbase ∨ de.rbase + de.rsize ≤ ea ∨ (inside ∧ (de.st = 3 ∨ ea + size ≤ de.rbase + de.landed))
    let loads := fun (i : Instr) (m : Memory) => ∃ t th' regs acq, exec i s = .next t ∧ t = { s with threads := t.threads } ∧
      Ends s t h u th' ∧ th' = { th with regs := regs, acq := acq } ∧
      th'.reg n = (match ty with
        | .i8 | .i16 | .i32 => (BitVec.ofNat (8 * size) (leNat (m.readN ea size))).signExtend 64
        | _ => word (leNat (m.readN ea (min size 8)))) ∧
      (ty = .b128 → th'.reg (n + 1) = word (leNat (m.readN (ea + 8) 8))) ∧
      ∀ k, k ≠ n → (ty = .b128 → k ≠ n + 1) → th'.reg k = th.reg k
    let vals := fun (k : Nat) => (readSrc (laneOf u) th v).toNat % 2 ^ (8 * size) + if ty = .b128 then 2 ^ 64 * (th.reg (k + 1)).toNat else 0
    ea % size = 0 →
    (d.names n = true → ea + size ≤ 4096 → s.poisonPool = [] →
      loads (.ld h .p ty d a disp) (s.launch (gkey bl.asid bl.lid)).param) ∧
    (d.names n = true → ea + size ≤ bl.accBytes → s.notReady u .a false (addrsOf ea size) = none → loads (.ld h .a ty d a disp) bl.acc) ∧
    (d.names n = true → ea + size ≤ bl.spadBytes → s.notReady u .s false (addrsOf ea size) = none →
      loads (.ld h .s ty d a disp) bl.spad ∧ (landed → loads (.ldl h ty d a disp) bl.spad) ∧
      (fed → inside → de.st ≠ 3 → de.rbase + de.landed < ea + size → ∃ t x, exec (.ldl h ty d a disp) s = .next t ∧
        tget? t.threads u = some { th with wait := x } ∧ x ≠ .none)) ∧
    (∀ k, (ty = .b128 → v = .w k) → ea + size ≤ bl.spadBytes → s.notReady u .s true (addrsOf ea size) = none →
      ∃ t bl', exec (.st h .s ty v a disp) s = .next t ∧ Ends s t h u { th with tick := th.tick + 1 } ∧ tget? t.blocks th.block = some bl' ∧
        leNat (bl'.spad.readN ea size) = vals k.toNat ∧ (∀ x, x < ea ∨ ea + size ≤ x → bl'.spad.read x = bl.spad.read x) ∧
        bl' = { bl with spad := bl'.spad, srel := bl'.srel, past := bl'.past } ∧ ∀ b, b ≠ th.block → tget? t.blocks b = tget? s.blocks b) ∧
    (∀ k, (ty = .b128 → v = .w k) → ea + size ≤ bl.accBytes → s.notReady u .a true (addrsOf ea size) = none →
      ∃ t bl', exec (.st h .a ty v a disp) s = .next t ∧ Ends s t h u th ∧ tget? t.blocks th.block = some bl' ∧
        leNat (bl'.acc.readN ea size) = vals k.toNat ∧ (∀ x, x < ea ∨ ea + size ≤ x → bl'.acc.read x = bl.acc.read x) ∧
        bl' = { bl with acc := bl'.acc, arel := bl'.arel } ∧ ∀ b, b ≠ th.block → tget? t.blocks b = tget? s.blocks b) ∧
    (∀ hp, s.traps u th → s.vectors u 1 hp → ∃ t, exec (.st h .p ty v a disp) s = .next t ∧ Trapped s t u th 1 11 0 0 0 th.pc hp)

/-- ld and st on global memory, by one thread whose span is canonical, translates and is ready (R213, R214, R75, R84, R86, R89):
a load gives the bytes as the thread's plain loads see them, and a store becomes the newest of its engine's stores, numbered
one above the last, and changes no byte at home. What a plain load sees of one byte of this device, where no other thread's store
can be seen that nothing orders: the newest store, if it is the thread's own and no collective's acquire has refreshed the byte
since, or a copy that is ordered before the load; else, with no store of the engine, the byte's refreshed value, else the
value it had as the phase began. A load of several bytes sees each of them so; where it and every store are aligned accesses of at
most 8 bytes, one choice decides for all its bytes which unordered stores it sees. -/
def Obligations.GlobalLoadStore : Prop :=
  (∀ (h : Hdr) (ty : LdTy) (d : Dst) (v a : Src) (disp : BitVec 8) (s s1 : State) (u : Nat) (th : Thread) (n : Nat) (l : List Nat),
    s.only u th → th.guardTrue h.guard = true →
    let size := ldSize ty
    let ea := readSrc (laneOf u) th a + disp.signExtend 64 * word size
    spanCanonical ea size = true →
    (d.names n = true → s.maps u .read ea size l s1 → s1.notReady u .g false l = none →
      let bs := (s1.loadBytes u l).1
      ∃ t th' regs acq, exec (.ld h .g ty d a disp) s = .next t ∧ t.home = s.home ∧ t.emem = s.emem ∧ t.blocks = s.blocks ∧
        Ends s t h u th' ∧ th' = { th with regs := regs, acq := acq } ∧
        th'.reg n = (match ty with
          | .i8 | .i16 | .i32 => (BitVec.ofNat (8 * size) (leNat bs)).signExtend 64
          | _ => word (leNat (bs.take 8))) ∧
        (ty = .b128 → th'.reg (n + 1) = word (leNat (bs.drop 8))) ∧
        ∀ k, k ≠ n → (ty = .b128 → k ≠ n + 1) → th'.reg k = th.reg k) ∧
    (∀ k, (ty = .b128 → v = .w k) → s.maps u .write ea size l s1 →
      s1.notReady u .g true l = none →
      ∃ t st, exec (.st h .g ty v a disp) s = .next t ∧ Ends s t h u { th with tick := th.tick + 1 } ∧ t.home = s.home ∧
        t.blocks = s.blocks ∧ (t.eng (engOf u)).stores = (s.eng (engOf u)).stores ++ [st] ∧
        (t.eng (engOf u)).seq = (s.eng (engOf u)).seq + 1 ∧ (∀ e, e ≠ engOf u → t.eng e = s.eng e) ∧
        st.tid = th.me u ∧ st.tick = th.tick + 1 ∧ st.rel = th.rel ∧ st.seq = (s.eng (engOf u)).seq + 1 ∧ st.home = false ∧ st.asid = s.asidOf u ∧ st.data.map (·.1) = l ∧
        leNat (st.data.map (·.2)) = (readSrc (laneOf u) th v).toNat % 2 ^ (8 * size) +
          if ty = .b128 then 2 ^ 64 * (th.reg (k.toNat + 1)).toNat else 0)) ∧
  (∀ (s : State) (u x : Nat) (pick : Store → Bool) (older : List Store) (st : Store), let me := (s.thread u).me u
    (s.eng (engOf u)).storesOf x = st :: older → st.past = false →
    st.tid = me ∨ (st.copy.isSome = true ∧ (s.thread u).seesStore (engOf u) st = true) →
    (∀ q ∈ older, q.tid = me ∨ (s.thread u).seesStore (engOf u) q = true) → (s.loadByteBy u pick x).1 = st.byte x) ∧
  (∀ (s : State) (u x p : Nat) (pick : Store → Bool), (s.eng (engOf u)).storesOf x = [] → s.isLocal x = true → s.partOfEng (engOf u) = some p →
    (∀ b, tget? (s.eng (engOf u)).fresh x = some b → (s.loadByteBy u pick x).1 = b) ∧
    (tget? (s.eng (engOf u)).fresh x = none → (s.loadByteBy u pick x).1 = (s.part p).snap.read (x % devBytes))) ∧
  (∀ (s : State) (u : Nat) (l : List Nat), l.all s.isLocal = true →
    (∀ i, i < l.length → ∃ pick, (s.loadBytes u l).1[i]? = some (s.loadByteBy u pick (l.getD i 0)).1) ∧
    (isSingle l = true → (∀ st ∈ (s.eng (engOf u)).stores, st.single = true) →
      ∃ pick, (s.loadBytes u l).1 = l.map fun x => (s.loadByteBy u pick x).1))

/-- atom and atom.fadd, by one thread whose location is aligned, translates and is ready (R91, R217, R218, R219, R93): an
atomic replaces the location's value and answers the old one, in the scratchpad or at home, and no other byte changes; an
ordered add changes no byte and enters the launch's queue with its key, and where the area is full takes memory trap 0x07. -/
def Obligations.Atomics : Prop :=
  ∀ (h : Hdr) (op : AtomOp) (ty : CmpTy) (aty : AfTy) (rm : Rm) (d : Dst) (a b : Src) (s s1 : State) (u : Nat) (th : Thread)
    (bl : Block) (l : List Nat), s.only u th → th.guardTrue h.guard = true → tget? s.blocks th.block = some bl →
    let (w, sg) := cmpShape ty
    let ea := readSrc (laneOf u) th a
    let bv := bits (readSrc (laneOf u) th b) 0 w
    let new := fun (old : Nat) =>
      let less := toInt w sg old < toInt w sg bv
      match op with
      | .add => (old + bv) % 2 ^ w
      | .min => if less then old else bv
      | .max => if less then bv else old
      | .and => old &&& bv
      | .or => old ||| bv
      | .xor => old ^^^ bv
      | .xchg => bv
      | .cas => if old = bits (readDst th d) 0 w then bv else old
    let result := fun (old : Nat) (x : Thread) => writeDst d (if sg then (BitVec.ofNat w old).signExtend 64 else word old) x
    (ea.toNat % (w / 8) = 0 → ea.toNat + w / 8 ≤ bl.spadBytes → s.notReady u .s true (addrsOf ea.toNat (w / 8)) = none →
      let old := leNat (bl.spad.readN ea.toNat (w / 8))
      ∃ t bl' acq aclk, exec (.atom h true op ty d a b) s = .next t ∧
        Ends s t h u (result old { th with acq := acq, aclk := aclk, tick := th.tick + 1 }) ∧
        t.home = s.home ∧ tget? t.blocks th.block = some bl' ∧ leNat (bl'.spad.readN ea.toNat (w / 8)) = new old ∧
        ∀ x, x < ea.toNat ∨ ea.toNat + w / 8 ≤ x → bl'.spad.read x = bl.spad.read x) ∧
    (ea.toNat % (w / 8) = 0 → spanCanonical ea (w / 8) = true → (s.ctx (s.asidOf u)).exh = [] →
      s.maps u .atomic ea (w / 8) l s1 → l.all s.isLocal = true → s1.notReady u .g true l = none →
      let old := leNat (l.map s.homeByte)
      ∃ t acq aclk, exec (.atom h false op ty d a b) s = .next t ∧ Ends s t h u (result old { th with acq := acq, aclk := aclk }) ∧
        t.blocks = s.blocks ∧ leNat (l.map t.homeByte) = new old ∧ ∀ x, x ∉ l.map (· % devBytes) → t.home.read x = s.home.read x) ∧
    (∀ q, ea.toNat % afSize aty = 0 → spanCanonical ea (afSize aty) = true → kindOf u = .lane →
      tget? s.launches (gkey bl.asid bl.lid) = some q → s.queued bl.asid < 4096 * bits (s.ctx bl.asid).oarea 0 16 →
      s.maps u .atomic ea (afSize aty) l s1 → s1.notReady u .g true l = none →
      ∃ t q', exec (.atomFadd h aty rm a b) s = .next t ∧ Ends s t h u { th with nFadd := th.nFadd + 1 } ∧ t.home = s.home ∧
        t.blocks = s.blocks ∧ tget? t.launches (gkey bl.asid bl.lid) = some q' ∧ q'.queue = q.queue ++
          [{ blk := bl.blk, tid := 32 * bl.warpNo (slotOf u) + laneOf u, n := th.nFadd, dpa := l, ty := aty, rm := rm,
             val := readSrc (laneOf u) th b, asid := bl.asid }]) ∧
    (∀ hp, s.traps u th → s.vectors u 5 hp → kindOf u = .lane → ea.toNat % afSize aty = 0 → spanCanonical ea (afSize aty) = true →
      4096 * bits (s.ctx bl.asid).oarea 0 16 ≤ s.queued bl.asid →
      ∃ t, exec (.atomFadd h aty rm a b) s = .next t ∧ Trapped s t u th 5 7 0 0 0 th.pc hp)

/-- The checks of a memory access by one thread (R74, R210, R20, R21, R23): a span that is not canonical, one outside its
space, and a misaligned local or atomic address take memory traps 0x01, 0x02 and 0x03 with the address; a translation that
fails takes trap 0x04 where the fault policy does not mark it, and where it does the lane parks in a new fragment, which
records the failure, and stays at its PC. That a conductor or a steward traps whatever the policy says is log 21's reading, and
which free entry a new fragment takes is log 61's choice. -/
def Obligations.MemoryChecks : Prop :=
  ∀ (h : Hdr) (ty : LdTy) (op : AtomOp) (cty : CmpTy) (aty : AfTy) (rm : Rm) (d : Dst) (v a b : Src) (disp : BitVec 8) (s : State)
    (u : Nat) (th : Thread) (i : Instr) (sp : Space) (ea : Word) (size : Nat) (aligned : Bool) (acc : Acc),
    s.traps u th → th.guardTrue h.guard = true →
    let ra := readSrc (laneOf u) th a
    let fa := ra + disp.signExtend 64 * word (ldSize ty)
    (i = .ld h sp ty d a disp ∧ ea = fa ∧ size = ldSize ty ∧ aligned = false ∧ acc = .read) ∨
      (i = .st h sp ty v a disp ∧ sp ≠ .p ∧ ea = fa ∧ size = ldSize ty ∧ aligned = false ∧ acc = .write) ∨
      (i = .atom h false op cty d a b ∧ sp = .g ∧ ea = ra ∧ size = (cmpShape cty).1 / 8 ∧ aligned = true ∧ acc = .atomic) ∨
      (i = .atom h true op cty d a b ∧ sp = .s ∧ ea = ra ∧ size = (cmpShape cty).1 / 8 ∧ aligned = true ∧ acc = .atomic) ∨
      (i = .atomFadd h aty rm a b ∧ sp = .g ∧ ea = ra ∧ size = afSize aty ∧ aligned = true ∧ acc = .atomic ∧
        s.queued (s.asidOf u) < 4096 * bits (s.ctx (s.asidOf u)).oarea 0 16) →
    let off := ea.toNat % size ≠ 0
    let ends := fun (cause : Nat) (addr : Word) (s0 : State) => ∀ hp, s0.vectors u 5 hp →
      ∃ t, exec i s = .next t ∧ Trapped s t u th 5 cause 0 0 addr th.pc hp
    (sp = .g → spanCanonical ea size = false → ends 1 ea s) ∧
    (sp ≠ .g → s.spaceBytes u sp < ea.toNat + size → ends 2 ea s) ∧
    (sp ≠ .g → ea.toNat + size ≤ s.spaceBytes u sp → off → ends 3 ea s) ∧
    (sp = .g → aligned = true → spanCanonical ea size = true → off → ends 3 ea s) ∧
    (∀ x s1, sp = .g → spanCanonical ea size = true → (aligned = true → ¬off) →
      s.xlateSpans u [(acc, ea, size)] = (.error x, s1) → x.waits = false →
      let pol := (s.ctx (s.asidOf u)).fpol
      let marked := (x.tcode = 1 ∧ bit pol 0 = true) ∨ (x.tcode = 2 ∧ bit pol 1 = true) ∨ (x.tcode = 4 ∧ bit pol 2 = true)
      ((kindOf u ≠ .lane ∨ ¬marked) → ends 4 x.va s1) ∧
      (∀ n, kindOf u = .lane → marked → s.freeCocoon (engOf u) = some n →
        let old := tget {} (s.coreAt (engOf u)).cocoon n
        ∃ t e, exec i s = .next t ∧ tget? t.threads u = some { th with run := .parked n, resumed := false, wait := .none } ∧
          tget? (t.coreAt (engOf u)).cocoon n = some e ∧ e.st = 1 ∧ e.gen = old.gen + 1 ∧ e.slot = slotOf u ∧ e.pc = th.pc ∧
          e.va = x.va ∧ e.tcode = x.tcode ∧ e.kind = 1 ∧ e.rsn = (s.ctx (s.asidOf u)).rsn ∧
          (∀ k, k < 32 → (e.lanes.getLsbD k = true ↔ k = laneOf u)) ∧ t.home = s.home ∧ t.emem = s.emem ∧ t.blocks = s.blocks))

/-! ### Copies and fences -/

/-- cpa and cpa2, their retirement, and completions (R81, R105, R108, R222, R223, R224). By one thread whose rows are in
bounds, translate and meet no copy in flight: the copy enters the scoreboard with the bytes that the thread's loads of its
sources give, its flag is counted and stays counted, and the thread goes on; a copy of no bytes is done at once. A copy that
retires writes its bytes, to the scratchpad or as a store of its core, and leaves the scoreboard; an instruction that has
acted counts its flag down. -/
def Obligations.Copies : Prop :=
  (∀ (h : Hdr) (toS : Bool) (src : Space) (d a b : Src) (s s1 : State) (u : Nat) (th : Thread) (bl : Block) (i : Instr)
    (rows : List (Word × Word × Nat)) (ls : List (List Nat)), s.only u th → th.guardTrue h.guard = true → kindOf u = .lane →
    tget? s.blocks th.block = some bl →
    let v := fun (x : Src) => readSrc (laneOf u) th x
    let dst : Space := if toS then .s else .g
    (i = .cpa h toS src d a b ∧ (v b).toNat ≤ 2 ^ 24 ∧ rows = [(v a, v d, (v b).toNat)]) ∨
      (∃ k, i = .cpa2 h toS src d a b ∧ b = .w k ∧
        (let len := bits (v b) 0 24
         let n := bits (v b) 24 16
         1 ≤ len ∧ len ≤ 2 ^ 20 ∧ 1 ≤ n ∧ bits (v b) 40 24 = 0 ∧ len * n ≤ 2 ^ 24 ∧
         rows = (List.range n).map fun r => (v a + word r * ((th.reg (k.toNat + 1)).extractLsb' 0 32).signExtend 64,
           v d + word r * ((th.reg (k.toNat + 1)).extractLsb' 32 32).signExtend 64, len))) →
    let fits := fun (sp : Space) (va : Word) (n : Nat) => n = 0 ∨
      if sp = .g then spanCanonical va n = true else va.toNat + n ≤ s.spaceBytes u sp
    (∀ r ∈ rows, fits src r.1 r.2.2 ∧ fits dst r.2.1 r.2.2) →
    s.xlateSpans u ((if src = .g then rows.map fun r => (Acc.read, r.1, r.2.2) else []) ++
      (if toS then [] else rows.map fun r => (Acc.write, r.2.1, r.2.2))) = (.ok ls, s1) →
    let srcs := if src = .g then ls.take rows.length else rows.map fun r => addrsOf r.1.toNat r.2.2
    let dsts := if toS then rows.map fun r => addrsOf r.2.1.toNat r.2.2 else if src = .g then ls.drop rows.length else ls
    (rows.all (fun r => r.2.2 == 0) = true → ∃ t, exec i s = .next t ∧ Ends s t h u th ∧ t.blocks = s.blocks ∧ t.home = s.home ∧
      t.emem = s.emem) ∧
    (rows.any (fun r => r.2.2 != 0) = true → s.copiesAgainst (engOf u) src (if src = .g then 0 else th.block) false srcs.flatten = [] →
      s.copiesAgainst (engOf u) dst (if toS then th.block else 0) true dsts.flatten = [] → (s.coreAt (engOf u)).copies.length < 16 →
      s1.copiesMeeting (engOf u) (s1.dstSpans u toS rows dsts) = [] → s.poison = [] → s.poisonPool = [] →
      ∃ t c x acq, exec i s = .next t ∧ (t.coreAt (engOf u)).copies = (s.coreAt (engOf u)).copies ++ [c] ∧
        c.tid = u ∧ c.inc = th.inc ∧ c.toS = toS ∧ c.blk = th.block ∧ c.uid = bl.uid ∧ c.dst = s1.dstSpans u toS rows dsts ∧ c.data.map (·.1) = dsts.flatten ∧
        (src = .s → c.data.map (·.2) = (rows.flatMap fun r => bl.spad.readN r.1.toNat r.2.2)) ∧
        (src = .a → c.data.map (·.2) = (rows.flatMap fun r => bl.acc.readN r.1.toNat r.2.2)) ∧
        (src = .g → rows.length = 1 → c.data.map (·.2) = (s1.loadBytes u srcs.flatten).1) ∧
        c.flag = (if h.set.toNat < 12 then some h.set.toNat else none) ∧ t.blocks = s.blocks ∧ t.home = s.home ∧
        tget? t.threads u = some x ∧ (∀ f, x.flagCount f = th.flagCount f + if h.set.toNat = f ∧ f < 12 then 1 else 0) ∧
        x = { th with flags := x.flags, acq := acq, pc := th.pc + word s.cur.next, wait := .none, vectored := false, rewalk := false })) ∧
  (∀ (s : State) (core idx : Nat) (c : Copy), (s.coreAt core).copies[idx]? = some c → s.poisonPool = [] →
    (∀ bl, tget? s.blocks c.blk = some bl → bl.leaving = false) →
    ∃ t, exec (.copyRetirement core idx) s = .next t ∧ (t.coreAt core).copies = (s.coreAt core).copies.eraseIdx idx ∧ t.home = s.home ∧
      (∀ bl, c.toS = true → tget? s.blocks c.blk = some bl → ∃ bl', tget? t.blocks c.blk = some bl' ∧
        bl'.spad = (if bl.uid = c.uid then bl.spad.writeAll c.data else bl.spad) ∧ t.emem = s.emem) ∧
      (c.toS = false → t.blocks = s.blocks ∧ ∃ st, (t.eng core).stores = (s.eng core).stores ++ [st] ∧ st.data = c.data ∧
        st.seq = c.seq ∧ st.tid = 1048576 * c.inc + c.tid ∧ st.copy = some c.id ∧ st.home = false) ∧
      (∀ f th, c.flag = some f → tget? s.threads c.tid = some th → th.inc = c.inc → ∃ th', tget? t.threads c.tid = some th' ∧
        th'.out = th.out ++ [f]) ∧
      ∀ u th on, tget? s.threads u = some th → th.wait = .scoreboard on → c.id ∈ on → ∃ th', tget? t.threads u = some th' ∧ th'.wait = .none) ∧
  (∀ (s : State) (u f : Nat) (th : Thread), tget? s.threads u = some th → f ∈ th.out →
    ∃ t th', exec (.instructionCompletion u f) s = .next t ∧ t = { s with threads := t.threads } ∧ tget? t.threads u = some th' ∧
      th'.out = th.out.erase f ∧ (∀ g, th'.flagCount g = if g = f then th.flagCount f - 1 else th.flagCount g) ∧
      th' = { th with out := th'.out, flags := th'.flags })

/-- fence, fence.own, fence.seize and fence.spw, by one thread (R85, R89, R90, R225, R226, R227, R228): a fence orders what
the thread has read before what it does next, and marks what its later stores carry, as the clocks say that the model keeps of
that order (log 41); fence.own reads the engine's store
sequence; fence.seize writes back the stores up to M of the core it names and refreshes the lines of its ranges with what
home holds then, and its operands are checked; fence.spw opens a new generation of each tile it names. -/
def Obligations.Fences : Prop :=
  ∀ (h : Hdr) (d : Dst) (k2 : BitVec 2) (a b : Src) (r : BitVec 8) (s : State) (u : Nat) (th : Thread), s.only u th →
    th.guardTrue h.guard = true → (kindOf u = .cond → (s.cluster (clusterOf (engOf u))).instar.st = 0) →
    let v := fun (x : Src) => readSrc (laneOf u) th x
    (∃ t th', exec (.fence h) s = .next t ∧ t = { s with threads := t.threads } ∧ Ends s t h u th' ∧
      th' = { th with vc := th'.vc, acq := [], rel := th'.rel } ∧
      (twf 0 th.acq = true → ∀ w, tget 0 th'.vc w = max (tget 0 th.vc w) (tget 0 th.acq w)) ∧
      ∀ w, tget 0 th'.rel w = if w = th.me u then th.tick else tget 0 th'.vc w) ∧
    (∃ t, exec (.fenceOwn h d) s = .next t ∧ t = { s with threads := t.threads } ∧
      Ends s t h u (writeDst d (word (s.eng (engOf u)).seq) th)) ∧
    (∀ c m leaf dpa s2, kindOf u = .lane → s.poison = [] → v a = word c → c < 864 → s.partOfEng c = s.partOfEng (engOf u) → v b = word m →
      m ≤ (s.eng c).seq → m < 2 ^ 63 →
      (∀ st ∈ (s.eng c).stores, st.data ≠ []) → (∀ q ∈ (s.coreAt c).copies, q.toS = true ∨ m < q.seq) →
      (th.reg r.toNat).toNat % 64 = 0 → th.reg (r.toNat + 1) = 64 → spanCanonical (th.reg r.toNat) 64 = true →
      (s.writeBack c (fun st => st.seq ≤ m) fun _ => true).xlate (s.asidOf u) 1 .read (th.reg r.toNat) = (.ok dpa leaf, s2) →
      s.isLocal dpa = true → s.isLocal (dpa + 63) = true →
      ∃ t, exec (.fenceSeize h 0 (.w r) a b) s = .next t ∧ Ends s t h u th ∧
        (t.eng c).stores = (s.eng c).stores.map (fun st => if st.seq ≤ m then { st with home := true } else st) ∧
        (∀ x st, s.isLocal x = true → (s.eng c).storesOf x = [st] → st.seq ≤ m → st.home = false → t.homeByte x = st.byte x) ∧
        (∀ x, s.isLocal x = true → (∀ st ∈ (s.eng c).storesOf x, m < st.seq ∨ st.home = true) → t.homeByte x = s.homeByte x) ∧
        ∀ j, j < 64 → tget? (t.eng (engOf u)).fresh (dpa + j) = some (t.homeByte (dpa + j))) ∧
    (∀ hp, s.traps u th → s.vectors u 5 hp → kindOf u = .lane → th.reg (r.toNat + 1) = 0 →
      ∃ t, exec (.fenceSeize h 0 (.w r) a b) s = .next t ∧ Trapped s t u th 5 5 0 0 0 th.pc hp) ∧
    (∀ bl, kindOf u = .lane → tget? s.blocks th.block = some bl →
      let hs := (List.range (k2.toNat + 1)).map fun j => bits (v a) (16 * j) 16
      let good := ∀ x ∈ hs, x / 2 ^ 13 = bl.core % 8 ∧ x % 2 ^ 13 * 128 < bl.spadBytes
      (good → ∃ t, exec (.fenceSpw h k2 a) s = .next t ∧ Ends s t h u th ∧ t.blocks = s.blocks ∧ t.home = s.home ∧
        ∀ x, tget 0 (t.cluster (clusterOf (engOf u))).gens x =
          let old := tget 0 (s.cluster (clusterOf (engOf u))).gens x
          if x ∈ hs then (old + hs.count x) % 65536 else old) ∧
      (∀ hp, s.traps u th → s.vectors u 5 hp → ¬good → ∃ t, exec (.fenceSpw h k2 a) s = .next t ∧ Trapped s t u th 5 8 0 0 0 th.pc hp))

/-! ### Bins, collectives, edges, accumulator granules -/

/-- bin.cfg, bin.put and bin.run, by one lane thread whose descriptor w is open and readable (R229, R230, R231, R232):
bin.cfg binds the block to the session, and a session with COUNT 0 holds no entry and begins anew, with a number of its own; a
descriptor outside its limits takes memory trap 0x09. bin.put appends index, key and value to the index's bin and raises
COUNT, and n of its key counts the thread's puts of this session; of the value it takes the low bytes that its own mod[0] says
(log 66). bin.run of a session of one
region that adds puts into each element the sum of the element and of the values appended for it, modulo the element's
width, answers COUNT, and leaves STATE 2. -/
def Obligations.BinSessions : Prop :=
  ∀ (h : Hdr) (e8 : Bool) (d : Dst) (a b : Src) (s s1 s2 : State) (u : Nat) (th : Thread) (bl : Block) (w : List Word)
    (dl l tl el : List Nat), s.only u th → th.guardTrue h.guard = true → kindOf u = .lane → tget? s.blocks th.block = some bl →
    w.length = 8 → bits (wordAt w 5) 0 2 = 0 →
    let ea := readSrc (laneOf u) th a
    let key := fun (va : Word) => bl.asid * 2 ^ 64 + va.toNat
    let session := fun (s : State) (va : Word) => tget (0, []) s.bins (key va)
    let cap := bits (wordAt w 3) 0 24
    let rlog := bits (wordAt w 1) 37 5
    let nidx := bits (wordAt w 1) 0 32
    let count := wordAt w 6
    let found := fun (va : Word) => if count ≠ 0 ∨ (session s va).2 = [] then session s va else (s.uids + 1, [])
    let regions := (nidx + 2 ^ rlog - 1) / 2 ^ rlog
    (s.describes u .read ea w dl s1 → s1.mapped bl.asid th.lvl.toNat .write (wordAt w 2) (regions * cap * 32) = (true, s2) →
      (binOk w = true → (s.binSessions (bl.core / 8) th.block).length < 16 → ∃ t, exec (.binCfg h a) s = .next t ∧
        tget? t.blocks th.block = some { bl with bin := some ea } ∧ t.home = s.home ∧ Ends s t h u th ∧ session t ea = found ea ∧
        (count = 0 → (session t ea).2 = [])) ∧
      (∀ hp, s.traps u th → s2.vectors u 5 hp → binOk w = false →
        ∃ t, exec (.binCfg h a) s = .next t ∧ Trapped s t u th 5 9 0 0 0 th.pc hp)) ∧
    (∀ va, bl.bin = some va → s.describes u .write va w dl s1 →
      let i := bits (readSrc (laneOf u) th a) 0 32
      let j := i / 2 ^ rlog
      let c := tget 0 (found va).2 j
      let n := match tget? th.nBin va.toNat with | some x => if x.1 = (found va).1 then x.2 else 0 | none => 0
      let part := fun (t : State) (k : Nat) => leNat (((l.drop (8 * k)).take 8).map t.homeByte)
      i < nidx → c < cap → spanCanonical (wordAt w 2 + word ((j * cap + c) * 32)) 32 = true →
      s1.maps u .write (wordAt w 2 + word ((j * cap + c) * 32)) 32 l s2 →
      l.all s.isLocal = true → ((l ++ (dl.drop 48).take 8).map (· % devBytes)).Nodup →
      ∃ t, exec (.binPut h e8 a b) s = .next t ∧ Ends s t h u { th with nBin := tset va.toNat ((found va).1, n + 1) th.nBin } ∧
        part t 0 = i + 2 ^ 32 * (bl.blk % 2 ^ 32) ∧ part t 1 = (32 * bl.warpNo (slotOf u) + laneOf u + n % 2 ^ 22 * 2 ^ 10) % 2 ^ 32 ∧
        part t 2 = bits (readSrc (laneOf u) th b) 0 (if e8 then 64 else 32) ∧ part t 3 = 0 ∧
        word (leNat (((dl.drop 48).take 8).map t.homeByte)) = count + 1 ∧ tget 0 (session t va).2 j = c + 1) ∧
    (∀ va hp, bl.bin = some va → s.describes u .write va w dl s1 → s.traps u th → s1.vectors u 5 hp →
      nidx ≤ bits (readSrc (laneOf u) th a) 0 32 → ∃ t, exec (.binPut h e8 a b) s = .next t ∧ Trapped s t u th 5 10 0 0 0 th.pc hp) ∧
    (s.describes u .write ea w dl s1 →
      let size := if bits (wordAt w 1) 42 2 = 0 then 4 else 8
      let scr := bits (wordAt w 4) 0 20
      let c := tget 0 (session s ea).2 0
      let at_ := fun (t : State) (i : Nat) => leNat (((tl.drop (size * i)).take size).map t.homeByte)
      let entry := fun (k : Nat) => ((el.drop (32 * k)).take 32).map s.homeByte
      bits (wordAt w 1) 44 4 = 1 → 1 ≤ nidx → nidx ≤ 2 ^ rlog → count ≠ 0 → (∀ k x, (k, x) ∈ s.blocks → k ≠ th.block → x.bin ≠ some ea) →
      bl.binRun = none → scr + 2 ^ rlog * size ≤ bl.spadBytes → s.notReady u .s true (addrsOf scr (2 ^ rlog * size)) = none →
      spanCanonical (wordAt w 0) (nidx * size) = true → (c ≠ 0 → spanCanonical (wordAt w 2) (32 * c) = true) →
      s1.xlateSpans u [(.write, wordAt w 0, nidx * size), (.read, wordAt w 2, 32 * c)] = (.ok [tl, el], s2) →
      tl.all s.isLocal = true → el.all s.isLocal = true → ((tl ++ (dl.drop 40).take 8).map (· % devBytes)).Nodup →
      (∀ x ∈ el, x % devBytes ∉ ((dl.drop 40).take 8).map (· % devBytes)) →
      ∃ t, exec (.binRun h d a) s = .next t ∧ Ends s t h u (writeDst d count { th with tick := th.tick + 1 }) ∧
        leNat (((dl.drop 40).take 8).map t.homeByte) = 2 ∧ ∀ i, i < nidx → at_ t i = (at_ s i +
          (((List.range c).filter fun k => leNat ((entry k).take 4) == i).map fun k => leNat (((entry k).drop 16).take 8)).sum) % 2 ^ (8 * size))

/-- coll.post, coll.rd, edge.push, acc.req and acc.rel, by one lane thread of a device in no Silk domain (R233, R234, R235,
R94, R236, R237, R238, R239, R79): a post answers the generation and writes back the thread's stores to the named buffers;
the last of NPART completes the generation. A push claims the next slot, writes the item there at home, makes the block
with that number pending for the consumer, and waits while no slot is free. A request is granted where the core has the
granules and the block may hold them; a release shortens the accumulator from the top. -/
def Obligations.CollectivesEdgesGranules : Prop :=
  ∀ (h : Hdr) (p : BitVec 3) (d : Dst) (a b : Src) (s s1 s3 s4 : State) (u : Nat) (th : Thread) (bl : Block) (w : List Word)
    (dl fl il dst : List Nat), s.only u th → th.guardTrue h.guard = true → kindOf u = .lane → tget? s.blocks th.block = some bl →
    (∀ k, s.domainDevs k = []) →
    let va := readSrc (laneOf u) th a
    let vb := readSrc (laneOf u) th b
    (w.length = 16 → s.describes u .read va w dl s1 → collOk w = true → (∀ x ∈ collBufs w, spanCanonical x.1 x.2.toNat = true) →
      (s.coreAt (engOf u)).copies = [] →
      let cid := bits (wordAt w 0) 0 32
      let npart := bits (wordAt w 1) 4 20
      let c := tget {} s.colls cid
      let before := match c.gen with | some g => g.posted | none => 0
      s.cidOk (engOf u) cid = true → (∀ g, c.gen = some g → g.npart = npart ∧ g.bufs = collBufs w ∧ g.posted < npart) →
      ∃ t, exec (.collPost h d a) s = .next t ∧ Ends s t h u (writeDst d c.count th) ∧
        (before + 1 < npart → ∃ g, tget {} t.colls cid = { c with gen := some g } ∧ g.npart = npart ∧ g.posted = before + 1 ∧
          ∃ w ∈ g.who, w.eng = engOf u ∧ w.asid = bl.asid ∧ w.me = th.me u) ∧
        (npart ≤ before + 1 → tget {} t.colls cid = { count := c.count + 1 }) ∧
        ∀ x st, x ∈ (s1.bufDpas bl.asid (collBufs w)).1 → s.isLocal x = true → (s.eng (engOf u)).storesOf x = [st] → st.tid = th.me u →
          st.home = false → t.homeByte x = st.byte x) ∧
    (bits va 32 32 = 0 → s.cidOk (engOf u) (bits va 0 32) = true →
      ∃ t, exec (.collRd h d a) s = .next t ∧ t = { s with threads := t.threads } ∧
        Ends s t h u (writeDst d (tget {} s.colls (bits va 0 32)).count th)) ∧
    (∀ v q, w.length = 4 → s.describes u .read va w dl s1 → edgeOk w = true → vb.toNat % 8 = 0 →
      let l := s.launch (gkey bl.asid bl.lid)
      let fa := wordAt w 2
      let cap := bits (wordAt w 1) 0 32
      let isize := bits (wordAt w 1) 32 16
      let n := bits v 32 32
      let f := bits v 0 32
      let wrap := cap * (2 ^ 32 / cap)
      let slot := wordAt w 0 + word (n % cap * isize)
      let target := gkey bl.asid ((l.gid - 1 + (edgeDst w + 1)) % 0xFFFFFFFF + 1)
      edgeSrc w = l.node → edgeDst w < (tget {} s.graphs (gkey bl.asid l.gid)).nodes.length → f ≤ cap →
      vb.toNat + isize ≤ bl.spadBytes → tget? s.launches target = some q → q.nblock = 0 → q.st < 2 → s.replayed = none →
      (s1.readHomeWord bl.asid 1 fa).1 = some v → spanCanonical fa 8 = true → spanCanonical slot isize = true →
      s1.xlateSpans u [(.atomic, fa, 8), (.write, slot, isize)] = (.ok [fl, il], s3) → fl.all s.isLocal = true →
      word (leNat (fl.map s.homeByte)) = v →
      (f = 0 → ∃ t, exec (.edgePush h d a b) s = .next t ∧ t.home = s.home ∧ tget? t.threads u = some { th with wait := .edge }) ∧
      (f ≠ 0 → s.notReady u .s false (addrsOf vb.toNat isize) = none → s3.xlateSpan bl.asid th.lvl.toNat .write slot isize = (.ok dst, s4) →
        dst.all s.isLocal = true → ((dst ++ fl).map (· % devBytes)).Nodup →
        ∃ t q' acq, exec (.edgePush h d a b) s = .next t ∧ Ends s t h u (writeDst d (word n) { th with acq := acq }) ∧
          tget? t.launches target = some q' ∧ q'.pending = q.pending ++ [(n, some va)] ∧ q'.spawned = q.spawned + 1 ∧
          dst.map t.homeByte = bl.spad.readN vb.toNat isize ∧ leNat (fl.map t.homeByte) = (n + 1) % wrap * 2 ^ 32 + (f - 1))) ∧
    (let n := va.toNat
     1 ≤ n → n ≤ 64 →
     let granted := n ≤ s.freeGran bl.core ∧ bl.accg + n ≤ bits bl.pool 16 7
     (∃ t, exec (.accReq h p a) s = .next t ∧ Ends s t h u (th.setPred p (decide granted)) ∧ t.home = s.home ∧
       tget? t.blocks th.block = some { bl with accg := if granted then bl.accg + n else bl.accg }) ∧
     (n ≤ bl.accg → (s.coreAt bl.core).copies = [] → s.condOf th.block = none →
       ∃ t bl', exec (.accRel h a) s = .next t ∧ Ends s t h u th ∧ tget? t.blocks th.block = some bl' ∧ bl'.accg = bl.accg - n ∧
         (∀ x, bl'.acc.read x = if x < 16384 * (bl.accg - n) then bl.acc.read x else 0) ∧ bl'.spad = bl.spad ∧
         (t.coreAt bl.core).accFree = (s.coreAt bl.core).accFree + word n)) ∧
    (∀ hp, s.traps u th → s.vectors u 5 hp → (va = 0 ∨ 64 < va.toNat) →
      (∃ t, exec (.accReq h p a) s = .next t ∧ Trapped s t u th 5 15 0 0 0 th.pc hp) ∧
      (∃ t, exec (.accRel h a) s = .next t ∧ Trapped s t u th 5 15 0 0 0 th.pc hp))

/-! ### Fibres -/

/-- The fibre instructions, over plain fibres in the scratchpad (R274, R276, R278, R282, R284, R285, R286, R287), and sproj
(R289), where no walk is under way, none is interrupted (R281), and every store to the scratchpad is ordered before the steering
member (R290). A fibre's elements e are strictly increasing words; its cursor stands at POS with COORD the element there. fib.open
sets the cursor on the first element; adv.n moves it k elements on, adv.ge to the first element of at least k, each stopping
at LIM; split keeps one of k equal ranges; end, get and close read and close the register. isect and merge give the members,
in lane order, the next coordinates that both streams hold, or that either holds, with the positions. sproj by one member
gives, as bit j, whether the sum of its components under the signs of projection j is positive. A closed register takes
sparse trap 0x01. -/
def Obligations.FibreInstructions : Prop :=
  (∀ (h : Hdr) (f fb : BitVec 3) (p : BitVec 3) (fld : FibField) (d : Dst) (a b : Src) (s : State) (base : Nat)
    (lanes : List Nat) (pc : Word) (bl : Block) (n : Nat), s.meets b base lanes pc →
    let lead := s.thread (base + lanes.headD 0)
    let va := readSrc (lanes.headD 0) lead a
    let fkey := fun (f : BitVec 3) => 8 * (base / 32) + f.toNat
    let fib := fun (s : State) (f : BitVec 3) => tget {} s.fibres (fkey f)
    let ends := fun (i : Instr) (Q : State → Prop) (P : Nat → Thread → Prop) => ∃ t, exec i s = .next t ∧ Q t ∧ t.home = s.home ∧
      t.blocks = s.blocks ∧ ∀ l ∈ lanes, ∃ x, tget? t.threads (base + l) = some x ∧ x.pc = pc + word s.cur.next ∧ P l x
    tget? s.blocks lead.block = some bl → (s.coreAt bl.core).copies = [] → s.poisonPool = [] → d.names n = true →
    (∀ r ∈ bl.past, lead.sees (lead.me (base + lanes.headD 0)) r.who r.tick = true) → (∀ e l, s.agenda ≠ .event e :: l) →
    (fib s f).walk = none → (fib s fb).walk = none →
    let elem := fun (base : Word) (p : Nat) => leNat (bl.spad.readN (base.toNat + 4 * p) 4)
    let sorted := fun (base : Word) (lo hi : Nat) => base.toNat + 4 * hi ≤ bl.spadBytes ∧
      (∀ p, lo ≤ p → p < hi → elem base p < 0xFFFFFFFF) ∧ ∀ p, lo ≤ p → p + 1 < hi → elem base p < elem base (p + 1)
    let good := fun (x : Fibre) => x.opened = true ∧ x.bad = false ∧ x.spad = true ∧ x.kind = 0 ∧ x.pos ≤ x.lim ∧
      sorted x.base x.pos x.lim ∧ (x.pos < x.lim → x.coord = elem x.base x.pos)
    let x := fib s f
    let standsIn := fun (t : State) (g : BitVec 3) (x : Fibre) (p lim : Nat) => (fib t g).pos = p ∧ (fib t g).lim = lim ∧
      (p < lim → (fib t g).coord = elem x.base p) ∧ (fib t g).opened = true ∧ (fib t g).bad = false ∧ (fib t g).walk = none
    let stands := fun (t : State) (p lim : Nat) => standsIn t f x p lim
    (∀ q, a = .w q → let len := bits (lead.reg (q.toNat + 1)) 0 32
      bits (lead.reg (q.toNat + 1)) 32 32 = 0 → va.toNat % 4 = 0 → sorted va 0 len →
      ends (.fibOpen h true 0 f a b) (fun t => ∃ y, fib t f = y ∧ y.opened = true ∧ y.bad = false ∧ y.spad = true ∧ y.kind = 0 ∧
        y.base = va ∧ y.len = len ∧ y.origin = 0 ∧ y.lim = len ∧ y.pos = 0 ∧ y.coord = if len = 0 then 0xFFFFFFFF else elem va 0)
        fun _ _ => True) ∧
    (good x → let k := bits va 0 32
      ends (.fibAdvN h f a b) (fun t => stands t (min (x.pos + k) x.lim) x.lim) (fun _ _ => True) ∧
      ends (.fibAdvGe h f a b) (fun t => ∃ q, stands t q x.lim ∧ x.pos ≤ q ∧ q ≤ x.lim ∧ (q < x.lim → k ≤ elem x.base q) ∧
        ∀ r, x.pos ≤ r → r < q → elem x.base r < k) (fun _ _ => True)) ∧
    (good x → let k := bits va 0 16
      let i := bits va 16 16
      1 ≤ k → i < k → bits va 32 32 = 0 →
      ends (.fibSplit h f a b) (fun t => stands t (x.pos + i * (x.lim - x.pos) / k) (x.pos + (i + 1) * (x.lim - x.pos) / k))
        fun _ _ => True) ∧
    (x.opened = true → x.bad = false → p ≠ 7 →
      ends (.fibEnd h p f b) (fun t => t.fibres = s.fibres) fun _ th => th.pred p = true ↔ x.lim ≤ x.pos) ∧
    ends (.fibClose h f b) (fun t => fib t f = {}) (fun _ _ => True) ∧
    ((x.opened = true ∨ fld = .status) → ends (.fibGet h fld d f b) (fun t => t.fibres = s.fibres) fun _ th =>
      let r := th.reg n
      match fld with
      | .coord => r = word x.coord
      | .pos => r = word x.pos
      | .lim => r = word x.lim
      | .status => (x.opened = false → r = 0) ∧ (x.opened = true → x.kind < 16 → x.origin < 2 ^ 32 → bit r 63 = true ∧ bit r 62 = x.bad ∧
          bit r 61 = decide (x.lim ≤ x.pos) ∧ bit r 60 = x.spad ∧ bits r 56 4 = x.kind ∧ bits r 32 24 = 0 ∧ bits r 0 32 = x.origin)) ∧
    (let y := fib s fb
     good x → good y → f ≠ fb →
     let as_ := (List.range' x.pos (x.lim - x.pos)).map fun p => (elem x.base p, p)
     let bs := (List.range' y.pos (y.lim - y.pos)).map fun p => (elem y.base p, p)
     let pos := fun (l : List (Nat × Nat)) (c : Nat) => ((l.find? fun e => e.1 == c).map (·.2)).getD 0xFFFFFFFF
     let takes := fun (cs : List Nat) (l : Nat) (th : Thread) =>
       let m := lanes.findIdx (· == l)
       let rm := ((lanes.take cs.length).map (2 ^ ·)).sum
       match cs[m]? with
       | some c => th.reg n = word (c + rm * 2 ^ 32) ∧ th.reg (n + 1) = word (pos as_ c + pos bs c * 2 ^ 32) ∧ th.pred p = true
       | none => th.reg n = word (0xFFFFFFFF + rm * 2 ^ 32) ∧ th.reg (n + 1) = BitVec.allOnes 64 ∧ (p ≠ 7 → th.pred p = false)
     let left := fun (gone : Nat → Bool) (t : State) =>
       standsIn t f x (x.pos + as_.countP fun e => gone e.1) x.lim ∧ standsIn t fb y (y.pos + bs.countP fun e => gone e.1) y.lim ∧
         ∀ g, g ≠ f → g ≠ fb → fib t g = fib s g
     (let cs := (as_.map (·.1)).filter fun c => (bs.map (·.1)).contains c
      ends (.fibIsect h p d f fb b) (left fun c => match as_.getLast?, bs.getLast? with
        | some u, some v => decide (c ≤ cs.getD (lanes.length - 1) (min u.1 v.1))
        | _, _ => false) (takes cs)) ∧
     ∀ cs, cs.Pairwise (· < ·) → (∀ c, c ∈ cs ↔ c ∈ as_.map (·.1) ∨ c ∈ bs.map (·.1)) →
       ends (.fibMerge h p d f fb b) (left fun c => (cs.take lanes.length).contains c) (takes cs)) ∧
    (∀ l hp, lanes = [l] → s.traps (base + l) lead → s.vectors (base + l) 7 hp → x.opened = false →
      (∃ t, exec (.fibAdvN h f a b) s = .next t ∧ Trapped s t (base + l) lead 7 1 0 0 0 pc hp) ∧
      (∃ t, exec (.fibEnd h p f b) s = .next t ∧ Trapped s t (base + l) lead 7 1 0 0 0 pc hp))) ∧
  (∀ (h : Hdr) (ty : SprojTy) (d : Dst) (a b : Src) (s : State) (base l : Nat) (pc : Word) (n : Nat), d.names n = true →
    s.meets b base [l] pc →
    let (f, cnt) := match ty with | .f16x4 => (fmtF16, 4) | .bf16x4 => (fmtBf16, 4) | .f32x2 => (fmtF32, 2)
    let comp := fun (i : Nat) => (f.fin s.flushBit (sub_ (readSrc l (s.thread (base + l)) a) f.w i)).1
    let seed := word (bits (readSrc l (s.thread (base + l)) b) 0 32)
    (∀ i, i < cnt → (comp i).isNan = false ∧ (comp i).isInf = false) →
    ∃ t th', exec (.sproj h ty d a b) s = .next t ∧ tget? t.threads (base + l) = some th' ∧ th'.pc = pc + word s.cur.next ∧
      bits (th'.reg n) 8 56 = 0 ∧ ∀ j, j < 8 → (bit (th'.reg n) j = true ↔
        0 < ((List.range cnt).map fun i => (if bit (rngMix seed (word (cnt * l + i))) j then -1 else 1) * (comp i).toRat).sum))
end

