-- ==== Sys2Proof/Laws/Bits.lean ====
section
/-! SUPPORT. The laws of Machine/Bits.lean: packing and unpacking sub-elements, register images, and narrowing. -/
namespace Sys2Proof.Machine

open Sys2Proof

theorem bits_lt (w : Word) (lo n : Nat) : bits w lo n < 2 ^ n := Nat.mod_lt _ (by positivity)

theorem sub_lt (w : Word) (n i : Nat) : sub_ w n i < 2 ^ n := bits_lt _ _ _

/-- The sum that packN builds, element by element. -/
def packSum (n : Nat) : List Nat → Nat
  | [] => 0
  | v :: vs => v % 2 ^ n + 2 ^ n * packSum n vs

theorem packSum_lt (n : Nat) (vs : List Nat) : packSum n vs < 2 ^ (n * vs.length) := by
  induction vs with
  | nil => simp [packSum]
  | cons v vs ih =>
    have h1 : v % 2 ^ n < 2 ^ n := Nat.mod_lt _ (by positivity)
    have h2 : 2 ^ (n * (v :: vs).length) = 2 ^ n * 2 ^ (n * vs.length) := by
      rw [List.length_cons, Nat.mul_succ, Nat.add_comm, pow_add]
    rw [packSum, h2]
    calc v % 2 ^ n + 2 ^ n * packSum n vs < 2 ^ n + 2 ^ n * packSum n vs := by omega
      _ = 2 ^ n * (packSum n vs + 1) := by ring
      _ ≤ 2 ^ n * 2 ^ (n * vs.length) := Nat.mul_le_mul_left _ ih

theorem packSum_eq (n : Nat) (vs : List Nat) (k : Nat) :
    ((vs.zipIdx k).map fun e => (e.1 % 2 ^ n) <<< (n * e.2)).sum = 2 ^ (n * k) * packSum n vs := by
  induction vs generalizing k with
  | nil => simp [packSum]
  | cons v vs ih =>
    rw [List.zipIdx_cons, List.map_cons, List.sum_cons, ih, packSum, Nat.shiftLeft_eq, Nat.mul_succ, pow_add]
    ring

theorem packSum_get (n : Nat) (vs : List Nat) (j : Nat) : packSum n vs / 2 ^ (n * j) % 2 ^ n = vs.getD j 0 % 2 ^ n := by
  induction vs generalizing j with
  | nil => simp [packSum]
  | cons v vs ih =>
    have hp : 0 < 2 ^ n := by positivity
    cases j with
    | zero => simp [packSum, Nat.add_mul_mod_self_left]
    | succ j =>
      have : (v % 2 ^ n + 2 ^ n * packSum n vs) / 2 ^ n = packSum n vs := by
        rw [Nat.add_mul_div_left _ _ hp, Nat.div_eq_of_lt (Nat.mod_lt _ hp), Nat.zero_add]
      have e : n * (j + 1) = n + n * j := by ring
      rw [packSum, e, pow_add, ← Nat.div_div_eq_div_mul, this, ih]
      simp

/-- Sub-element j of a packed register is element j of the list. -/
theorem sub_packN (n : Nat) (vs : List Nat) (j : Nat) (h : n * vs.length ≤ 64) : sub_ (packN n vs) n j = vs.getD j 0 % 2 ^ n := by
  have hlt : packSum n vs < 2 ^ 64 := lt_of_lt_of_le (packSum_lt n vs) (Nat.pow_le_pow_right (by omega) h)
  have hs : ((vs.zipIdx.map fun e => (e.1 % 2 ^ n) <<< (n * e.2)).sum) = packSum n vs := by simpa using packSum_eq n vs 0
  unfold sub_ bits packN word
  rw [hs, BitVec.toNat_ofNat, Nat.mod_eq_of_lt hlt, Nat.shiftRight_eq_div_pow, packSum_get]

theorem wrapN_lt (n : Nat) (x : Int) : wrapN n x < 2 ^ n := by
  have : 0 ≤ x % (2 ^ n : Int) := Int.emod_nonneg _ (by positivity)
  have h2 : x % (2 ^ n : Int) < 2 ^ n := Int.emod_lt_of_pos _ (by positivity)
  have h3 : ((2 ^ n : Nat) : Int) = 2 ^ n := by push_cast; rfl
  unfold wrapN
  omega

theorem wrapN_cast (n : Nat) (x : Int) : (wrapN n x : Int) = x % 2 ^ n := by
  unfold wrapN
  rw [Int.toNat_of_nonneg (Int.emod_nonneg _ (by positivity))]

/-- Reading a wrapped integer back as unsigned. -/
theorem toInt_wrapN_unsigned (n : Nat) (x : Int) : toInt n false (wrapN n x) = x % 2 ^ n := by
  unfold toInt
  rw [if_neg (by simp)]
  exact wrapN_cast n x

/-- Reading a wrapped integer back as signed. -/
theorem toInt_wrapN_signed (n : Nat) (hn : 1 ≤ n) (x : Int) : toInt n true (wrapN n x) = Int.bmod x (2 ^ n) := by
  have hc := wrapN_cast n x
  have h0 : 0 ≤ x % (2 ^ n : Int) := Int.emod_nonneg _ (by positivity)
  have hpow : (2 : Int) ^ n = 2 * 2 ^ (n - 1) := by
    conv_lhs => rw [← Nat.sub_add_cancel hn, pow_succ]
    ring
  have hpowN : (2 : Nat) ^ n = 2 * 2 ^ (n - 1) := by
    conv_lhs => rw [← Nat.sub_add_cancel hn, pow_succ]
    ring
  unfold toInt
  rw [Int.bmod_def]
  have hcast : ((2 ^ n : Nat) : Int) = (2 : Int) ^ n := by push_cast; rfl
  rw [hcast]
  simp only [Bool.true_and, decide_eq_true_eq]
  have hc2 : ((2 ^ (n - 1) : Nat) : Int) = (2 : Int) ^ (n - 1) := by push_cast; rfl
  by_cases h : 2 ^ (n - 1) ≤ wrapN n x
  · have h' : (2 : Int) ^ (n - 1) ≤ x % 2 ^ n := by rw [← hc, ← hc2]; exact_mod_cast h
    rw [if_pos h, if_neg (by omega), hc]
  · have h' : ¬ (2 : Int) ^ (n - 1) ≤ x % 2 ^ n := by rw [← hc, ← hc2]; exact_mod_cast h
    rw [if_neg h, if_pos (by omega), hc]

/-- The register image of an n-bit pattern reads back as the same integer: unsigned. -/
theorem fill_unsigned (n v : Nat) (hn : n ≤ 64) (hv : v < 2 ^ n) : ((fill n false v).toNat : Int) = toInt n false v := by
  have : v < 2 ^ 64 := lt_of_lt_of_le hv (Nat.pow_le_pow_right (by omega) hn)
  unfold fill toInt
  rw [if_neg (by simp), if_neg (by simp), BitVec.toNat_ofNat, Nat.mod_eq_of_lt this]

/-- The same, signed. -/
theorem fill_signed (n v : Nat) (h1 : 1 ≤ n) (hn : n ≤ 64) (hv : v < 2 ^ n) : (fill n true v).toInt = toInt n true v := by
  have hpow : (2 : Nat) ^ n = 2 * 2 ^ (n - 1) := by
    conv_lhs => rw [← Nat.sub_add_cancel h1, pow_succ]
    ring
  have hle : (2 : Nat) ^ (n - 1) ≤ 2 ^ 63 := Nat.pow_le_pow_right (by omega) (by omega)
  have hI : (2 : Int) ^ n = 2 * ((2 ^ (n - 1) : Nat) : Int) := by exact_mod_cast hpow
  unfold fill toInt
  by_cases h : 2 ^ (n - 1) ≤ v
  · rw [if_pos (by simpa using h), if_pos (by simpa using h), BitVec.toInt_ofInt]
    rw [Int.bmod_eq_of_le] <;> · push_cast; norm_num at hle ⊢; omega
  · rw [if_neg (by simpa using h), if_neg (by simpa using h), BitVec.toInt_eq_toNat_bmod,
      BitVec.toNat_ofNat, Nat.mod_eq_of_lt (by omega)]
    norm_num at hle
    rw [Int.bmod_eq_of_le] <;> omega

end Sys2Proof.Machine
end

