-- ==== Sys2Proof/Laws/Map.lean ====
section
/-! SUPPORT. The laws of the finite maps of Machine/Map.lean: what a key reads after each update, and that every update
keeps the canonical form. -/
namespace Sys2Proof.Machine

variable {α : Type}

/-! ### What a key reads -/

@[simp] theorem tget?_nil (k : Nat) : tget? ([] : Tab α) k = none := rfl

theorem tget?_cons (e : Nat × α) (m : Tab α) (k : Nat) : tget? (e :: m) k = if e.1 = k then some e.2 else tget? m k := rfl

@[simp] theorem tget?_tset (k j : Nat) (v : α) (m : Tab α) : tget? (tset k v m) j = if k = j then some v else tget? m j := by
  induction m with
  | nil => simp [tset, tget?_cons]
  | cons e m ih =>
    obtain ⟨i, u⟩ := e
    by_cases h1 : k < i
    · simp [tset, h1, tget?_cons]
    · by_cases h2 : k = i
      · subst h2; by_cases hj : k = j <;> simp [tset, tget?_cons, hj]
      · by_cases hj : k = j
        · subst hj; simp [tset, h1, h2, tget?_cons, ih, Ne.symm h2]
        · simp [tset, h1, h2, tget?_cons, ih, hj]

@[simp] theorem tget?_tdel (k j : Nat) (m : Tab α) : tget? (tdel k m) j = if k = j then none else tget? m j := by
  induction m with
  | nil => simp [tdel]
  | cons e m ih =>
    obtain ⟨i, u⟩ := e
    have ih' : tget? (m.filter fun e => e.1 != k) j = if k = j then none else tget? m j := ih
    by_cases h1 : i = k
    · subst h1
      have e1 : tdel i ((i, u) :: m) = m.filter fun e => e.1 != i := by simp [tdel]
      rw [e1, ih', tget?_cons]
      by_cases hj : i = j <;> simp [hj]
    · by_cases hj : k = j
      · subst hj; simp [tdel, tget?_cons, ih', h1]
      · simp [tdel, tget?_cons, ih', h1, hj]

/-- A map of the entries that keeps their keys. -/
theorem tget?_map {β : Type} (f : Nat × α → Nat × β) (hf : ∀ e, (f e).1 = e.1) (m : Tab α) (j : Nat) :
    tget? (m.map f) j = (tget? m j).map fun v => (f (j, v)).2 := by
  induction m with
  | nil => rfl
  | cons e m ih =>
    obtain ⟨i, u⟩ := e
    by_cases h : i = j
    · subst h; simp [tget?_cons, hf]
    · simp [tget?_cons, hf, h, ih]

@[simp] theorem tget?_tmod (k j : Nat) (f : α → α) (m : Tab α) :
    tget? (tmod k f m) j = if k = j then (tget? m j).map f else tget? m j := by
  rw [tmod, tget?_map _ (by intro e; split <;> rfl)]
  by_cases h : k = j
  · subst h; simp
  · have h' : j ≠ k := fun hh => h hh.symm
    simp [h, h']

@[simp] theorem tget_nil (d : α) (k : Nat) : tget d ([] : Tab α) k = d := rfl

@[simp] theorem tget_tset (d : α) (k j : Nat) (v : α) (m : Tab α) : tget d (tset k v m) j = if k = j then v else tget d m j := by
  unfold tget; rw [tget?_tset]; split <;> simp

@[simp] theorem tget_tdel (d : α) (k j : Nat) (m : Tab α) : tget d (tdel k m) j = if k = j then d else tget d m j := by
  unfold tget; rw [tget?_tdel]; split <;> simp

@[simp] theorem tget_tput [DecidableEq α] (d : α) (k j : Nat) (v : α) (m : Tab α) :
    tget d (tput d k v m) j = if k = j then v else tget d m j := by
  unfold tput; split <;> simp_all

theorem tget_of_some {d : α} {m : Tab α} {k : Nat} {v : α} (h : tget? m k = some v) : tget d m k = v := by simp [tget, h]

theorem tget_of_none {d : α} {m : Tab α} {k : Nat} (h : tget? m k = none) : tget d m k = d := by simp [tget, h]

/-- Entries left out by a condition on the key alone. -/
theorem tget?_filter_key (p : Nat → Bool) (m : Tab α) (j : Nat) :
    tget? (m.filter fun e => p e.1) j = if p j then tget? m j else none := by
  induction m with
  | nil => simp
  | cons e m ih =>
    obtain ⟨i, u⟩ := e
    by_cases hp : p i
    · by_cases h : i = j
      · subst h; simp [hp, tget?_cons]
      · simp [hp, tget?_cons, h, ih]
    · by_cases h : i = j
      · subst h; simp [hp, ih]
      · simp [hp, tget?_cons, h, ih]

/-! ### The canonical form -/

/-- Every key of a sorted map's tail lies above its head's. -/
theorem tsorted_cons_iff (e : Nat × α) (m : Tab α) : tsorted (e :: m) = true ↔ (∀ x ∈ m, e.1 < x.1) ∧ tsorted m = true := by
  induction m generalizing e with
  | nil => simp [tsorted]
  | cons b m ih =>
    obtain ⟨i, u⟩ := e
    obtain ⟨j, v⟩ := b
    simp only [tsorted, Bool.and_eq_true, decide_eq_true_eq, List.mem_cons, forall_eq_or_imp]
    constructor
    · rintro ⟨h1, h2⟩
      exact ⟨⟨h1, fun x hx => Nat.lt_trans h1 (((ih (j, v)).1 h2).1 x hx)⟩, h2⟩
    · rintro ⟨⟨h1, -⟩, h2⟩
      exact ⟨h1, h2⟩

theorem mem_tset {k : Nat} {v : α} {m : Tab α} {x : Nat × α} (h : x ∈ tset k v m) : x = (k, v) ∨ x ∈ m := by
  induction m with
  | nil => simpa [tset] using h
  | cons e m ih =>
    obtain ⟨i, u⟩ := e
    by_cases h1 : k < i
    · simpa [tset, h1] using h
    · by_cases h2 : k = i
      · rcases (by simpa [tset, h2] using h : x = (i, v) ∨ x ∈ m) with rfl | hx
        · exact Or.inl (by rw [h2])
        · exact Or.inr (List.mem_cons_of_mem _ hx)
      · rcases (by simpa [tset, h1, h2] using h : x = (i, u) ∨ x ∈ tset k v m) with rfl | hx
        · exact Or.inr (List.mem_cons_self ..)
        · exact (ih hx).imp id (List.mem_cons_of_mem _)

theorem tsorted_tset (k : Nat) (v : α) (m : Tab α) (h : tsorted m = true) : tsorted (tset k v m) = true := by
  induction m with
  | nil => rfl
  | cons e m ih =>
    obtain ⟨i, u⟩ := e
    have hc := (tsorted_cons_iff (i, u) m).1 h
    by_cases h1 : k < i
    · simp only [tset, h1, if_true]
      refine (tsorted_cons_iff _ _).2 ⟨?_, h⟩
      intro x hx
      rcases List.mem_cons.1 hx with rfl | hx
      · exact h1
      · exact Nat.lt_trans h1 (hc.1 x hx)
    · by_cases h2 : k = i
      · subst h2
        simp only [tset, Nat.lt_irrefl, if_false, if_true]
        exact (tsorted_cons_iff _ _).2 ⟨hc.1, hc.2⟩
      · simp only [tset, h1, h2, if_false]
        refine (tsorted_cons_iff _ _).2 ⟨?_, ih hc.2⟩
        intro x hx
        rcases mem_tset hx with rfl | hx
        · simp only; omega
        · exact hc.1 x hx

theorem tsorted_filter (p : Nat × α → Bool) (m : Tab α) (h : tsorted m = true) : tsorted (m.filter p) = true := by
  induction m with
  | nil => rfl
  | cons e m ih =>
    have hc := (tsorted_cons_iff e m).1 h
    by_cases hp : p e
    · rw [List.filter_cons_of_pos hp]
      exact (tsorted_cons_iff _ _).2 ⟨fun x hx => hc.1 x (List.mem_filter.1 hx).1, ih hc.2⟩
    · rw [List.filter_cons_of_neg hp]
      exact ih hc.2

theorem tsorted_map {β : Type} (f : Nat × α → Nat × β) (hf : ∀ e, (f e).1 = e.1) (m : Tab α) (h : tsorted m = true) :
    tsorted (m.map f) = true := by
  induction m with
  | nil => rfl
  | cons e m ih =>
    have hc := (tsorted_cons_iff e m).1 h
    rw [List.map_cons]
    refine (tsorted_cons_iff _ _).2 ⟨?_, ih hc.2⟩
    intro x hx
    obtain ⟨y, hy, rfl⟩ := List.mem_map.1 hx
    rw [hf, hf]
    exact hc.1 y hy

/-- The canonical form, spelled out. -/
theorem twf_iff [DecidableEq α] (d : α) (m : Tab α) : twf d m = true ↔ tsorted m = true ∧ ∀ e ∈ m, e.2 ≠ d := by
  simp [twf]

theorem twf_tdel [DecidableEq α] (d : α) (k : Nat) (m : Tab α) (h : twf d m = true) : twf d (tdel k m) = true := by
  rw [twf_iff] at *
  exact ⟨tsorted_filter _ _ h.1, fun e he => h.2 e (List.mem_filter.1 he).1⟩

/-- Writing through tput keeps the canonical form. -/
theorem twf_tput [DecidableEq α] (d : α) (k : Nat) (v : α) (m : Tab α) (h : twf d m = true) : twf d (tput d k v m) = true := by
  unfold tput
  split
  · exact twf_tdel d k m h
  · rename_i hv
    rw [twf_iff] at *
    refine ⟨tsorted_tset k v m h.1, fun e he => ?_⟩
    rcases mem_tset he with rfl | he
    · exact hv
    · exact h.2 e he

/-- Two sorted maps in canonical form that read alike are equal. -/
theorem twf_ext [DecidableEq α] (d : α) (m n : Tab α) (hm : twf d m = true) (hn : twf d n = true)
    (h : ∀ k, tget d m k = tget d n k) : m = n := by
  induction m generalizing n with
  | nil =>
    cases n with
    | nil => rfl
    | cons e n =>
      have := h e.1
      simp only [tget, tget?_cons, if_true, Option.getD_some] at this
      exact absurd this.symm (((twf_iff d _).1 hn).2 e (List.mem_cons_self ..))
  | cons a m ih =>
    cases n with
    | nil =>
      have := h a.1
      simp only [tget, tget?_cons, if_true, Option.getD_some] at this
      exact absurd this (((twf_iff d _).1 hm).2 a (List.mem_cons_self ..))
    | cons b n =>
      have hm' := (twf_iff d _).1 hm
      have hn' := (twf_iff d _).1 hn
      have hma := (tsorted_cons_iff a m).1 hm'.1
      have hnb := (tsorted_cons_iff b n).1 hn'.1
      have out : ∀ (l : Tab α) (k : Nat), (∀ x ∈ l, k < x.1) → tget? l k = none := by
        intro l k
        induction l with
        | nil => intro _; rfl
        | cons x l ih =>
          intro hl
          have := hl x (List.mem_cons_self ..)
          rw [tget?_cons, if_neg (by omega), ih fun y hy => hl y (List.mem_cons_of_mem _ hy)]
      have key : a.1 = b.1 := by
        rcases Nat.lt_trichotomy a.1 b.1 with hlt | heq | hgt
        · have h1 := h a.1
          rw [tget, tget?_cons, if_pos rfl, tget, tget?_cons, if_neg (by omega),
            out n a.1 fun x hx => Nat.lt_trans hlt (hnb.1 x hx)] at h1
          exact absurd h1 (hm'.2 a (List.mem_cons_self ..))
        · exact heq
        · have h1 := h b.1
          rw [tget, tget?_cons, if_neg (by omega), out m b.1 fun x hx => Nat.lt_trans hgt (hma.1 x hx), tget, tget?_cons,
            if_pos rfl] at h1
          exact absurd h1.symm (hn'.2 b (List.mem_cons_self ..))
      have val : a.2 = b.2 := by
        have h1 := h a.1
        rw [tget, tget?_cons, if_pos rfl, tget, tget?_cons, if_pos key.symm] at h1
        exact h1
      have tail : m = n := by
        apply ih n ((twf_iff d _).2 ⟨hma.2, fun e he => hm'.2 e (List.mem_cons_of_mem _ he)⟩)
          ((twf_iff d _).2 ⟨hnb.2, fun e he => hn'.2 e (List.mem_cons_of_mem _ he)⟩)
        intro k
        have h1 := h k
        by_cases hk : a.1 = k
        · subst hk
          rw [tget, out m _ hma.1, tget, out n _ (fun x hx => by rw [key]; exact hnb.1 x hx)]
        · rw [tget, tget?_cons, if_neg hk, tget, tget?_cons, if_neg (by omega)] at h1
          exact h1
      rw [tail, Prod.ext key val]

/-! ### Rising lists -/

@[simp] theorem mem_insertNat (n m : Nat) (l : List Nat) : m ∈ insertNat n l ↔ m = n ∨ m ∈ l := by
  induction l with
  | nil => simp [insertNat]
  | cons x l ih =>
    simp only [insertNat]
    split
    · simp
    · split
      · simp_all
      · simp [ih]; tauto

@[simp] theorem mem_rising (n : Nat) (l : List Nat) : n ∈ rising l ↔ n ∈ l := by
  induction l with
  | nil => simp [rising]
  | cons x l ih => rw [rising, List.foldr_cons, mem_insertNat, List.mem_cons, ← rising, ih]

theorem insertNat_pairwise (n : Nat) {l : List Nat} (h : l.Pairwise (· < ·)) : (insertNat n l).Pairwise (· < ·) := by
  induction l with
  | nil => simp [insertNat]
  | cons x l ih =>
    obtain ⟨hx, hl⟩ := List.pairwise_cons.mp h
    simp only [insertNat]
    split
    · refine List.pairwise_cons.mpr ⟨fun y hy => ?_, h⟩
      rcases List.mem_cons.mp hy with rfl | hy
      · assumption
      · have := hx y hy; omega
    · split
      · exact h
      · refine List.pairwise_cons.mpr ⟨fun y hy => ?_, ih hl⟩
        rcases (mem_insertNat n y l).mp hy with rfl | hy
        · omega
        · exact hx y hy

/-- rising gives the members of a list in strictly rising order. -/
theorem rising_pairwise (l : List Nat) : (rising l).Pairwise (· < ·) := by
  induction l with
  | nil => exact List.Pairwise.nil
  | cons x l ih => exact insertNat_pairwise x ih

end Sys2Proof.Machine
end

