-- ==== Sys2Proof/Laws/State.lean ====
section
/-! SUPPORT. The laws of the state's updates: each update of Machine/Operands.lean leaves every other table as it was,
and what its own table then reads. -/
namespace Sys2Proof.Machine

open Sys2Proof

variable (s : State)

/-! ### What an update leaves alone -/

@[simp] theorem modThread_cur (t : Nat) (f : Thread → Thread) : (s.modThread t f).cur = s.cur := rfl
@[simp] theorem modThread_ctr (t : Nat) (f : Thread → Thread) : (s.modThread t f).ctr = s.ctr := rfl
@[simp] theorem modThread_blocks (t : Nat) (f : Thread → Thread) : (s.modThread t f).blocks = s.blocks := rfl
@[simp] theorem modThread_cores (t : Nat) (f : Thread → Thread) : (s.modThread t f).cores = s.cores := rfl
@[simp] theorem modThread_emem (t : Nat) (f : Thread → Thread) : (s.modThread t f).emem = s.emem := rfl
@[simp] theorem modThread_clusters (t : Nat) (f : Thread → Thread) : (s.modThread t f).clusters = s.clusters := rfl
@[simp] theorem modThread_home (t : Nat) (f : Thread → Thread) : (s.modThread t f).home = s.home := rfl
@[simp] theorem modThread_ctxs (t : Nat) (f : Thread → Thread) : (s.modThread t f).ctxs = s.ctxs := rfl
@[simp] theorem modThread_parts (t : Nat) (f : Thread → Thread) : (s.modThread t f).parts = s.parts := rfl
@[simp] theorem modThread_launches (t : Nat) (f : Thread → Thread) : (s.modThread t f).launches = s.launches := rfl
@[simp] theorem modThread_graphs (t : Nat) (f : Thread → Thread) : (s.modThread t f).graphs = s.graphs := rfl
@[simp] theorem modThread_jobs (t : Nat) (f : Thread → Thread) : (s.modThread t f).jobs = s.jobs := rfl
@[simp] theorem modThread_seqs (t : Nat) (f : Thread → Thread) : (s.modThread t f).seqs = s.seqs := rfl
@[simp] theorem modThread_boot (t : Nat) (f : Thread → Thread) : (s.modThread t f).boot = s.boot := rfl
@[simp] theorem modThread_fibres (t : Nat) (f : Thread → Thread) : (s.modThread t f).fibres = s.fibres := rfl
@[simp] theorem modThread_tlb (t : Nat) (f : Thread → Thread) : (s.modThread t f).tlb = s.tlb := rfl
@[simp] theorem modThread_owner (t : Nat) (f : Thread → Thread) : (s.modThread t f).owner = s.owner := rfl
@[simp] theorem modThread_poison (t : Nat) (f : Thread → Thread) : (s.modThread t f).poison = s.poison := rfl
@[simp] theorem modThread_log (t : Nat) (f : Thread → Thread) : (s.modThread t f).log = s.log := rfl
@[simp] theorem modThread_egress (t : Nat) (f : Thread → Thread) : (s.modThread t f).egress = s.egress := rfl
@[simp] theorem modThread_spare (t : Nat) (f : Thread → Thread) : (s.modThread t f).spare = s.spare := rfl
@[simp] theorem modThread_bnd (t : Nat) (f : Thread → Thread) : (s.modThread t f).bnd = s.bnd := rfl
@[simp] theorem modThread_images (t : Nat) (f : Thread → Thread) : (s.modThread t f).images = s.images := rfl
@[simp] theorem modThread_stops (t : Nat) (f : Thread → Thread) : (s.modThread t f).stops = s.stops := rfl
@[simp] theorem modThread_mail (t : Nat) (f : Thread → Thread) : (s.modThread t f).mail = s.mail := rfl
@[simp] theorem modThread_recording (t : Nat) (f : Thread → Thread) : (s.modThread t f).recording = s.recording := rfl
@[simp] theorem modThread_requants (t : Nat) (f : Thread → Thread) : (s.modThread t f).requants = s.requants := rfl
@[simp] theorem modThread_colls (t : Nat) (f : Thread → Thread) : (s.modThread t f).colls = s.colls := rfl
@[simp] theorem modThread_bins (t : Nat) (f : Thread → Thread) : (s.modThread t f).bins = s.bins := rfl
@[simp] theorem modThread_remote (t : Nat) (f : Thread → Thread) : (s.modThread t f).remote = s.remote := rfl
@[simp] theorem modThread_barSeen (t : Nat) (f : Thread → Thread) : (s.modThread t f).barSeen = s.barSeen := rfl
@[simp] theorem modThread_poisonPool (t : Nat) (f : Thread → Thread) : (s.modThread t f).poisonPool = s.poisonPool := rfl

@[simp] theorem setThread_cur (t : Nat) (f : Thread) : (s.setThread t f).cur = s.cur := rfl
@[simp] theorem setThread_ctr (t : Nat) (f : Thread) : (s.setThread t f).ctr = s.ctr := rfl
@[simp] theorem setThread_blocks (t : Nat) (f : Thread) : (s.setThread t f).blocks = s.blocks := rfl
@[simp] theorem setThread_cores (t : Nat) (f : Thread) : (s.setThread t f).cores = s.cores := rfl
@[simp] theorem setThread_emem (t : Nat) (f : Thread) : (s.setThread t f).emem = s.emem := rfl
@[simp] theorem setThread_clusters (t : Nat) (f : Thread) : (s.setThread t f).clusters = s.clusters := rfl
@[simp] theorem setThread_home (t : Nat) (f : Thread) : (s.setThread t f).home = s.home := rfl
@[simp] theorem setThread_ctxs (t : Nat) (f : Thread) : (s.setThread t f).ctxs = s.ctxs := rfl
@[simp] theorem setThread_parts (t : Nat) (f : Thread) : (s.setThread t f).parts = s.parts := rfl
@[simp] theorem setThread_launches (t : Nat) (f : Thread) : (s.setThread t f).launches = s.launches := rfl
@[simp] theorem setThread_graphs (t : Nat) (f : Thread) : (s.setThread t f).graphs = s.graphs := rfl
@[simp] theorem setThread_jobs (t : Nat) (f : Thread) : (s.setThread t f).jobs = s.jobs := rfl
@[simp] theorem setThread_seqs (t : Nat) (f : Thread) : (s.setThread t f).seqs = s.seqs := rfl
@[simp] theorem setThread_boot (t : Nat) (f : Thread) : (s.setThread t f).boot = s.boot := rfl
@[simp] theorem setThread_fibres (t : Nat) (f : Thread) : (s.setThread t f).fibres = s.fibres := rfl
@[simp] theorem setThread_tlb (t : Nat) (f : Thread) : (s.setThread t f).tlb = s.tlb := rfl
@[simp] theorem setThread_owner (t : Nat) (f : Thread) : (s.setThread t f).owner = s.owner := rfl
@[simp] theorem setThread_poison (t : Nat) (f : Thread) : (s.setThread t f).poison = s.poison := rfl
@[simp] theorem setThread_log (t : Nat) (f : Thread) : (s.setThread t f).log = s.log := rfl
@[simp] theorem setThread_egress (t : Nat) (f : Thread) : (s.setThread t f).egress = s.egress := rfl
@[simp] theorem setThread_spare (t : Nat) (f : Thread) : (s.setThread t f).spare = s.spare := rfl
@[simp] theorem setThread_bnd (t : Nat) (f : Thread) : (s.setThread t f).bnd = s.bnd := rfl
@[simp] theorem setThread_images (t : Nat) (f : Thread) : (s.setThread t f).images = s.images := rfl
@[simp] theorem setThread_stops (t : Nat) (f : Thread) : (s.setThread t f).stops = s.stops := rfl
@[simp] theorem setThread_mail (t : Nat) (f : Thread) : (s.setThread t f).mail = s.mail := rfl
@[simp] theorem setThread_recording (t : Nat) (f : Thread) : (s.setThread t f).recording = s.recording := rfl
@[simp] theorem setThread_requants (t : Nat) (f : Thread) : (s.setThread t f).requants = s.requants := rfl
@[simp] theorem setThread_colls (t : Nat) (f : Thread) : (s.setThread t f).colls = s.colls := rfl
@[simp] theorem setThread_bins (t : Nat) (f : Thread) : (s.setThread t f).bins = s.bins := rfl
@[simp] theorem setThread_remote (t : Nat) (f : Thread) : (s.setThread t f).remote = s.remote := rfl
@[simp] theorem setThread_barSeen (t : Nat) (f : Thread) : (s.setThread t f).barSeen = s.barSeen := rfl
@[simp] theorem setThread_poisonPool (t : Nat) (f : Thread) : (s.setThread t f).poisonPool = s.poisonPool := rfl

@[simp] theorem mapGroup_cur (f : Nat → Thread → Thread) : (s.mapGroup f).cur = s.cur := rfl
@[simp] theorem mapGroup_ctr (f : Nat → Thread → Thread) : (s.mapGroup f).ctr = s.ctr := rfl
@[simp] theorem mapGroup_blocks (f : Nat → Thread → Thread) : (s.mapGroup f).blocks = s.blocks := rfl
@[simp] theorem mapGroup_cores (f : Nat → Thread → Thread) : (s.mapGroup f).cores = s.cores := rfl
@[simp] theorem mapGroup_emem (f : Nat → Thread → Thread) : (s.mapGroup f).emem = s.emem := rfl
@[simp] theorem mapGroup_clusters (f : Nat → Thread → Thread) : (s.mapGroup f).clusters = s.clusters := rfl
@[simp] theorem mapGroup_home (f : Nat → Thread → Thread) : (s.mapGroup f).home = s.home := rfl
@[simp] theorem mapGroup_ctxs (f : Nat → Thread → Thread) : (s.mapGroup f).ctxs = s.ctxs := rfl
@[simp] theorem mapGroup_parts (f : Nat → Thread → Thread) : (s.mapGroup f).parts = s.parts := rfl
@[simp] theorem mapGroup_launches (f : Nat → Thread → Thread) : (s.mapGroup f).launches = s.launches := rfl
@[simp] theorem mapGroup_graphs (f : Nat → Thread → Thread) : (s.mapGroup f).graphs = s.graphs := rfl
@[simp] theorem mapGroup_jobs (f : Nat → Thread → Thread) : (s.mapGroup f).jobs = s.jobs := rfl
@[simp] theorem mapGroup_seqs (f : Nat → Thread → Thread) : (s.mapGroup f).seqs = s.seqs := rfl
@[simp] theorem mapGroup_boot (f : Nat → Thread → Thread) : (s.mapGroup f).boot = s.boot := rfl
@[simp] theorem mapGroup_fibres (f : Nat → Thread → Thread) : (s.mapGroup f).fibres = s.fibres := rfl
@[simp] theorem mapGroup_tlb (f : Nat → Thread → Thread) : (s.mapGroup f).tlb = s.tlb := rfl
@[simp] theorem mapGroup_owner (f : Nat → Thread → Thread) : (s.mapGroup f).owner = s.owner := rfl
@[simp] theorem mapGroup_poison (f : Nat → Thread → Thread) : (s.mapGroup f).poison = s.poison := rfl
@[simp] theorem mapGroup_log (f : Nat → Thread → Thread) : (s.mapGroup f).log = s.log := rfl
@[simp] theorem mapGroup_egress (f : Nat → Thread → Thread) : (s.mapGroup f).egress = s.egress := rfl
@[simp] theorem mapGroup_spare (f : Nat → Thread → Thread) : (s.mapGroup f).spare = s.spare := rfl
@[simp] theorem mapGroup_bnd (f : Nat → Thread → Thread) : (s.mapGroup f).bnd = s.bnd := rfl
@[simp] theorem mapGroup_images (f : Nat → Thread → Thread) : (s.mapGroup f).images = s.images := rfl
@[simp] theorem mapGroup_stops (f : Nat → Thread → Thread) : (s.mapGroup f).stops = s.stops := rfl
@[simp] theorem mapGroup_mail (f : Nat → Thread → Thread) : (s.mapGroup f).mail = s.mail := rfl
@[simp] theorem mapGroup_recording (f : Nat → Thread → Thread) : (s.mapGroup f).recording = s.recording := rfl
@[simp] theorem mapGroup_requants (f : Nat → Thread → Thread) : (s.mapGroup f).requants = s.requants := rfl
@[simp] theorem mapGroup_colls (f : Nat → Thread → Thread) : (s.mapGroup f).colls = s.colls := rfl
@[simp] theorem mapGroup_bins (f : Nat → Thread → Thread) : (s.mapGroup f).bins = s.bins := rfl
@[simp] theorem mapGroup_remote (f : Nat → Thread → Thread) : (s.mapGroup f).remote = s.remote := rfl
@[simp] theorem mapGroup_barSeen (f : Nat → Thread → Thread) : (s.mapGroup f).barSeen = s.barSeen := rfl
@[simp] theorem mapGroup_poisonPool (f : Nat → Thread → Thread) : (s.mapGroup f).poisonPool = s.poisonPool := rfl

@[simp] theorem modBlock_cur (b : Nat) (f : Block → Block) : (s.modBlock b f).cur = s.cur := rfl
@[simp] theorem modBlock_ctr (b : Nat) (f : Block → Block) : (s.modBlock b f).ctr = s.ctr := rfl
@[simp] theorem modBlock_threads (b : Nat) (f : Block → Block) : (s.modBlock b f).threads = s.threads := rfl
@[simp] theorem modBlock_cores (b : Nat) (f : Block → Block) : (s.modBlock b f).cores = s.cores := rfl
@[simp] theorem modBlock_emem (b : Nat) (f : Block → Block) : (s.modBlock b f).emem = s.emem := rfl
@[simp] theorem modBlock_clusters (b : Nat) (f : Block → Block) : (s.modBlock b f).clusters = s.clusters := rfl
@[simp] theorem modBlock_home (b : Nat) (f : Block → Block) : (s.modBlock b f).home = s.home := rfl
@[simp] theorem modBlock_ctxs (b : Nat) (f : Block → Block) : (s.modBlock b f).ctxs = s.ctxs := rfl
@[simp] theorem modBlock_parts (b : Nat) (f : Block → Block) : (s.modBlock b f).parts = s.parts := rfl
@[simp] theorem modBlock_launches (b : Nat) (f : Block → Block) : (s.modBlock b f).launches = s.launches := rfl
@[simp] theorem modBlock_graphs (b : Nat) (f : Block → Block) : (s.modBlock b f).graphs = s.graphs := rfl
@[simp] theorem modBlock_jobs (b : Nat) (f : Block → Block) : (s.modBlock b f).jobs = s.jobs := rfl
@[simp] theorem modBlock_seqs (b : Nat) (f : Block → Block) : (s.modBlock b f).seqs = s.seqs := rfl
@[simp] theorem modBlock_boot (b : Nat) (f : Block → Block) : (s.modBlock b f).boot = s.boot := rfl
@[simp] theorem modBlock_fibres (b : Nat) (f : Block → Block) : (s.modBlock b f).fibres = s.fibres := rfl
@[simp] theorem modBlock_tlb (b : Nat) (f : Block → Block) : (s.modBlock b f).tlb = s.tlb := rfl
@[simp] theorem modBlock_owner (b : Nat) (f : Block → Block) : (s.modBlock b f).owner = s.owner := rfl
@[simp] theorem modBlock_poison (b : Nat) (f : Block → Block) : (s.modBlock b f).poison = s.poison := rfl
@[simp] theorem modBlock_log (b : Nat) (f : Block → Block) : (s.modBlock b f).log = s.log := rfl
@[simp] theorem modBlock_egress (b : Nat) (f : Block → Block) : (s.modBlock b f).egress = s.egress := rfl
@[simp] theorem modBlock_spare (b : Nat) (f : Block → Block) : (s.modBlock b f).spare = s.spare := rfl
@[simp] theorem modBlock_bnd (b : Nat) (f : Block → Block) : (s.modBlock b f).bnd = s.bnd := rfl
@[simp] theorem modBlock_images (b : Nat) (f : Block → Block) : (s.modBlock b f).images = s.images := rfl
@[simp] theorem modBlock_stops (b : Nat) (f : Block → Block) : (s.modBlock b f).stops = s.stops := rfl
@[simp] theorem modBlock_mail (b : Nat) (f : Block → Block) : (s.modBlock b f).mail = s.mail := rfl
@[simp] theorem modBlock_recording (b : Nat) (f : Block → Block) : (s.modBlock b f).recording = s.recording := rfl
@[simp] theorem modBlock_requants (b : Nat) (f : Block → Block) : (s.modBlock b f).requants = s.requants := rfl
@[simp] theorem modBlock_colls (b : Nat) (f : Block → Block) : (s.modBlock b f).colls = s.colls := rfl
@[simp] theorem modBlock_bins (b : Nat) (f : Block → Block) : (s.modBlock b f).bins = s.bins := rfl
@[simp] theorem modBlock_remote (b : Nat) (f : Block → Block) : (s.modBlock b f).remote = s.remote := rfl
@[simp] theorem modBlock_barSeen (b : Nat) (f : Block → Block) : (s.modBlock b f).barSeen = s.barSeen := rfl
@[simp] theorem modBlock_poisonPool (b : Nat) (f : Block → Block) : (s.modBlock b f).poisonPool = s.poisonPool := rfl

@[simp] theorem modCtx_cur (a : Nat) (f : Context → Context) : (s.modCtx a f).cur = s.cur := rfl
@[simp] theorem modCtx_ctr (a : Nat) (f : Context → Context) : (s.modCtx a f).ctr = s.ctr := rfl
@[simp] theorem modCtx_threads (a : Nat) (f : Context → Context) : (s.modCtx a f).threads = s.threads := rfl
@[simp] theorem modCtx_blocks (a : Nat) (f : Context → Context) : (s.modCtx a f).blocks = s.blocks := rfl
@[simp] theorem modCtx_cores (a : Nat) (f : Context → Context) : (s.modCtx a f).cores = s.cores := rfl
@[simp] theorem modCtx_emem (a : Nat) (f : Context → Context) : (s.modCtx a f).emem = s.emem := rfl
@[simp] theorem modCtx_clusters (a : Nat) (f : Context → Context) : (s.modCtx a f).clusters = s.clusters := rfl
@[simp] theorem modCtx_home (a : Nat) (f : Context → Context) : (s.modCtx a f).home = s.home := rfl
@[simp] theorem modCtx_parts (a : Nat) (f : Context → Context) : (s.modCtx a f).parts = s.parts := rfl
@[simp] theorem modCtx_launches (a : Nat) (f : Context → Context) : (s.modCtx a f).launches = s.launches := rfl
@[simp] theorem modCtx_graphs (a : Nat) (f : Context → Context) : (s.modCtx a f).graphs = s.graphs := rfl
@[simp] theorem modCtx_jobs (a : Nat) (f : Context → Context) : (s.modCtx a f).jobs = s.jobs := rfl
@[simp] theorem modCtx_seqs (a : Nat) (f : Context → Context) : (s.modCtx a f).seqs = s.seqs := rfl
@[simp] theorem modCtx_boot (a : Nat) (f : Context → Context) : (s.modCtx a f).boot = s.boot := rfl
@[simp] theorem modCtx_fibres (a : Nat) (f : Context → Context) : (s.modCtx a f).fibres = s.fibres := rfl
@[simp] theorem modCtx_tlb (a : Nat) (f : Context → Context) : (s.modCtx a f).tlb = s.tlb := rfl
@[simp] theorem modCtx_owner (a : Nat) (f : Context → Context) : (s.modCtx a f).owner = s.owner := rfl
@[simp] theorem modCtx_poison (a : Nat) (f : Context → Context) : (s.modCtx a f).poison = s.poison := rfl
@[simp] theorem modCtx_log (a : Nat) (f : Context → Context) : (s.modCtx a f).log = s.log := rfl
@[simp] theorem modCtx_egress (a : Nat) (f : Context → Context) : (s.modCtx a f).egress = s.egress := rfl
@[simp] theorem modCtx_spare (a : Nat) (f : Context → Context) : (s.modCtx a f).spare = s.spare := rfl
@[simp] theorem modCtx_bnd (a : Nat) (f : Context → Context) : (s.modCtx a f).bnd = s.bnd := rfl
@[simp] theorem modCtx_images (a : Nat) (f : Context → Context) : (s.modCtx a f).images = s.images := rfl
@[simp] theorem modCtx_stops (a : Nat) (f : Context → Context) : (s.modCtx a f).stops = s.stops := rfl
@[simp] theorem modCtx_mail (a : Nat) (f : Context → Context) : (s.modCtx a f).mail = s.mail := rfl
@[simp] theorem modCtx_recording (a : Nat) (f : Context → Context) : (s.modCtx a f).recording = s.recording := rfl
@[simp] theorem modCtx_requants (a : Nat) (f : Context → Context) : (s.modCtx a f).requants = s.requants := rfl
@[simp] theorem modCtx_colls (a : Nat) (f : Context → Context) : (s.modCtx a f).colls = s.colls := rfl
@[simp] theorem modCtx_bins (a : Nat) (f : Context → Context) : (s.modCtx a f).bins = s.bins := rfl
@[simp] theorem modCtx_remote (a : Nat) (f : Context → Context) : (s.modCtx a f).remote = s.remote := rfl
@[simp] theorem modCtx_barSeen (a : Nat) (f : Context → Context) : (s.modCtx a f).barSeen = s.barSeen := rfl
@[simp] theorem modCtx_poisonPool (a : Nat) (f : Context → Context) : (s.modCtx a f).poisonPool = s.poisonPool := rfl

@[simp] theorem modPart_cur (p : Nat) (f : Part → Part) : (s.modPart p f).cur = s.cur := rfl
@[simp] theorem modPart_ctr (p : Nat) (f : Part → Part) : (s.modPart p f).ctr = s.ctr := rfl
@[simp] theorem modPart_threads (p : Nat) (f : Part → Part) : (s.modPart p f).threads = s.threads := rfl
@[simp] theorem modPart_blocks (p : Nat) (f : Part → Part) : (s.modPart p f).blocks = s.blocks := rfl
@[simp] theorem modPart_cores (p : Nat) (f : Part → Part) : (s.modPart p f).cores = s.cores := rfl
@[simp] theorem modPart_emem (p : Nat) (f : Part → Part) : (s.modPart p f).emem = s.emem := rfl
@[simp] theorem modPart_clusters (p : Nat) (f : Part → Part) : (s.modPart p f).clusters = s.clusters := rfl
@[simp] theorem modPart_home (p : Nat) (f : Part → Part) : (s.modPart p f).home = s.home := rfl
@[simp] theorem modPart_ctxs (p : Nat) (f : Part → Part) : (s.modPart p f).ctxs = s.ctxs := rfl
@[simp] theorem modPart_launches (p : Nat) (f : Part → Part) : (s.modPart p f).launches = s.launches := rfl
@[simp] theorem modPart_graphs (p : Nat) (f : Part → Part) : (s.modPart p f).graphs = s.graphs := rfl
@[simp] theorem modPart_jobs (p : Nat) (f : Part → Part) : (s.modPart p f).jobs = s.jobs := rfl
@[simp] theorem modPart_seqs (p : Nat) (f : Part → Part) : (s.modPart p f).seqs = s.seqs := rfl
@[simp] theorem modPart_boot (p : Nat) (f : Part → Part) : (s.modPart p f).boot = s.boot := rfl
@[simp] theorem modPart_fibres (p : Nat) (f : Part → Part) : (s.modPart p f).fibres = s.fibres := rfl
@[simp] theorem modPart_tlb (p : Nat) (f : Part → Part) : (s.modPart p f).tlb = s.tlb := rfl
@[simp] theorem modPart_owner (p : Nat) (f : Part → Part) : (s.modPart p f).owner = s.owner := rfl
@[simp] theorem modPart_poison (p : Nat) (f : Part → Part) : (s.modPart p f).poison = s.poison := rfl
@[simp] theorem modPart_log (p : Nat) (f : Part → Part) : (s.modPart p f).log = s.log := rfl
@[simp] theorem modPart_egress (p : Nat) (f : Part → Part) : (s.modPart p f).egress = s.egress := rfl
@[simp] theorem modPart_spare (p : Nat) (f : Part → Part) : (s.modPart p f).spare = s.spare := rfl
@[simp] theorem modPart_bnd (p : Nat) (f : Part → Part) : (s.modPart p f).bnd = s.bnd := rfl
@[simp] theorem modPart_images (p : Nat) (f : Part → Part) : (s.modPart p f).images = s.images := rfl
@[simp] theorem modPart_stops (p : Nat) (f : Part → Part) : (s.modPart p f).stops = s.stops := rfl
@[simp] theorem modPart_mail (p : Nat) (f : Part → Part) : (s.modPart p f).mail = s.mail := rfl
@[simp] theorem modPart_recording (p : Nat) (f : Part → Part) : (s.modPart p f).recording = s.recording := rfl
@[simp] theorem modPart_requants (p : Nat) (f : Part → Part) : (s.modPart p f).requants = s.requants := rfl
@[simp] theorem modPart_colls (p : Nat) (f : Part → Part) : (s.modPart p f).colls = s.colls := rfl
@[simp] theorem modPart_bins (p : Nat) (f : Part → Part) : (s.modPart p f).bins = s.bins := rfl
@[simp] theorem modPart_remote (p : Nat) (f : Part → Part) : (s.modPart p f).remote = s.remote := rfl
@[simp] theorem modPart_barSeen (p : Nat) (f : Part → Part) : (s.modPart p f).barSeen = s.barSeen := rfl
@[simp] theorem modPart_poisonPool (p : Nat) (f : Part → Part) : (s.modPart p f).poisonPool = s.poisonPool := rfl

@[simp] theorem modLaunch_cur (k : Nat) (f : Launch → Launch) : (s.modLaunch k f).cur = s.cur := rfl
@[simp] theorem modLaunch_ctr (k : Nat) (f : Launch → Launch) : (s.modLaunch k f).ctr = s.ctr := rfl
@[simp] theorem modLaunch_threads (k : Nat) (f : Launch → Launch) : (s.modLaunch k f).threads = s.threads := rfl
@[simp] theorem modLaunch_blocks (k : Nat) (f : Launch → Launch) : (s.modLaunch k f).blocks = s.blocks := rfl
@[simp] theorem modLaunch_cores (k : Nat) (f : Launch → Launch) : (s.modLaunch k f).cores = s.cores := rfl
@[simp] theorem modLaunch_emem (k : Nat) (f : Launch → Launch) : (s.modLaunch k f).emem = s.emem := rfl
@[simp] theorem modLaunch_clusters (k : Nat) (f : Launch → Launch) : (s.modLaunch k f).clusters = s.clusters := rfl
@[simp] theorem modLaunch_home (k : Nat) (f : Launch → Launch) : (s.modLaunch k f).home = s.home := rfl
@[simp] theorem modLaunch_ctxs (k : Nat) (f : Launch → Launch) : (s.modLaunch k f).ctxs = s.ctxs := rfl
@[simp] theorem modLaunch_parts (k : Nat) (f : Launch → Launch) : (s.modLaunch k f).parts = s.parts := rfl
@[simp] theorem modLaunch_graphs (k : Nat) (f : Launch → Launch) : (s.modLaunch k f).graphs = s.graphs := rfl
@[simp] theorem modLaunch_jobs (k : Nat) (f : Launch → Launch) : (s.modLaunch k f).jobs = s.jobs := rfl
@[simp] theorem modLaunch_seqs (k : Nat) (f : Launch → Launch) : (s.modLaunch k f).seqs = s.seqs := rfl
@[simp] theorem modLaunch_boot (k : Nat) (f : Launch → Launch) : (s.modLaunch k f).boot = s.boot := rfl
@[simp] theorem modLaunch_fibres (k : Nat) (f : Launch → Launch) : (s.modLaunch k f).fibres = s.fibres := rfl
@[simp] theorem modLaunch_tlb (k : Nat) (f : Launch → Launch) : (s.modLaunch k f).tlb = s.tlb := rfl
@[simp] theorem modLaunch_owner (k : Nat) (f : Launch → Launch) : (s.modLaunch k f).owner = s.owner := rfl
@[simp] theorem modLaunch_poison (k : Nat) (f : Launch → Launch) : (s.modLaunch k f).poison = s.poison := rfl
@[simp] theorem modLaunch_log (k : Nat) (f : Launch → Launch) : (s.modLaunch k f).log = s.log := rfl
@[simp] theorem modLaunch_egress (k : Nat) (f : Launch → Launch) : (s.modLaunch k f).egress = s.egress := rfl
@[simp] theorem modLaunch_spare (k : Nat) (f : Launch → Launch) : (s.modLaunch k f).spare = s.spare := rfl
@[simp] theorem modLaunch_bnd (k : Nat) (f : Launch → Launch) : (s.modLaunch k f).bnd = s.bnd := rfl
@[simp] theorem modLaunch_images (k : Nat) (f : Launch → Launch) : (s.modLaunch k f).images = s.images := rfl
@[simp] theorem modLaunch_stops (k : Nat) (f : Launch → Launch) : (s.modLaunch k f).stops = s.stops := rfl
@[simp] theorem modLaunch_mail (k : Nat) (f : Launch → Launch) : (s.modLaunch k f).mail = s.mail := rfl
@[simp] theorem modLaunch_recording (k : Nat) (f : Launch → Launch) : (s.modLaunch k f).recording = s.recording := rfl
@[simp] theorem modLaunch_requants (k : Nat) (f : Launch → Launch) : (s.modLaunch k f).requants = s.requants := rfl
@[simp] theorem modLaunch_colls (k : Nat) (f : Launch → Launch) : (s.modLaunch k f).colls = s.colls := rfl
@[simp] theorem modLaunch_bins (k : Nat) (f : Launch → Launch) : (s.modLaunch k f).bins = s.bins := rfl
@[simp] theorem modLaunch_remote (k : Nat) (f : Launch → Launch) : (s.modLaunch k f).remote = s.remote := rfl
@[simp] theorem modLaunch_barSeen (k : Nat) (f : Launch → Launch) : (s.modLaunch k f).barSeen = s.barSeen := rfl
@[simp] theorem modLaunch_poisonPool (k : Nat) (f : Launch → Launch) : (s.modLaunch k f).poisonPool = s.poisonPool := rfl

@[simp] theorem modCore_cur (c : Nat) (f : Core → Core) : (s.modCore c f).cur = s.cur := rfl
@[simp] theorem modCore_ctr (c : Nat) (f : Core → Core) : (s.modCore c f).ctr = s.ctr := rfl
@[simp] theorem modCore_threads (c : Nat) (f : Core → Core) : (s.modCore c f).threads = s.threads := rfl
@[simp] theorem modCore_blocks (c : Nat) (f : Core → Core) : (s.modCore c f).blocks = s.blocks := rfl
@[simp] theorem modCore_emem (c : Nat) (f : Core → Core) : (s.modCore c f).emem = s.emem := rfl
@[simp] theorem modCore_clusters (c : Nat) (f : Core → Core) : (s.modCore c f).clusters = s.clusters := rfl
@[simp] theorem modCore_home (c : Nat) (f : Core → Core) : (s.modCore c f).home = s.home := rfl
@[simp] theorem modCore_ctxs (c : Nat) (f : Core → Core) : (s.modCore c f).ctxs = s.ctxs := rfl
@[simp] theorem modCore_parts (c : Nat) (f : Core → Core) : (s.modCore c f).parts = s.parts := rfl
@[simp] theorem modCore_launches (c : Nat) (f : Core → Core) : (s.modCore c f).launches = s.launches := rfl
@[simp] theorem modCore_graphs (c : Nat) (f : Core → Core) : (s.modCore c f).graphs = s.graphs := rfl
@[simp] theorem modCore_jobs (c : Nat) (f : Core → Core) : (s.modCore c f).jobs = s.jobs := rfl
@[simp] theorem modCore_seqs (c : Nat) (f : Core → Core) : (s.modCore c f).seqs = s.seqs := rfl
@[simp] theorem modCore_boot (c : Nat) (f : Core → Core) : (s.modCore c f).boot = s.boot := rfl
@[simp] theorem modCore_fibres (c : Nat) (f : Core → Core) : (s.modCore c f).fibres = s.fibres := rfl
@[simp] theorem modCore_tlb (c : Nat) (f : Core → Core) : (s.modCore c f).tlb = s.tlb := rfl
@[simp] theorem modCore_owner (c : Nat) (f : Core → Core) : (s.modCore c f).owner = s.owner := rfl
@[simp] theorem modCore_poison (c : Nat) (f : Core → Core) : (s.modCore c f).poison = s.poison := rfl
@[simp] theorem modCore_log (c : Nat) (f : Core → Core) : (s.modCore c f).log = s.log := rfl
@[simp] theorem modCore_egress (c : Nat) (f : Core → Core) : (s.modCore c f).egress = s.egress := rfl
@[simp] theorem modCore_spare (c : Nat) (f : Core → Core) : (s.modCore c f).spare = s.spare := rfl
@[simp] theorem modCore_bnd (c : Nat) (f : Core → Core) : (s.modCore c f).bnd = s.bnd := rfl
@[simp] theorem modCore_images (c : Nat) (f : Core → Core) : (s.modCore c f).images = s.images := rfl
@[simp] theorem modCore_stops (c : Nat) (f : Core → Core) : (s.modCore c f).stops = s.stops := rfl
@[simp] theorem modCore_mail (c : Nat) (f : Core → Core) : (s.modCore c f).mail = s.mail := rfl
@[simp] theorem modCore_recording (c : Nat) (f : Core → Core) : (s.modCore c f).recording = s.recording := rfl
@[simp] theorem modCore_requants (c : Nat) (f : Core → Core) : (s.modCore c f).requants = s.requants := rfl
@[simp] theorem modCore_colls (c : Nat) (f : Core → Core) : (s.modCore c f).colls = s.colls := rfl
@[simp] theorem modCore_bins (c : Nat) (f : Core → Core) : (s.modCore c f).bins = s.bins := rfl
@[simp] theorem modCore_remote (c : Nat) (f : Core → Core) : (s.modCore c f).remote = s.remote := rfl
@[simp] theorem modCore_barSeen (c : Nat) (f : Core → Core) : (s.modCore c f).barSeen = s.barSeen := rfl
@[simp] theorem modCore_poisonPool (c : Nat) (f : Core → Core) : (s.modCore c f).poisonPool = s.poisonPool := rfl

@[simp] theorem modEng_cur (e : Nat) (f : EngMem → EngMem) : (s.modEng e f).cur = s.cur := rfl
@[simp] theorem modEng_ctr (e : Nat) (f : EngMem → EngMem) : (s.modEng e f).ctr = s.ctr := rfl
@[simp] theorem modEng_threads (e : Nat) (f : EngMem → EngMem) : (s.modEng e f).threads = s.threads := rfl
@[simp] theorem modEng_blocks (e : Nat) (f : EngMem → EngMem) : (s.modEng e f).blocks = s.blocks := rfl
@[simp] theorem modEng_cores (e : Nat) (f : EngMem → EngMem) : (s.modEng e f).cores = s.cores := rfl
@[simp] theorem modEng_clusters (e : Nat) (f : EngMem → EngMem) : (s.modEng e f).clusters = s.clusters := rfl
@[simp] theorem modEng_home (e : Nat) (f : EngMem → EngMem) : (s.modEng e f).home = s.home := rfl
@[simp] theorem modEng_ctxs (e : Nat) (f : EngMem → EngMem) : (s.modEng e f).ctxs = s.ctxs := rfl
@[simp] theorem modEng_parts (e : Nat) (f : EngMem → EngMem) : (s.modEng e f).parts = s.parts := rfl
@[simp] theorem modEng_launches (e : Nat) (f : EngMem → EngMem) : (s.modEng e f).launches = s.launches := rfl
@[simp] theorem modEng_graphs (e : Nat) (f : EngMem → EngMem) : (s.modEng e f).graphs = s.graphs := rfl
@[simp] theorem modEng_jobs (e : Nat) (f : EngMem → EngMem) : (s.modEng e f).jobs = s.jobs := rfl
@[simp] theorem modEng_seqs (e : Nat) (f : EngMem → EngMem) : (s.modEng e f).seqs = s.seqs := rfl
@[simp] theorem modEng_boot (e : Nat) (f : EngMem → EngMem) : (s.modEng e f).boot = s.boot := rfl
@[simp] theorem modEng_fibres (e : Nat) (f : EngMem → EngMem) : (s.modEng e f).fibres = s.fibres := rfl
@[simp] theorem modEng_tlb (e : Nat) (f : EngMem → EngMem) : (s.modEng e f).tlb = s.tlb := rfl
@[simp] theorem modEng_owner (e : Nat) (f : EngMem → EngMem) : (s.modEng e f).owner = s.owner := rfl
@[simp] theorem modEng_poison (e : Nat) (f : EngMem → EngMem) : (s.modEng e f).poison = s.poison := rfl
@[simp] theorem modEng_log (e : Nat) (f : EngMem → EngMem) : (s.modEng e f).log = s.log := rfl
@[simp] theorem modEng_egress (e : Nat) (f : EngMem → EngMem) : (s.modEng e f).egress = s.egress := rfl
@[simp] theorem modEng_spare (e : Nat) (f : EngMem → EngMem) : (s.modEng e f).spare = s.spare := rfl
@[simp] theorem modEng_bnd (e : Nat) (f : EngMem → EngMem) : (s.modEng e f).bnd = s.bnd := rfl
@[simp] theorem modEng_images (e : Nat) (f : EngMem → EngMem) : (s.modEng e f).images = s.images := rfl
@[simp] theorem modEng_stops (e : Nat) (f : EngMem → EngMem) : (s.modEng e f).stops = s.stops := rfl
@[simp] theorem modEng_mail (e : Nat) (f : EngMem → EngMem) : (s.modEng e f).mail = s.mail := rfl
@[simp] theorem modEng_recording (e : Nat) (f : EngMem → EngMem) : (s.modEng e f).recording = s.recording := rfl
@[simp] theorem modEng_requants (e : Nat) (f : EngMem → EngMem) : (s.modEng e f).requants = s.requants := rfl
@[simp] theorem modEng_colls (e : Nat) (f : EngMem → EngMem) : (s.modEng e f).colls = s.colls := rfl
@[simp] theorem modEng_bins (e : Nat) (f : EngMem → EngMem) : (s.modEng e f).bins = s.bins := rfl
@[simp] theorem modEng_remote (e : Nat) (f : EngMem → EngMem) : (s.modEng e f).remote = s.remote := rfl
@[simp] theorem modEng_barSeen (e : Nat) (f : EngMem → EngMem) : (s.modEng e f).barSeen = s.barSeen := rfl
@[simp] theorem modEng_poisonPool (e : Nat) (f : EngMem → EngMem) : (s.modEng e f).poisonPool = s.poisonPool := rfl

@[simp] theorem modCluster_cur (c : Nat) (f : Cluster → Cluster) : (s.modCluster c f).cur = s.cur := rfl
@[simp] theorem modCluster_ctr (c : Nat) (f : Cluster → Cluster) : (s.modCluster c f).ctr = s.ctr := rfl
@[simp] theorem modCluster_threads (c : Nat) (f : Cluster → Cluster) : (s.modCluster c f).threads = s.threads := rfl
@[simp] theorem modCluster_blocks (c : Nat) (f : Cluster → Cluster) : (s.modCluster c f).blocks = s.blocks := rfl
@[simp] theorem modCluster_cores (c : Nat) (f : Cluster → Cluster) : (s.modCluster c f).cores = s.cores := rfl
@[simp] theorem modCluster_emem (c : Nat) (f : Cluster → Cluster) : (s.modCluster c f).emem = s.emem := rfl
@[simp] theorem modCluster_home (c : Nat) (f : Cluster → Cluster) : (s.modCluster c f).home = s.home := rfl
@[simp] theorem modCluster_ctxs (c : Nat) (f : Cluster → Cluster) : (s.modCluster c f).ctxs = s.ctxs := rfl
@[simp] theorem modCluster_parts (c : Nat) (f : Cluster → Cluster) : (s.modCluster c f).parts = s.parts := rfl
@[simp] theorem modCluster_launches (c : Nat) (f : Cluster → Cluster) : (s.modCluster c f).launches = s.launches := rfl
@[simp] theorem modCluster_graphs (c : Nat) (f : Cluster → Cluster) : (s.modCluster c f).graphs = s.graphs := rfl
@[simp] theorem modCluster_jobs (c : Nat) (f : Cluster → Cluster) : (s.modCluster c f).jobs = s.jobs := rfl
@[simp] theorem modCluster_seqs (c : Nat) (f : Cluster → Cluster) : (s.modCluster c f).seqs = s.seqs := rfl
@[simp] theorem modCluster_boot (c : Nat) (f : Cluster → Cluster) : (s.modCluster c f).boot = s.boot := rfl
@[simp] theorem modCluster_fibres (c : Nat) (f : Cluster → Cluster) : (s.modCluster c f).fibres = s.fibres := rfl
@[simp] theorem modCluster_tlb (c : Nat) (f : Cluster → Cluster) : (s.modCluster c f).tlb = s.tlb := rfl
@[simp] theorem modCluster_owner (c : Nat) (f : Cluster → Cluster) : (s.modCluster c f).owner = s.owner := rfl
@[simp] theorem modCluster_poison (c : Nat) (f : Cluster → Cluster) : (s.modCluster c f).poison = s.poison := rfl
@[simp] theorem modCluster_log (c : Nat) (f : Cluster → Cluster) : (s.modCluster c f).log = s.log := rfl
@[simp] theorem modCluster_egress (c : Nat) (f : Cluster → Cluster) : (s.modCluster c f).egress = s.egress := rfl
@[simp] theorem modCluster_spare (c : Nat) (f : Cluster → Cluster) : (s.modCluster c f).spare = s.spare := rfl
@[simp] theorem modCluster_bnd (c : Nat) (f : Cluster → Cluster) : (s.modCluster c f).bnd = s.bnd := rfl
@[simp] theorem modCluster_images (c : Nat) (f : Cluster → Cluster) : (s.modCluster c f).images = s.images := rfl
@[simp] theorem modCluster_stops (c : Nat) (f : Cluster → Cluster) : (s.modCluster c f).stops = s.stops := rfl
@[simp] theorem modCluster_mail (c : Nat) (f : Cluster → Cluster) : (s.modCluster c f).mail = s.mail := rfl
@[simp] theorem modCluster_recording (c : Nat) (f : Cluster → Cluster) : (s.modCluster c f).recording = s.recording := rfl
@[simp] theorem modCluster_requants (c : Nat) (f : Cluster → Cluster) : (s.modCluster c f).requants = s.requants := rfl
@[simp] theorem modCluster_colls (c : Nat) (f : Cluster → Cluster) : (s.modCluster c f).colls = s.colls := rfl
@[simp] theorem modCluster_bins (c : Nat) (f : Cluster → Cluster) : (s.modCluster c f).bins = s.bins := rfl
@[simp] theorem modCluster_remote (c : Nat) (f : Cluster → Cluster) : (s.modCluster c f).remote = s.remote := rfl
@[simp] theorem modCluster_barSeen (c : Nat) (f : Cluster → Cluster) : (s.modCluster c f).barSeen = s.barSeen := rfl
@[simp] theorem modCluster_poisonPool (c : Nat) (f : Cluster → Cluster) : (s.modCluster c f).poisonPool = s.poisonPool := rfl

@[simp] theorem modJob_cur (j : Nat) (f : Job → Job) : (s.modJob j f).cur = s.cur := rfl
@[simp] theorem modJob_ctr (j : Nat) (f : Job → Job) : (s.modJob j f).ctr = s.ctr := rfl
@[simp] theorem modJob_threads (j : Nat) (f : Job → Job) : (s.modJob j f).threads = s.threads := rfl
@[simp] theorem modJob_blocks (j : Nat) (f : Job → Job) : (s.modJob j f).blocks = s.blocks := rfl
@[simp] theorem modJob_cores (j : Nat) (f : Job → Job) : (s.modJob j f).cores = s.cores := rfl
@[simp] theorem modJob_emem (j : Nat) (f : Job → Job) : (s.modJob j f).emem = s.emem := rfl
@[simp] theorem modJob_clusters (j : Nat) (f : Job → Job) : (s.modJob j f).clusters = s.clusters := rfl
@[simp] theorem modJob_home (j : Nat) (f : Job → Job) : (s.modJob j f).home = s.home := rfl
@[simp] theorem modJob_ctxs (j : Nat) (f : Job → Job) : (s.modJob j f).ctxs = s.ctxs := rfl
@[simp] theorem modJob_parts (j : Nat) (f : Job → Job) : (s.modJob j f).parts = s.parts := rfl
@[simp] theorem modJob_launches (j : Nat) (f : Job → Job) : (s.modJob j f).launches = s.launches := rfl
@[simp] theorem modJob_graphs (j : Nat) (f : Job → Job) : (s.modJob j f).graphs = s.graphs := rfl
@[simp] theorem modJob_seqs (j : Nat) (f : Job → Job) : (s.modJob j f).seqs = s.seqs := rfl
@[simp] theorem modJob_boot (j : Nat) (f : Job → Job) : (s.modJob j f).boot = s.boot := rfl
@[simp] theorem modJob_fibres (j : Nat) (f : Job → Job) : (s.modJob j f).fibres = s.fibres := rfl
@[simp] theorem modJob_tlb (j : Nat) (f : Job → Job) : (s.modJob j f).tlb = s.tlb := rfl
@[simp] theorem modJob_owner (j : Nat) (f : Job → Job) : (s.modJob j f).owner = s.owner := rfl
@[simp] theorem modJob_poison (j : Nat) (f : Job → Job) : (s.modJob j f).poison = s.poison := rfl
@[simp] theorem modJob_log (j : Nat) (f : Job → Job) : (s.modJob j f).log = s.log := rfl
@[simp] theorem modJob_egress (j : Nat) (f : Job → Job) : (s.modJob j f).egress = s.egress := rfl
@[simp] theorem modJob_spare (j : Nat) (f : Job → Job) : (s.modJob j f).spare = s.spare := rfl
@[simp] theorem modJob_bnd (j : Nat) (f : Job → Job) : (s.modJob j f).bnd = s.bnd := rfl
@[simp] theorem modJob_images (j : Nat) (f : Job → Job) : (s.modJob j f).images = s.images := rfl
@[simp] theorem modJob_stops (j : Nat) (f : Job → Job) : (s.modJob j f).stops = s.stops := rfl
@[simp] theorem modJob_mail (j : Nat) (f : Job → Job) : (s.modJob j f).mail = s.mail := rfl
@[simp] theorem modJob_recording (j : Nat) (f : Job → Job) : (s.modJob j f).recording = s.recording := rfl
@[simp] theorem modJob_requants (j : Nat) (f : Job → Job) : (s.modJob j f).requants = s.requants := rfl
@[simp] theorem modJob_colls (j : Nat) (f : Job → Job) : (s.modJob j f).colls = s.colls := rfl
@[simp] theorem modJob_bins (j : Nat) (f : Job → Job) : (s.modJob j f).bins = s.bins := rfl
@[simp] theorem modJob_remote (j : Nat) (f : Job → Job) : (s.modJob j f).remote = s.remote := rfl
@[simp] theorem modJob_barSeen (j : Nat) (f : Job → Job) : (s.modJob j f).barSeen = s.barSeen := rfl
@[simp] theorem modJob_poisonPool (j : Nat) (f : Job → Job) : (s.modJob j f).poisonPool = s.poisonPool := rfl

@[simp] theorem modSeq_cur (q : Nat) (f : Seq → Seq) : (s.modSeq q f).cur = s.cur := rfl
@[simp] theorem modSeq_ctr (q : Nat) (f : Seq → Seq) : (s.modSeq q f).ctr = s.ctr := rfl
@[simp] theorem modSeq_threads (q : Nat) (f : Seq → Seq) : (s.modSeq q f).threads = s.threads := rfl
@[simp] theorem modSeq_blocks (q : Nat) (f : Seq → Seq) : (s.modSeq q f).blocks = s.blocks := rfl
@[simp] theorem modSeq_cores (q : Nat) (f : Seq → Seq) : (s.modSeq q f).cores = s.cores := rfl
@[simp] theorem modSeq_emem (q : Nat) (f : Seq → Seq) : (s.modSeq q f).emem = s.emem := rfl
@[simp] theorem modSeq_clusters (q : Nat) (f : Seq → Seq) : (s.modSeq q f).clusters = s.clusters := rfl
@[simp] theorem modSeq_home (q : Nat) (f : Seq → Seq) : (s.modSeq q f).home = s.home := rfl
@[simp] theorem modSeq_ctxs (q : Nat) (f : Seq → Seq) : (s.modSeq q f).ctxs = s.ctxs := rfl
@[simp] theorem modSeq_parts (q : Nat) (f : Seq → Seq) : (s.modSeq q f).parts = s.parts := rfl
@[simp] theorem modSeq_launches (q : Nat) (f : Seq → Seq) : (s.modSeq q f).launches = s.launches := rfl
@[simp] theorem modSeq_graphs (q : Nat) (f : Seq → Seq) : (s.modSeq q f).graphs = s.graphs := rfl
@[simp] theorem modSeq_jobs (q : Nat) (f : Seq → Seq) : (s.modSeq q f).jobs = s.jobs := rfl
@[simp] theorem modSeq_boot (q : Nat) (f : Seq → Seq) : (s.modSeq q f).boot = s.boot := rfl
@[simp] theorem modSeq_fibres (q : Nat) (f : Seq → Seq) : (s.modSeq q f).fibres = s.fibres := rfl
@[simp] theorem modSeq_tlb (q : Nat) (f : Seq → Seq) : (s.modSeq q f).tlb = s.tlb := rfl
@[simp] theorem modSeq_owner (q : Nat) (f : Seq → Seq) : (s.modSeq q f).owner = s.owner := rfl
@[simp] theorem modSeq_poison (q : Nat) (f : Seq → Seq) : (s.modSeq q f).poison = s.poison := rfl
@[simp] theorem modSeq_log (q : Nat) (f : Seq → Seq) : (s.modSeq q f).log = s.log := rfl
@[simp] theorem modSeq_egress (q : Nat) (f : Seq → Seq) : (s.modSeq q f).egress = s.egress := rfl
@[simp] theorem modSeq_spare (q : Nat) (f : Seq → Seq) : (s.modSeq q f).spare = s.spare := rfl
@[simp] theorem modSeq_bnd (q : Nat) (f : Seq → Seq) : (s.modSeq q f).bnd = s.bnd := rfl
@[simp] theorem modSeq_images (q : Nat) (f : Seq → Seq) : (s.modSeq q f).images = s.images := rfl
@[simp] theorem modSeq_stops (q : Nat) (f : Seq → Seq) : (s.modSeq q f).stops = s.stops := rfl
@[simp] theorem modSeq_mail (q : Nat) (f : Seq → Seq) : (s.modSeq q f).mail = s.mail := rfl
@[simp] theorem modSeq_recording (q : Nat) (f : Seq → Seq) : (s.modSeq q f).recording = s.recording := rfl
@[simp] theorem modSeq_requants (q : Nat) (f : Seq → Seq) : (s.modSeq q f).requants = s.requants := rfl
@[simp] theorem modSeq_colls (q : Nat) (f : Seq → Seq) : (s.modSeq q f).colls = s.colls := rfl
@[simp] theorem modSeq_bins (q : Nat) (f : Seq → Seq) : (s.modSeq q f).bins = s.bins := rfl
@[simp] theorem modSeq_remote (q : Nat) (f : Seq → Seq) : (s.modSeq q f).remote = s.remote := rfl
@[simp] theorem modSeq_barSeen (q : Nat) (f : Seq → Seq) : (s.modSeq q f).barSeen = s.barSeen := rfl
@[simp] theorem modSeq_poisonPool (q : Nat) (f : Seq → Seq) : (s.modSeq q f).poisonPool = s.poisonPool := rfl

/-! ### What an update changes -/

@[simp] theorem modThread_get (t u : Nat) (f : Thread → Thread) :
    tget? (s.modThread t f).threads u = if t = u then (tget? s.threads u).map f else tget? s.threads u := tget?_tmod ..

@[simp] theorem setThread_get (t u : Nat) (th : Thread) :
    tget? (s.setThread t th).threads u = if t = u then some th else tget? s.threads u := tget?_tset ..

/-- A change of the group applies to each listed member, and to no other thread. -/
@[simp] theorem mapGroup_get (f : Nat → Thread → Thread) (u : Nat) :
    tget? (s.mapGroup f).threads u = if u ∈ s.cur.tids then (tget? s.threads u).map (f u) else tget? s.threads u := by
  unfold State.mapGroup
  rw [tget?_map _ (by intro e; split <;> rfl)]
  by_cases h : u ∈ s.cur.tids <;> simp [h]

@[simp] theorem modBlock_get (b c : Nat) (f : Block → Block) :
    tget? (s.modBlock b f).blocks c = if b = c then (tget? s.blocks c).map f else tget? s.blocks c := tget?_tmod ..

@[simp] theorem modLaunch_get (k l : Nat) (f : Launch → Launch) :
    tget? (s.modLaunch k f).launches l = if k = l then (tget? s.launches l).map f else tget? s.launches l := tget?_tmod ..

@[simp] theorem modCtx_ctx (a b : Nat) (f : Context → Context) : (s.modCtx a f).ctx b = if a = b then f (s.ctx a) else s.ctx b := by
  simp [State.modCtx, State.ctx]

@[simp] theorem modPart_part (p q : Nat) (f : Part → Part) : (s.modPart p f).part q = if p = q then f (s.part p) else s.part q := by
  simp [State.modPart, State.part]

@[simp] theorem modCore_coreAt (c d : Nat) (f : Core → Core) :
    (s.modCore c f).coreAt d = if c = d then f (s.coreAt c) else s.coreAt d := by
  simp [State.modCore, State.coreAt]

@[simp] theorem modEng_eng (e d : Nat) (f : EngMem → EngMem) : (s.modEng e f).eng d = if e = d then f (s.eng e) else s.eng d := by
  simp [State.modEng, State.eng]

@[simp] theorem modCluster_cluster (c d : Nat) (f : Cluster → Cluster) :
    (s.modCluster c f).cluster d = if c = d then f (s.cluster c) else s.cluster d := by
  simp [State.modCluster, State.cluster]

@[simp] theorem modJob_job (j k : Nat) (f : Job → Job) : (s.modJob j f).job k = if j = k then f (s.job j) else s.job k := by
  simp [State.modJob, State.job]

@[simp] theorem modSeq_seqE (q r : Nat) (f : Seq → Seq) : (s.modSeq q f).seqE r = if q = r then f (s.seqE q) else s.seqE r := by
  simp [State.modSeq, State.seqE]

/-- A listed thread is what State.thread reads. -/
theorem thread_of_get {t : Nat} {th : Thread} (h : tget? s.threads t = some th) : s.thread t = th := tget_of_some h

theorem block_of_get {b : Nat} {bl : Block} (h : tget? s.blocks b = some bl) : s.block b = bl := tget_of_some h

/-! ### Registers and predicates of a thread -/

theorem Thread.reg_setReg (th : Thread) (n m : Nat) (v : Word) : (th.setReg n v).reg m = if n = m then v else th.reg m := by
  simp [Thread.setReg, Thread.reg]

/-- The register that a destination writes, if it writes one. -/
theorem writeDst_w (n : BitVec 8) (v : Word) (th : Thread) : writeDst (.w n) v th = th.setReg n.toNat v := rfl

theorem writeDst_sup (v : Word) (th : Thread) : writeDst .sup v th = th := rfl

theorem writeDst_k (n : BitVec 5) (v : Word) (th : Thread) : writeDst (.k n) v th = if n = 0 then th else th.setReg n.toNat v := rfl

/-- Writing a destination changes registers only. -/
theorem writeDst_eq (d : Dst) (v : Word) (th : Thread) : writeDst d v th = { th with regs := (writeDst d v th).regs } := by
  cases d with
  | w n => rfl
  | k n => unfold writeDst; dsimp only; split <;> rfl
  | sup => rfl

/-- The canonical form of a register table. -/
theorem regs_wf_writeDst (d : Dst) (v : Word) (th : Thread) (h : twf 0 th.regs = true) : twf 0 (writeDst d v th).regs = true := by
  cases d with
  | w n => exact twf_tput _ _ _ _ h
  | k n =>
    unfold writeDst
    dsimp only
    split
    · exact h
    · exact twf_tput _ _ _ _ h
  | sup => exact h

/-- The mask of predicate p. -/
theorem predMask_get : ∀ p q : BitVec 3, (BitVec.ofNat 7 (2 ^ p.toNat)).getLsbD q.toNat = decide (p = q ∧ p ≠ 7) := by decide

theorem lt_seven_of_ne : ∀ q : BitVec 3, q ≠ 7 → q.toNat < 7 := by decide

theorem Thread.pred_setPred (th : Thread) (p q : BitVec 3) (v : Bool) :
    (th.setPred p v).pred q = if p = q ∧ p ≠ 7 then v else th.pred q := by
  unfold Thread.setPred Thread.pred
  by_cases hp : p = 7
  · rw [if_pos hp, if_neg (c := p = q ∧ p ≠ 7) (fun h => h.2 hp)]
  · rw [if_neg hp]
    by_cases hq : q = 7
    · subst hq
      rw [if_neg (c := p = 7 ∧ p ≠ 7) (fun h => hp h.1)]
      rfl
    · have hlt := lt_seven_of_ne q hq
      have hb : (q == 7) = false := by simpa using hq
      by_cases h : p = q
      · subst h
        have hm : (BitVec.ofNat 7 (2 ^ p.toNat)).getLsbD p.toNat = true := by rw [predMask_get]; simpa using hp
        rw [hb, if_pos (c := p = p ∧ p ≠ 7) ⟨rfl, hp⟩, Bool.false_or]
        generalize BitVec.ofNat 7 (2 ^ p.toNat) = m at hm
        cases v <;> simp [BitVec.getLsbD_or, BitVec.getLsbD_and, BitVec.getLsbD_not, hm, -BitVec.getLsbD_eq_getElem]
      · have hm : (BitVec.ofNat 7 (2 ^ p.toNat)).getLsbD q.toNat = false := by
          rw [predMask_get]; exact decide_eq_false fun hh => h hh.1
        rw [hb, if_neg (c := p = q ∧ p ≠ 7) (fun hh => h hh.1), Bool.false_or, Bool.false_or]
        generalize BitVec.ofNat 7 (2 ^ p.toNat) = m at hm
        cases v <;>
          simp [BitVec.getLsbD_or, BitVec.getLsbD_and, BitVec.getLsbD_not, hm, hlt, -BitVec.getLsbD_eq_getElem]

end Sys2Proof.Machine
end

