-- ==== Sys2Proof/Laws/Compute.lean ====
section
/-! SUPPORT. What the shared operations over an issue group do: the ordinary end, a computing instruction's lane step, and
both over the whole group (Machine/Operands.lean, Machine/Flags.lean). -/
namespace Sys2Proof.Machine

open Sys2Proof

/-! ### The ordinary end of one thread -/

@[simp] theorem adv_pc (th : Thread) (n : Nat) : (th.adv n).pc = th.pc + word n := rfl
@[simp] theorem adv_regs (th : Thread) (n : Nat) : (th.adv n).regs = th.regs := rfl
@[simp] theorem adv_preds (th : Thread) (n : Nat) : (th.adv n).preds = th.preds := rfl
@[simp] theorem adv_flags (th : Thread) (n : Nat) : (th.adv n).flags = th.flags := rfl
@[simp] theorem adv_lat (th : Thread) (n : Nat) : (th.adv n).lat = th.lat := rfl
@[simp] theorem adv_wait (th : Thread) (n : Nat) : (th.adv n).wait = .none := rfl
@[simp] theorem adv_tick (th : Thread) (n : Nat) : (th.adv n).tick = th.tick := rfl
@[simp] theorem adv_reg (th : Thread) (n m : Nat) : (th.adv n).reg m = th.reg m := rfl
@[simp] theorem adv_pred (th : Thread) (n : Nat) (q : BitVec 3) : (th.adv n).pred q = th.pred q := rfl

@[simp] theorem jump_pc (th : Thread) (pc : Word) : (th.jump pc).pc = pc := rfl
@[simp] theorem jump_regs (th : Thread) (pc : Word) : (th.jump pc).regs = th.regs := rfl
@[simp] theorem jump_preds (th : Thread) (pc : Word) : (th.jump pc).preds = th.preds := rfl
@[simp] theorem jump_flags (th : Thread) (pc : Word) : (th.jump pc).flags = th.flags := rfl

/-- Counting the set flag changes the counts alone. -/
theorem issue_eq (th : Thread) (s : BitVec 4) : th.issue s = { th with flags := (th.issue s).flags, out := (th.issue s).out } := by
  unfold Thread.issue; split <;> rfl

theorem issue_flagCount (th : Thread) (s : BitVec 4) (c : Nat) :
    (th.issue s).flagCount c = th.flagCount c + if s.toNat = c ∧ c < 12 then 1 else 0 := by
  unfold Thread.issue Thread.flagCount
  by_cases h : s.toNat < 12
  · rw [if_pos h, tget_tput]
    by_cases hc : s.toNat = c
    · subst hc; simp [h]
    · simp [hc]
  · rw [if_neg h, if_neg (c := s.toNat = c ∧ c < 12) (fun hh => h (hh.1.symm ▸ hh.2)), Nat.add_zero]

/-- An ordinary end changes the counts, the PC and the wait of a thread, and ends what concerned the instruction alone. -/
theorem finish_eq (h : Hdr) (n : Nat) (th : Thread) :
    th.finish h n = { th with
      flags := (th.issue h.set).flags, out := (th.issue h.set).out, pc := th.pc + word n, wait := .none
      vectored := false, rewalk := false } := by
  unfold Thread.finish; rw [issue_eq]; rfl

@[simp] theorem finish_reg (h : Hdr) (n : Nat) (th : Thread) (r : Nat) : (th.finish h n).reg r = th.reg r := by rw [finish_eq]; rfl
@[simp] theorem finish_regs (h : Hdr) (n : Nat) (th : Thread) : (th.finish h n).regs = th.regs := by rw [finish_eq]
@[simp] theorem finish_pred (h : Hdr) (n : Nat) (th : Thread) (q : BitVec 3) : (th.finish h n).pred q = th.pred q := by rw [finish_eq]; rfl
@[simp] theorem finish_preds (h : Hdr) (n : Nat) (th : Thread) : (th.finish h n).preds = th.preds := by rw [finish_eq]
@[simp] theorem finish_pc (h : Hdr) (n : Nat) (th : Thread) : (th.finish h n).pc = th.pc + word n := by rw [finish_eq]
@[simp] theorem finish_lat (h : Hdr) (n : Nat) (th : Thread) : (th.finish h n).lat = th.lat := by rw [finish_eq]
@[simp] theorem finish_tick (h : Hdr) (n : Nat) (th : Thread) : (th.finish h n).tick = th.tick := by rw [finish_eq]
theorem finish_flagCount (h : Hdr) (n : Nat) (th : Thread) (c : Nat) :
    (th.finish h n).flagCount c = th.flagCount c + if h.set.toNat = c ∧ c < 12 then 1 else 0 := by
  rw [← issue_flagCount]; rfl

/-! ### The ordinary end of a group -/

/-- What endGroup does to a listed thread. -/
theorem endGroup_get (s : State) (h : Hdr) (f : Nat → Thread → Thread) (u : Nat) :
    tget? (s.endGroup h f).threads u = if u ∈ s.cur.tids then
      (tget? s.threads u).map (fun th => if th.guardTrue h.guard then (f u th).finish h s.cur.next else th.adv s.cur.next)
    else tget? s.threads u := mapGroup_get ..

/-- It changes the thread table alone. -/
theorem endGroup_eq (s : State) (h : Hdr) (f : Nat → Thread → Thread) :
    s.endGroup h f = { s with threads := (s.endGroup h f).threads } := rfl

/-! ### Computing instructions -/

/-- One lane's step under a true guard: the destination is written, the predicate, the latches and the counts, and no
other register of the thread. -/
theorem laneStep_true (h : Hdr) (push : Bool) (d : Dst) (n tid : Nat) (f : Thread → LaneRes) (th : Thread)
    (hg : th.guardTrue h.guard = true) :
    laneStep h push d n tid f th =
      { th with
        regs := (match (f th).val with | some v => writeDst d v th | none => th).regs
        preds := (match (f th).pred with | some (p, v) => th.setPred p v | none => th).preds
        lat := if push ∧ kindOf tid = .lane then th.lat.push ((f th).val.getD 0) else th.lat
        tick := if (f th).fl = 0 then th.tick else th.tick + 1
        flags := (th.issue h.set).flags
        out := (th.issue h.set).out
        pc := th.pc + word n
        wait := .none
        vectored := false
        rewalk := false } := by
  have hsp : ∀ (t : Thread) (p : BitVec 3) (v : Bool), t.setPred p v = { t with preds := (t.setPred p v).preds } := by
    intro t p v; unfold Thread.setPred; split <;> rfl
  have hsp2 : ∀ (t u : Thread) (p : BitVec 3) (v : Bool), t.preds = u.preds → (t.setPred p v).preds = (u.setPred p v).preds := by
    intro t u p v h
    unfold Thread.setPred
    by_cases hp : p = 7
    · rw [if_pos hp, if_pos hp, h]
    · rw [if_neg hp, if_neg hp, h]
  have htick : ∀ (t : Thread) (fl : Flags),
      (if fl = 0 then t else { t with tick := t.tick + 1 }) = { t with tick := if fl = 0 then t.tick else t.tick + 1 } := by
    intro t fl; split <;> rfl
  have hpush : ∀ (t : Thread) (v : Word), (if push then pushOn tid v t else t) =
      { t with lat := if push ∧ kindOf tid = .lane then t.lat.push v else t.lat } := by
    intro t v
    unfold pushOn
    cases push
    · rfl
    · by_cases hk : kindOf tid = .lane
      · simp only [hk, if_true, and_self]; rfl
      · simp only [hk, if_true, if_false, and_false]
  unfold laneStep
  rw [if_pos hg]
  generalize f th = r
  obtain ⟨val, pred, fl⟩ := r
  dsimp only
  rw [htick, hpush, finish_eq]
  cases val with
  | none =>
    cases pred with
    | none =>
      unfold Thread.issue Thread.flagCount
      by_cases hs : h.set.toNat < 12 <;> simp only [hs, if_true, if_false]
    | some pv =>
      dsimp only
      rw [hsp th pv.1 pv.2]
      unfold Thread.issue Thread.flagCount
      by_cases hs : h.set.toNat < 12 <;> simp only [hs, if_true, if_false]
  | some w =>
    dsimp only
    rw [writeDst_eq d w th]
    cases pred with
    | none =>
      unfold Thread.issue Thread.flagCount
      by_cases hs : h.set.toNat < 12 <;> simp only [hs, if_true, if_false]
    | some pv =>
      dsimp only
      rw [hsp { th with regs := (writeDst d w th).regs } pv.1 pv.2,
        hsp2 { th with regs := (writeDst d w th).regs } th pv.1 pv.2 rfl]
      unfold Thread.issue Thread.flagCount
      by_cases hs : h.set.toNat < 12 <;> simp only [hs, if_true, if_false]

theorem laneStep_false (h : Hdr) (push : Bool) (d : Dst) (n tid : Nat) (f : Thread → LaneRes) (th : Thread)
    (hg : th.guardTrue h.guard = false) :
    laneStep h push d n tid f th = (if push then pushOn tid 0 th else th).adv n := by
  unfold laneStep; rw [if_neg (by simp [hg])]

/-- The flag records that a computing instruction adds. -/
def computeRecs (h : Hdr) (f : Nat → Thread → LaneRes) (s : State) : List FlagRec :=
  s.cur.tids.flatMap fun t => match tget? s.threads t with
    | some th => laneFlags h t (f t) th
    | none => []

/-- A computing instruction, with its two parts named. -/
theorem compute_def (h : Hdr) (push : Bool) (d : Dst) (f : Nat → Thread → LaneRes) (s : State) :
    compute h push d f s =
      if (computeRecs h f s).isEmpty ∨ kindOf s.lead_ = .stew then s.mapGroup fun t th => laneStep h push d s.cur.next t (f t) th
      else (s.mapGroup fun t th => laneStep h push d s.cur.next t (f t) th).modBlock s.curBlockKey fun b =>
        { b with flagLog := b.flagLog ++ computeRecs h f s } := rfl

/-- What a computing instruction does to a listed thread. -/
theorem compute_get (h : Hdr) (push : Bool) (d : Dst) (f : Nat → Thread → LaneRes) (s : State) (u : Nat) :
    tget? (compute h push d f s).threads u = if u ∈ s.cur.tids then
      (tget? s.threads u).map (laneStep h push d s.cur.next u (f u)) else tget? s.threads u := by
  rw [compute_def]
  split
  · exact mapGroup_get ..
  · rw [modBlock_threads]
    exact mapGroup_get ..

/-- It changes the thread table and, in the group's block, the flag records. -/
theorem compute_eq (h : Hdr) (push : Bool) (d : Dst) (f : Nat → Thread → LaneRes) (s : State) :
    compute h push d f s = { s with threads := (compute h push d f s).threads, blocks := (compute h push d f s).blocks } := by
  rw [compute_def]
  split <;> rfl

/-- The flags reach the block of a group that has one (R58, log 57). -/
theorem compute_block (h : Hdr) (push : Bool) (d : Dst) (f : Nat → Thread → LaneRes) (s : State) (b : Nat)
    (hk : kindOf s.lead_ ≠ .stew) :
    tget? (compute h push d f s).blocks b = (tget? s.blocks b).map fun x =>
      if b = s.curBlockKey then { x with flagLog := x.flagLog ++ computeRecs h f s } else x := by
  rw [compute_def]
  split
  · rename_i he
    rw [mapGroup_blocks, List.isEmpty_iff.1 (he.resolve_right hk)]
    cases tget? s.blocks b <;> simp
  · rw [modBlock_get, mapGroup_blocks]
    by_cases hb : s.curBlockKey = b
    · subst hb; cases tget? s.blocks s.curBlockKey <;> simp
    · have hb' : b ≠ s.curBlockKey := fun hh => hb hh.symm
      cases tget? s.blocks b <;> simp [hb, hb']

end Sys2Proof.Machine
end

