-- ==== Sys2Proof/Laws/Encoding.lean ====
section
/-! SUPPORT. The laws of an instruction word's fields: taking a packed word apart gives the fields it was packed from. -/
namespace Sys2Proof

theorem extract_low_append {m n : Nat} (x : BitVec m) (y : BitVec n) : BitVec.extractLsb' 0 n (x ++ y) = y := by
  ext i hi; simp [BitVec.getElem_extractLsb', BitVec.getLsbD_append, hi]

theorem extract_all {n : Nat} (x : BitVec n) : BitVec.extractLsb' 0 n x = x := by
  ext i; simp

theorem extract_word (lo len : Nat) (k : BitVec 2) (di : BitVec 3) (wa : BitVec 12) (se gu : BitVec 4) (op : BitVec 9)
    (mod : BitVec 5) (s : BitVec 1) (d a b : BitVec 8) :
    @BitVec.extractLsb' 64 lo len (k ++ di ++ wa ++ se ++ gu ++ op ++ mod ++ s ++ d ++ a ++ b) =
      @BitVec.extractLsb' (2 + 3 + 12 + 4 + 4 + 9 + 5 + 1 + 8 + 8 + 8) lo len
        (k ++ di ++ wa ++ se ++ gu ++ op ++ mod ++ s ++ d ++ a ++ b) := rfl

/-- The layout of R99 loses nothing. -/
theorem unpack_pack (f : Fields) : Fields.unpack (Fields.pack f) = f := by
  obtain ⟨k, ⟨di, wa, se, gu⟩, op, mod, s, d, a, b⟩ := f
  unfold Fields.unpack Fields.pack
  dsimp only
  congr 1 <;> (try congr 1) <;> (rw [extract_word]; repeat rw [BitVec.extractLsb'_append_eq_of_le (by decide)]) <;>
    first | exact extract_low_append _ _ | exact extract_all _

end Sys2Proof
end

