-- ==== Sys2Proof/Laws/Memory.lean ====
section
/-! SUPPORT. The laws of memory: every operation keeps the canonical form, a read after a write gives what was written, and
other addresses read as before; memory at home. -/
namespace Sys2Proof.Machine

open Sys2Proof

/-! ### One byte and many -/

@[simp] theorem Memory.read_write (m : Memory) (a b : Nat) (v : Byte) : (m.write a v).read b = if a = b then v else m.read b :=
  tget_tput ..

theorem Memory.wf_write (m : Memory) (a : Nat) (v : Byte) (h : Memory.wf m = true) : Memory.wf (m.write a v) = true := twf_tput _ _ _ _ h

theorem Memory.wf_writeAll (l : List (Nat × Byte)) : ∀ m : Memory, Memory.wf m = true → Memory.wf (m.writeAll l) = true := by
  induction l with
  | nil => exact fun _ h => h
  | cons e l ih => exact fun m h => ih _ (m.wf_write _ _ h)

theorem Memory.wf_writeN (m : Memory) (a : Nat) (bs : List Byte) (h : Memory.wf m = true) : Memory.wf (m.writeN a bs) = true :=
  Memory.wf_writeAll _ _ h

theorem Memory.read_writeAll_of_not_mem (l : List (Nat × Byte)) :
    ∀ (m : Memory) (a : Nat), (∀ e ∈ l, e.1 ≠ a) → (m.writeAll l).read a = m.read a := by
  induction l with
  | nil => exact fun _ _ _ => rfl
  | cons e l ih =>
    intro m a h
    have := ih (m.write e.1 e.2) a fun x hx => h x (List.mem_cons_of_mem _ hx)
    rw [Memory.read_write, if_neg (h e (List.mem_cons_self ..))] at this
    exact this

theorem Memory.writeAll_append (m : Memory) (l k : List (Nat × Byte)) : m.writeAll (l ++ k) = (m.writeAll l).writeAll k :=
  List.foldl_append ..

/-- The last write to an address is the one that a read gives. -/
theorem Memory.read_writeAll_last (m : Memory) (l k : List (Nat × Byte)) (a : Nat) (v : Byte) (h : ∀ e ∈ k, e.1 ≠ a) :
    (m.writeAll (l ++ (a, v) :: k)).read a = v := by
  have hc : (m.writeAll l).writeAll ((a, v) :: k) = ((m.writeAll l).write a v).writeAll k := rfl
  rw [Memory.writeAll_append, hc, Memory.read_writeAll_of_not_mem _ _ _ h, Memory.read_write, if_pos rfl]

/-- Equal reads make equal memories. -/
theorem Memory.ext_of_wf (m n : Memory) (hm : Memory.wf m = true) (hn : Memory.wf n = true) (h : ∀ a, m.read a = n.read a) : m = n :=
  twf_ext 0 m n hm hn h

/-! ### Memory at home -/

variable (s : State)

theorem homeWrite_frame (asid : Nat) (l : List (Nat × Byte)) :
    s.homeWrite asid l = { s with home := (s.homeWrite asid l).home, owner := (s.homeWrite asid l).owner,
                                  poison := (s.homeWrite asid l).poison } := rfl

theorem homeWrite_wf (asid : Nat) (l : List (Nat × Byte)) (h : Memory.wf s.home = true) :
    Memory.wf (s.homeWrite asid l).home = true := Memory.wf_writeAll _ _ h

/-- Bytes outside the written addresses read at home as before. -/
theorem homeWrite_other (asid : Nat) (l : List (Nat × Byte)) (x : Nat) (hx : s.isLocal x = true) (h : ∀ e ∈ l, e.1 ≠ x) :
    (s.homeWrite asid l).homeByte x = s.homeByte x := by
  refine Memory.read_writeAll_of_not_mem _ _ _ fun e he hxe => ?_
  obtain ⟨y, hy, rfl⟩ := List.mem_map.1 he
  obtain ⟨hm, hl⟩ := List.mem_filter.1 hy
  have h1 : y.1 / devBytes = s.boot.devnum := by simpa [State.isLocal] using hl
  have h2 : x / devBytes = s.boot.devnum := by simpa [State.isLocal] using hx
  apply h y hm
  have h3 : y.1 % devBytes = x % devBytes := hxe
  rw [← Nat.div_add_mod y.1 devBytes, ← Nat.div_add_mod x devBytes, h1, h2, h3]

theorem reset_home_wf : Memory.wf State.reset.home = true := rfl

end Sys2Proof.Machine
end

