-- ==== Sys2Proof/Laws/Single.lean ====
section
/-! SUPPORT. What the shared operations do for an issue group of one thread: the checks, translation, splitting and access
of a memory instruction, and taking a trap. -/
namespace Sys2Proof.Machine

open Sys2Proof

variable {s : State} {u : Nat} {th : Thread} {h : Hdr}

/-! ### The group -/

theorem State.only.thread (ho : s.only u th) : s.thread u = th := thread_of_get s ho.2

theorem State.only.lead (ho : s.only u th) : s.lead_ = u := by simp [State.lead_, ho.1]

theorem State.only.src (ho : s.only u th) (a : Src) : s.src u a = readSrc (laneOf u) th a := by
  rw [State.src, ho.thread]

theorem State.only.active (ho : s.only u th) (g : BitVec 4) : s.active g = if th.guardTrue g = true then [u] else [] := by
  rw [State.active, ho.1, List.filter_cons, ho.thread, List.filter_nil]

theorem State.only.active_true (ho : s.only u th) {g : BitVec 4} (hg : th.guardTrue g = true) : s.active g = [u] := by
  rw [ho.active, if_pos hg]

theorem State.only.curBlockKey (ho : s.only u th) : s.curBlockKey = th.block := by
  rw [State.curBlockKey, ho.lead, ho.thread]

theorem State.only.curEng (ho : s.only u th) : s.curEng = engOf u := by rw [State.curEng, ho.lead]

/-- A change of the group is a change of its one thread. -/
theorem mapGroup_only (hc : s.cur.tids = [u]) (f : Nat → Thread → Thread) : s.mapGroup f = s.modThread u (f u) := by
  unfold State.mapGroup State.modThread tmod
  congr 1
  refine List.map_congr_left fun e _ => ?_
  rw [hc]
  by_cases he : e.1 = u
  · have : [u].contains e.1 = true := by rw [he]; simp
    rw [if_pos this, if_pos he, he]
  · have : [u].contains e.1 = false := by simp [he]
    rw [if_neg (by rw [this]; decide), if_neg he]

/-! ### Translation -/

/-- What a translation may change: the translation caches and the free-value counter. -/
theorem xlate_frame (s : State) (asid lvl : Nat) (acc : Acc) (va : Word) :
    (s.xlate asid lvl acc va).2 = { s with tlb := (s.xlate asid lvl acc va).2.tlb, walkc := (s.xlate asid lvl acc va).2.walkc,
                                           ctr := (s.xlate asid lvl acc va).2.ctr } := by
  unfold State.xlate
  split
  · rfl
  · rename_i x rest _
    dsimp only
    generalize pickFrom x (if s.cur.newWalk then [] else rest) s.ctr = p
    obtain ⟨⟨x, ts⟩, c⟩ := p
    cases x
    · dsimp only
      repeat' split
      all_goals rfl
    · rfl

/-- The states that differ in the translation caches and the counter only. -/
def SameButCaches (s t : State) : Prop := t = { s with tlb := t.tlb, walkc := t.walkc, ctr := t.ctr }

theorem SameButCaches.refl (s : State) : SameButCaches s s := rfl

theorem SameButCaches.trans {s t r : State} (h : SameButCaches s t) (k : SameButCaches t r) : SameButCaches s r := by
  unfold SameButCaches at *; rw [k]; rw [h]

theorem xlate_same (s : State) (asid lvl : Nat) (acc : Acc) (va : Word) : SameButCaches s (s.xlate asid lvl acc va).2 :=
  xlate_frame s asid lvl acc va

theorem foldl_same {α β : Type} (f : β × State → α → β × State) (hf : ∀ r a, SameButCaches r.2 (f r a).2) (l : List α)
    (r : β × State) : SameButCaches r.2 (l.foldl f r).2 := by
  induction l generalizing r with
  | nil => exact SameButCaches.refl _
  | cons a l ih => exact (hf r a).trans (ih _)

theorem xlateSpan_same (s : State) (asid lvl : Nat) (acc : Acc) (va : Word) (n : Nat) :
    SameButCaches s (s.xlateSpan asid lvl acc va n).2 := by
  refine foldl_same _ (fun r p => ?_) _ _
  split
  · exact SameButCaches.refl _
  · have hx := xlate_same r.2 asid lvl acc p.1
    split <;> (rename_i he; rw [he] at hx; exact hx)

/-- A mark set for some translations, and set back, leaves no trace. -/
theorem SameButCaches.walked {t : State} {b : Bool} (h : SameButCaches (s.walkAnew b) t) : SameButCaches s (t.walkAnew s.cur.newWalk) := by
  unfold SameButCaches State.walkAnew at *
  dsimp only at *
  rw [h]

theorem xlateSpans_same (s : State) (t : Nat) (l : List (Acc × Word × Nat)) : SameButCaches s (s.xlateSpans t l).2 := by
  unfold State.xlateSpans State.xlateUnder
  refine SameButCaches.walked (b := (s.thread t).rewalk || s.cur.newWalk) ?_
  refine foldl_same (β := LaneX) _ (fun r e => ?_) _ _
  split
  · exact SameButCaches.refl _
  · have hx := xlateSpan_same r.2 (s.asidOf t) (s.thread t).lvl.toNat e.1 e.2.1 e.2.2
    dsimp only
    exact hx

theorem SameButCaches.threads {t : State} (h : SameButCaches s t) : t.threads = s.threads := by rw [h]
theorem SameButCaches.cur {t : State} (h : SameButCaches s t) : t.cur = s.cur := by rw [h]
theorem SameButCaches.blocks {t : State} (h : SameButCaches s t) : t.blocks = s.blocks := by rw [h]
theorem SameButCaches.cores {t : State} (h : SameButCaches s t) : t.cores = s.cores := by rw [h]
theorem SameButCaches.ctxs {t : State} (h : SameButCaches s t) : t.ctxs = s.ctxs := by rw [h]

theorem State.only.same {t : State} (ho : s.only u th) (h : SameButCaches s t) : t.only u th := by
  refine ⟨?_, ?_⟩
  · rw [h.cur]; exact ho.1
  · rw [h.threads]; exact ho.2

theorem xlateLanes_one (s : State) (u : Nat) (spans : Nat → List (Acc × Word × Nat)) :
    s.xlateLanes [u] spans = ([(u, (s.xlateSpans u (spans u)).1)], (s.xlateSpans u (spans u)).2) := rfl

/-! ### Splitting and performing -/

/-- States that differ in nothing that a lookup of a thread shows. -/
def SameLookups (s t : State) : Prop := t = { s with threads := t.threads } ∧ ∀ v, tget? t.threads v = tget? s.threads v

theorem idle_only (ho : s.only u th) (hg : th.guardTrue h.guard = true) (n : Nat) :
    SameLookups s (s.mapGroup fun _ th => if th.guardTrue h.guard = true then th else th.adv n) := by
  refine ⟨rfl, fun v => ?_⟩
  rw [mapGroup_get, ho.1]
  by_cases hv : v = u
  · subst hv; rw [ho.2]; simp [hg]
  · simp [hv]

theorem State.only.lookups {t : State} (ho : s.only u th) (h : SameLookups s t) : t.only u th := by
  refine ⟨?_, (h.2 u).trans ho.2⟩
  rw [h.1]; exact ho.1

theorem SameLookups.refl (s : State) : SameLookups s s := ⟨rfl, fun _ => rfl⟩

theorem SameLookups.thread {t : State} (h : SameLookups s t) (v : Nat) : t.thread v = s.thread v := by
  unfold State.thread tget; rw [h.2]

theorem SameLookups.notReady {t : State} (h : SameLookups s t) (v : Nat) (sp : Space) (w : Bool) (l : List Nat) :
    t.notReady v sp w l = s.notReady v sp w l := by
  have hc : t.cores = s.cores := by rw [h.1]
  have hb : t.blocks = s.blocks := by rw [h.1]
  have hp : t.poison = s.poison := by rw [h.1]
  have hq : t.poisonPool = s.poisonPool := by rw [h.1]
  have hd : t.boot = s.boot := by rw [h.1]
  unfold State.notReady State.poisonPoolAt State.copiesAgainst State.scoreCore State.coreAt State.block State.poisoned State.isLocal
  rw [h.thread, hc, hb, hp, hq, hd]

/-- What the checks of R210 find for one lane. -/
theorem firstTrap_one (u : Nat) (l : List (Nat → Option TrapInfo)) : firstTrap [u] l = l.findSome? fun c => c u := by
  unfold firstTrap
  congr 1
  funext c
  cases hc : c u <;> simp [List.findSome?, hc]

/-- Whether the access of one lane passes the checks of its space, where the entry has no further cause. -/
def Passes (s : State) (u : Nat) (sp : Space) (ea : Word) (size : Nat) (aligned : Bool) : Prop :=
  (sp = .g → spanCanonical ea size = true ∧ (aligned = true → ea.toNat % size = 0)) ∧
  (sp ≠ .g → ea.toNat + size ≤ s.spaceBytes u sp ∧ ea.toNat % size = 0)

theorem checks_none {sp : Space} {ea : Nat → Word} {size : Nat} {aligned : Bool} (hp : Passes s u sp (ea u) size aligned) :
    firstTrap [u] ([s.chkAddr sp ea fun _ => size, s.chkBounds sp ea fun _ => size] ++
      (if aligned || sp != .g then [chkAlign ea size] else [])) = none := by
  rw [firstTrap_one]
  by_cases hg : sp = .g
  · subst hg
    have h1 := (hp.1 rfl).1
    have h2 := (hp.1 rfl).2
    cases aligned
    · simp [State.chkAddr, State.chkBounds, h1]
    · simp [State.chkAddr, State.chkBounds, chkAlign, h1]; simpa using h2
  · have h1 := (hp.2 hg).1
    have h2 := (hp.2 hg).2
    have hne : (aligned || sp != .g) = true := by simp [bne_iff_ne, hg]
    rw [if_pos hne]
    simp only [List.cons_append, List.nil_append, List.findSome?, State.chkAddr, State.chkBounds, chkAlign]
    rw [if_neg (fun hh => hg hh.1), if_neg (fun hh => by omega), if_neg (fun hh => hh h2)]

/-- A memory instruction of one lane on a block's own space. -/
theorem memOp_pool {sp : Space} {ea : Nat → Word} {size : Nat} {aligned : Bool} {acc : Acc} {body : Nat → List Nat → State → State}
    (ho : s.only u th) (hg : th.guardTrue h.guard = true) (hsp : sp ≠ .g) (hp : Passes s u sp (ea u) size aligned) :
    ∃ s', SameLookups s s' ∧ s.memOp h sp ea size aligned acc none body =
      match s.notReady u sp (acc == .write || acc == .atomic) (addrsOf (ea u).toNat size) with
      | some w => s'.waitLanes [u] w
      | none => body u (addrsOf (ea u).toNat size) s' := by
  refine ⟨_, idle_only ho hg s.cur.next, ?_⟩
  unfold State.memOp
  rw [ho.active_true hg]
  dsimp only
  rw [checks_none hp]
  dsimp only [Option.or]
  rw [if_neg hsp]
  unfold State.eachLane
  simp only [List.map_cons, List.map_nil, List.foldl_cons, List.foldl_nil]
  rw [(idle_only ho hg s.cur.next).notReady]
  all_goals rfl

/-- The part of a memory instruction that follows its translations, for one lane whose accesses all translated. -/
theorem splitGroup_ok {l : List (List Nat)} {trap : XFault → TrapInfo} {kind : Nat}
    {perform : List (Nat × List (List Nat)) → State → State} (ho : s.only u th) (hg : th.guardTrue h.guard = true) :
    ∃ s', SameLookups s s' ∧ s.splitGroup h [(u, .ok l)] trap kind perform = perform [(u, l)] s' := by
  refine ⟨_, idle_only ho hg s.cur.next, ?_⟩
  rfl

/-- A memory instruction of one lane on the global space, whose address translates. -/
theorem memOp_global {ea : Nat → Word} {size : Nat} {aligned : Bool} {acc : Acc} {body : Nat → List Nat → State → State}
    {l : List Nat} {s1 : State} (ho : s.only u th) (hg : th.guardTrue h.guard = true) (hp : Passes s u .g (ea u) size aligned)
    (hx : s.maps u acc (ea u) size l s1) :
    SameButCaches s s1 ∧ ∃ s', SameLookups s1 s' ∧ s.memOp h .g ea size aligned acc none body =
      match s1.notReady u .g (acc == .write || acc == .atomic) l with
      | some w => s'.waitLanes [u] w
      | none => body u l s' := by
  have hs : SameButCaches s s1 := by
    have := xlateSpans_same s u [(acc, ea u, size)]
    rw [show s.xlateSpans u [(acc, ea u, size)] = _ from hx] at this; exact this
  refine ⟨hs, ?_⟩
  unfold State.memOp
  rw [ho.active_true hg]
  dsimp only
  rw [checks_none hp]
  dsimp only [Option.or]
  rw [if_pos rfl, xlateLanes_one, show s.xlateSpans u [(acc, ea u, size)] = _ from hx]
  dsimp only
  have h1 := idle_only (ho.same hs) hg s1.cur.next
  refine ⟨_, h1, ?_⟩
  rw [← h1.notReady]
  rfl

/-! ### Traps -/

/-- Taking a trap, by a group of one thread. -/
theorem trapGroup_one (ho : s.only u th) (ti : TrapInfo) :
    s.trapGroup ti = if th.run == .exited || th.run == .escalated || th.run == .stopped then s else s.deliver u ti th.pc := by
  unfold State.trapGroup State.trapThreads
  rw [ho.1]
  simp only [List.foldl_cons, List.foldl_nil]
  rw [ho.2]

/-- What a reading at home may change: the translation caches, the counter, and the bytes of other devices that the phase
has fixed. -/
def SameButReads (s t : State) : Prop := t = { s with tlb := t.tlb, walkc := t.walkc, ctr := t.ctr, remote := t.remote }

theorem SameButReads.refl (s : State) : SameButReads s s := rfl

theorem SameButReads.trans {s t r : State} (h : SameButReads s t) (k : SameButReads t r) : SameButReads s r := by
  unfold SameButReads at *; rw [k]; rw [h]

theorem SameButCaches.reads {t : State} (h : SameButCaches s t) : SameButReads s t := by
  unfold SameButReads SameButCaches at *; rw [h]

theorem SameButReads.threads {t : State} (h : SameButReads s t) : t.threads = s.threads := by rw [h]
theorem SameButReads.ctxs {t : State} (h : SameButReads s t) : t.ctxs = s.ctxs := by rw [h]
theorem SameButReads.blocks {t : State} (h : SameButReads s t) : t.blocks = s.blocks := by rw [h]

theorem homePeek_same (s : State) (dpa : Nat) : SameButReads s (s.homePeek dpa).2 := by
  unfold State.homePeek
  split <;> rfl

theorem homeAll_same (s : State) (l : List Nat) : SameButReads s (s.homeAll l).2 := by
  unfold State.homeAll
  generalize hr : (([], s) : List Byte × State) = r
  have : SameButReads s r.2 := by rw [← hr]; exact SameButReads.refl _
  clear hr
  induction l generalizing r with
  | nil => exact this
  | cons a l ih => exact ih _ (this.trans (homePeek_same r.2 a))

theorem readHomeVa_same (s : State) (asid lvl : Nat) (va : Word) (n : Nat) : SameButReads s (s.readHomeVa asid lvl va n).2 := by
  unfold State.readHomeVa
  have hx := (xlateSpan_same s asid lvl .read va n).reads
  split
  · rename_i he; rw [he] at hx; exact hx
  · rename_i l s' he
    rw [he] at hx
    exact hx.trans (homeAll_same s' l)

theorem readHomeWord_same (s : State) (asid lvl : Nat) (va : Word) : SameButReads s (s.readHomeWord asid lvl va).2 := by
  unfold State.readHomeWord
  have hx := readHomeVa_same s asid lvl va 8
  split <;> (rename_i he; rw [he] at hx; exact hx)

theorem handler_of_vectors {cls : Nat} {pc : Word} (hv : s.vectors u cls pc) :
    (s.handler u cls).1 = pc ∧ SameButReads s (s.handler u cls).2 := by
  obtain ⟨hvt, hpc, hw, _⟩ := hv
  unfold State.handler
  dsimp only at *
  rw [if_neg hvt]
  have h1 := readHomeWord_same s (s.asidOf u) (if kindOf u = .stew then 2 else 1)
    (((s.ctx (s.asidOf u)).tvec &&& ~~~(127 : Word)) + word (8 * cls))
  rcases hw with hw | ⟨hz, hw⟩
  · rw [hw]
    simp only [Option.getD_some]
    rw [if_pos hpc]
    exact ⟨rfl, h1⟩
  · have hz' : ((s.readHomeWord (s.asidOf u) (if kindOf u = .stew then 2 else 1)
        (((s.ctx (s.asidOf u)).tvec &&& ~~~(127 : Word)) + word (8 * cls))).1).getD 0 = 0 := by
      rcases hz with hz | hz <;> rw [hz] <;> rfl
    rw [hz', if_neg (fun h => h rfl)]
    dsimp only
    have h2 := readHomeWord_same (s.readHomeWord (s.asidOf u) (if kindOf u = .stew then 2 else 1)
        (((s.ctx (s.asidOf u)).tvec &&& ~~~(127 : Word)) + word (8 * cls))).2 (s.asidOf u)
        (if kindOf u = .stew then 2 else 1) ((s.ctx (s.asidOf u)).tvec &&& ~~~(127 : Word))
    have h0 : ((s.ctx (s.asidOf u)).tvec &&& ~~~(127 : Word)) + word (8 * 0) = (s.ctx (s.asidOf u)).tvec &&& ~~~(127 : Word) :=
      BitVec.add_zero _
    rw [h0] at hw
    rw [hw]
    exact ⟨rfl, h1.trans h2⟩

theorem frame_bits (cls cause sub info : Nat) (lvl : BitVec 2) (hc : cls < 256) (ha : cause < 256) (hs : sub < 256)
    (hi : info < 2 ^ 32) :
    let w := word (cls * 2 ^ 56 + cause * 2 ^ 48 + sub * 2 ^ 40 + lvl.toNat * 2 ^ 32 + info)
    bits w 56 8 = cls ∧ bits w 48 8 = cause ∧ bits w 40 8 = sub ∧ bits w 32 8 = lvl.toNat ∧ bits w 0 32 = info := by
  have hl := lvl.isLt
  simp only [word, bits, BitVec.toNat_ofNat, Nat.shiftRight_eq_div_pow]
  refine ⟨?_, ?_, ?_, ?_, ?_⟩ <;> omega

/-- Delivering a trap to a listed thread that has a frame free and finds a handler. -/
theorem deliver_trapped {ti : TrapInfo} {rpc pc : Word} (hu : tget? s.threads u = some th) (hn : th.traps.length < 4)
    (hv : s.vectors u ti.cls pc) (hc : ti.cls < 256) (ha : ti.cause < 256) (hs : ti.sub < 256) (hi : ti.info < 2 ^ 32) :
    Trapped s (s.deliver u ti rpc) u th ti.cls ti.cause ti.sub ti.info ti.addr rpc pc := by
  obtain ⟨h1, h2⟩ := handler_of_vectors hv
  have hpc := hv.2.1
  have hb := frame_bits ti.cls ti.cause ti.sub ti.info th.lvl hc ha hs hi
  dsimp only at hb
  refine ⟨trapFrame ti th rpc, hb.1, hb.2.1, hb.2.2.1, hb.2.2.2.1, hb.2.2.2.2, rfl, rfl, rfl, ?_⟩
  unfold State.deliver
  rw [thread_of_get s hu]
  dsimp only
  rw [if_neg (by omega), hv.2.2.2, if_neg (by decide), h1, if_neg hpc]
  refine ⟨?_, ?_, ?_⟩
  · rw [modThread_get, if_pos rfl, h2.threads, hu]
    rfl
  · intro v hvu
    rw [modThread_get, if_neg (fun h => hvu h.symm), h2.threads]
  · unfold State.modThread
    dsimp only
    rw [h2.threads]
    unfold SameButReads at h2
    conv => lhs; rw [h2]

end Sys2Proof.Machine
end

