-- ==== Sys2Proof/Tests/Slice0.lean ====
section
/-! SUPPORT. The model's own tests: ill-formed terms that WellFormed refuses, words written out in the manual, single steps on
a small state, and for each statement with hypotheses a state and operands that meet them. -/
namespace Sys2Proof.Tests

open Sys2Proof Sys2Proof.Machine

set_option Elab.async false

/-! ### Ill-formed terms: one for each check -/

/-- No wait, no flag set, guard true. -/
def h0 : Hdr := { dist := 0, wait := 0, set := 15, guard := 0xE }

theorem test_wf_accepts_add : (Instr.add h0 .i64 false (.w 3) (.w 1) (.w 2)).wf .lane = true := by decide
theorem test_wf_refuses_guard_15 : (Instr.add { h0 with guard := 15 } .i64 false (.w 3) (.w 1) (.w 2)).wf .lane = false := by decide
theorem test_wf_refuses_register_248 : (Instr.add h0 .i64 false (.w 3) (.w 248) (.w 2)).wf .lane = false := by decide
theorem test_wf_refuses_destination_248 : (Instr.add h0 .i64 false (.w 248) (.w 1) (.w 2)).wf .lane = false := by decide
theorem test_wf_refuses_lane_register_on_conductor : (Instr.add h0 .i64 false (.k 3) (.w 1) (.k 2)).wf .cond = false := by decide
theorem test_wf_refuses_k_register_on_lane : (Instr.add h0 .i64 false (.w 3) (.k 1) (.w 2)).wf .lane = false := by decide
theorem test_wf_refuses_suppressed_on_conductor : (Instr.add h0 .i64 false .sup (.k 1) (.k 2)).wf .cond = false := by decide
theorem test_wf_refuses_packed_type_on_conductor : (Instr.add h0 .i8x8 false (.k 3) (.k 1) (.k 2)).wf .cond = false := by decide
theorem test_wf_refuses_bit_type_add : (Instr.add h0 .b64 false (.w 3) (.w 1) (.w 2)).wf .lane = false := by decide
theorem test_wf_refuses_sat_on_i8 : (Instr.add h0 .i8 true (.w 3) (.w 1) (.w 2)).wf .lane = false := by decide
theorem test_wf_refuses_narrow_mad : (Instr.mad h0 .i8 false (.w 3) (.w 1) (.w 2)).wf .lane = false := by decide
theorem test_wf_refuses_suppressed_mad : (Instr.mad h0 .i64 false .sup (.w 1) (.w 2)).wf .lane = false := by decide
theorem test_wf_refuses_packed_mulh : (Instr.mulh h0 .i32x2 (.w 3) (.w 1) (.w 2)).wf .lane = false := by decide
theorem test_wf_refuses_unsigned_abs : (Instr.abs h0 .n64 false (.w 3) (.w 1)).wf .lane = false := by decide
theorem test_wf_refuses_setp_p7 : (Instr.setp h0 .eq .i64 7 (.w 1) (.w 2)).wf .lane = false := by decide
theorem test_wf_refuses_fadd_on_conductor : (Instr.fadd h0 .f32 .rn (.k 3) (.k 1) (.k 2)).wf .cond = false := by decide
theorem test_wf_refuses_fdiv_of_bytes : (Instr.fdiv h0 .e4m3x8 .rn (.w 3) (.w 1) (.w 2)).wf .lane = false := by decide
theorem test_wf_refuses_mode_of_widening_fcvt : (Instr.fcvt h0 .f32f16 .rz (.w 3) (.w 1)).wf .lane = false := by decide
theorem test_wf_refuses_odd_sacc_pair : (Instr.sacc h0 .rn (.w 3) (.w 1) (.w 2)).wf .lane = false := by decide
theorem test_wf_refuses_set_on_bra : (Instr.bra { h0 with set := 3 } 4).wf .lane = false := by decide
theorem test_wf_refuses_guarded_exit : (Instr.exit { h0 with guard := 0 }).wf .lane = false := by decide
theorem test_wf_refuses_equal_pair_cases : (Instr.switch h0 0 (.w 1) 0x100 0 0 0 0 0).wf .lane = false := by decide
theorem test_wf_refuses_pair_register_conflict :
    (Instr.pairWord 0 0 (.op .addI64 3 (.w 1)) (.op .addI64 3 (.w 2))).wf .lane = false := by decide
theorem test_wf_refuses_odd_b128 : (Instr.ld h0 .g .b128 (.w 3) (.w 1) 0).wf .lane = false := by decide
theorem test_wf_refuses_signed_store : (Instr.st h0 .g .i32 (.w 3) (.w 1) 0).wf .lane = false := by decide
theorem test_wf_refuses_scratchpad_on_steward : (Instr.ld h0 .s .b64 (.k 3) (.k 1) 0).wf .stew = false := by decide
theorem test_wf_refuses_parameter_space_on_conductor : (Instr.ld h0 .p .b64 (.k 3) (.k 1) 0).wf .cond = false := by decide
theorem test_wf_refuses_signed_logic_atomic : (Instr.atom h0 false .xor .i32 (.w 3) (.w 1) (.w 2)).wf .lane = false := by decide
theorem test_wf_refuses_copy_from_parameters : (Instr.cpa h0 true .p (.w 3) (.w 1) (.w 2)).wf .lane = false := by decide
theorem test_wf_refuses_fibre_kind_12 : (Instr.fibOpen h0 true 12 0 (.w 4) (.w 20)).wf .lane = false := by decide
theorem test_wf_refuses_csrw_cbind : (Instr.csrw h0 0x0C0 (.w 1)).wf .lane = false := by decide
theorem test_wf_refuses_matrix_op_on_lane : (Instr.cimMv h0 (.w 1) 0).wf .lane = false := by decide
theorem test_wf_refuses_slot_cfg_on_conductor : (Instr.slotCfg h0 (.k 1) (.k 2)).wf .cond = false := by decide
theorem test_wf_refuses_event : (Instr.thermalThrottle).wf .lane = false := by decide

/-! ### Words of the manual -/

theorem test_decode_fma : decodeTableWord 64 0x08422AA0C0040506 =
    some (.fma { dist := 1, wait := 0x084, set := 5, guard := 5 } .f32 .rn (.w 4) (.w 5) (.w 6)) := by decide
theorem test_decode_add_immediate : decodeTableWord 64 0x00007F107E0304FB = some (.addImm h0 (.w 3) (.w 4) (-5)) := by decide
theorem test_decode_pair_word : decodeTableWord 64 0x4000008501950B04 =
    some (.pairWord 0 0 (.op .addI64 10 (.w 3)) (.op .fmulF32 11 (.w 4))) := by decide
theorem test_decode_movl : decodeTableWord 128 (0xC0007F0040050000 + 0x0123456789ABCDEF * 2 ^ 64) =
    some (.movl h0 (.w 5) 0x0123456789ABCDEF) := by decide
theorem test_decode_dictionary_words : decode .lane 0 [0xA000000300121011] = .ok (.dictionaryCode 4 17) 2 ∧
    decode .lane 2 [0xA000000300121011] = .ok (.dictionaryCode 0 18) 2 := ⟨rfl, rfl⟩
theorem test_decode_movi : decodeTableWord 64 0x00007F1780010003 = some (.movi h0 (.w 1) 3) := by decide
theorem test_decode_sub : decodeTableWord 64 0x18007F008C000203 = some (.sub { h0 with dist := 3 } .i64 false (.w 0) (.w 2) (.w 3)) := by
  decide
theorem test_decode_shr_immediate : decodeTableWord 64 0x00007F14C0160A20 = some (.shrImm h0 (.w 22) (.w 10) 32) := by decide
theorem test_decode_mov_special : decodeTableWord 64 0x00007F07A4010000 = some (.movSpecial h0 .tid (.w 1)) := by decide
theorem test_decode_fsub_packed : decodeTableWord 64 0x10007F20480CFC0A =
    some (.fsub { h0 with dist := 2 } .f32x2 .rn (.w 12) .zero (.w 10)) := by decide
theorem test_decode_fmax : decodeTableWord 64 0x00007F21400404FC = some (.fmax h0 .f32 (.w 4) (.w 4) .zero) := by decide
theorem test_decode_sacc : decodeTableWord 64 0x00057F30800D060B = some (.sacc { h0 with wait := 0x00A } .rn (.w 13) (.w 6) (.w 11)) := by
  decide
theorem test_decode_bra : decodeTableWord 64 0x0000794001FFFFD0 = some (.bra { h0 with guard := 2 } (-48)) := by decide
theorem test_decode_call : decodeTableWord 64 0x00007F40400000A4 = some (.call h0 0xA4) := by decide
theorem test_decode_calli : decodeTableWord 64 0x00067F4080000A00 = some (.calli { h0 with wait := 12 } (.w 10)) := by decide
theorem test_decode_switch : decode .lane 0 [0xC0007F0084000500, 0xFF0703, 0x2800000020, 0x30, 0, 0, 0x38] =
    .ok (.switch h0 2 (.w 5) 0xFF0703 0x2800000020 0x30 0 0 0x38) 16 := rfl
theorem test_decode_exit : decodeTableWord 64 0x00007F4100000000 = some (.exit h0) := by decide
theorem test_decode_lred : decodeTableWord 64 0x00000744F00F0E1D = some (.lred { h0 with set := 0 } .fadd (.w 15) (.w 14) (.w 29)) := by
  decide
theorem test_decode_lxch : decodeTableWord 64 0x00000F440016141C =
    some (.lxch { h0 with set := 1 } 0 false (.w 22) (.w 20) (.w 28)) := by decide
theorem test_decode_nbar_sync : decodeTableWord 64 0x00007F4840000405 = some (.nbarSync h0 (.w 4) (.w 5)) := by decide
theorem test_decode_pbar_wait : decodeTableWord 64 0x0000074980000300 = some (.pbarWait { h0 with set := 0 } (.w 3) (.w 0)) := by decide
theorem test_decode_ld_parameter : decodeTableWord 64 0x000007503C0A0700 =
    some (.ld { h0 with set := 0 } .p .b64 (.w 10) (.w 7) 0) := by decide
theorem test_decode_st_global : decodeTableWord 64 0x00007F50480704FE = some (.st h0 .g .b32 (.w 7) (.w 4) (-2)) := by decide
theorem test_decode_st_pair : decodeTableWord 64 0x0000FF505E0A0800 = some (.st { h0 with wait := 1 } .s .b128 (.w 10) (.w 8) 0) := by
  decide
theorem test_decode_atom_cas : decodeTableWord 64 0x00000F513E050607 =
    some (.atom { h0 with set := 1 } false .cas .n64 (.w 5) (.w 6) (.w 7)) := by decide
theorem test_decode_cpa : decodeTableWord 64 0x00008F5190070608 =
    some (.cpa { h0 with wait := 1, set := 1 } true .g (.w 7) (.w 6) (.w 8)) := by decide
theorem test_decode_fence_spw : decodeTableWord 64 0x00011F52C0000A00 =
    some (.fenceSpw { h0 with wait := 2, set := 3 } 0 (.w 10)) := by decide
theorem test_decode_fib_open : decodeTableWord 64 0x00000F6020000414 =
    some (.fibOpen { h0 with set := 1 } true 0 0 (.w 4) (.w 20)) := by decide
theorem test_decode_fib_isect : decodeTableWord 64 0x0003076106080814 =
    some (.fibIsect { h0 with wait := 6, set := 0 } 3 (.w 8) 0 1 (.w 20)) := by decide
theorem test_decode_slot_rd_word : decodeTableWord 64 0x0000076400060203 =
    some (.slotRdWord { h0 with set := 0 } (.w 6) (.w 2) (.w 3)) := by decide
theorem test_decode_slot_put : decodeTableWord 64 0x00007F6440000405 = some (.slotPut h0 (.w 4) (.w 5)) := by decide
theorem test_decode_csrw : decodeTableWord 64 0x00007F6848000200 = some (.csrw h0 0x400 (.w 2)) := by decide
theorem test_decode_csrr : decodeTableWord 64 0x000007680C030000 = some (.csrr { h0 with set := 0 } (.w 3) 0x600) := by decide
theorem test_decode_cbind : decodeTableWord 64 0x00037F68400009C0 = some (.cbindWrite { h0 with wait := 6 } (.w 9)) := by decide
theorem test_decode_tlb_inv_page : decodeTableWord 64 0x00007F68C20005FC = some (.tlbInvPage h0 (.w 5) .zero) := by decide
theorem test_decode_frag_rd_entry : decodeTableWord 64 0x00000F6900060407 =
    some (.fragRdEntry { h0 with set := 1 } (.w 6) (.w 4) (.w 7)) := by decide
theorem test_decode_frag_kill : decodeTableWord 64 0x00007F6980030405 = some (.fragKill h0 (.w 3) (.w 4) (.w 5)) := by decide
theorem test_decode_ctx_halt_save : decode .stew 0 [0x00000769C2030405] =
    .ok (.ctxHaltSave { h0 with set := 0 } (.k 3) (.k 4) (.k 5)) 8 := rfl
theorem test_decode_log_app : decodeTableWord 64 0x0000076A40030405 = some (.logApp { h0 with set := 0 } (.w 3) (.w 4) (.w 5)) := by
  decide
theorem test_decode_cnt_rd : decodeTableWord 64 0x00000F6AC0060200 = some (.cntRd { h0 with set := 1 } (.w 6) (.w 2)) := by decide
theorem test_decode_cancel_launch : decodeTableWord 64 0x0000076B02030400 =
    some (.cancelLaunch { h0 with set := 0 } (.w 3) (.w 4)) := by decide
theorem test_decode_phase_close : decodeTableWord 64 0x00007F6B40000200 = some (.phaseClose h0 (.w 2)) := by decide
theorem test_decode_dcp_cfg_table : decodeTableWord 64 0x00009770C2000200 =
    some (.dcpCfgTable { h0 with wait := 1, set := 2 } (.k 2) (.k 0)) := by decide
theorem test_decode_cim_run : decode .cond 0 [0xC000070440000304, 0x0000000008800040] =
    .ok (.cimRun { h0 with set := 0 } (.k 3) (.k 4) 0x08800040) 16 := rfl
theorem test_decode_step_go_resume : decodeTableWord 64 0x00207F71C0000000 = some (.stepGoResume { h0 with wait := 64 }) := by decide

/-! ### Words that are refused -/

theorem test_decode_refuses_zero_word_opcode : decodeTableWord 64 0 = none := by decide
theorem test_decode_refuses_guard_15 : decodeTableWord 64 0x00007F804C030102 = none := by decide
theorem test_decode_refuses_reserved_mod : decodeTableWord 64 0x00007F07D2070809 = none := by decide
theorem test_decode_refuses_unassigned_opcode : decodeTableWord 64 0x00007F7FC0000000 = none := by decide

/-! ### A small machine -/

/-- Home: a page table at 0x10000 whose entry 0 maps the first 4 TiB with every right, and a vector table at 0x8000 whose word
0 is 0x4000. -/
def mem0 : Memory := [(0x8001, 0x40), (0x10000, 31)]

/-- A pool of one warp with 248 registers, one scratchpad granule and at most one accumulator granule. -/
def pool0 : Word := BitVec.ofNat 64 (248 * 2 ^ 48 + 2 ^ 37 + 2 ^ 30 + 2 ^ 16)

/-- Context 1 runs on partition 0 with granule 0; its job 1 runs launch 1, whose one block stands on core 0 in slot 0. -/
def machine (ths : Tab Thread) (tids : List Nat) : State :=
  { State.reset with
    cur := { tids }
    boot := { State.reset.boot with stage := .ready }
    threads := ths
    blocks := [(0, { asid := 1, lid := 1, core := 0, slots := [0], pool := pool0 })]
    ctxs := [(0, { ptroot := 0x10001, tvec := 0x8000 }), (1, { w0 := 0x8000000000000000, ptroot := 0x10001, tvec := 0x8000 })]
    parts := [(0, { en := true, run := true, rasid := 1, gran := 1, snap := mem0 })]
    launches := [(gkey 1 1, { nblock := 1, st := 1, pool := pool0, job := 1, gid := 1 })]
    graphs := [(gkey 1 1, { job := 1, nodes := [1] })]
    jobs := [(1, { state := 2, asid := 1, took := true, gcur := 1, kcancel := true, kclose := true, seqctl := true })]
    home := mem0 }

/-- The one lane thread 0 with the registers given. -/
def lane (regs : Tab Word) : State := machine [(0, { regs })] [0]

/-- The conductor of cluster 0, bound to the block. -/
def conductor (regs : Tab Word) : State :=
  { machine [(condBase, { regs })] [condBase] with clusters := [(0, { bound := some 0, bankAsid := 1 })] }

/-- Steward 0. -/
def steward (regs : Tab Word) : State := machine [(stewBase, { regs, lvl := 2 })] [stewBase]

/-- A question about the state that an outcome leaves. -/
def after {α : Type} (o : Out) (f : State → α) : Option α :=
  match o with
  | .next t => some (f t)
  | _ => none

/-- What register n of thread u holds after i. -/
def result (i : Instr) (s : State) (u n : Nat) : Option Word := after (exec i s) fun t => (t.thread u).reg n

/-- The class and cause of the newest trap of thread u after i. -/
def trapped (i : Instr) (s : State) (u : Nat) : Option (Option (Nat × Nat)) :=
  after (exec i s) fun t => (t.thread u).traps.head?.map fun f => (bits f.w0 56 8, bits f.w0 48 8)

/-- The block's flags after i: SAT, INV, DZ and the fourth flag, with every change applied. -/
def flagsOf (i : Instr) (s : State) : Option Nat := after (exec i s) fun t => bits (t.block 0).bswAll 0 4

/-! ### Integer and logic instructions -/

theorem test_add_saturates : result (.add h0 .i32 true (.w 3) (.w 1) (.w 2)) (lane [(1, 0x7FFFFFFF), (2, 1)]) 0 3 = some 0x7FFFFFFF ∧
    flagsOf (.add h0 .i32 true (.w 3) (.w 1) (.w 2)) (lane [(1, 0x7FFFFFFF), (2, 1)]) = some 1 := by decide
theorem test_add_wraps : result (.add h0 .i32 false (.w 3) (.w 1) (.w 2)) (lane [(1, 0x7FFFFFFF), (2, 1)]) 0 3 = some 0xFFFFFFFF80000000 := by
  decide
theorem test_sub_packed : result (.sub h0 .n8x8 false (.w 3) (.w 1) (.w 2)) (lane [(1, 0x0510), (2, 0x0620)]) 0 3 = some 0 := by decide
theorem test_mul_low : result (.mul h0 .i64 false (.w 3) (.w 1) (.w 1)) (lane [(1, 0x100000001)]) 0 3 = some 0x0000000200000001 := by decide
theorem test_mulh_of_minus_one : result (.mulh h0 .i64 (.w 3) (.w 1) (.w 2)) (lane [(1, 0xFFFFFFFFFFFFFFFF), (2, 1)]) 0 3 =
    some 0xFFFFFFFFFFFFFFFF := by decide
theorem test_mad_adds_destination : result (.mad h0 .i64 false (.w 3) (.w 1) (.w 2)) (lane [(1, 3), (2, 5), (3, 7)]) 0 3 = some 22 := by decide
theorem test_madh_unsigned : result (.madh h0 .n64 (.w 3) (.w 1) (.w 1)) (lane [(1, 0x200000000), (3, 7)]) 0 3 = some 11 := by decide
theorem test_min_signed : result (.min h0 .i64 (.w 3) (.w 1) (.w 2)) (lane [(1, 0xFFFFFFFFFFFFFFFF), (2, 1)]) 0 3 = some 0xFFFFFFFFFFFFFFFF := by
  decide
theorem test_max_unsigned : result (.max h0 .n64 (.w 3) (.w 1) (.w 2)) (lane [(1, 0xFFFFFFFFFFFFFFFF), (2, 1)]) 0 3 = some 0xFFFFFFFFFFFFFFFF := by
  decide
theorem test_abs_of_least : result (.abs h0 .i32 false (.w 3) (.w 1)) (lane [(1, 0x80000000)]) 0 3 = some 0xFFFFFFFF80000000 ∧
    result (.abs h0 .i32 true (.w 3) (.w 1)) (lane [(1, 0x80000000)]) 0 3 = some 0x7FFFFFFF := by decide
theorem test_neg : result (.neg h0 .i64 false (.w 3) (.w 1)) (lane [(1, 5)]) 0 3 = some 0xFFFFFFFFFFFFFFFB := by decide
theorem test_addc_chain : result (.addc h0 true 3 (.w 10) (.w 1) (.w 3)) (lane [(1, 0xFFFFFFFFFFFFFFFF), (3, 1)]) 0 10 = some 0 ∧
    after (exec (.addc h0 true 3 (.w 10) (.w 1) (.w 3)) (lane [(1, 0xFFFFFFFFFFFFFFFF), (3, 1)])) (fun t => (t.thread 0).pred 3) = some true := by
  decide
theorem test_subb_borrows : after (exec (.subb h0 false 2 (.w 10) (.w 1) (.w 3)) (lane [(1, 1), (3, 2)]))
    (fun t => ((t.thread 0).reg 10, (t.thread 0).pred 2)) = some (0xFFFFFFFF, true) := by decide
theorem test_and : result (.and h0 false (.w 3) (.w 1) (.w 2)) (lane [(1, 0xF0F0F0F0F0), (2, 0xFF00FF00FF)]) 0 3 = some 0xF000F0 := by decide
theorem test_or : result (.or h0 true (.w 3) (.w 1) (.w 2)) (lane [(1, 0xF0), (2, 0x0F)]) 0 3 = some 0xFF := by decide
theorem test_xor : result (.xor h0 true (.w 3) (.w 1) (.w 2)) (lane [(1, 0xFF), (2, 0x0F)]) 0 3 = some 0xF0 := by decide
theorem test_not : result (.not h0 false (.w 3) (.w 1)) (lane [(1, 1)]) 0 3 = some 0xFFFFFFFE := by decide
theorem test_andn : result (.andn h0 true (.w 3) (.w 1) (.w 2)) (lane [(1, 0xFF), (2, 0x0F)]) 0 3 = some 0xF0 := by decide
theorem test_shl_count_wraps : result (.shl h0 true (.w 3) (.w 1) (.w 2)) (lane [(1, 3), (2, 65)]) 0 3 = some 6 := by decide
theorem test_shr_32 : result (.shr h0 false (.w 3) (.w 1) (.w 2)) (lane [(1, 0x180000000), (2, 31)]) 0 3 = some 1 := by decide
theorem test_sar : result (.sar h0 false (.w 3) (.w 1) (.w 2)) (lane [(1, 0x80000000), (2, 4)]) 0 3 = some 0xFFFFFFFFF8000000 := by decide
theorem test_rotl : result (.rotl h0 false (.w 3) (.w 1) (.w 2)) (lane [(1, 0x80000001), (2, 4)]) 0 3 = some 0x18 := by decide
theorem test_bfx_sign : result (.bfx h0 .i64 (.w 3) (.w 1) (.w 2)) (lane [(1, 0xF00), (2, 0x0408)]) 0 3 = some 0xFFFFFFFFFFFFFFFF := by decide
theorem test_bfi : result (.bfi h0 true (.w 3) (.w 1) (.w 2)) (lane [(1, 0xA), (2, 0x0408), (3, 0xFFFF)]) 0 3 = some 0xFAFF := by decide
theorem test_popc : result (.popc h0 false (.w 3) (.w 1)) (lane [(1, 0xFF0000000F)]) 0 3 = some 4 := by decide
theorem test_clz_of_zero : result (.clz h0 false (.w 3) (.w 1)) (lane []) 0 3 = some 32 := by decide
theorem test_ctz : result (.ctz h0 true (.w 3) (.w 1)) (lane [(1, 0x50)]) 0 3 = some 4 := by decide
theorem test_brev : result (.brev h0 false (.w 3) (.w 1)) (lane [(1, 1)]) 0 3 = some 0x80000000 := by decide
theorem test_bsel_reverses_bytes : result (.bsel h0 (.w 3) (.w 1) (.w 2)) (lane [(1, 0x0102030405060708), (3, 0x0001020304050607)]) 0 3 =
    some 0x0807060504030201 := by decide
theorem test_bsel_extends_sign : result (.bsel h0 (.w 3) (.w 1) (.w 2)) (lane [(1, 0x8123), (3, 0x2121212121210100)]) 0 3 =
    some 0xFFFFFFFFFFFF8123 := by decide
theorem test_lea_scaled : result (.lea h0 true 3 (.w 3) (.w 1) (.w 2)) (lane [(1, 0x1000), (2, 0xFFFFFFFF)]) 0 3 = some 0xFF8 := by decide
theorem test_mov_32 : result (.mov h0 false (.w 3) (.w 1)) (lane [(1, 0x1FFFFFFFF)]) 0 3 = some 0xFFFFFFFF := by decide
theorem test_mov_special_core : result (.movSpecial h0 .nblock (.w 3)) (lane []) 0 3 = some 1 := by decide
theorem test_sel_p7 : result (.sel h0 7 (.w 3) (.w 1) (.w 2)) (lane [(1, 4), (2, 5)]) 0 3 = some 4 := by decide
theorem test_setp_ne_zero : after (exec (.setp h0 .ne .n64 3 .zero .zero) (lane [])) (fun t => (t.thread 0).pred 3) = some false := by decide
theorem test_immediates : result (.addImm h0 (.w 3) (.w 4) (-5)) (lane [(4, 3)]) 0 3 = some 0xFFFFFFFFFFFFFFFE ∧
    result (.shlImm h0 (.w 3) (.w 4) 4) (lane [(4, 3)]) 0 3 = some 48 ∧ result (.leaImm h0 (.w 3) (.w 4) 1) (lane [(4, 3)]) 0 3 = some 11 := by
  decide
theorem test_movl : result (.movl h0 (.w 5) 0x0123456789ABCDEF) (lane []) 0 5 = some 0x0123456789ABCDEF := by decide
theorem test_source_is_destination : result (.add h0 .i64 false (.w 1) (.w 1) (.w 1)) (lane [(1, 21)]) 0 1 = some 42 := by decide
theorem test_k0_discards : after (exec (.add h0 .i64 false (.k 0) (.k 1) (.k 1)) (conductor [(1, 21)])) (fun t => (t.thread condBase).reg 0) =
    some 0 := by decide
theorem test_false_guard_writes_nothing : after (exec (.add { h0 with guard := 0 } .i64 false (.w 3) (.w 1) (.w 1)) (lane [(1, 21)]))
    (fun t => ((t.thread 0).reg 3, (t.thread 0).pc)) = some (0, 8) := by decide

/-! ### Floating point and narrow formats -/

theorem test_fadd : result (.fadd h0 .f32 .rn (.w 3) (.w 1) (.w 2)) (lane [(1, 0x3F800000), (2, 0x40000000)]) 0 3 = some 0x40400000 := by decide +kernel
theorem test_fadd_inf_minus_inf : result (.fadd h0 .f32 .rn (.w 3) (.w 1) (.w 2)) (lane [(1, 0x7F800000), (2, 0xFF800000)]) 0 3 = some 0x7FC00000 ∧
    flagsOf (.fadd h0 .f32 .rn (.w 3) (.w 1) (.w 2)) (lane [(1, 0x7F800000), (2, 0xFF800000)]) = some 2 := by decide +kernel
theorem test_fsub_packed : result (.fsub h0 .f32x2 .rn (.w 3) .zero (.w 2)) (lane [(2, 0x3F80000040000000)]) 0 3 = some 0xBF800000C0000000 := by
  decide +kernel
theorem test_fmul_saturates_e4m3 : result (.fmul h0 .e4m3x8 .rn (.w 3) (.w 1) (.w 2)) (lane [(1, 0x7E), (2, 0x7E)]) 0 3 = some 0x7E := by decide +kernel
theorem test_fadd_f16_saturates : result (.fadd h0 .f16 .rn (.w 3) (.w 1) (.w 1)) (lane [(1, 0x7BFF)]) 0 3 = some 0x7BFF ∧
    flagsOf (.fadd h0 .f16 .rn (.w 3) (.w 1) (.w 1)) (lane [(1, 0x7BFF)]) = some 1 := by decide +kernel
theorem test_frcp_of_zero_raises_dz : flagsOf (.frcp h0 false (.w 3) .zero) (lane []) = some 4 ∧
    flagsOf (.flog2 h0 false (.w 3) (.w 1)) (lane [(1, 0xBF800000)]) = some 2 := by decide +kernel
theorem test_fma_exact_error : result (.fma h0 .f32 .rn (.w 3) (.w 1) (.w 1)) (lane [(1, 0x3F800800), (3, 0xBF801000)]) 0 3 = some 0x33800000 := by
  decide +kernel
theorem test_fmin_negative_zero : result (.fmin h0 .f32 (.w 3) (.w 1) (.w 2)) (lane [(1, 0), (2, 0x80000000)]) 0 3 = some 0x80000000 := by decide +kernel
theorem test_fmax : result (.fmax h0 .f32 (.w 3) (.w 1) .zero) (lane [(1, 0xC0000000)]) 0 3 = some 0 := by decide +kernel
theorem test_fsetp_unordered : after (exec (.fsetp h0 .uno .f32 1 (.w 1) .zero) (lane [(1, 0x7FC00000)])) (fun t => (t.thread 0).pred 1) =
    some true := by decide +kernel
theorem test_fdiv_by_zero : result (.fdiv h0 .f32 .rn (.w 3) (.w 1) .zero) (lane [(1, 0x3F800000)]) 0 3 = some 0x7F800000 ∧
    flagsOf (.fdiv h0 .f32 .rn (.w 3) (.w 1) .zero) (lane [(1, 0x3F800000)]) = some 4 := by decide +kernel
theorem test_fdiv_third : result (.fdiv h0 .f32 .rn (.w 3) (.w 1) (.w 2)) (lane [(1, 0x3F800000), (2, 0x40400000)]) 0 3 = some 0x3EAAAAAB := by
  decide +kernel
theorem test_fsqrt : result (.fsqrt h0 .f32 .rn (.w 3) (.w 1)) (lane [(1, 0x40000000)]) 0 3 = some 0x3FB504F3 := by decide +kernel
theorem test_frnd_half_to_even : result (.frnd h0 .f32 .rn (.w 3) (.w 1)) (lane [(1, 0x40200000)]) 0 3 = some 0x40000000 := by decide +kernel
theorem test_frcp_of_four : result (.frcp h0 false (.w 3) (.w 1)) (lane [(1, 0x40800000)]) 0 3 = some 0x3E800000 := by decide +kernel
theorem test_fexp2_of_three : result (.fexp2 h0 false (.w 3) (.w 1)) (lane [(1, 0x40400000)]) 0 3 = some 0x41000000 := by decide +kernel
theorem test_flog2_of_eight : result (.flog2 h0 false (.w 3) (.w 1)) (lane [(1, 0x41000000)]) 0 3 = some 0x40400000 := by decide +kernel
theorem test_fcvt_inf_to_e4m3 : result (.fcvt h0 .e4m3f32 .rn (.w 3) (.w 1)) (lane [(1, 0x7F800000)]) 0 3 = some 0x7E ∧
    flagsOf (.fcvt h0 .e4m3f32 .rn (.w 3) (.w 1)) (lane [(1, 0x7F800000)]) = some 1 := by decide +kernel
theorem test_icvt_from_integer : result (.icvt h0 .f32i64 .rn (.w 3) (.w 1)) (lane [(1, 0xFFFFFFFFFFFFFFFD)]) 0 3 = some 0xC0400000 := by decide +kernel
theorem test_icvt_rounds_down : result (.icvt h0 .i32f32 .rd (.w 3) (.w 1)) (lane [(1, 0xBFC00000)]) 0 3 = some 0xFFFFFFFFFFFFFFFE := by decide +kernel
theorem test_bfp_pack : result (.bfpPack h0 false .rn (.w 3) (.w 1) (.w 2)) (lane [(1, 0xC2C8000040533333), (2, 0x807D)]) 0 3 = some 0xF20D ∧
    flagsOf (.bfpPack h0 false .rn (.w 3) (.w 1) (.w 2)) (lane [(1, 0xC2C8000040533333), (2, 0x807D)]) = some 0 := by decide +kernel
theorem test_bfp_unpack : result (.bfpUnpack h0 false .rn (.w 3) (.w 1) (.w 2)) (lane [(1, 0xF20D), (2, 0x807D)]) 0 3 = some 0xC2C8000040500000 := by
  decide +kernel
theorem test_sacc_folds_planes : result (.sacc h0 .rn (.w 3) (.w 4) (.w 6))
    (lane [(3, 0x3F000000), (4, 0x0000000A00000000), (5, 0x00000000FFFFFFEB), (6, 0x7F7D817F)]) 0 3 = some 0xC1280000 := by decide +kernel
theorem test_nzmask_subnormal : result (.nzmask h0 .f32x2 (.w 3) (.w 1)) (lane [(1, 0x8000000000000001)]) 0 3 = some 1 := by decide +kernel
theorem test_nzcnt : result (.nzcnt h0 .b8x8 (.w 3) (.w 1)) (lane [(1, 0x0100FF0000000080)]) 0 3 = some 3 := by decide +kernel
theorem test_pdot_bytes : result (.pdot h0 (.i8x8 false) (.w 3) (.w 1) (.w 2)) (lane [(1, 0xFF02), (2, 0x0503), (3, 10)]) 0 3 = some 11 := by
  decide +kernel
theorem test_flg_clr : flagsOf (.flgClr h0 (.w 1)) { lane [(1, 3)] with
    blocks := [(0, { asid := 1, lid := 1, core := 0, slots := [0], pool := pool0, bsw := 7 })] } = some 4 := by decide +kernel

/-! ### Control flow -/

theorem test_bra_back : after (exec (.bra h0 (-12)) (machine [(0, { pc := 0x258 })] [0])) (fun t => (t.thread 0).pc) = some 0x240 := by decide +kernel
theorem test_call_pushes : after (exec (.call h0 0x10) (machine [(0, { pc := 0x100 })] [0])) (fun t => ((t.thread 0).pc, (t.thread 0).frames)) =
    some (0x120, [0x108]) := by decide +kernel
theorem test_ret_pops : after (exec (.ret h0) (machine [(0, { frames := [1, 0x108] })] [0])) (fun t => ((t.thread 0).pc, (t.thread 0).frames)) =
    some (0x108, [1]) := by decide +kernel
theorem test_ret_underflow : trapped (.ret h0) (machine [(condBase, { pc := 8 })] [condBase]) condBase = some (some (4, 2)) := by decide +kernel
theorem test_switch_second_case : after (exec (.switch h0 2 (.w 5) 0xFF0703 0x2800000020 0x30 0 0 0x38) (machine [(0, { pc := 0x100, regs := [(5, 7)] })] [0]))
    (fun t => (t.thread 0).pc) = some 0x150 := by decide +kernel
theorem test_switch_negative_case : after (exec (.switch h0 2 (.w 5) 0xFF0703 0x2800000020 0x30 0 0 0x38)
    (machine [(0, { pc := 0x100, regs := [(5, 0xFFFFFFFFFFFFFFFF)] })] [0])) (fun t => (t.thread 0).pc) = some 0x160 := by decide +kernel
theorem test_trap_enters_handler : trapped (.trap h0 (.w 1)) (lane [(1, 0x105)]) 0 = some (some (10, 5)) ∧
    after (exec (.trap h0 (.w 1)) (lane [(1, 0x105)])) (fun t => ((t.thread 0).pc, (t.thread 0).lvl)) = some (0x4000, 1) := by decide +kernel
theorem test_brk_class : trapped (.brk h0) (lane []) 0 = some (some (11, 0)) := by decide +kernel
theorem test_rett_without_frame : trapped (.rett h0) (lane []) 0 = some (some (4, 3)) := by decide +kernel
theorem test_rett_returns : after (exec (.rett h0) (machine [(0, { lvl := 1, traps := [{ w0 := 0, rpc := 0x88, tpc := 0, addr := 0 }] })] [0]))
    (fun t => ((t.thread 0).pc, (t.thread 0).lvl, (t.thread 0).traps.length)) = some (0x88, 0, 0) := by decide +kernel
theorem test_exit_ends_block : after (exec (.exit h0) (lane [])) (fun t => (t.blocks.length, t.threads.length, (t.launch (gkey 1 1)).count)) =
    some (0, 0, 1) := by decide +kernel
theorem test_ev_add_answers_old : after (exec (.evAdd h0 (.w 3) (.w 1) (.w 2)) (lane [(1, 0x2000 + 6 * 2 ^ 59), (2, 5)]))
    (fun t => ((t.thread 0).reg 3, t.homeWord 0x2000)) = some (0, 5) := by decide +kernel

/-! ### Cross-lane operations and barriers -/

/-- Lanes 0 to n-1 of warp 0, each with the registers that f gives. -/
def lanes (n : Nat) (f : Nat → Tab Word) : State := machine ((List.range n).map fun i => (i, { regs := f i })) (List.range n)

theorem witness_CrossLaneReductions_complete : (lanes 1 fun _ => [(1, 0x3F800000), (2, 0x100000000)]).meets (.w 2) 0 [0] 0 := by
  refine ⟨rfl, by decide, by decide, by decide, by decide, by decide, by decide, fun l hl => ?_⟩
  rw [List.mem_singleton.mp hl]
  exact ⟨{ regs := [(1, 0x3F800000), (2, 0x100000000)] }, rfl, rfl, rfl, by decide⟩
theorem test_csample_draws : ([0, 1, 2, 3].map fun u => result (.csample h0 1 (.w 3) (.w 1) (.w 2))
    (lanes 4 fun i => [(1, [0x3F800000, 0, 0x40000000, 0x3F800000].getD i 0), (2, 0xF80000000)]) u 3) = [some 2, some 2, some 2, some 2] := by decide +kernel
theorem test_lred_adds : result (.lred h0 (.add .n32) (.w 3) (.w 1) (.w 2)) (lanes 3 fun i => [(1, word (i + 1)), (2, 0x700000000)]) 1 3 =
    some 6 := by decide +kernel
theorem test_scan_adds : result (.scan h0 (.add .n32) (.w 3) (.w 1) (.w 2)) (lanes 3 fun i => [(1, word (i + 1)), (2, 0x700000000)]) 1 3 =
    some 3 := by decide +kernel
theorem test_peer_classes : ([2, 4, 3].map fun u => result (.peer h0 false (.w 3) (.w 1) (.w 2))
    (lanes 6 fun i => [(1, [7, 3, 7, 9, 3, 7].getD i 0), (2, 0x3F00000000)]) u 3) =
    [some 0x0000010300000025, some 0x0101010200000012, some 0x0203000100000008] := by decide +kernel
theorem test_poll_counts : result (.poll h0 (.count (.w 3)) true 0 (.w 2)) (lanes 3 fun _ => [(2, 0x700000000)]) 1 3 = some 3 := by decide +kernel
theorem test_cross_lane_waits_for_member : after (exec (.lred h0 (.add .n32) (.w 3) (.w 1) (.w 2))
    { lanes 2 fun _ => [(2, 0x300000000)] with cur := { tids := [0] } }) (fun t => (t.thread 0).pc) = some 0 := by decide +kernel
theorem test_nbar_arr_counts : after (exec (.nbarArr h0 (.w 1) (.w 2)) (lane [(1, 4), (2, 2)]))
    (fun t => ((t.thread 0).pc, (tget {} (t.block 0).nbars 4).arrived, (tget {} (t.block 0).nbars 4).phase)) = some (8, 1, 0) := by decide +kernel
theorem test_nbar_sync_alone_goes_on : after (exec (.nbarSync h0 (.w 1) (.w 2)) (lane [(1, 4), (2, 1)]))
    (fun t => ((t.thread 0).pc, (tget {} (t.block 0).nbars 4).phase)) = some (8, 1) := by decide +kernel
theorem test_nbar_count_zero_traps : trapped (.nbarArr h0 (.w 1) (.w 2)) (lane [(1, 4)]) 0 = some (some (4, 6)) := by decide +kernel
theorem test_pbar_init_and_word : after (exec (.pbarInit h0 (.w 1) (.w 2)) (lane [(1, 0x40), (2, 1)])) (fun t => (t.block 0).spad.word 0x40) =
    some 0x801 := by decide +kernel
theorem test_pbar_init_zero_traps : trapped (.pbarInit h0 (.w 1) (.w 2)) (lane [(1, 0x40)]) 0 = some (some (4, 6)) := by decide +kernel

/-! ### Memory -/

theorem test_st_global_stays_in_engine : after (exec (.st h0 .g .b32 (.w 7) (.w 4) (-2)) (lane [(4, 0x2008), (7, 0x11223344)]))
    (fun t => (t.homeWord 0x2000, (t.eng 0).stores.map (·.data))) =
    some (0, [[(0x2000, 0x44), (0x2001, 0x33), (0x2002, 0x22), (0x2003, 0x11)]]) := by decide +kernel
theorem test_ld_home : result (.ld h0 .g .b16 (.w 3) (.w 1) 0) (lane [(1, 0x8000)]) 0 3 = some 0x4000 := by decide +kernel
theorem test_ld_sign_extends : result (.ld h0 .s .i8 (.w 3) (.w 1) 0) { lane [(1, 0x10)] with
    blocks := [(0, { asid := 1, lid := 1, core := 0, slots := [0], pool := pool0, spad := [(0x10, 0x80)] })] } 0 3 = some 0xFFFFFFFFFFFFFF80 := by
  decide +kernel
theorem test_ld_out_of_bounds : trapped (.ld h0 .p .b64 (.w 3) (.w 1) 0) (lane [(1, 0xFFF)]) 0 = some (some (5, 2)) := by decide +kernel
theorem test_ld_not_canonical : trapped (.ld h0 .g .b64 (.w 3) (.w 1) 0) (lane [(1, 0x0040000000000000)]) 0 = some (some (5, 1)) := by decide +kernel
theorem test_atom_cas : after (exec (.atom h0 false .cas .n64 (.w 5) (.w 6) (.w 7)) (lane [(5, 0x4000), (6, 0x8000), (7, 9)]))
    (fun t => ((t.thread 0).reg 5, t.homeWord 0x8000)) = some (0x4000, 9) := by decide +kernel
theorem test_atom_misaligned : trapped (.atom h0 false .add .n64 (.w 5) (.w 6) (.w 7)) (lane [(6, 0x8004)]) 0 = some (some (5, 3)) := by decide +kernel
theorem test_fence_completes : after (exec (.fence h0) (lane [])) (fun t => (t.thread 0).pc) = some 8 := by decide +kernel
theorem test_acc_rel_needs_granules : after (exec (.accRel h0 (.w 1)) (lane [(1, 1)])) (fun t => (t.thread 0).traps.length) = some 1 := by decide +kernel

/-! ### The hypotheses of the statements are met -/

/-- A lane thread's state with the registers given. -/
def thr (regs : Tab Word) : Thread := { regs }

theorem witness_DecodeEncodeComputing : (Instr.add { h0 with dist := 7, wait := 0xFFF, guard := 0 } .i64 true (.w 247) .lane (.b 3)).wf .lane = true ∧
    (Instr.add { h0 with dist := 7, wait := 0xFFF, guard := 0 } .i64 true (.w 247) .lane (.b 3)).lane.isSome = true ∧
    (Instr.movl h0 (.k 31) 0xFFFFFFFFFFFFFFFF).wf .stew = true ∧ (Instr.movl h0 (.k 31) 0xFFFFFFFFFFFFFFFF).lane.isSome = true := by decide
theorem witness_DecodeEncodeLane : (Instr.switch h0 7 (.w 247) 0x0706050403020100 0 0 0 0 0xFFFFFFFF).wf .lane = true ∧
    (Instr.switch h0 7 (.w 247) 0x0706050403020100 0 0 0 0 0xFFFFFFFF).lane = none ∧
    (Instr.switch h0 7 (.w 247) 0x0706050403020100 0 0 0 0 0xFFFFFFFF).ownWord = true := by decide
theorem witness_DecodeEncodeConductorSteward : (Instr.cimRun h0 (.k 31) (.k 0) 0xFFFFFFFFFFFFFFFF).wf .cond = true ∧
    (Instr.cimRun h0 (.k 31) (.k 0) 0xFFFFFFFFFFFFFFFF).lane = none ∧ (Instr.cimRun h0 (.k 31) (.k 0) 0xFFFFFFFFFFFFFFFF).ownWord = true ∧
    (Instr.ctxHaltSave h0 (.k 3) (.k 4) (.k 5)).wf .stew = true ∧ (Instr.ctxHaltSave h0 (.k 3) (.k 4) (.k 5)).ownWord = true := by decide
theorem witness_WordsHaveOneMeaning : (0xC0007F0040050000 : Word).extractLsb' 62 2 ≠ 2 ∧
    decode .lane 0 [0xC0007F0040050000, 5] = .ok (.movl h0 (.w 5) 5) 16 := ⟨by decide, rfl⟩

/-- Reset with the addition of registers 2 and 3 of a steward's or lane's first word placed, and the state that its fetch leaves. -/
def placed : State := State.reset.withFetchWord 64 0x00007F008C000203
def placed0 : State := { placed with agenda := [], cur := { tids := [0] } }
theorem placed_word : placed0.fetchWord 0 0 = (.ok 0x00007F008C000203, (placed0.fetchWord 0 0).2) :=
  Prod.ext (by decide +kernel) rfl
theorem witness_StepRunsDecodedInstruction : placed.agenda = .issue [0] :: [] ∧ ({ placed with agenda := [] } : State).canIssue 0 = true ∧
    ({ placed with agenda := [] } : State).groupOf 0 [0] = [0] ∧ State.fetches 0 placed0 0 [0x00007F008C000203] (placed0.fetchWord 0 0).2 ∧
    decode (kindOf 0) 0 [0x00007F008C000203] = .ok (.sub h0 .i64 false (.w 0) (.w 2) (.w 3)) 8 ∧
    (placed0.fetchWord 0 0).2.effective 0 (.sub h0 .i64 false (.w 0) (.w 2) (.w 3)) = .ok (.sub h0 .i64 false (.w 0) (.w 2) (.w 3)) ∧
    ((placed0.fetchWord 0 0).2.cur.tids.filter fun u => ((placed0.fetchWord 0 0).2.thread u).meets (.sub h0 .i64 false (.w 0) (.w 2) (.w 3))
      (instrInfo (.sub h0 .i64 false (.w 0) (.w 2) (.w 3)))) = [0] ∧
    ({ (placed0.fetchWord 0 0).2 with cur := { tids := [0], next := 8 } } : State).issueTrap [0]
      (instrInfo (.sub h0 .i64 false (.w 0) (.w 2) (.w 3))) = none :=
  ⟨rfl, by decide +kernel, by decide +kernel, ⟨_, placed_word, rfl⟩, rfl, rfl, by decide +kernel, by decide +kernel⟩
theorem witness_StepRunsDecodedInstruction_event : ({ State.reset with agenda := [.event .bootSequence] } : State).agenda =
    .event .bootSequence :: [] := rfl

theorem lane_acts : (lane [(1, 7), (2, 3)]).acts h0 0 (thr [(1, 7), (2, 3)]) ∧ (Dst.w 3).names 3 = true ∧ (Dst.k 31).names 31 = true :=
  ⟨⟨by decide, rfl, rfl⟩, by decide, by decide⟩
theorem lane_only : (lane [(1, 7), (2, 3)]).only 0 (thr [(1, 7), (2, 3)]) := ⟨rfl, rfl⟩
theorem witness_suppressed : (lane [(1, 7), (2, 3)]).acts h0 0 (thr [(1, 7), (2, 3)]) ∧ pushes (.add h0 .i64 false .sup (.w 1) (.w 2)) = true ∧
    kindOf 0 = .lane := ⟨lane_acts.1, rfl, rfl⟩
theorem test_suppressed_result_enters_latch : after (exec (.add h0 .i64 false .sup (.w 1) (.w 2)) (lane [(1, 7), (2, 3)])) (fun t =>
    ((t.thread 0).lat.b0, (t.thread 0).regs)) = some (10, [(1, 7), (2, 3)]) := by decide +kernel
theorem witness_ComputingInstructionsFrame : (Instr.add h0 .i64 false (.w 3) (.w 1) (.w 2)).lane = some { h := h0, push := true, d := .w 3 } ∧
    0 ∈ (lane []).cur.tids ∧ tget? (lane []).threads 0 = some (thr []) ∧ (thr []).guardTrue 0 = false := ⟨rfl, by decide, rfl, rfl⟩
theorem witness_IntegerArithmeticResults : (lane [(1, 7), (2, 3)]).acts h0 0 (thr [(1, 7), (2, 3)]) ∧ (Dst.w 3).names 3 = true ∧
    IntTy.n64.word = true := ⟨lane_acts.1, lane_acts.2.1, rfl⟩
theorem witness_SaturationAndCarry : (tget? (lane []).blocks (lane []).curBlockKey).isSome = true ∧
    (lane [(1, 7), (2, 3)]).acts h0 0 (thr [(1, 7), (2, 3)]) ∧ (Dst.w 3).names 3 = true := ⟨by decide, lane_acts.1, lane_acts.2.1⟩
theorem witness_LogicAndShiftResults : (lane [(1, 7), (2, 3)]).acts h0 0 (thr [(1, 7), (2, 3)]) ∧ (Dst.w 3).names 3 = true :=
  ⟨lane_acts.1, lane_acts.2.1⟩
theorem witness_BitFieldAndCountResults : (lane [(1, 7), (2, 3)]).acts h0 0 (thr [(1, 7), (2, 3)]) ∧ (Dst.w 3).names 3 = true :=
  ⟨lane_acts.1, lane_acts.2.1⟩
theorem witness_MoveSelectCompareResults : (lane [(1, 7), (2, 3)]).acts h0 0 (thr [(1, 7), (2, 3)]) ∧ (Dst.w 3).names 3 = true ∧
    (6 : BitVec 3) ≠ 7 ∧ kindOf 0 = .lane ∧ (lane []).partOfEng (0 / 1024) = some 0 :=
  ⟨lane_acts.1, lane_acts.2.1, by decide, by decide, by decide⟩
theorem witness_ImmediateResults : (lane [(1, 7), (2, 3)]).acts h0 0 (thr [(1, 7), (2, 3)]) ∧ (Dst.w 3).names 3 = true :=
  ⟨lane_acts.1, lane_acts.2.1⟩
theorem witness_EncodingValues : fmtE4m3.emax = 15 ∧ 7 < 2 ^ fmtE4m3.p ∧ fmtF32.emax = 255 ∧ 0 < 2 ^ fmtF32.p := by decide
theorem witness_RoundingIsIeee : fmtF32 ∈ [fmtF32, fmtF16, fmtBf16, fmtE4m3, fmtE5m2] := by decide
theorem witness_FloatArithmeticResults : (lane [(1, 7), (2, 3)]).acts h0 0 (thr [(1, 7), (2, 3)]) ∧ (Dst.w 3).names 3 = true :=
  ⟨lane_acts.1, lane_acts.2.1⟩
theorem witness_FloatArithmeticFlags : (tget? (lane []).blocks (lane []).curBlockKey).isSome = true ∧ kindOf (lane []).lead_ ≠ .stew ∧
    fmtF16.flushesIn true 1 = fmtF16.flushesIn true 1 ∧ (FpTy.f16 ≠ .e4m3x8 ∧ FpTy.f16 ≠ .e5m2x8) := ⟨by decide, by decide, rfl, by decide⟩
theorem witness_FloatOrderResults : (lane [(1, 7), (2, 3)]).acts h0 0 (thr [(1, 7), (2, 3)]) ∧ (Dst.w 3).names 3 = true ∧ (0 : BitVec 3) ≠ 7 :=
  ⟨lane_acts.1, lane_acts.2.1, by decide⟩
theorem witness_FloatDivideRootResults : (lane [(1, 7), (2, 3)]).acts h0 0 (thr [(1, 7), (2, 3)]) ∧ (Dst.w 3).names 3 = true :=
  ⟨lane_acts.1, lane_acts.2.1⟩
theorem witness_SpecialFunctionResults : (lane [(1, 7), (2, 3)]).acts h0 0 (thr [(1, 7), (2, 3)]) ∧ (Dst.w 3).names 3 = true :=
  ⟨lane_acts.1, lane_acts.2.1⟩
theorem witness_ConversionResults : (lane [(1, 7), (2, 3)]).acts h0 0 (thr [(1, 7), (2, 3)]) ∧ (Dst.w 3).names 3 = true :=
  ⟨lane_acts.1, lane_acts.2.1⟩
theorem witness_NarrowFormatResults : (lane [(1, 7), (2, 3)]).acts h0 0 (thr [(1, 7), (2, 3)]) ∧ (Dst.w 3).names 3 = true :=
  ⟨lane_acts.1, lane_acts.2.1⟩

/-- The vector table of the small machine has a handler for a class at word 0. -/
theorem lane_traps : (lane [(1, 7), (2, 3)]).traps 0 (thr [(1, 7), (2, 3)]) := ⟨⟨rfl, rfl⟩, rfl, by decide⟩
theorem lane_vectors : (lane [(1, 7), (2, 3)]).vectors 0 4 0x4000 := by simp only [State.vectors]; decide +kernel
/-! ### Witnesses: traps, control flow, barriers -/

theorem witness_TrapEntryAndReturn : (lane [(1, 0x105)]).traps 0 (thr [(1, 0x105)]) ∧ (thr [(1, 0x105)]).guardTrue h0.guard = true ∧
    (lane [(1, 0x105)]).vectors 0 10 0x4000 ∧ (lane [(1, 0x105)]).vectors 0 11 0x4000 ∧ (lane [(1, 0x105)]).vectors 0 4 0x4000 :=
  ⟨⟨⟨rfl, rfl⟩, rfl, by decide⟩, rfl, by simp only [State.vectors]; decide +kernel, by simp only [State.vectors]; decide +kernel,
    by simp only [State.vectors]; decide +kernel⟩
def frame0 : TrapFrame := { w0 := 0, rpc := 0x88, tpc := 0, addr := 0 }
theorem witness_TrapEntryAndReturn_escalates : (machine [(0, { traps := [frame0, frame0, frame0, frame0] })] [0]).only 0
      { traps := [frame0, frame0, frame0, frame0] } ∧ kindOf 0 ≠ .stew ∧ bits ((lane []).ctx ((lane []).asidOf 0)).fpol 5 2 = 0 :=
  ⟨⟨rfl, rfl⟩, by decide, by decide⟩
theorem witness_TrapEntryAndReturn_rett : (machine [(0, { traps := [frame0] })] [0]).grouped ∧
    ∀ u th, (machine [(0, { traps := [frame0] })] [0]).acts h0 u th → th.traps ≠ [] := by
  have hu : ∀ u, u ∈ (machine [(0, { traps := [frame0] })] [0]).cur.tids → u = 0 := fun u h => List.mem_singleton.mp h
  refine ⟨fun u h => ⟨{ traps := [frame0] }, ?_⟩, fun u th ⟨h, h1, _⟩ => ?_⟩
  · rw [hu u h]; exact ⟨rfl, rfl⟩
  · rw [hu u h] at h1
    have : th = { traps := [frame0] } := (Option.some.inj h1).symm
    rw [this]; decide
/-- A lane thread with the call frames given, its stack pointer at stk. -/
def called (fs : List Word) (stk : Word) : State :=
  { machine [(0, { frames := fs, stk })] [0] with
    ctxs := [(0, { ptroot := 0x10001, tvec := 0x8000 }), (1, { w0 := 0x8000000000000000, ptroot := 0x10001, tvec := 0x8000, spill := 0x20040 })] }
theorem witness_CallReturn_call : (called [1] 0x20040).only 0 { frames := [1], stk := 0x20040 } ∧
    (called [1, 2, 3, 4] 0x20040).only 0 { frames := [1, 2, 3, 4], stk := 0x20040 } ∧ kindOf 0 = .lane ∧ (1 : Nat) < 4 ∧
    ((called [1, 2, 3, 4] 0x20040).slotBottom 0).toNat ≤ ((0x20040 : Word) - 8).toNat ∧ spanCanonical (0x20040 - 8) 8 = true ∧
    ((called [1, 2, 3, 4] 0x20040).xlateSpans 0 [(.write, 0x20040 - 8, 8)]).1 = .ok [addrsOf 0x20038 8] ∧
    ((called [1, 2, 3, 4] 0x20040).xlateSpans 0 [(.write, 0x20040 - 8, 8)]).2.notReady 0 .g true (addrsOf 0x20038 8) = none :=
  ⟨⟨rfl, rfl⟩, ⟨rfl, rfl⟩, rfl, by decide, by decide, by decide, by decide +kernel, by decide +kernel⟩
theorem witness_CallReturn_full : (called [1, 2, 3, 4] 0x20000).traps 0 { frames := [1, 2, 3, 4], stk := 0x20000 } ∧
    (called [1, 2, 3, 4] 0x20000).vectors 0 4 0x4000 ∧
    ((0x20000 : Word) - 8).toNat < ((called [1, 2, 3, 4] 0x20000).slotBottom 0).toNat :=
  ⟨⟨⟨rfl, rfl⟩, rfl, by decide⟩, by simp only [State.vectors]; decide +kernel, by decide⟩
theorem witness_CallReturn_return : (called [] 0x20038).only 0 { stk := 0x20038 } ∧ (0x20038 : Word).toNat < ((called [] 0x20038).slotTop 0).toNat ∧
    ((called [] 0x20038).xlateSpans 0 [(.read, 0x20038, 8)]).1 = .ok [addrsOf 0x20038 8] ∧
    ((called [] 0x20038).xlateSpans 0 [(.read, 0x20038, 8)]).2.notReady 0 .g false (addrsOf 0x20038 8) = none ∧
    (called [] 0x20040).traps 0 { stk := 0x20040 } ∧ ((called [] 0x20040).slotTop 0).toNat ≤ (0x20040 : Word).toNat :=
  ⟨⟨rfl, rfl⟩, by decide, by decide +kernel, by decide +kernel, ⟨⟨rfl, rfl⟩, rfl, by decide⟩, by decide⟩
theorem witness_ThreadExit_others : (machine [(0, {}), (1, {})] [0]).only 0 {} ∧
    (∃ v, (v ≠ 0 ∧ v < condBase ∧ ∃ x, (v, x) ∈ (machine [(0, {}), (1, {})] [0]).threads ∧ x.block = 0) ∧
      ((machine [(0, {}), (1, {})] [0]).thread v).run ≠ .exited) ∧ ((machine [(0, {}), (1, {})] [0]).block 0).susp = none :=
  ⟨⟨rfl, rfl⟩, ⟨1, ⟨by decide, by decide, {}, by decide, rfl⟩, by decide⟩, rfl⟩
/-- No other lane thread in the machine of one thread. -/
theorem alone {u v : Nat} {th x : Thread} {tids : List Nat} (h : v ≠ u) (hx : (v, x) ∈ (machine [(u, th)] tids).threads) : False :=
  h (Prod.ext_iff.mp (List.mem_singleton.mp hx)).1
theorem witness_ThreadExit_last : (lane []).only 0 {} ∧ (tget? (lane []).blocks 0).isSome = true ∧ (lane []).condOf 0 = none ∧
    ((lane []).block 0).edge = none ∧ ((lane []).block 0).leaving = false ∧ ({} : Thread).guardTrue h0.guard = true ∧ tget? (lane []).launches (gkey 1 1) = some { nblock := 1, st := 1, pool := pool0, job := 1, gid := 1 } ∧
    (∀ v, (v ≠ 0 ∧ v < condBase ∧ ∃ x, (v, x) ∈ (lane []).threads ∧ x.block = 0) → ((lane []).thread v).run = .exited) :=
  ⟨⟨rfl, rfl⟩, rfl, rfl, rfl, rfl, rfl, rfl, fun _ ⟨h, _, _, hx, _⟩ => (alone h hx).elim⟩
theorem witness_ThreadExit_conductor : (conductor []).only condBase {} ∧ kindOf condBase = .cond ∧
    ((conductor []).cluster (clusterOf (engOf condBase))).instar.st = 0 ∧ (steward []).only stewBase { lvl := 2 } ∧ kindOf stewBase = .stew :=
  ⟨⟨rfl, rfl⟩, rfl, rfl, ⟨rfl, rfl⟩, rfl⟩
/-- Handles of launch 1 (kind 0), of graph 1 (kind 1) and of the word at 0x2000 (kind 6). -/
theorem witness_Suspension : (lane [(1, 1), (2, 1)]).only 0 (thr [(1, 1), (2, 1)]) ∧ (lane [(1, 1), (2, 1)]).handleGood 0 1 = true ∧
    handleKind 1 = 0 ∧ ((lane [(1, 1), (2, 1)]).counterVal 1 1 0 1).toNat < (1 : Word).toNat ∧
    (∀ v, (v ≠ 0 ∧ v < condBase ∧ ∃ x, (v, x) ∈ (lane [(1, 1), (2, 1)]).threads ∧ x.block = 0) → ((lane []).thread v).run = .suspended) :=
  ⟨⟨rfl, rfl⟩, by decide, by decide, by decide, fun _ ⟨h, _, _, hx, _⟩ => (alone h hx).elim⟩
/-- A suspension until launch 1 counts 0. -/
def susp0 : Susp := { handle := 1, target := 0, cont := 0x80, release := true, order := 1, dpa := none, saved := [], met := some 2 }
/-- The block is suspended until launch 1 counts 0: at once. -/
def resting : State :=
  { machine [(0, { run := .suspended })] [0] with
    blocks := [(0, { asid := 1, lid := 1, core := 0, slots := [0], pool := pool0, regHeld := false, susp := some susp0 })] }
theorem witness_Suspension_resume : tget? resting.blocks 0 = some (resting.block 0) ∧ (resting.block 0).susp = some susp0 ∧ susp0.order ≠ 0 ∧
    handleKind susp0.handle ≠ 5 ∧ susp0.met = some 2 ∧ poolRegGran pool0 ≤ resting.freeGran 0 ∧
    (∀ c x r m, (c, x) ∈ resting.blocks → x.core = 0 → x.susp = some r → r.met = some m → 2 ≤ m) := by
  refine ⟨rfl, rfl, by decide, by decide, rfl, by decide, fun c x r m h _ hr hm => ?_⟩
  obtain ⟨rfl, rfl⟩ := Prod.ext_iff.mp (List.mem_singleton.mp h)
  obtain rfl := Option.some.inj hr
  exact (Option.some.inj hm) ▸ Nat.le_refl 2
theorem witness_Suspension_resume_k : resting.suspMet (resting.block 0) { susp0 with release := false, met := none } = true := by decide
theorem witness_EventHandles : (lane [(1, 0x3000000000002000)]).handleGood 0 0x3000000000002000 = true ∧ handleKind 0x3000000000002000 = 6 ∧
    (handleVa 0x3000000000002000).toNat % 8 = 0 ∧ spanCanonical (handleVa 0x3000000000002000) 8 = true ∧
    ((lane [(1, 0x3000000000002000)]).xlateSpans 0 [(.atomic, 0x2000, 8)]).1 = .ok [addrsOf 0x2000 8] ∧ ((lane []).ctx 1).exh = [] ∧
    (addrsOf 0x2000 8).all (lane []).isLocal = true ∧
    ((lane [(1, 0x3000000000002000)]).xlateSpans 0 [(.atomic, 0x2000, 8)]).2.notReady 0 .g true (addrsOf 0x2000 8) = none := by decide +kernel
theorem witness_EventHandles_bad : (lane [(1, 2)]).handleGood 0 2 = false ∧ (lane [(1, 2)]).traps 0 (thr [(1, 2)]) ∧
    (lane [(1, 2)]).vectors 0 4 0x4000 :=
  ⟨by decide, ⟨⟨rfl, rfl⟩, rfl, by decide⟩, by simp only [State.vectors]; decide +kernel⟩
theorem witness_EventHandles_kind : (lane [(1, 1)]).handleGood 0 1 = true ∧ handleKind 1 ≠ 6 ∧ (lane [(1, 1)]).traps 0 (thr [(1, 1)]) ∧
    (lane [(1, 1)]).vectors 0 4 0x4000 :=
  ⟨by decide, by decide, ⟨⟨rfl, rfl⟩, rfl, by decide⟩, by simp only [State.vectors]; decide +kernel⟩
theorem test_ev_add_on_launch_traps : trapped (.evAdd h0 (.w 3) (.w 1) (.w 2)) (lane [(1, 1)]) 0 = some (some (4, 4)) := by decide +kernel
theorem test_ev_rd_reads_launch : result (.evRd h0 (.w 3) (.w 1)) { lane [(1, 1)] with
    launches := [(gkey 1 1, { nblock := 9, st := 1, count := 7, pool := pool0, job := 1, gid := 1 })] } 0 3 = some 7 := by decide +kernel
theorem test_suspend_goes_on : after (exec (.suspendK h0 (.w 1) (.w 2)) (lane [(1, 1)])) (fun t => ((t.thread 0).pc, (t.thread 0).run)) =
    some (8, .live) := by decide +kernel

/-- Lanes 0 and 1 meet at PC 0 with the mask of both in register 2. -/
def pairLanes : State := machine [(0, thr [(1, 5), (2, 0x300000000)]), (1, thr [(1, 6), (2, 0x300000000)])] [0, 1]
theorem witness_CrossLaneMoves : pairLanes.meets (.w 2) 0 [0, 1] 0 := by
  refine ⟨rfl, by decide, by decide, by decide, by decide, by decide, by decide, fun l hl => ?_⟩
  rcases List.mem_cons.mp hl with rfl | hl
  · exact ⟨thr [(1, 5), (2, 0x300000000)], rfl, rfl, rfl, by decide⟩
  · rw [List.mem_singleton.mp hl]
    exact ⟨thr [(1, 6), (2, 0x300000000)], rfl, rfl, rfl, by decide⟩
theorem witness_CrossLaneReductions : pairLanes.meets (.w 2) 0 [0, 1] 0 ∧ (Dst.w 3).names 3 = true := ⟨witness_CrossLaneMoves, rfl⟩
theorem witness_CrossLaneReductions_trap : (lane [(1, 7), (2, 3)]).traps 0 (thr [(1, 7), (2, 3)]) ∧
    (lane [(1, 7), (2, 3)]).vectors 0 2 0x4000 ∧ bit (readSrc (laneOf 0) (thr [(1, 7), (2, 3)]) (.w 2)) (32 + laneOf 0) = false :=
  ⟨lane_traps, by simp only [State.vectors]; decide +kernel, by decide⟩
theorem test_mask_without_itself_traps : trapped (.lred h0 (.add .n32) (.w 3) (.w 1) (.w 2)) (lane [(1, 7)]) 0 = some (some (2, 13)) := by
  decide +kernel
theorem test_lxch_swaps : after (exec (.lxch h0 0 false (.w 3) (.w 1) (.w 2))
    (machine [(0, thr [(1, 5), (2, 0x300000001)]), (1, thr [(1, 6), (2, 0x300000001)])] [0, 1]))
    (fun t => ((t.thread 0).reg 3, (t.thread 1).reg 3)) = some (6, 5) := by decide +kernel
theorem test_bcast_lowest : result (.bcast h0 (.w 3) (.w 1) (.w 2)) pairLanes 1 3 = some 5 := by decide +kernel
theorem test_lead_lowest : after (exec (.lead h0 false 2 (.w 2)) pairLanes) (fun t => ((t.thread 0).pred 2, (t.thread 1).pred 2)) =
    some (true, false) := by decide +kernel

theorem witness_NamedBarriers : (lane [(1, 63), (2, 1024)]).traps 0 (thr [(1, 63), (2, 1024)]) ∧ (tget? (lane []).blocks 0).isSome = true ∧
    ((lane []).block 0).flagLog = [] ∧ bswFlags ((lane []).block 0).bsw &&& bswArm ((lane []).block 0).bsw = 0 ∧ (lane []).boundBars 0 < 64 ∧
    (tget {} ((lane []).block 0).nbars 63).arrived = 0 ∧ (lane [(1, 63), (2, 1024)]).vectors 0 4 0x4000 ∧
    (lane [(1, 63), (2, 1024)]).vectors 0 12 0x4000 :=
  ⟨⟨⟨rfl, rfl⟩, rfl, by decide⟩, by decide, by decide, by decide, by decide, by decide, by simp only [State.vectors]; decide +kernel,
    by simp only [State.vectors]; decide +kernel⟩
/-- The block with the status word and the barriers given. -/
def barred (bsw : Word) (nbars : Tab NBar) : State :=
  { lane [(1, 63), (2, 3)] with blocks := [(0, { asid := 1, lid := 1, core := 0, slots := [0], pool := pool0, bsw, nbars })] }
theorem witness_NamedBarriers_traps : bswFlags 0x101 &&& bswArm 0x101 ≠ 0 ∧ (64 : Nat) ≤ (barred 0 ((List.range 64).map fun i => (i, {}))).boundBars 0 ∧
    (tget? ((barred 0 [(63, { arrived := 1, expected := 2 })]).block 0).nbars 63).isSome = true ∧
    (tget {} ((barred 0 [(63, { arrived := 1, expected := 2 })]).block 0).nbars 63).expected ≠ 3 := by decide +kernel
theorem test_armed_flag_traps_at_barrier : trapped (.nbarArr h0 (.w 1) (.w 2)) (barred 0x101 []) 0 = some (some (12, 1)) := by decide +kernel
theorem test_nbar_other_count_traps : trapped (.nbarArr h0 (.w 1) (.w 2)) (barred 0 [(63, { arrived := 1, expected := 2 })]) 0 =
    some (some (4, 7)) := by decide +kernel
theorem test_nbar_rd : result (.nbarRd h0 (.w 3) (.w 1)) (barred 0 [(63, { arrived := 1, expected := 2, phase := 3 })]) 0 3 =
    some 0x8000000300001001 := by decide +kernel
theorem witness_PhaseBarriers : (lane [(1, 16), (2, 2047)]).traps 0 (thr [(1, 16), (2, 2047)]) ∧ 16 + 8 ≤ ((lane []).block 0).spadBytes ∧
    (lane [(1, 16), (2, 2047)]).notReady 0 .s true (addrsOf 16 8) = none ∧ (lane [(1, 16), (2, 2047)]).notReady 0 .s false (addrsOf 16 8) = none ∧
    (lane [(1, 16), (2, 2047)]).vectors 0 4 0x4000 :=
  ⟨⟨⟨rfl, rfl⟩, rfl, by decide⟩, by decide, by decide +kernel, by decide +kernel, by simp only [State.vectors]; decide +kernel⟩
/-! ### Witnesses: memory, copies, fences -/

/-- The lane thread, with words at home. -/
def withWords (s : State) (l : List (Nat × Word)) : State :=
  { s with home := l.foldl (fun m e => m.writeN e.1 (leBytes 8 e.2.toNat)) s.home }
/-- The lane thread, whose block's scratchpad holds the words given. -/
def spadWords (s : State) (l : List (Nat × Word)) : State :=
  { s with blocks := [(0, { s.block 0 with spad := l.foldl (fun m e => m.writeN e.1 (leBytes 8 e.2.toNat)) [] })] }

theorem witness_PoolLoadStore : (lane [(1, 7), (2, 3)]).only 0 (thr [(1, 7), (2, 3)]) ∧ (tget? (lane []).blocks 0).isSome = true ∧
    16376 + 8 = ((lane []).block 0).spadBytes ∧ (lane [(1, 16376)]).notReady 0 .s false (addrsOf 16376 8) = none ∧
    (lane [(1, 16376)]).notReady 0 .s true (addrsOf 16376 8) = none ∧ 4088 + 8 = 4096 ∧ (lane []).poisonPool = [] ∧
    (lane [(1, 7), (2, 3)]).traps 0 (thr [(1, 7), (2, 3)]) ∧ (lane [(1, 7), (2, 3)]).vectors 0 1 0x4000 :=
  ⟨⟨rfl, rfl⟩, rfl, by decide, by decide +kernel, by decide +kernel, rfl, rfl, lane_traps, by simp only [State.vectors]; decide +kernel⟩
/-- The block holds one accumulator granule; a stream feeds its scratchpad from 0x100 on, and 64 of its 128 bytes have landed. -/
def fed : State :=
  { lane [(1, 0x140)] with
    blocks := [(0, { asid := 1, lid := 1, core := 0, slots := [0], pool := pool0, accg := 1 })]
    clusters := [(0, { de := { st := 1, owner := some 0, toReg := true, rbase := 0x100, rsize := 128, landed := 64 } })] }
theorem witness_PoolLoadStore_fed : (fed.cluster 0).de.owner = some 0 ∧ (fed.cluster 0).de.rbase + (fed.cluster 0).de.landed < 0x140 + 8 ∧
    0x140 + 8 ≤ (fed.cluster 0).de.rbase + (fed.cluster 0).de.rsize ∧ fed.notReady 0 .s false (addrsOf 0x140 8) = none ∧
    16376 + 8 ≤ (fed.block 0).accBytes ∧ fed.notReady 0 .a true (addrsOf 16376 8) = none := by decide +kernel
theorem test_ldl_waits_for_bytes : after (exec (.ldl h0 .b64 (.w 3) (.w 1) 0) fed) (fun t => (t.thread 0).pc) = some 0 ∧
    after (exec (.ldl h0 .b64 (.w 3) (.w 1) (-1)) fed) (fun t => (t.thread 0).pc) = some 8 := by decide +kernel
theorem test_ld_pair : after (exec (.ld h0 .s .b128 (.w 4) (.w 1) 0) (spadWords (lane [(1, 32)]) [(32, 5), (40, 6)]))
    (fun t => ((t.thread 0).reg 4, (t.thread 0).reg 5)) = some (5, 6) := by decide +kernel
theorem witness_GlobalLoadStore : (lane [(1, 0x2000)]).only 0 (thr [(1, 0x2000)]) ∧ spanCanonical 0x2000 8 = true ∧
    ((lane [(1, 0x2000)]).xlateSpans 0 [(.read, 0x2000, 8)]).1 = .ok [addrsOf 0x2000 8] ∧
    ((lane [(1, 0x2000)]).xlateSpans 0 [(.read, 0x2000, 8)]).2.notReady 0 .g false (addrsOf 0x2000 8) = none ∧
    ((lane [(1, 0x2000)]).xlateSpans 0 [(.write, 0x2000, 8)]).1 = .ok [addrsOf 0x2000 8] ∧
    ((lane [(1, 0x2000)]).xlateSpans 0 [(.write, 0x2000, 8)]).2.notReady 0 .g true (addrsOf 0x2000 8) = none ∧
    ((lane []).eng (engOf 0)).storesOf 0x2000 = [] ∧ (lane []).isLocal 0x2000 = true ∧ (lane []).partOfEng (engOf 0) = some 0 :=
  ⟨⟨rfl, rfl⟩, by decide, by decide +kernel, by decide +kernel, by decide +kernel, by decide +kernel, by decide, by decide, by decide⟩
def stored : State := match exec (.st h0 .g .b64 (.w 1) (.w 1) 0) (lane [(1, 0x2000)]) with | .next t => t | _ => State.reset
theorem witness_GlobalLoadStore_single : isSingle (addrsOf 0x2000 8) = true ∧ (∀ st ∈ (stored.eng (engOf 0)).stores, st.single = true) ∧
    (stored.eng (engOf 0)).stores ≠ [] := by decide +kernel
/-- A copy of another thread, ordered before what thread 0 does next, over that thread's own store. -/
def overwritten : State :=
  { stored with
    threads := [(0, { regs := [(1, 0x2000)], vc := [(copyKey 0 5, 1)] })]
    emem := [(0, { seq := 2, stores := (stored.eng 0).stores ++ [{ seq := 2, tid := 1, tick := 1, copy := some 5, asid := 1, data := (addrsOf 0x2000 8).map fun x => (x, 9), home := false, rel := [] }] })] }
theorem witness_GlobalLoadStore_copy : ((overwritten.eng 0).storesOf 0x2001).map (fun st => (st.tid, st.past, st.copy.isSome, (overwritten.thread 0).seesStore 0 st)) =
    [(1, false, true, true), (0, false, false, false)] := by decide +kernel
theorem test_ld_sees_ordered_copy : result (.ld h0 .g .b8 (.w 3) (.w 1) 0) overwritten 0 3 = some 9 := by decide +kernel
theorem witness_GlobalLoadStore_own : ((stored.eng (engOf 0)).storesOf 0x2001).map (fun st => (st.tid, st.past)) = [(0, false)] ∧
    after (exec (.ld h0 .g .b64 (.w 3) (.w 1) 0) stored) (fun t => ((t.thread 0).reg 3, t.homeWord 0x2000)) = some (0x2000, 0) := by
  decide +kernel
theorem witness_Atomics : (lane [(1, 0x2008), (2, 3)]).only 0 (thr [(1, 0x2008), (2, 3)]) ∧ (0x2008 : Word).toNat % 8 = 0 ∧
    spanCanonical 0x2008 8 = true ∧ ((lane [(1, 0x2008)]).ctx 1).exh = [] ∧
    ((lane [(1, 0x2008)]).xlateSpans 0 [(.atomic, 0x2008, 8)]).1 = .ok [addrsOf 0x2008 8] ∧ (addrsOf 0x2008 8).all (lane []).isLocal = true ∧
    ((lane [(1, 0x2008)]).xlateSpans 0 [(.atomic, 0x2008, 8)]).2.notReady 0 .g true (addrsOf 0x2008 8) = none ∧
    (lane [(1, 0x2008)]).notReady 0 .s true (addrsOf 0x2008 8) = none ∧ 0x2008 + 8 ≤ ((lane []).block 0).spadBytes :=
  ⟨⟨rfl, rfl⟩, by decide, by decide, by decide, by decide +kernel, by decide, by decide +kernel, by decide +kernel, by decide⟩
/-- Context 1 has one area of ordered additions. -/
def ordered (n : Word) : State :=
  { lane [(1, 0x2008), (2, 0x3F800000)] with
    ctxs := [(0, { ptroot := 0x10001, tvec := 0x8000 }), (1, { w0 := 0x8000000000000000, ptroot := 0x10001, tvec := 0x8000, oarea := n })] }
theorem witness_Atomics_fadd : (tget? (ordered 1).launches (gkey 1 1)).isSome = true ∧
    (ordered 1).queued 1 < 4096 * bits ((ordered 1).ctx 1).oarea 0 16 ∧ 4096 * bits ((ordered 0).ctx 1).oarea 0 16 ≤ (ordered 0).queued 1 ∧
    ((ordered 1).xlateSpans 0 [(.atomic, 0x2008, afSize .f32)]).1 = .ok [addrsOf 0x2008 4] := by decide +kernel
theorem test_atom_fadd_queues : after (exec (.atomFadd h0 .f32 .rn (.w 1) (.w 2)) (ordered 1))
    (fun t => (t.homeWord 0x2008, ((t.launch (gkey 1 1)).queue.map fun e => (e.blk, e.tid, e.n, e.val)))) = some (0, [(0, 0, 0, 0x3F800000)]) ∧
    trapped (.atomFadd h0 .f32 .rn (.w 1) (.w 2)) (ordered 0) 0 = some (some (5, 7)) := by decide +kernel
theorem witness_MemoryChecks : (lane [(1, 7), (2, 3)]).traps 0 (thr [(1, 7), (2, 3)]) ∧ (lane [(1, 7), (2, 3)]).vectors 0 5 0x4000 ∧
    spanCanonical 0x0040000000000000 1 = false ∧ spanCanonical 0x003FFFFFFFFFFFFF 2 = false ∧ (lane []).spaceBytes 0 .s < 16381 + 4 ∧
    (lane []).spaceBytes 0 .p < 4093 + 4 ∧ 16382 + 2 ≤ (lane []).spaceBytes 0 .s ∧ (0x2004 : Word).toNat % 8 ≠ 0 :=
  ⟨lane_traps, by simp only [State.vectors]; decide +kernel, by decide, by decide, by decide, by decide, by decide, by decide⟩
/-- An address that the page table does not map, under a fault policy that marks TCODE 1, and one that does not. -/
def unmapped (fpol : Word) : State :=
  { lane [(1, 0x0000040000000000)] with
    ctxs := [(0, { ptroot := 0x10001, tvec := 0x8000 }), (1, { w0 := 0x8000000000000000, ptroot := 0x10001, tvec := 0x8000, fpol })] }
theorem witness_MemoryChecks_translation : ((unmapped 1).xlateSpans 0 [(.read, 0x0000040000000000, 8)]).1 =
      .error { tcode := 1, lvl := 0, va := 0x0000040000000000 } ∧ ({ tcode := 1, lvl := 0, va := 0x0000040000000000 } : XFault).waits = false ∧ (unmapped 1).freeCocoon (engOf 0) = some 0 ∧
    bit ((unmapped 1).ctx 1).fpol 0 = true ∧ bit ((unmapped 0).ctx 1).fpol 0 = false := by decide +kernel
theorem test_page_fault_parks : after (exec (.ld h0 .g .b64 (.w 3) (.w 1) 0) (unmapped 1))
    (fun t => ((t.thread 0).run, (tget {} (t.coreAt 0).cocoon 0).tcode, (tget {} (t.coreAt 0).cocoon 0).lanes)) = some (.parked 0, 1, 1) := by
  decide +kernel
theorem test_page_fault_traps : trapped (.ld h0 .g .b64 (.w 3) (.w 1) 0) (unmapped 0) 0 = some (some (5, 4)) := by decide +kernel

/-- The worked walk of chapter 19. -/
def walked : State :=
  { State.reset with
    boot := { State.reset.boot with stage := .ready, devnum := 3 }
    ctxs := [(1, { w0 := 0x8000000000000000, ptroot := 0x0000018000100001 })]
    parts := [(0, { en := true, run := true, rasid := 1, gran := 1 })]
    home := Memory.writeN (Memory.writeN (Memory.writeN [] 0x100000 (leBytes 8 0x0000018000110001)) 0x110800 (leBytes 8 0x0000018000120001))
      0x120000 (leBytes 8 0x0000018040000017) }
theorem test_walk_of_the_manual : (walked.xlate 1 0 .write 0x0000002000000738).1 = .ok 0x0000018040000738 0x0000018040000017 := by
  decide +kernel
theorem test_walk_needs_rights : (walked.xlate 1 0 .fetch 0x0000002000000738).1 = .fail 3 2 ∧
    (walked.xlate 1 0 .write 0x0000002020000738).1 = .fail 1 1 := by decide +kernel
theorem witness_Translation : walked.tlb = [] ∧ walked.walkc = [] ∧ walked.poison = [] ∧ bit (walked.ctx 1).ptroot 0 = true ∧ walked.boot.devnum < 1536 ∧
    ((walked.ctx 1).ptroot &&& ~~~(0xFFFF : Word)).toNat / 2 ^ 39 = walked.boot.devnum ∧ walked.isLocal 0x0000018040000738 = true := by
  decide +kernel
/-- The same walk to a leaf of level 1 in device 4, whose access gets no reply. -/
def unanswered : State :=
  { walked with
    cur := { noReply := true }
    home := Memory.writeN (Memory.writeN [] 0x100000 (leBytes 8 0x0000018000110001)) 0x110800 (leBytes 8 0x0000020000000017) }
theorem test_no_reply_at_level_1 : (unanswered.xlate 1 0 .write 0x0000002000000738).1 = .fail 7 1 := by decide +kernel
/-! ### Witnesses: block flags, compressed words, copies, queues -/

theorem witness_BlockFlagInstructions : (lane [(1, 7), (2, 3)]).grouped ∧ (tget? (lane []).blocks (lane []).curBlockKey).isSome = true ∧
    (lane [(1, 7), (2, 3)]).acts h0 0 (thr [(1, 7), (2, 3)]) ∧ ((lane [(1, 7), (2, 3)]).active h0.guard).getLast? = some 0 ∧
    (∀ r ∈ ((lane []).block 0).flagLog, ∃ w ∈ r.who, (thr [(1, 7), (2, 3)]).sees ((thr [(1, 7), (2, 3)]).me 0) w.1 w.2 = true) :=
  ⟨fun u h => ⟨thr [(1, 7), (2, 3)], by rw [List.mem_singleton.mp h]; rfl, rfl⟩, rfl, lane_acts.1, by decide, fun r h => by cases h⟩
theorem test_flg_arm : after (exec (.flgArm h0 (.w 1)) (lane [(1, 5)])) (fun t => (t.block 0).bswAll) = some 0x500 := by decide +kernel
theorem witness_CompressedWords : (∀ o d r o' d' r', PairHalf.op .addI64 10 (.w 3) = .op o d r → PairHalf.op .fmulF32 11 (.w 4) = .op o' d' r' → d ≠ d') ∧
    0 ∈ (lane []).cur.tids ∧ tget? (lane []).threads 0 = some (thr []) :=
  ⟨fun _ _ _ _ _ _ h h' => by cases h; cases h'; decide, by decide, rfl⟩
/-- A launch whose dictionary holds, at 0, the addition of registers 2 and 3, and at 1 a long word. -/
def coded : State :=
  { lane [(2, 4), (3, 5), (6, 7)] with
    launches := [(gkey 1 1, { nblock := 1, st := 1, pool := pool0, job := 1, gid := 1, dlen := 2, dict := [(0, 0x00007F004C010203), (1, 0xC000000000000000)] })] }
theorem witness_CompressedWords_dictionary : kindOf coded.lead_ = .lane ∧ (decodeEntry 1 (tget 0 (coded.launchOf 0).dict 0)).toOption.isSome = true ∧
    2 ≤ bits (tget 0 (coded.launchOf 0).dict 1) 62 2 ∧ coded.traps 0 (thr [(2, 4), (3, 5), (6, 7)]) ∧ coded.vectors 0 1 0x4000 :=
  ⟨by decide, by decide, by decide, ⟨⟨rfl, rfl⟩, rfl, by decide⟩, by simp only [State.vectors]; decide +kernel⟩
theorem test_pair_reads_before_writing : after (exec (.pairWord 0 0 (.op .mov 1 (.w 2)) (.op .mov 2 (.w 1))) (lane [(1, 7), (2, 3)]))
    (fun t => ((t.thread 0).reg 1, (t.thread 0).reg 2)) = some (3, 7) := by decide +kernel
theorem witness_CompressedWords_offset : decodeEntry 0 0x00007F004C010203 = .ok (.add h0 .i64 false (.w 1) (.w 2) (.w 3)) ∧
    offsetFields (.add h0 .i64 false (.w 1) (.w 2) (.w 3)) 0x00007F004C010203 = [(16, false), (8, false), (0, false)] ∧
    offsetFields (.ld h0 .s .b128 (.w 4) .zero 0) 0x00007F501E04FC00 = [(16, true)] := ⟨rfl, by decide +kernel, by decide +kernel⟩
theorem test_dictionary_offset_out_of_budget : decodeEntry 63 0x00007F004CC80203 = .error 9 ∧ decodeEntry 5 0x00007F501E04FC00 = .error 7 := by
  decide +kernel
theorem test_dictionary_offset : (match decodeEntry 4 (tget 0 (coded.launchOf 0).dict 0) with | .ok i => encode i | _ => []) =
    [0x00007F004C050607] := by decide
theorem test_dictionary_of_long_word_traps : trapped (.dictionaryCode 0 1) coded 0 = some (some (1, 2)) := by decide +kernel
theorem witness_BranchResults : 0 ∈ (lane []).cur.tids ∧ tget? (lane []).threads 0 = some (thr []) ∧ (thr []).guardTrue h0.guard = true := by
  refine ⟨by decide, rfl, rfl⟩

/-- A copy of the 16 bytes at 0x8000 into the scratchpad from 0x40 on. -/
def copying : State := lane [(1, 0x40), (2, 0x8000), (3, 16), (4, 0x0000002000000008), (5, 0x0000001000000020)]
theorem witness_Copies : kindOf 0 = .lane ∧ (16 : Nat) ≤ 2 ^ 24 ∧ spanCanonical 0x8000 16 = true ∧ 0x40 + 16 ≤ copying.spaceBytes 0 .s ∧
    (copying.xlateSpans 0 [(.read, 0x8000, 16)]).1 = .ok [addrsOf 0x8000 16] ∧
    copying.copiesAgainst (engOf 0) .g 0 false (addrsOf 0x8000 16) = [] ∧ copying.copiesAgainst (engOf 0) .s 0 true (addrsOf 0x40 16) = [] ∧
    (copying.coreAt (engOf 0)).copies.length < 16 ∧
    copying.copiesMeeting (engOf 0) (copying.dstSpans 0 true [(0x40, 0x8000, 16)] []) = [] ∧ copying.poison = [] ∧ copying.poisonPool = [] := by decide +kernel
def copied : State := match exec (.cpa { h0 with set := 1 } true .g (.w 1) (.w 2) (.w 3)) copying with | .next t => t | _ => State.reset
theorem test_cpa_enters_scoreboard : (copied.coreAt 0).copies.map (·.data.take 2) = [[(0x40, 0), (0x41, 0x40)]] ∧
    (copied.thread 0).flagCount 1 = 1 ∧ (copied.thread 0).pc = 8 ∧ (copied.block 0).spad = [] := by decide +kernel
theorem witness_Copies_retires : (copied.coreAt 0).copies[0]?.isSome = true ∧
    after (exec (.copyRetirement 0 0) copied) (fun t => ((t.block 0).spad, (t.coreAt 0).copies.length, (t.thread 0).out)) =
      some ([(0x41, 0x40)], 0, [1]) := by decide +kernel
theorem test_load_waits_for_copy : after (exec (.ld h0 .s .b8 (.w 6) (.w 1) 0) copied) (fun t => (t.thread 0).pc) = some 8 := by decide +kernel
theorem witness_Copies_rows : let b : Word := 8 + 2 * 2 ^ 24
    1 ≤ bits b 0 24 ∧ bits b 0 24 ≤ 2 ^ 20 ∧ 1 ≤ bits b 24 16 ∧ bits b 40 24 = 0 := by decide
theorem witness_Fences : (lane [(1, 0), (2, 0), (4, 0x2000), (5, 64)]).only 0 (thr [(1, 0), (2, 0), (4, 0x2000), (5, 64)]) ∧
    (lane []).partOfEng 0 = (lane []).partOfEng (engOf 0) ∧ 0 ≤ ((lane []).eng 0).seq ∧ ((lane []).eng 0).stores = [] ∧
    spanCanonical 0x2000 64 = true ∧ (((lane [(1, 0), (2, 0), (4, 0x2000), (5, 64)]).writeBack 0 (fun st => st.seq ≤ 0) fun _ => true).xlate 1 1 .read
      0x2000).1 = .ok 0x2000 31 ∧ (lane [(1, 7), (2, 3)]).traps 0 (thr [(1, 7), (2, 3)]) ∧ (thr [(1, 7), (2, 3)]).reg 5 = 0 ∧
    (lane [(1, 7), (2, 3)]).vectors 0 5 0x4000 ∧ 7 % 2 ^ 13 * 128 < ((lane []).block 0).spadBytes :=
  ⟨⟨rfl, rfl⟩, rfl, by decide, rfl, by decide, by decide +kernel, lane_traps, by decide, by simp only [State.vectors]; decide +kernel, by decide⟩
theorem test_seize_writes_back : after (exec (.fenceSeize h0 0 (.w 4) (.w 6) (.w 2))
    { stored with threads := [(0, thr [(1, 0x2000), (2, 1), (4, 0x2000), (5, 64), (6, 0)])] }) (fun t => t.homeWord 0x2000) = some 0x2000 := by
  decide +kernel
theorem test_fence_own : result (.fenceOwn h0 (.w 3)) stored 0 3 = some 1 := by decide +kernel

/-- A bin session at 0x2000: 8 elements at 0x3000 that add, areas of 4 entries at 0x4000. -/
def binW (state count : Word) : List Word := [0x3000, 8 + 4 * 2 ^ 37 + 2 ^ 44, 0x4000, 4, 0, state, count, 0]
def binned (regs : Tab Word) (count : Word) (bins : Tab (Nat × Tab Nat)) : State :=
  let s := withWords (lane regs) (((List.range 8).map fun i => 0x2000 + 8 * i).zip (binW 0 count))
  { s with blocks := [(0, { s.block 0 with bin := some 0x2000 })], bins }
theorem witness_BinSessions : let s := binned [(1, 0x2000), (2, 9)] 1 [(2 ^ 64 + 0x2000, (1, [(0, 1)]))]
    s.only 0 (thr [(1, 0x2000), (2, 9)]) ∧ binOk (binW 0 1) = true ∧ spanCanonical 0x2000 64 = true ∧
    (s.xlateSpans 0 [(.read, 0x2000, 64)]).1 = .ok [addrsOf 0x2000 64] ∧ (s.xlateSpans 0 [(.write, 0x2000, 64)]).1 = .ok [addrsOf 0x2000 64] ∧
    binW 0 1 = (List.range 8).map (fun i => word (leNat ((((addrsOf 0x2000 64).drop (8 * i)).take 8).map s.homeByte))) ∧
    (s.mapped 1 0 .write 0x4000 (1 * 4 * 32)).1 = true ∧ (s.binSessions 0 0).length < 16 ∧
    (s.xlateSpans 0 [(.write, 0x3000, 32), (.read, 0x4000, 32)]).1 = .ok [addrsOf 0x3000 32, addrsOf 0x4000 32] ∧
    s.notReady 0 .s true (addrsOf 0 64) = none ∧ binOk (binW 3 1) = false :=
  ⟨⟨rfl, rfl⟩, by decide, by decide, by decide +kernel, by decide +kernel, by decide +kernel, by decide +kernel, by decide +kernel,
    by decide +kernel, by decide +kernel, by decide⟩
theorem witness_BinSessions_run : let s := binned [(1, 0x2000), (2, 9)] 1 [(2 ^ 64 + 0x2000, (1, [(0, 1)]))]
    (s.block 0).binRun = none ∧ s.poison = [] ∧ spanCanonical 0x3000 32 = true ∧ spanCanonical 0x4000 32 = true ∧
    (∀ x ∈ addrsOf 0x4000 32, x % devBytes ∉ (addrsOf 0x2028 8).map (· % devBytes)) ∧
    ((addrsOf 0x3000 32 ++ addrsOf 0x2028 8).map (· % devBytes)).Nodup ∧ ((addrsOf 0x4000 32 ++ addrsOf 0x2030 8).map (· % devBytes)).Nodup := by
  decide +kernel
theorem test_bin_put : after (exec (.binPut h0 false (.w 1) (.w 2)) (binned [(1, 7), (2, 9)] 0 []))
    (fun t => (t.homeWord 0x4000, t.homeWord 0x4010, t.homeWord 0x2030, (t.thread 0).pc)) = some (7, 9, 1, 8) := by decide +kernel
theorem test_bin_put_index_traps : trapped (.binPut h0 false (.w 1) (.w 2)) (binned [(1, 8), (2, 9)] 0 []) 0 = some (some (5, 10)) := by
  decide +kernel
theorem test_bin_run_adds : after (exec (.binRun h0 (.w 3) (.w 1))
    (withWords (binned [(1, 0x2000)] 1 [(2 ^ 64 + 0x2000, (1, [(0, 1)]))]) [(0x3018, 0x500000004), (0x4000, 7), (0x4010, 9)]))
    (fun t => (t.homeWord 0x3018, (t.thread 0).reg 3, t.homeWord 0x2028)) = some (0xE00000004, 1, 2) := by decide +kernel

/-- A collective of two posts, counter 5, over 64 bytes at 0x3000. -/
def collW : List Word := [5, 1 + 2 * 2 ^ 4, 0x3000, 64, 0, 0, 0, 0, 0, 0, 0, 0, 0, 0, 0, 0]
def collective : State := withWords (lane [(1, 0x2000)]) (((List.range 16).map fun i => 0x2000 + 8 * i).zip collW)
theorem witness_CollectivesEdgesGranules : collOk collW = true ∧ collective.cidOk (engOf 0) 5 = true ∧ (∀ k, collective.domainDevs k = []) ∧
    (collective.xlateSpans 0 [(.read, 0x2000, 128)]).1 = .ok [addrsOf 0x2000 128] ∧ spanCanonical 0x3000 64 = true ∧
    (collective.coreAt (engOf 0)).copies = [] ∧ bits (5 : Word) 32 32 = 0 ∧ 1 ≤ (64 : Word).toNat ∧
    (lane [(1, 0), (2, 3)]).traps 0 (thr [(1, 0), (2, 3)]) ∧ (lane [(1, 0), (2, 3)]).vectors 0 5 0x4000 :=
  ⟨by decide, by decide, fun _ => rfl, by decide +kernel, by decide, rfl, by decide, by decide, ⟨⟨rfl, rfl⟩, rfl, by decide⟩,
    by simp only [State.vectors]; decide +kernel⟩
theorem test_coll_post_counts : after (exec (.collPost h0 (.w 3) (.w 1)) collective) (fun t => ((t.thread 0).reg 3,
    ((tget {} t.colls 5).gen.map (·.posted)), (tget {} t.colls 5).count)) = some (0, some 1, 0) := by decide +kernel
theorem test_acc_req_refused : after (exec (.accReq h0 2 (.w 1)) (lane [(1, 2)])) (fun t => ((t.thread 0).pred 2, (t.block 0).accg)) =
    some (false, 0) ∧ after (exec (.accReq h0 2 (.w 1)) (lane [(1, 1)])) (fun t => ((t.thread 0).pred 2, (t.block 0).accg)) =
    some (true, 1) := by decide +kernel
/-- An edge record at 0x2000: 4 slots of 8 bytes at 0x3000, head and free count at 0x2100; node 0's block pushes to node 1. -/
def edged (free : Word) : State :=
  { withWords (spadWords (lane [(1, 0x2000), (2, 0x40)]) [(0x40, 77)])
      [(0x2000, 0x3000), (0x2008, 4 + 8 * 2 ^ 32), (0x2010, 0x2100), (0x2018, 1 * 2 ^ 16), (0x2100, free)] with
    launches := [(gkey 1 1, { nblock := 1, st := 1, pool := pool0, job := 1, gid := 0xFFFFFFFF, node := 0 }), (gkey 1 2, { job := 1, gid := 0xFFFFFFFF, node := 1 })]
    graphs := [(gkey 1 0xFFFFFFFF, { job := 1, nodes := [1, 2] })] }
theorem witness_CollectivesEdgesGranules_edge : edgeOk [0x3000, 4 + 8 * 2 ^ 32, 0x2100, 1 * 2 ^ 16] = true ∧
    edgeSrc [0x3000, 4 + 8 * 2 ^ 32, 0x2100, 1 * 2 ^ 16] = 0 ∧ edgeDst [0x3000, 4 + 8 * 2 ^ 32, 0x2100, 1 * 2 ^ 16] = 1 ∧
    ((edged 4).readHomeWord 1 1 0x2100).1 = some 4 ∧ (edged 4).isLocal 0x2100 = true ∧ spanCanonical 0x2100 8 = true ∧
    ((edged 4).xlateSpans 0 [(.atomic, 0x2100, 8), (.write, 0x3000, 8)]).1 = .ok [addrsOf 0x2100 8, addrsOf 0x3000 8] ∧
    ((addrsOf 0x3000 8 ++ addrsOf 0x2100 8).map (· % devBytes)).Nodup ∧ (edged 4).replayed = none ∧
    (tget? (edged 4).launches (gkey 1 ((0xFFFFFFFF - 1 + (1 + 1)) % 0xFFFFFFFF + 1))).isSome = true := by decide +kernel
theorem test_edge_push : after (exec (.edgePush h0 (.w 3) (.w 1) (.w 2)) (edged 4)) (fun t => ((t.thread 0).reg 3, t.homeWord 0x3000,
    t.homeWord 0x2100, (t.launch (gkey 1 2)).pending.map (·.1))) = some (0, 77, 0x100000003, [0]) := by decide +kernel
theorem test_edge_push_waits : after (exec (.edgePush h0 (.w 3) (.w 1) (.w 2)) (edged 0)) (fun t => ((t.thread 0).pc, (t.thread 0).wait)) =
    some (0, .edge) := by decide +kernel
/-! ### Witnesses: fibres, slots, system -/

/-- Lanes 0 to 2 over the bucket list and the bitmap of chapter 14. -/
def bucket (fibres : Tab Fibre) : State :=
  { spadWords (machine ((List.range 3).map fun i => (i, thr [(4, 0x100), (5, 6), (6, 0x140), (7, 48), (20, 0x700000000)])) [0, 1, 2])
      [(0x100, 0x0000000700000003), (0x108, 0x000000120000000C), (0x110, 0x0000002800000013), (0x140, 0x000001000008FF7F)] with fibres }
def list0 : Fibre := { opened := true, spad := true, kind := 0, base := 0x100, len := 6, lim := 6, pos := 0, coord := 3 }
def bits0 : Fibre := { opened := true, spad := true, kind := 2, base := 0x140, len := 48, lim := 48, pos := 0, coord := 0 }
theorem test_fib_open_plain : after (exec (.fibOpen h0 true 0 0 (.w 4) (.w 20)) (bucket [])) (fun t => tget {} t.fibres 0) = some list0 := by
  decide +kernel
theorem test_fib_open_bits : after (exec (.fibOpen h0 true 2 1 (.w 6) (.w 20)) (bucket [])) (fun t => tget {} t.fibres 1) = some bits0 := by
  decide +kernel
theorem test_fib_isect_of_the_manual : after (exec (.fibIsect h0 3 (.w 8) 0 1 (.w 20)) (bucket [(0, list0), (1, bits0)])) (fun t =>
    ([0, 1, 2].map fun u => ((t.thread u).reg 8, (t.thread u).reg 9, (t.thread u).pred 3))) =
    some [(0x0000000700000003, 0x0000000300000000, true), (0x000000070000000C, 0x0000000C00000002, true),
      (0x0000000700000013, 0x0000001300000004, true)] := by decide +kernel
theorem test_fib_isect_leaves_cursors : after (exec (.fibIsect h0 3 (.w 8) 0 1 (.w 20)) (bucket [(0, list0), (1, bits0)])) (fun t =>
    ((tget {} t.fibres 0).pos, (tget {} t.fibres 0).coord, (tget {} t.fibres 1).pos, (tget {} t.fibres 1).coord)) = some (5, 40, 40, 40) := by
  decide +kernel
theorem test_fib_adv_ge : after (exec (.fibAdvGe h0 0 (.w 5) (.w 20)) (bucket [(0, list0)])) (fun t => ((tget {} t.fibres 0).pos,
    (tget {} t.fibres 0).coord)) = some (1, 7) := by decide +kernel
/-- Lane 0 alone, over the same list. -/
def bucket1 (fibres : Tab Fibre) : State :=
  { spadWords (lane [(1, 2), (4, 0x100), (5, 6), (20, 0x100000000)])
      [(0x100, 0x0000000700000003), (0x108, 0x000000120000000C), (0x110, 0x0000002800000013)] with fibres }
theorem bucket1_meets (f : Tab Fibre) : (bucket1 f).meets (.w 20) 0 [0] 0 := by
  refine ⟨rfl, by decide, by decide, by decide, by decide, by decide,
    show ∀ e ∈ (bucket1 []).threads, e.1 / 32 = 0 / 32 → e.2.arrMask = none by decide +kernel, fun l hl => ?_⟩
  rw [List.mem_singleton.mp hl]
  exact ⟨thr [(1, 2), (4, 0x100), (5, 6), (20, 0x100000000)], rfl, rfl, rfl, by decide⟩
theorem witness_FibreInstructions : (bucket1 [(0, list0)]).meets (.w 20) 0 [0] 0 ∧ (tget? (bucket1 []).blocks 0).isSome = true ∧
    ((bucket1 []).coreAt 0).copies = [] ∧ (bucket1 []).poisonPool = [] ∧ bits (6 : Word) 32 32 = 0 ∧ (0x100 : Word).toNat % 4 = 0 ∧
    0x100 + 4 * 6 ≤ ((bucket1 []).block 0).spadBytes ∧
    (∀ p, p < 6 → leNat (((bucket1 []).block 0).spad.readN (0x100 + 4 * p) 4) < 0xFFFFFFFF) ∧
    (∀ p, p < 5 → leNat (((bucket1 []).block 0).spad.readN (0x100 + 4 * p) 4) < leNat (((bucket1 []).block 0).spad.readN (0x100 + 4 * (p + 1)) 4)) ∧
    list0.coord = leNat (((bucket1 []).block 0).spad.readN 0x100 4) ∧ ((bucket1 []).block 0).past = [] ∧ (bucket1 []).agenda = [] ∧
    list0.walk = none ∧ (tget {} (bucket1 []).fibres 1 : Fibre).walk = none :=
  ⟨bucket1_meets _, by decide, rfl, rfl, by decide, by decide, by decide, by decide +kernel, by decide +kernel, by decide +kernel, rfl, rfl, rfl, rfl⟩
theorem witness_FibreInstructions_closed : (bucket1 []).traps 0 (thr [(1, 2), (4, 0x100), (5, 6), (20, 0x100000000)]) ∧
    (bucket1 []).vectors 0 7 0x4000 ∧ (tget {} (bucket1 []).fibres 0 : Fibre).opened = false :=
  ⟨⟨⟨rfl, rfl⟩, rfl, by decide⟩, by simp only [State.vectors]; decide +kernel, rfl⟩
theorem witness_FibreInstructions_sproj : (fmtF32.fin false 0x3F800000).1.isNan = false ∧ (fmtF32.fin false 0x3F800000).1.isInf = false := by
  decide +kernel

/-- Sequence 7 of job 1, active with a window of 8 from position 16 on, its slot 3 final. -/
def seq7 : Seq := { wbase := 16, state := 2, lend := 64, job := 1, asid := 1, prio := 255, smap := [(3, 2)], tok := [(3, 77)], fmap := 0x5000 }
def sequenced (regs : Tab Word) : State :=
  { lane regs with
    seqs := [(7, seq7)]
    jobs := [(1, { state := 2, asid := 1, took := true, gcur := 1, kcancel := true, kclose := true, seqctl := true, batchMax := 1, brec := 0x9000, batch := [7] })] }
theorem witness_SlotInstructions : (sequenced [(1, 7), (2, 10)]).only 0 (thr [(1, 7), (2, 10)]) ∧ (sequenced []).replayed = none ∧
    tget? (sequenced []).seqs 7 = some seq7 ∧ tget? (sequenced []).seqs 8 = none ∧ seq7.reserved = false ∧
    (seq7.job = ((sequenced []).launch (gkey 1 1)).job ∧ seq7.asid = (sequenced []).asidOf 0) ∧ bits (7 : Word) 16 48 = 0 ∧
    (10 : Word).toNat ≤ 10 ∧ (sequenced [(1, 7)]).traps 0 (thr [(1, 7)]) ∧ (sequenced [(1, 7)]).vectors 0 8 0x4000 :=
  ⟨⟨rfl, rfl⟩, rfl, rfl, rfl, rfl, by decide, by decide, by decide, ⟨⟨rfl, rfl⟩, rfl, by decide⟩, by simp only [State.vectors]; decide +kernel⟩
theorem witness_SlotInstructions_put : (7 < min seq7.wsize (seq7.lend - seq7.wbase)) ∧ tget 0 seq7.smap 7 ≠ 2 ∧ 7 ∈ ((sequenced []).job 1).batch ∧
    (fmtF16.decode 0x3C00).isNan = false ∧ (fmtF16.decode 0x7E00).isNan = true := by decide +kernel
theorem witness_SlotInstructions_fork : (seq7.lend + 7) / 8 = 8 ∧
    ((sequenced []).xlateUnder 0 1 [(.read, 0x5000, 8), (.read, 0, 0), (.write, 0x6000, 8), (.write, 0x6040, 0)]).1 =
      .ok [addrsOf 0x5000 8, [], addrsOf 0x6000 8, []] ∧ seq7.admitted = false ∧ (sequenced []).poison = [] ∧
    tget? (sequenced []).seqs 0 = none ∧ (addrsOf 0x6000 8).all (sequenced []).isLocal = true := by decide +kernel
theorem test_slot_rd_word0 : result (.slotRdWord h0 (.w 3) (.w 1) (.w 2)) (sequenced [(1, 7), (2, 0)]) 0 3 =
    some (16 * 2 ^ 32 + 255 * 2 ^ 16 + 8 * 2 ^ 9 + 2) := by decide +kernel
theorem test_slot_rd_tok : result (.slotRdTok h0 (.w 3) (.w 1) (.w 2)) (sequenced [(1, 7), (2, 3)]) 0 3 = some 77 ∧
    result (.slotRdTok h0 (.w 3) (.w 1) (.w 2)) (sequenced [(1, 7), (2, 8)]) 0 3 = some 0xFFFFFFFF := by decide +kernel
theorem test_slot_rd_batch : result (.slotRdBatch h0 (.w 3)) (sequenced []) 0 3 = some 0x9000 := by decide +kernel
theorem test_slot_put_ties_to_smaller : after (exec (.slotPut h0 (.w 1) (.w 2))
    { sequenced [(1, 7 + 5 * 2 ^ 32), (2, 0x3C00)] with subs := [(64 * 7, (0x3C00, 6))] }) (fun t => tget? t.subs (64 * 7)) =
    some (some (0x3C00, 5)) := by decide +kernel
theorem test_slot_cfg_waits_for_boundary : after (exec (.slotCfg h0 (.w 1) (.w 2)) (sequenced [(1, 7)])) (fun t => (t.seqs.length, t.cfgs.length)) =
    some (1, 1) := by decide +kernel
theorem test_seq_release_needs_state : trapped (.seqStRelease h0 (.w 1) (.w 2)) (sequenced [(1, 7 + 3 * 2 ^ 16)]) 0 = some (some (8, 4)) := by
  decide +kernel
theorem test_seq_fork_lowest : after (exec (.seqFork h0 (.w 3) (.w 1) (.w 2)) (sequenced [(1, 7), (2, 0x6000)])) (fun t =>
    ((t.thread 0).reg 3, (tget {} t.seqs 7).forks, (tget {} t.seqs 0).reserved)) = some (0, 1, true) := by decide +kernel

/-- Level-1 lane thread and steward with registers. -/
def handler (regs : Tab Word) : State := machine [(0, { regs, lvl := 1 })] [0]
theorem witness_SystemRegisters : (handler [(1, 0xFFFFFFFFFFFFFF80)]).only 0 { regs := [(1, 0xFFFFFFFFFFFFFF80)], lvl := 1 } ∧
    0x406 / 1024 ≤ ({ lvl := 1 } : Thread).lvl.toNat ∧ (handler []).csrOk 0x402 0xFFFFFFFFFFFFFF80 = true ∧
    (handler []).csrOk 0x402 0xFFFFFFFFFFFFFFC0 = false ∧ (steward []).csrOk 0x807 (2 ^ 63 + 2) = true ∧ 0x837 / 1024 ≤ 2 ∧
    (lane [(1, 7), (2, 3)]).traps 0 (thr [(1, 7), (2, 3)]) ∧ (lane [(1, 7), (2, 3)]).vectors 0 9 0x4000 ∧
    (thr []).lvl.toNat < 0x400 / 1024 ∧ 0x600 / 512 % 2 = 1 ∧ 0x400 / 512 % 2 = 0 ∧ (handler []).keyBusy 0x400 0 = false :=
  ⟨⟨rfl, rfl⟩, by decide, by decide +kernel, by decide +kernel, by decide +kernel, by decide, lane_traps,
    by simp only [State.vectors]; decide +kernel, by decide, by decide, by decide, by decide⟩
theorem witness_SystemRegisters_more : (conductor []).only condBase {} ∧ ((conductor []).cluster (clusterOf (engOf condBase))).bound = some 0 ∧
    (steward []).csrOk 0x831 0x20040 = true ∧ (steward []).csrOk 0x832 1 = true ∧ (steward []).csrOk 0x837 0x40 = true ∧ 0x831 / 1024 ≤ 2 :=
  ⟨⟨rfl, rfl⟩, rfl, by decide, by decide, by decide, by decide⟩
theorem test_csrr_cstat : result (.csrr h0 (.k 3) 0x2C0) (conductor []) condBase 3 = some 3 := by decide +kernel
theorem test_csrw_ctxw2 : after (exec (.csrw h0 0x832 (.k 1)) { steward [(1, 5)] with ctxSel := 1 }) (fun t => (t.ctx 1).oarea) = some 5 := by
  decide +kernel
theorem test_csrw_spill_moves_stacks : after (exec (.csrw h0 0x831 (.k 1)) { machine [(0, { stk := 0 }), (stewBase, { regs := [(1, 0x20040)], lvl := 2 })] [stewBase] with
    ctxSel := 1 }) (fun t => ((t.thread 0).stk - t.slotTop 0, (t.ctx 1).spill)) = some (0 - (lane []).slotTop 0, 0x20040) := by decide +kernel
theorem test_csrr_status_level : result (.csrr h0 (.w 3) 0x2C1) (handler []) 0 3 = some 1 := by decide +kernel
theorem test_csrw_tvec : after (exec (.csrw h0 0x402 (.w 1)) (handler [(1, 0xA000)])) (fun t => (t.ctx 1).tvec) = some 0xA000 := by decide +kernel
theorem test_csrw_below_level_traps : trapped (.csrw h0 0x402 (.w 1)) (lane []) 0 = some (some (9, 1)) := by decide +kernel
theorem test_csrx_swaps : after (exec (.csrx h0 (.k 3) 0x820 (.k 1)) (steward [(1, 9)])) (fun t => ((t.thread stewBase).reg 3, t.ctxSel)) =
    some (0, 9) := by decide +kernel
theorem witness_KeysContextsBinding : (lane [(1, 0x80), (2, 3)]).only 0 (thr [(1, 0x80), (2, 3)]) ∧ bits (0x80 : Word) 0 3 = 0 ∧
    ((lane []).cluster (clusterOf (engOf 0))).bound = none ∧ ((conductor []).cluster 0).bound ≠ none ∧
    (steward [(1, 1)]).only stewBase { regs := [(1, 1)], lvl := 2 } ∧ bits (0x8000000000000000 : Word) 10 41 = 0 ∧
    bit ((steward []).ctx 0).w0 63 = false :=
  ⟨⟨rfl, rfl⟩, by decide, rfl, by decide, ⟨rfl, rfl⟩, by decide, by decide⟩
theorem test_cbind_starts_conductor : after (exec (.cbindWrite h0 (.w 1)) (lane [(1, 0x80)])) (fun t => ((t.cluster 0).bound,
    (t.thread condBase).pc, (t.thread condBase).run)) = some (some 0, 0x80, .live) := by decide +kernel
theorem test_key_load : after (exec (.keyLoad h0 (.k 1)) { steward [(1, 1)] with keyIdx := 4, keyStage := [(0, 11), (7, 18)] })
    (fun t => (t.keyWords 4, t.keyStage.length)) = some ([11, 0, 0, 0, 0, 0, 0, 18], 0) := by decide +kernel
theorem test_key_in_use_traps : trapped (.keyErase h0 (.k 1)) { steward [(1, 2)] with
    keyIdx := 4
    ctxs := [(0, { ptroot := 0x10001, tvec := 0x8000 }), (1, { w0 := 0xC100000000000000, ptroot := 0x10001 })] } stewBase = some (some (9, 6)) := by
  decide +kernel
theorem test_context_create : after (exec (.contextCreate h0 (.k 1)) { steward [(1, 0x8000000000000000)] with
    ctxSel := 5, ctxs := [(5, { ptroot := 0x10001, fpol := 3 })] }) (fun t => (bit (t.ctx 5).w0 63, (t.ctx 5).ptroot, (t.ctx 5).fpol)) =
    some (true, 0, 0) := by decide +kernel

theorem witness_InvalidationProbeLogCounters : (handler [(1, 0x2000), (2, 0)]).only 0 { regs := [(1, 0x2000), (2, 0)], lvl := 1 } ∧
    (∀ c x, (c, x) ∈ (handler []).cores → x.copies = []) ∧ canonical 0x2000 = true ∧ (0x1000 : Word).toNat ≤ 2 ^ 40 ∧
    vaBits 0x2000 + 0x1000 ≤ 2 ^ 54 ∧ (steward []).only stewBase { lvl := 2 } ∧ (handler []).log.full = false ∧ (handler []).log.owed = 0 ∧
    (handler []).asidOf 0 < 1024 ∧ bits (7 : Word) 3 61 = 0 ∧ srcOk 0 = true ∧ srcOk 63 = false ∧ bits (8 : Word) 3 61 ≠ 0 :=
  ⟨⟨rfl, rfl⟩, (fun _ _ h => by cases h), by decide, by decide, by decide, ⟨rfl, rfl⟩, by decide, by decide, by decide, by decide, by decide,
    by decide, by decide⟩
def cachedLeaf (asid idx : Nat) : TlbEntry := { asid, lvl := 2, idx, entry := 19 }
/-- A copy in flight that went through the cached leaf of page 3. -/
def flown : State := { handler [(1, 0x30000), (2, 0)] with
  cores := [(0, { copies := [{ id := 5, tid := 0, inc := 0, flag := none, src := [], toS := false, dst := [], blk := 0, uid := 0, lid := 1, asid := 1, seq := 1, rel := [], via := [cachedLeaf 1 3], data := [] }] })] }
theorem witness_InvalidationProbeLogCounters_flies : (∃ id, ∃ c x k, (c, x) ∈ flown.cores ∧ k ∈ x.copies ∧ k.id = id ∧ ∃ e ∈ k.via, e.asid = 1) ∧
    (∀ on, (flown.thread 0).wait ≠ .inval on) :=
  ⟨⟨5, 0, _, _, List.mem_singleton.mpr rfl, List.mem_singleton.mpr rfl, rfl, _, List.mem_singleton.mpr rfl, rfl⟩, fun _ h => by cases h⟩
theorem test_tlb_inv_waits_for_copy : after (exec (.tlbInvAll h0 (.w 2)) flown) (fun t => (t.thread 0).wait) = some (.inval [5]) := by decide +kernel
theorem test_tlb_inv_page_drops_one : after (exec (.tlbInvPage h0 (.w 1) (.w 2)) { handler [(1, 0x30000), (2, 0)] with
    tlb := [cachedLeaf 1 3, cachedLeaf 1 4, cachedLeaf 2 3] }) (fun t => t.tlb.map fun e => (e.asid, e.idx)) = some [(1, 4), (2, 3)] := by
  decide +kernel
theorem test_tlb_inv_at_level_0_traps : trapped (.tlbInvAll h0 (.w 2)) (lane []) 0 = some (some (9, 1)) := by decide +kernel
theorem test_probe_job_graph : result (.probeRd h0 (.k 3) (.k 1)) (steward [(1, 4 * 2 ^ 56 + 2 * 2 ^ 32 + 8 + 1)]) stewBase 3 = some 0 ∧
    trapped (.probeRd h0 (.k 3) (.k 1)) (steward [(1, 5 * 2 ^ 56)]) stewBase = some (some (9, 5)) := by decide +kernel
/-- Steward 0 beside lane thread 0, with the probe's operand. -/
def probing (v : Word) : State := machine [(0, { pc := 0x88, traps := [frame0] }), (stewBase, { regs := [(1, v)], lvl := 2 })] [stewBase]
theorem witness_InvalidationProbeLogCounters_probe : tget? (probing 0).threads 0 = some { pc := 0x88, traps := [frame0] } ∧
    (probing 0).only stewBase { regs := [(1, 0)], lvl := 2 } ∧ (probing 0).poolSpot 0 0 = some (0, 1, 0) ∧ granKey 0 1 0 ∉ (probing 0).poisonPool ∧
    (probing 0).poolSpot 0 63 = none ∧ ((probing 0).spareAt 0 63).2 = false := ⟨rfl, ⟨rfl, rfl⟩, by decide +kernel, by decide, by decide +kernel, by decide +kernel⟩
theorem test_probe_pc_and_frame : result (.probeRd h0 (.k 3) (.k 1)) (probing (1 * 2 ^ 32)) stewBase 3 = some 0x88 ∧
    result (.probeRd h0 (.k 3) (.k 1)) (probing (3 * 2 ^ 32 + 2)) stewBase 3 = some 0x88 := by decide +kernel
theorem test_log_app_numbers : after (exec (.logApp h0 (.w 3) (.w 1) (.w 2)) (handler [(1, 5), (2, 6)])) (fun t => ((t.thread 0).reg 3, t.log.tail,
    ((tget [] t.log.recs (1 % t.log.lcap)).getD 3 0), ((tget [] t.log.recs (1 % t.log.lcap)).getD 5 0))) = some (1, 2, 5, 6) := by decide +kernel
theorem test_cnt_rd_disabled : result (.cntRd h0 (.w 3) (.w 1)) { lane [(1, 2)] with emem := [(0, { cnt := [(2, { val := 99 })] })] } 0 3 = some 99 := by
  decide +kernel

/-- A parked fragment: lane 1 in entry 0 of core 0. -/
def fragmented (lvl : BitVec 2) (id key : Word) : State :=
  { machine [(0, { regs := [(1, id), (2, key)], lvl }), (1, { run := .parked 0 })] [0] with
    cores := [(0, { cocoon := [(0, { gen := 1, st := 1, lanes := 2, rsn := 4, kind := 1, tcode := 1, va := 0x77000 })] })] }
theorem witness_FragmentInstructions : (fragmented 1 1 4).only 0 { regs := [(1, 1), (2, 4)], lvl := 1 } ∧ tsorted (fragmented 1 1 4).threads = true ∧
    (fragmented 1 1 4).partOfEng 0 = (fragmented 1 1 4).partOfEng (engOf 0) ∧ bits (1 : Word) 32 32 = 0 ∧ bits (1 : Word) 22 10 ≤ 767 ∧
    (tget {} ((fragmented 1 1 4).coreAt 0).cocoon 0).gen = (1 : Word).extractLsb' 0 16 ∧
    (∀ x y, tget? (fragmented 1 1 4).threads x = some y → y.run = .parked 0 → ((fragmented 1 1 4).block y.block).susp = none) :=
  ⟨⟨rfl, rfl⟩, by decide, rfl, by decide, by decide, by decide, fun x y h _ => by
    simp only [fragmented, machine, tget?] at h
    split at h
    · cases h; rfl
    · split at h
      · cases h; rfl
      · cases h⟩
theorem test_frag_resume : after (exec (.fragResume h0 (.w 3) (.w 1) (.w 2)) (fragmented 1 1 4)) (fun t => ((t.thread 0).reg 3, (t.thread 1).run,
    (t.thread 1).resumed)) = some (0, .live, true) ∧ result (.fragResume h0 (.w 3) (.w 1) (.w 2)) (fragmented 1 1 5) 0 3 = some 1 := by decide +kernel
theorem test_frag_kill : after (exec (.fragKill h0 (.w 3) (.w 1) (.w 2)) (fragmented 1 1 4)) (fun t => ((t.thread 0).reg 3, (t.thread 1).run,
    (tget {} (t.coreAt 0).cocoon 0).st)) = some (0, .exited, 0) := by decide +kernel
theorem test_frag_rd_word2 : result (.fragRdEntry h0 (.w 3) (.w 1) (.w 2)) (fragmented 1 1 2) 0 3 = some 0x77000 := by decide +kernel
theorem test_frag_rd_below_level_traps : trapped (.fragRdEntry h0 (.w 3) (.w 1) (.w 2)) (fragmented 0 1 2) 0 = some (some (9, 1)) := by decide +kernel
theorem witness_ContextHalt : (steward [(1, 0), (2, 0x30000)]).only stewBase { regs := [(1, 0), (2, 0x30000)], lvl := 2 } ∧
    tsorted (steward []).threads = true ∧ (steward []).inPart 0 (engOf stewBase) = false ∧ ((steward []).part 0).run = true ∧
    (∀ c x, (c, x) ∈ (steward []).cores → x.copies = []) ∧ bits (0x30000 : Word) 0 16 = 0 ∧
    (({ steward [] with ctr := 2 } : State).xlateSpan 0 2 .write 0x30000 64).1 = .ok (addrsOf 0x30000 64) ∧
    (addrsOf 0x30000 64).all (steward []).isLocal = true :=
  ⟨⟨rfl, rfl⟩, by decide, by decide, by decide, (fun _ _ h => by cases h), by decide, by decide +kernel, by decide⟩
theorem test_ctx_halt_term : after (exec (.ctxHaltTerm h0 (.k 1)) (steward [])) (fun t => (t.part 0).halt) = some (some 1) := by decide +kernel
/-- The steward, whose save of partition 0 has stopped it. -/
def saving (regs : Tab Word) : State :=
  { steward regs with parts := [(0, { en := true, run := true, rasid := 1, gran := 1, snap := mem0, saving := some (stewBase, false) })] }
theorem witness_ContextHalt_goes : ((saving []).part 0).saving = some (stewBase, false) ∧ ((saving []).part 0).halt = none ∧
    ((saving []).part 0).haltCtx = none ∧ (saving []).poison = [] ∧ (saving []).inPart 0 (engOf stewBase) = false := by decide +kernel
theorem test_ctx_halt_save_opens : after (exec (.ctxHaltSave h0 (.k 3) (.k 1) (.k 2)) (steward [(2, 0x30000)])) (fun t => ((t.thread stewBase).pc,
    (t.part 0).run, (t.part 0).saving)) = some (0, true, some (stewBase, false)) := by decide +kernel
theorem test_ctx_halt_save : after (exec (.ctxHaltSave h0 (.k 3) (.k 1) (.k 2)) (saving [(2, 0x30000)])) (fun t => ((t.thread stewBase).reg 3,
    (t.part 0).run, t.images.length)) = some (0, false, 1) := by decide +kernel
theorem witness_CancelAndClose : (lane [(1, 1), (2, 0)]).only 0 (thr [(1, 1), (2, 0)]) ∧ kindOf 0 = .lane ∧ (lane []).replayed = none ∧
    tsorted (lane []).threads = true ∧ tsorted (lane []).blocks = true ∧ (tget? (lane []).launches (gkey 1 1)).isSome = true ∧
    (tget? (lane []).graphs (gkey 1 1)).isSome = true ∧ ((lane []).job 1).kcancel = true ∧ ((lane []).job 1).state = 2 ∧
    ((lane []).launch (gkey 1 1)).st < 2 ∧ ((lane []).launch (gkey 1 1)).job = 1 ∧ 0 < ((lane []).launch (gkey 1 1)).final ∧
    bits (1 : Word) 8 24 = 0 ∧ (handler [(1, 2)]).traps 0 { regs := [(1, 2)], lvl := 1 } ∧ (handler [(1, 2)]).vectors 0 9 0x4000 ∧
    tget? (handler []).launches (gkey 1 2) = none :=
  ⟨⟨rfl, rfl⟩, rfl, rfl, rfl, rfl, rfl, rfl, rfl, rfl, by decide, rfl, by decide, by decide, ⟨⟨rfl, rfl⟩, rfl, by decide⟩,
    by simp only [State.vectors]; decide +kernel, rfl⟩
theorem witness_CancelAndClose_over : (lane []).ctxBusy 1 = false ∧ (lane []).launchOver 1 ((lane []).launch (gkey 1 1)) = false ∧
    (lane []).graphOver 1 (tget {} (lane []).graphs (gkey 1 1)) = false ∧ (lane []).savedBlocks 1 = [] ∧
    ({ lane [] with bnd := [(0, { phase := 0, stage := 2 })] } : State).ctxBusy 1 = true ∧
    (let s : State := { lane [] with launches := [(gkey 1 1, { nblock := 1, st := 1, count := 1, pool := pool0, job := 1, gid := 1, doneBlocks := [0] })] }
     s.launchOver 1 (s.launch (gkey 1 1)) = true) := by decide +kernel
theorem test_cancel_of_ended_launch : result (.cancelLaunch h0 (.w 3) (.w 1)) { lane [(1, 1)] with
    launches := [(gkey 1 1, { nblock := 1, st := 1, count := 1, pool := pool0, job := 1, gid := 1, ended := some 1 })] } 0 3 = some 1 := by decide +kernel
theorem test_cancel_launch : after (exec (.cancelLaunch h0 (.w 3) (.w 1)) (lane [(1, 1)])) (fun t => ((t.launch (gkey 1 1)).st, t.blocks.length)) =
    some (3, 0) := by decide +kernel
theorem test_cancel_job : after (exec (.cancelJob h0 (.w 3) (.w 1)) (lane [(1, 1)])) (fun t => ((t.job 1).state, (tget {} t.graphs (gkey 1 1)).st)) =
    some (5, 3) := by decide +kernel
theorem test_phase_close : after (exec (.phaseClose h0 (.w 1)) (lane [(1, 1)])) (fun t => ((t.job 1).closed, (t.thread 0).pc)) = some (true, 8) := by
  decide +kernel
theorem test_cancel_unknown_traps : trapped (.cancelLaunch h0 (.w 3) (.w 1)) (handler [(1, 2)]) 0 = some (some (9, 7)) := by decide +kernel
/-! ### Witnesses: the matrix array -/

/-- Row and column of the worked example of chapter 12, at plane step 5 and at the drain. -/
def bank0 : Bank := { data := [(0, 0x42), (1, 0x07)] }
def instar0 (step : Nat) (sums : Tab Int) : Instar :=
  { st := 1, op := 2, total := 7, step, payload := 0x08800040, vb := 1, sums, row := [0x05, 0xC3] }
def array (i : Instar) (de : Decomp) : State :=
  { conductor [(1, 64), (2, 0x400)] with
    clusters := [(0, { bound := some 0, bankAsid := 1, banks := [(2, bank0)], instar := i, de })]
    blocks := [(0, { asid := 1, lid := 1, core := 0, slots := [0], pool := pool0, accg := 1, spad := [(0, 0x05), (1, 0xC3)] })] }
theorem test_plane_step_of_the_manual : after (exec (.planeStep 0) (array (instar0 5 [(1, 8), (2, -14)]) {})) (fun t =>
    ((t.cluster 0).instar.sums, (t.cluster 0).instar.step)) = some ([(1, 10), (2, -21)], 6) := by decide +kernel
theorem test_drain_step : after (exec (.drainStep 0) (array { instar0 6 [(1, 10), (2, -21)] with op := 3, payload := 0x0000000800000040 } {}))
    (fun t => ((t.block 0).acc.word 0x400, (t.block 0).acc.word 0x408, (t.cluster 0).instar.st)) = some (0x0000000A00000000, 0x00000000FFFFFFEB, 0) := by
  decide +kernel
theorem witness_MatrixInstructions : (array {} {}).only condBase { regs := [(1, 64), (2, 0x400)] } ∧ kindOf condBase = .cond ∧
    (tget? (array {} {}).blocks 0).isSome = true ∧ ((array {} {}).cluster 0).instar.st = 0 ∧ (macros 1).length = 1 ∧
    bits (0 : Word) 28 36 = 0 ∧ 0 / 2 ^ 13 = ((array {} {}).block 0).core % 8 ∧ 64 ≤ ((array {} {}).block 0).spadBytes ∧
    0x400 + 1 * (64 * 1) * 32 ≤ ((array {} {}).block 0).accBytes ∧ ((array {} {}).cluster 0).de.st ≠ 1 ∧
    (array {} {}).traps condBase { regs := [(1, 64), (2, 0x400)] } ∧ (array {} {}).vectors condBase 6 0x4000 :=
  ⟨⟨rfl, rfl⟩, rfl, by decide, by decide, by decide, by decide, by decide, by decide, by decide, by decide, ⟨⟨rfl, rfl⟩, rfl, by decide⟩,
    by simp only [State.vectors]; decide +kernel⟩
theorem witness_MatrixInstructions_table : bits (15 : Word) 4 60 = 0 ∧ spanCanonical 0x2000 16 = true ∧
    ((array {} {}).xlateSpan 1 0 .read 0x2000 16).1 = .ok (addrsOf 0x2000 16) ∧ (array {} {}).poison = [] ∧ (array {} { st := 2 }).poison = [] ∧
    ((List.replicate 16 (4 : Nat)).map fun x => ((1 : ℚ) / 2) ^ x).sum = 1 := by
  refine ⟨by decide, by decide, by decide +kernel, rfl, rfl, by norm_num⟩
theorem test_cim_run_starts : after (exec (.cimRun { h0 with set := 0 } (.k 3) (.k 4) 0x08800040)
    { array {} {} with threads := [(condBase, { regs := [(3, 0), (4, 1)] })] }) (fun t => ((t.cluster 0).instar.st, (t.cluster 0).instar.total,
    (t.thread condBase).pc)) = some (1, 7, 8) := by decide +kernel
theorem witness_MatrixInstructions_row : ({ instar0 5 [] with op := 3, payload := 0x0000000800000040 } : Instar).step %
      (({ instar0 5 [] with op := 3, payload := 0x0000000800000040 } : Instar).planes + 1) ≠ 0 ∧
    ((array { instar0 5 [] with op := 3, payload := 0x0000000800000040 } { st := 3 }).cluster 0).de.st ≠ 1 := by decide +kernel
theorem test_step_rd_idle : result (.stepRd h0 (.k 3)) (array {} {}) condBase 3 = some 0 := by decide +kernel
theorem test_step_go_resume : after (exec (.stepGoResume h0) (array { st := 2, op := 5, total := 2 } {})) (fun t => (t.cluster 0).instar.st) =
    some 1 := by decide +kernel
theorem witness_MatrixSteps : ((array (instar0 5 []) {}).cluster 0).bound = some 0 ∧ (array (instar0 5 []) {}).engRuns (768 + 0) = true ∧
    (array (instar0 5 []) {}).poisonPool = [] ∧ (array (instar0 5 []) {}).poisonBank = [] ∧
    (∀ e x, (e, x) ∈ (array (instar0 5 []) {}).cores → x.copies = []) ∧ ((array (instar0 5 []) {}).cluster 0).oc = [] ∧
    (instar0 5 []).step + 1 < (instar0 5 []).total ∧ (instar0 6 []).step % 7 = 6 :=
  ⟨rfl, by decide, rfl, rfl, fun _ _ h => (by cases h), rfl, by decide, by decide⟩
/-- A stream of one stored block, fed to the scratchpad from 0x100 on. -/
def stream0 : Decomp := { st := 1, owner := some 0, sbase := 0x20000, nblk := 1, bstride := 1, toReg := true, rbase := 0x100, rsize := 128, tmo := 9 }
theorem witness_MatrixSteps_stream : stream0.finished = false ∧ stream0.redir = none ∧ (array {} stream0).engRuns 768 = true ∧
    ((array {} stream0).deBlock 0 1 stream0.next stream0 (stream0.addrOf 0).1).1 = .error 1 := by decide +kernel
theorem witness_MatrixSteps_trap : (array {} { st := 2, cause := 2, trap := true }).vectors condBase 6 0x4000 ∧
    ((array {} { st := 2, cause := 2, trap := true }).cluster 0).bound ≠ none :=
  ⟨by simp only [State.vectors]; decide +kernel, by decide⟩
theorem test_matrix_stream_trap : after (exec (.matrixStreamTrap 0) (array {} { st := 2, cause := 2, trap := true }))
    (fun t => ((t.thread condBase).traps.head?.map fun f => (bits f.w0 56 8, bits f.w0 48 8), (t.cluster 0).de.trap)) = some (some (6, 6), false) := by
  decide +kernel
/-- Lane 0 waits in ldl at 0x140, with the stream's time run out. -/
def waiting : State :=
  { array {} stream0 with threads := [(0, { wait := .ldl 0x140 })], cur := {} }
theorem witness_MatrixSteps_timeout : tsorted waiting.threads = true ∧ waiting.engRuns 0 = true ∧ waiting.freeCocoon 0 = some 0 ∧
    after (exec (.decompressionTimeout 0 0) waiting) (fun t => ((t.thread 0).run, (tget {} (t.coreAt 0).cocoon 0).kind)) = some (.parked 0, 3) := by
  decide +kernel
theorem test_replaced_stream_keeps_row : after (exec (.drainStep 0) (array { instar0 6 [(1, 10)] with op := 3, payload := 0x0000000800000040, own := true }
    { st := 1, buf := [1, 2] })) (fun t => ((t.cluster 0).de.buf, (t.cluster 0).instar.own)) = some ([1, 2], false) := by decide +kernel
theorem test_acc_zero_step : after (exec (.accUnitStep 0)
    { array { st := 1, op := 5, total := 1, va := 0x10, vb := 16 } {} with
      blocks := [(0, { asid := 1, lid := 1, core := 0, slots := [0], pool := pool0, accg := 1, acc := [(0x0F, 1), (0x10, 2), (0x1F, 3), (0x20, 4)] })] })
    (fun t => (t.block 0).acc) = some [(0x0F, 1), (0x20, 4)] := by decide +kernel

/-! ### Witnesses: the dispatcher, the boundary, the device -/

/-- Launch 1 with one block still to place, and nothing placed. -/
def pendingBlock : State :=
  { lane [] with
    threads := [], blocks := [], cur := {}
    launches := [(gkey 1 1, { nblock := 1, pool := pool0, job := 1, gid := 1, entry := 0x40, pending := [(0, none)] })] }
theorem witness_PlacementAndCompletion : tsorted pendingBlock.launches = true ∧ pendingBlock.replayed = none ∧ (pendingBlock.part 0).active = true ∧
    (pendingBlock.candidates 0 1).map (fun q => (q.lid, q.blk)) = [(1, 0)] ∧
    ((pendingBlock.candidates 0 1).map fun q => pendingBlock.coreFor 0 1 q) = [some 0] ∧
    ((pendingBlock.candidates 0 1).map (·.edge)) = [none] ∧ (pendingBlock.pendings 1).length = 1 := by decide +kernel
theorem witness_PlacementAndCompletion_late : let s : State := { pendingBlock with
      parts := [(0, { en := true, run := true, rasid := 1, gran := 1, blocked := [(1, 1, 0, none)] })] }
    s.pendings 1 ≠ [] ∧ (s.pendings 1).all (fun q => (s.part 0).blocked.contains (q.name 1)) = true := by decide +kernel
theorem test_block_placement : after (exec (.blockPlacement 0) pendingBlock) (fun t => (t.threads.length, (t.thread 31).pc,
    (t.launch (gkey 1 1)).st, (t.launch (gkey 1 1)).pending.length)) = some (32, 0x40, 1, 0) := by decide +kernel
/-- Launch 1 has counted all its blocks; n gives its queued additions. -/
def counted (queue : List Fadd) : State :=
  { pendingBlock with launches := [(gkey 1 1, { nblock := 1, st := 1, count := 1, pool := pool0, job := 1, gid := 1, queue })] }
def fadd0 : Fadd := { blk := 0, tid := 0, n := 0, dpa := [0x2000, 0x2001, 0x2002, 0x2003], ty := .f32, rm := .rn, val := 0x3F800000, asid := 1 }
theorem witness_PlacementAndCompletion_complete : ((counted [fadd0]).launch (gkey 1 1)).st < 2 ∧ ((counted [fadd0]).launch (gkey 1 1)).count =
      ((counted [fadd0]).launch (gkey 1 1)).nblock ∧ fadd0.dpa = (List.range 4).map (0x2000 + ·) ∧ (counted [fadd0]).isLocal 0x2000 = true ∧
    (fmtF32.fin false (leNat (fadd0.dpa.map (counted [fadd0]).homeByte))).1 = .num false 0 (-149) ∧ (counted [fadd0]).poison = [] ∧
    (tget {} (counted []).graphs (gkey 1 1) : Graph).st = 1 ∧ (tget {} (counted []).graphs (gkey 1 1) : Graph).edges = [] := by decide +kernel
theorem test_launch_completion_adds : after (exec (.launchCompletion 1 1) (counted [fadd0])) (fun t => (t.homeWord 0x2000,
    (t.launch (gkey 1 1)).st, (tget {} t.graphs (gkey 1 1)).st)) = some (0x3F800000, 2, 2) := by decide +kernel
/-- Partition 0 is idle; context 1 has a running job. -/
def idlePart : State := { pendingBlock with parts := [(0, { en := true, gran := 1 })] }
theorem witness_PlacementAndCompletion_slice : idlePart.nextContext 0 = some 1 ∧ (idlePart.part 0).halt = none ∧ tsorted idlePart.ctxs = true ∧
    (idlePart.ctx 1).valid = true ∧ idlePart.images = [] ∧ (idlePart.part 0).saving = none ∧ tget? idlePart.bnd (idlePart.domOf 0) = none ∧
    idlePart.remote = [] := by decide +kernel
theorem test_time_slice_starts_context : after (exec (.timeSliceExpiry 0) idlePart) (fun t => ((t.part 0).run, (t.part 0).rasid)) = some (true, 1) := by
  decide +kernel
/-- Job 1's phase is over, with one store still in core 0's engine. -/
def phaseOver : State :=
  { lane [] with
    threads := [], blocks := [], cur := {}
    launches := [(gkey 1 1, { nblock := 1, st := 2, count := 1, pool := pool0, job := 1, gid := 1 })]
    graphs := [(gkey 1 1, { job := 1, nodes := [1], st := 2, count := 1 })]
    jobs := [(1, { state := 2, asid := 1, took := true, gcur := 1, closed := true })]
    emem := [(0, { seq := 2, stores := [{ seq := 1, tid := 0, tick := 1, asid := 1, data := [(0x2000, 1)], home := false, rel := [] },
                                        { seq := 2, tid := 1, tick := 1, asid := 1, data := [(0x2000, 2)], home := false, rel := [] }] })] }
theorem witness_PhaseBoundary : phaseOver.boundaryDue 0 = true ∧ phaseOver.seqs = [] ∧ phaseOver.requants = [] ∧ phaseOver.replayed = none ∧
    tsorted phaseOver.jobs = true ∧ (lane []).boundaryDue 0 = false ∧ phaseOver.engInDom 0 0 = true ∧ phaseOver.engInDom 0 863 = false ∧
    phaseOver.images = [] ∧ phaseOver.bnd = [] ∧ phaseOver.agenda = [] ∧ tget [] phaseOver.domRemote 0 = [] ∧ phaseOver.poison = [] ∧
    (∀ e ∈ phaseOver.cores, e.2.copies = []) ∧ phaseOver.domParts 0 = [0] ∧ 0 ∉ phaseOver.unreachable := by decide +kernel
/-- The domain of partition 0 has device 3 as a member, which has come to phase n, step k. -/
def joined (n : Word) (k : Nat) : State := { phaseOver with domRemote := [(0, [3])], domDone := [(3, (n, k))], bnd := [(0, { phase := 0, stage := 1 })] }
theorem witness_PhaseBoundary_member : ({ joined 0 0 with bnd := [] } : State).boundaryDue 0 = true ∧
    tget? (joined 0 0).bnd 0 = some { phase := 0, stage := 1 } ∧ 3 ∈ tget [] (joined 0 0).domRemote 0 ∧
    tget? (joined 0 0).domDone (2048 * 0 + 3) = some (0, 0) := by decide +kernel
theorem test_boundary_waits_for_member : after (exec (.phaseBoundary 0) (joined 0 0)) (fun t => (t.part 0).phase) = some 0 ∧
    after (exec (.phaseBoundary 0) (joined 0 2)) (fun t => (t.part 0).phase) = some 1 := by decide +kernel
theorem test_boundary_writes_back : after (exec (.phaseBoundary 0) phaseOver) (fun t => (t.homeByte 0x2000, (t.part 0).phase, (t.job 1).phcnt,
    (t.eng 0).stores.length)) = some (2, 1, 1, 0) := by decide +kernel
theorem witness_PhaseBoundary_requant : (requantBlock (List.replicate 64 0)).2 = [0, 0] ∧ (fmtF16.decode 0x3C00) = .num false 1024 (-10) ∧
    (requantBlock ([0, 0x3C] ++ List.replicate 62 0)).1.length = 16 := by decide +kernel
/-- Context 1 presents a page fault on its ring at 0x20000. -/
def faulted (fpol : Word) : State :=
  { fragmented 0 1 4 with
    ctxs := [(0, { ptroot := 0x10001, tvec := 0x8000 }), (1, { w0 := 0x8000000000000000, ptroot := 0x10001, tvec := 0x8000, fpol, faults := [{ kind := 1, core := 0, entry := 0, rsn := 4, w0 := 0, w1 := 0, w2 := 0, w3 := 0, w4 := 0 }] })] }
theorem witness_DeviceEvents : ((faulted 0x20001).ctx 1).exh = [] ∧ ((faulted 0x20001).ctx 1).faults.length = 1 ∧
    (faulted 0x20001).partRunning 1 = some 0 ∧ ((faulted 0x20001).part 0).saving = none ∧ (faulted 0x20001).poison = [] ∧
    ((faulted 0x20001).xlateSpan 1 1 .write 0x20000 16).1 = .ok (addrsOf 0x20000 16) ∧
    ((faulted 0x20001).xlateSpan 1 1 .write 0x20040 64).1 = .ok (addrsOf 0x20040 64) ∧
    (addrsOf 0x20000 16 ++ addrsOf 0x20040 64).all (faulted 0x20001).isLocal = true ∧ (addrsOf 0x20000 16 ++ addrsOf 0x20040 64).Nodup := by
  decide +kernel
theorem test_fault_presented : after (exec (.faultPresentation 1) (faulted 0x20001)) (fun t => (t.homeWord 0x20000, t.homeWord 0x20050,
    (t.ctx 1).faults.length)) = some (1, 0x77000, 0) := by decide +kernel
theorem witness_DeviceEvents_stop : let s : State := { lane [] with parts := [(0, { en := true, run := true, rasid := 1, gran := 1, halt := some 3 })] }
    (s.part 0).halt = some 3 ∧ tget? s.stops 0 = none ∧ s.partOfEng 0 = some 0 ∧ s.partOfEng 863 = none ∧ (s.part 0).rasid < 1024 := by
  decide +kernel
theorem witness_DeviceEvents_stop_units : let s : State := { lane [] with parts := [(0, { en := true, run := true, rasid := 1, gran := 1, halt := some 3 })] }
    s.partOfEng (768 + 0) = some 0 ∧ s.partOfGran 0 = some 0 ∧ s.boot.stage = .ready ∧ (s.part 0).haltCtx.getD (s.part 0).lastAsid < 1024 ∧
    (∀ e ∈ ([872, 968, 1064, 1068] : List Nat), tget? s.stops e = none) ∧
    (∀ e ∈ ([872, 968, 1064, 1068] : List Nat), (after (exec (.engineStop e) s) fun t => (tget? t.stops e).isSome) = some true) := by
  decide +kernel
/-- Reading the 64 window entries one after another: each is local at the address given. -/
def readsWindows (base : Word) : Nat → Nat → State → Bool
  | 0, _, _ => true
  | n + 1, i, s =>
    let r := s.xlateSpan 0 2 .read (base + word (16 * i)) 16
    (match r.1 with | .ok l => l == addrsOf (base.toNat + 16 * i) 16 && l.all s.isLocal | .error _ => false) && readsWindows base n (i + 1) r.2
theorem witness_DeviceEvents_windows : readsWindows 0x20000 64 0 { lane [] with boot := { (lane []).boot with wintab := 0x20000 } } = true := by
  decide +kernel
theorem witness_DeviceEvents_bar : let s : State := { lane [] with boot := { (lane []).boot with debug := true }, agenda := [.hostWrite 2 [7], .hostRead 0 4] }
    s.notes.agenda = s.agenda ∧ s.notes.boot.debug = true ∧ after (step s) (fun t => (t.bar.read 2, t.agenda)) = some (7, [.hostRead 0 4]) ∧
    after (step { s with agenda := [.hostRead 0 4], bar := [(2, 7)] }) (fun t => t.barSeen) = some [(0, [0, 0, 7, 0])] ∧
    after (step { s with boot := (lane []).boot }) (fun t => t.bar) = some [] := by decide +kernel
theorem witness_DeviceEvents_boot : State.reset.boot.check 0 = .error 2 ∧ State.reset.boot.check slotBytes = .error 2 ∧ State.reset.boot.flash = [] ∧
    tsorted State.reset.parts = true := ⟨rfl, rfl, rfl, rfl⟩
theorem test_boot_recovers : after (exec .bootSequence State.reset) (fun t => (t.boot.stage, t.boot.failA, t.boot.failB)) = some (.recovery, 2, 2) := by
  decide +kernel
theorem test_throttle_stops_at_625 : after (exec .thermalThrottle { State.reset with clock := 700 }) (fun t => t.clock) = some 625 := by decide
theorem witness_DeviceEvents_scrub : (lane []).ownerOf 1 0 0 < 1024 ∧ (lane []).log.full = false ∧ (lane []).log.owed = 0 ∧
    ({ (lane []).log with tail := 2 ^ 40 } : Log).full = true := by decide +kernel
theorem test_scrub_logs : after (exec (.scrub 2 768 5 .corrected 9) (lane [])) (fun t => (t.log.tail, (tget [] t.log.recs (1 % t.log.lcap)).getD 2 0,
    (tget [] t.log.recs (1 % t.log.lcap)).getD 3 0)) = some (2, 5, 9) := by decide +kernel
theorem witness_DeviceEvents_remote : let r : RemoteReq := { dev := 7, asid := 0, dpa := 0x2000, write := some [1, 2], len := 2 }
    (lane []).boot.stage = .ready ∧ (lane []).isLocal r.dpa = true ∧ r.dpa % devBytes + r.len ≤ devBytes ∧ (lane []).poison = [] ∧
    after (exec (.remoteAccess r) (lane [])) (fun t => (t.homeByte 0x2000, t.homeByte 0x2001)) = some (1, 2) := by decide +kernel
theorem witness_DeviceEvents_timeout : tget? (lane []).threads 0 = some {} ∧ 0 ∉ (lane []).late := by decide

/-! ### Witnesses: messages -/

/-- A header of the kind given from connection 1, which is bound to context 1, with a length. -/
def msg (ty len : Nat) : MsgHdr := { conn := 1, w0 := BitVec.ofNat 64 (len * 2 ^ 32 + ty * 2 ^ 24 + 2 ^ 16 + 0x1A96), w1 := 42, w2 := 1, w3 := 0 }
def bound : State := { lane [] with conns := [(1, 1)], cur := {} }
theorem witness_ContextMessages : bound.boot.stage = .ready ∧ (msg 2 72).conn ≠ 2 ^ 32 ∧ bits (msg 2 72).w0 0 16 = 0x1A96 ∧ bits (msg 2 72).w0 16 8 = 1 ∧
    bits (msg 2 72).w0 32 32 = 64 + 8 ∧ bits (msg 2 72).w0 24 8 = 2 ∧ bits (msg 7 65536).w0 32 32 = 65536 ∧
    bits (msg 2 72).w2 0 10 = tget 0 bound.conns 1 ∧ bits (msg 2 72).w2 10 54 = 0 ∧ bound.partials = [] ∧ bound.mail = [] ∧ bound.bnd = [] := by decide +kernel
theorem test_load_keeps_segment : after (exec (.load (msg 2 72) 0x40000 16 8 [1, 2, 3, 4, 5, 6, 7, 8]) bound) (fun t =>
    t.partials.map fun p => (p.total, p.got.length, p.got.head?.map (·.1))) = some [(16, 8, some 8)] := by decide +kernel
theorem witness_ContextMessages_job : jobOk [0x0900000000000000, 0x3000, 0, 0, 0] = true ∧ bit (bound.ctx 1).w0 63 = true ∧ (bound.job 0).state = 0 := by
  decide +kernel
theorem test_job_takes_lowest : after (exec (.job (msg 3 72) [0x0900000000000000, 0x3000, 0, 0, 0] 0 false 0) bound) (fun t =>
    ((t.job 0).state, (t.job 0).graph, (t.job 0).kcancel, (t.job 0).auto)) = some (1, 0x3000, false, true) := by decide +kernel
def body0 : SeqBody := { job := 1, state := 2, wsize := 64, lend := 0, wbase := 0, mode := false, prio := 1, thf := 0, tht := 0, thr := 0, key := 5,
                         kvroot := 0, fmap := 0, pen := 0, penlen := 0 }
theorem witness_ContextMessages_seq : seqBodyOk body0 = true ∧ (bound.job 1).asid = 1 ∧ (bound.job 1).state = 2 ∧ tget? bound.seqs 0 = none := by
  decide +kernel
theorem test_seq_takes_lowest : after (exec (.seq (msg 4 128) body0) bound) (fun t => ((tget {} t.seqs 0).wsize, (tget {} t.seqs 0).key,
    (tget {} t.seqs 0).state)) = some (64, 5, 2) := by decide +kernel
theorem witness_ContextMessages_ctrl : tget? bound.jobs 1 ≠ none ∧ (bound.job 1).asid = 1 ∧ tget? (sequenced []).seqs 7 = some seq7 ∧
    seq7.asid = 1 ∧ tget? (sequenced []).ctls 7 = none ∧
    tget? bound.graphs (gkey 1 (bound.job 1).gcur) = some { job := 1, nodes := [1] } ∧ tget? bound.launches (gkey 1 1) ≠ none ∧
    bound.nodeOver 1 1 = false := by decide +kernel
/-- Launch 1 has ended, with an ordered add to apply. -/
def settling : State := { bound with launches := (counted [fadd0]).launches }
theorem witness_ContextMessages_owed : settling.nodeOver 1 1 = true ∧ (settling.launch (gkey 1 1)).st < 2 := by decide +kernel
theorem test_ctrl_cancel_owes_the_end : after (exec (.ctrlJobCancel (msg 5 40) 1) settling) (fun t => ((t.job 1).state, (t.job 1).owesEnd, t.egress.length)) =
    some (5, true, 1) := by decide +kernel
theorem test_ctrl_hold_waits : after (exec (.ctrlJobHold (msg 5 40) 1) bound) (fun t => ((t.job 1).state, (t.job 1).reqs)) = some (2, [.hold]) := by
  decide +kernel
theorem test_ctrl_resume_of_running_is_refused : after (exec (.ctrlJobResume (msg 5 40) 1) bound) (fun t => ((t.job 1).reqs, t.egress.length)) =
    some ([], 1) := by decide +kernel
theorem witness_ContextMessages_data : spanCanonical 0x2000 4 = true ∧ (bound.xlateSpan 1 2 .write 0x2000 4).1 = .ok (addrsOf 0x2000 4) ∧
    (addrsOf 0x2000 4).all bound.isLocal = true ∧ (addrsOf 0x2000 4).Nodup ∧
    (bound.xlateSpan 1 2 .read 0x0000040000000000 4).1 = .error { tcode := 1, lvl := 0, va := 0x0000040000000000 } := by decide +kernel
theorem test_data_write : after (exec (.dataWrite (msg 6 48) 0x2000 [1, 2, 3, 4]) bound) (fun t => t.homeWord 0x2000) = some 0x04030201 := by
  decide +kernel
theorem witness_ContextMessages_recovery : let s : State := { State.reset with boot := { State.reset.boot with stage := .recovery } }
    let m : MsgHdr := { conn := 2 ^ 32, w0 := 0x0000004802011A96, w1 := 0, w2 := 0, w3 := 0 }
    s.boot.stage = .recovery ∧ s.boot.nodebug = false ∧ bits m.w0 32 32 = 64 + 8 ∧ bits m.w0 24 8 = 2 ∧ bits m.w2 0 10 = 0 ∧
    after (exec (.load m 1 8 0 [1, 2, 3, 4, 5, 6, 7, 8]) s) (fun t => t.boot.flash.read (64 * 2 ^ 20 + 7)) = some 8 := by decide +kernel
theorem witness_ContextMessages_log : (lane []).log.exported < 0 + 1 ∧ 1 < ({ (lane []).log with tail := 2 } : Log).tail := by decide
theorem witness_OperatorMessages : bound.boot.stage = .ready ∧ allZero bound.boot.opkey = true ∧ bits (msg 1 1024).w0 24 8 = 1 ∧
    bits (msg 1 1024).w0 32 32 % 8 = 0 ∧ bits (msg 1 1024).w2 0 10 = tget 0 bound.conns 1 ∧ bits (msg 8 32).w0 24 8 = 8 ∧
    bits ({ msg 1 32 with w2 := 2 } : MsgHdr).w2 0 10 ≠ tget 0 bound.conns 1 := by decide +kernel
theorem test_unsigned_message_is_refused : after (exec (.oper (msg 1 1024) { counter := 1, key := [], r := [], s := [] } (.bindConn 1 0)) bound)
    (fun t => (t.conns, t.boot.opctr, t.egress.length)) = some ([(1, 1)], 0, 1) := by decide +kernel
/-- Signatures are uninterpreted (log 7): given one that holds, every hypothesis of the statement about signed messages does. -/
def owned : State := { bound with boot := { bound.boot with opkey := sha384 [7] } }
theorem witness_OperatorMessages_signed (r s : List Byte)
    (h : Config.ecdsaVerifies [7] (sha384 (bytesOf [(msg 1 1024).w0, 42, 1, 0] ++ Config.operBytes (.command (.bindConn 1 0)) [7] ++ leBytes 8 1)) r s = true) :
    (allZero owned.boot.opkey = false ∧ owned.boot.opkey = sha384 [7] ∧
      Config.ecdsaVerifies [7] (sha384 (bytesOf [(msg 1 1024).w0, (msg 1 1024).w1, (msg 1 1024).w2, (msg 1 1024).w3] ++
        Config.operBytes (.command (.bindConn 1 0)) [7] ++ leBytes 8 1)) r s = true ∧ owned.boot.opctr.toNat < (1 : Word).toNat) ∧
    owned.mail = [] ∧ owned.poison = [] ∧ owned.bnd = [] ∧ owned.partOk 1 (2 ^ 63 + 2) = true ∧ owned.partOk 1 (2 ^ 63) = false ∧
    (∀ i, i < 8 → ctxOk i (([0x8000000000000000] : List Word).getD i 0) = true) ∧ (owned.ctx 1).valid = true ∧ (owned.part 0).gran ≠ 0 ∧
    owned.frames.length + 1 ≤ 2 ^ 20 :=
  ⟨⟨by decide +kernel, by simp only [owned], h, by decide⟩, rfl, rfl, rfl, by decide +kernel, by decide +kernel, by decide +kernel, by decide, by decide,
    by decide⟩
theorem witness_OperatorMessages_domain : tget [] ({ bound with domRemote := [(0, [3])] } : State).domRemote 0 ≠ [] ∧ 0 ∉ bound.unreachable := by decide

/-! ### Witnesses: invariants -/

theorem witness_StepKeepsInvariant : State.reset.Inv ∧ ∃ t, step State.reset = .next t := by
  refine ⟨⟨by decide, by decide, by decide, by decide, by decide, by decide, by decide, ?_, ?_, by decide, ?_, ?_, ?_, ?_⟩, ?_⟩
  · intro t h; cases h
  · intro t h; cases h
  · intro t h; cases h
  · intro t h; cases h
  · intro t h; cases h
  · intro t h; cases h
  · exact ⟨_, rfl⟩
end Sys2Proof.Tests
end

section
/-! PROOFS. Every encoding of the five floating-point formats and its value (R46). A magnitude code is e × 2^p + frac; the
lemmas take it apart once, and reading an encoding, its value and the order of the values are then stated by e and frac. -/
namespace Sys2Proof.Machine

open Sys2Proof

/-! ### Magnitude codes -/

theorem code_shiftRight {p frac : Nat} (e : Nat) (hfrac : frac < 2 ^ p) : (e * 2 ^ p + frac) >>> p = e := by
  rw [Nat.shiftRight_eq_div_pow, Nat.mul_comm, Nat.mul_add_div (by positivity), Nat.div_eq_of_lt hfrac, Nat.add_zero]

theorem code_mod {p frac : Nat} (e : Nat) (hfrac : frac < 2 ^ p) : (e * 2 ^ p + frac) % 2 ^ p = frac := by
  rw [Nat.mul_comm, Nat.mul_add_mod, Nat.mod_eq_of_lt hfrac]

theorem code_eq_code_iff {p e e' frac frac' : Nat} (h : frac < 2 ^ p) (h' : frac' < 2 ^ p) :
    e * 2 ^ p + frac = e' * 2 ^ p + frac' ↔ e = e' ∧ frac = frac' := by
  refine ⟨fun heq => ⟨?_, ?_⟩, fun ⟨he, hf⟩ => by rw [he, hf]⟩
  · rw [← code_shiftRight e h, heq, code_shiftRight e' h']
  · rw [← code_mod e h, heq, code_mod e' h']

/-- What the shapes of the formats have in common: the exponent and the fraction fill the word below the sign, and the one
NaN of a format without infinities has a fraction that fits. -/
structure FpFmt.Fits (f : FpFmt) : Prop where
  width : (f.emax + 1) * 2 ^ f.p = 2 ^ (f.w - 1)
  nan_frac : f.hasInf = false → 7 < 2 ^ f.p

theorem fits_of_mem {f : FpFmt} (hf : f ∈ [fmtF32, fmtF16, fmtBf16, fmtE4m3, fmtE5m2]) : f.Fits := by
  simp only [List.mem_cons, List.not_mem_nil, or_false] at hf
  obtain rfl | rfl | rfl | rfl | rfl := hf <;> exact ⟨by decide, by decide⟩

theorem hasInf_eq_false_iff_of_mem :
    ∀ f ∈ [fmtF32, fmtF16, fmtBf16, fmtE4m3, fmtE5m2], (f.hasInf = false ↔ f = fmtE4m3) := by decide

theorem FpFmt.Fits.code_lt {f : FpFmt} (hf : f.Fits) {e frac : Nat} (he : e ≤ f.emax) (hfrac : frac < 2 ^ f.p) :
    e * 2 ^ f.p + frac < 2 ^ (f.w - 1) :=
  calc e * 2 ^ f.p + frac < e * 2 ^ f.p + 2 ^ f.p := by omega
    _ = (e + 1) * 2 ^ f.p := by ring
    _ ≤ (f.emax + 1) * 2 ^ f.p := Nat.mul_le_mul_right _ (by omega)
    _ = 2 ^ (f.w - 1) := hf.width

theorem FpFmt.signed_testBit {f : FpFmt} {mag : Nat} (neg : Bool) (h : mag < 2 ^ (f.w - 1)) :
    (f.signed neg mag).testBit (f.w - 1) = neg := by
  cases neg with
  | false => exact Nat.testBit_lt_two_pow h
  | true => simp [FpFmt.signed, Nat.testBit_two_pow_add_eq, Nat.testBit_lt_two_pow h]

theorem FpFmt.signed_mod {f : FpFmt} {mag : Nat} (neg : Bool) (h : mag < 2 ^ (f.w - 1)) :
    f.signed neg mag % 2 ^ (f.w - 1) = mag := by
  cases neg <;> simp [FpFmt.signed, Nat.mod_eq_of_lt h]

/-! ### Reading an encoding -/

/-- The significand of a number's fields. -/
def FpFmt.sig (f : FpFmt) (e frac : Nat) : Nat := if e = 0 then frac else 2 ^ f.p + frac

/-- The exponent of the unit in the last place. -/
def FpFmt.ulpExp (f : FpFmt) (e : Nat) : Int := if e = 0 then f.qmin else f.qmin + (e - 1)

theorem FpFmt.num_sig_ulpExp (f : FpFmt) (neg : Bool) (e frac : Nat) :
    FVal.num neg (f.sig e frac) (f.ulpExp e) =
      if e = 0 then .num neg frac f.qmin else .num neg (2 ^ f.p + frac) (f.qmin + (e - 1)) := by
  unfold FpFmt.sig FpFmt.ulpExp
  split <;> rfl

section
variable {f : FpFmt} (hf : f.Fits) (neg : Bool) {e frac : Nat} (he : e ≤ f.emax) (hfrac : frac < 2 ^ f.p)
include hf he hfrac

/-- Reading an encoding, by its fields. -/
theorem FpFmt.Fits.decode_signed :
    f.decode (f.signed neg (e * 2 ^ f.p + frac)) =
      if f.hasInf ∧ e = f.emax then (if frac = 0 then .inf neg else .nan (decide (frac < 2 ^ (f.p - 1))))
      else if f.hasInf = false ∧ e = f.emax ∧ frac = 7 then .nan false
      else .num neg (f.sig e frac) (f.ulpExp e) := by
  have hlt := hf.code_lt he hfrac
  have hnan : (f.hasInf = false ∧ e * 2 ^ f.p + frac = f.emax <<< f.p + 7) ↔ (f.hasInf = false ∧ e = f.emax ∧ frac = 7) :=
    and_congr_right fun hi => by rw [Nat.shiftLeft_eq, code_eq_code_iff hfrac (hf.nan_frac hi)]
  simp only [FpFmt.decode, f.signed_testBit neg hlt, f.signed_mod neg hlt, code_shiftRight e hfrac, code_mod e hfrac,
    Bool.and_eq_true, beq_iff_eq, Bool.not_eq_true', hnan, f.num_sig_ulpExp]

theorem FpFmt.Fits.decode_signed_top (hi : f.hasInf = true) (htop : e = f.emax) :
    f.decode (f.signed neg (e * 2 ^ f.p + frac)) = if frac = 0 then .inf neg else .nan (decide (frac < 2 ^ (f.p - 1))) := by
  rw [hf.decode_signed neg he hfrac, if_pos ⟨hi, htop⟩]

theorem FpFmt.Fits.decode_signed_nan (hi : f.hasInf = false) (htop : e = f.emax) (h7 : frac = 7) :
    f.decode (f.signed neg (e * 2 ^ f.p + frac)) = .nan false := by
  rw [hf.decode_signed neg he hfrac, if_neg (by simp [hi]), if_pos ⟨hi, htop, h7⟩]

theorem FpFmt.Fits.decode_signed_num (h : e < f.emax ∨ (f.hasInf = false ∧ frac ≠ 7)) :
    f.decode (f.signed neg (e * 2 ^ f.p + frac)) = .num neg (f.sig e frac) (f.ulpExp e) := by
  rw [hf.decode_signed neg he hfrac]
  obtain h | ⟨hi, h7⟩ := h
  · rw [if_neg (by omega), if_neg (by omega)]
  · rw [if_neg (by simp [hi]), if_neg (by tauto)]

end

/-! ### Values -/

theorem FpFmt.sig_eq_zero_iff (f : FpFmt) (e frac : Nat) : f.sig e frac = 0 ↔ e = 0 ∧ frac = 0 := by
  unfold FpFmt.sig
  by_cases he : e = 0
  · simp [he]
  · simp [he]

theorem FVal.toRat_num_false (m : Nat) (q : Int) : (FVal.num false m q).toRat = (m : ℚ) * 2 ^ q := by
  simp [FVal.toRat]

theorem FpFmt.toRat_subnormal (f : FpFmt) (frac : Nat) :
    (FVal.num false (f.sig 0 frac) (f.ulpExp 0)).toRat = (frac : ℚ) * 2 ^ (1 - (f.bias : Int) - f.p) := by
  simp only [FVal.toRat_num_false, FpFmt.sig, FpFmt.ulpExp, if_true, FpFmt.qmin]

theorem FpFmt.toRat_normal (f : FpFmt) {e : Nat} (frac : Nat) (he : e ≠ 0) :
    (FVal.num false (f.sig e frac) (f.ulpExp e)).toRat =
      (1 + (frac : ℚ) * 2 ^ (-(f.p : Int))) * 2 ^ ((e : Int) - f.bias) := by
  have hq : f.ulpExp e = -(f.p : Int) + ((e : Int) - f.bias) := by
    rw [FpFmt.ulpExp, if_neg he, FpFmt.qmin]; ring
  have hs : (2 : ℚ) ^ f.p * 2 ^ (-(f.p : Int)) = 1 := by
    rw [zpow_neg, zpow_natCast, mul_inv_cancel₀ (by positivity)]
  rw [FVal.toRat_num_false, FpFmt.sig, if_neg he, hq, zpow_add₀ two_ne_zero]
  push_cast
  linear_combination (2 : ℚ) ^ ((e : Int) - f.bias) * hs

theorem FpFmt.magVal_code (f : FpFmt) (e : Nat) {frac : Nat} (hfrac : frac < 2 ^ f.p) :
    f.magVal (e * 2 ^ f.p + frac) = (f.sig e frac : ℚ) * 2 ^ f.ulpExp e := by
  rw [FpFmt.magVal, code_shiftRight e hfrac, code_mod e hfrac]
  by_cases he : e = 0
  · simp [he, FpFmt.sig, FpFmt.ulpExp]
  · rw [if_neg he, FpFmt.sig, if_neg he, FpFmt.ulpExp, if_neg he, add_sub_assoc]

/-! ### The order of the magnitude codes -/

theorem FpFmt.sig_lt_sig_succ (f : FpFmt) (e frac : Nat) : f.sig e frac < f.sig e (frac + 1) := by
  unfold FpFmt.sig
  split <;> omega

/-- Past the last fraction of an exponent comes the power of two: one unit in the last place above it. -/
theorem FpFmt.magVal_carry (f : FpFmt) (e : Nat) :
    f.magVal ((e + 1) * 2 ^ f.p) = (f.sig e (2 ^ f.p) : ℚ) * 2 ^ f.ulpExp e := by
  have h := f.magVal_code (e + 1) (Nat.two_pow_pos f.p)
  rw [Nat.add_zero] at h
  rw [h]
  by_cases he : e = 0
  · simp [he, FpFmt.sig, FpFmt.ulpExp]
  · have hq : f.ulpExp (e + 1) = f.ulpExp e + 1 := by
      rw [FpFmt.ulpExp, if_neg e.succ_ne_zero, FpFmt.ulpExp, if_neg he]
      push_cast
      ring
    rw [hq, zpow_add_one₀ two_ne_zero, FpFmt.sig, if_neg e.succ_ne_zero, FpFmt.sig, if_neg he]
    push_cast
    ring

/-- The next magnitude code is one unit in the last place larger, whether or not its fraction carries into the exponent. -/
theorem FpFmt.magVal_code_succ (f : FpFmt) (e : Nat) {frac : Nat} (hfrac : frac < 2 ^ f.p) :
    f.magVal (e * 2 ^ f.p + frac + 1) = (f.sig e (frac + 1) : ℚ) * 2 ^ f.ulpExp e := by
  obtain hlt | heq : frac + 1 < 2 ^ f.p ∨ frac + 1 = 2 ^ f.p := by omega
  · exact f.magVal_code e hlt
  · rw [Nat.add_assoc, heq, ← f.magVal_carry, Nat.succ_mul]

theorem FpFmt.magVal_lt_succ (f : FpFmt) (c : Nat) : f.magVal c < f.magVal (c + 1) := by
  have hfrac : c % 2 ^ f.p < 2 ^ f.p := Nat.mod_lt _ (by positivity)
  have hc : c = c / 2 ^ f.p * 2 ^ f.p + c % 2 ^ f.p := (Nat.div_add_mod' c _).symm
  rw [hc, f.magVal_code _ hfrac, f.magVal_code_succ _ hfrac]
  have hsig := f.sig_lt_sig_succ (c / 2 ^ f.p) (c % 2 ^ f.p)
  gcongr

/-- Settles O31: an encoding is read by its fields, its value is its significand times its unit in the last place, and the
next magnitude code is one such unit larger. -/
theorem encodingValues : Obligations.EncodingValues := by
  unfold Obligations.EncodingValues
  refine ⟨by decide, by decide, by decide, by decide, by decide, fun f hmem neg e frac he hfrac => ?_⟩
  have hf := fits_of_mem hmem
  have hinf := hasInf_eq_false_iff_of_mem f hmem
  refine ⟨fun htop h4 h7 => ?_, fun htop h4 => ?_, fun h => ⟨f.sig e frac, f.ulpExp e, ?_, f.sig_eq_zero_iff e frac, ?_, ?_, ?_⟩,
    f.magVal_lt_succ⟩
  · exact hf.decode_signed_nan neg he hfrac (hinf.mpr h4) htop h7
  · exact hf.decode_signed_top neg he hfrac (Bool.of_not_eq_false (mt hinf.mp h4)) htop
  · exact hf.decode_signed_num neg he hfrac (by rwa [hinf])
  · rintro rfl
    exact f.toRat_subnormal frac
  · exact f.toRat_normal frac
  · rw [FVal.toRat_num_false, f.magVal_code e hfrac]

end Sys2Proof.Machine
end

section
/-! PROOFS. What the shared lane step leaves for an instruction's result: the equations behind the statements of results
(R100, R110, R153), and the opcode and mod fields of a full word (R99). -/
namespace Sys2Proof.Machine

open Sys2Proof

variable {i : Instr} {h : Hdr} {d : Dst}

/-! ### The result of a computing instruction -/

theorem writeDst_reg_of_names {n : Nat} (hn : d.names n = true) (v : Word) (th : Thread) : (writeDst d v th).reg n = v := by
  cases d with
  | w m => rw [writeDst_w, Thread.reg_setReg, if_pos (by simpa [Dst.names] using hn)]
  | k m =>
    obtain ⟨hm, hmn⟩ : m ≠ 0 ∧ m.toNat = n := by simpa [Dst.names] using hn
    rw [writeDst_k, if_neg hm, Thread.reg_setReg, if_pos hmn]
  | sup => cases hn

theorem compute_get_of_acts {s : State} {u : Nat} {th : Thread} (ha : s.acts h u th) (push : Bool)
    (f : Nat → Thread → LaneRes) :
    tget? (compute h push d f s).threads u = some (laneStep h push d s.cur.next u (f u) th) := by
  obtain ⟨hmem, hget, -⟩ := ha
  rw [compute_get, if_pos hmem, hget]
  rfl

theorem laneStep_reg_of_names {push : Bool} {n u next : Nat} {f : Thread → LaneRes} {th : Thread} {v : Word}
    (hg : th.guardTrue h.guard = true) (hv : (f th).val = some v) (hn : d.names n = true) :
    (laneStep h push d next u f th).reg n = v := by
  rw [laneStep_true _ _ _ _ _ _ _ hg, hv]
  exact writeDst_reg_of_names hn v th

theorem laneStep_latch {u next : Nat} {f : Thread → LaneRes} {th : Thread} {v : Word}
    (hg : th.guardTrue h.guard = true) (hv : (f th).val = some v) (hk : kindOf u = .lane) :
    (laneStep h true d next u f th).lat.b0 = v := by
  rw [laneStep_true _ _ _ _ _ _ _ hg, hv]
  simp only [hk, and_self, if_true]
  rfl

theorem laneStep_pred {push : Bool} {u next : Nat} {f : Thread → LaneRes} {th : Thread} {p : BitVec 3} {v : Bool}
    (hg : th.guardTrue h.guard = true) (hp : p ≠ 7) (hv : (f th).pred = some (p, v)) :
    (laneStep h push d next u f th).pred p = v := by
  rw [laneStep_true _ _ _ _ _ _ _ hg, hv]
  exact (Thread.pred_setPred th p p v).trans (if_pos ⟨rfl, hp⟩)

/-- An instruction that writes v through the lane step gives whatever v meets. -/
theorem gives_of_value {P : State → Nat → Thread → Word → Prop} {v : State → Nat → Thread → Word}
    (hexec : ∀ s, exec i s = .next (compute h (pushes i) d (fun u th => resVal (v s u th)) s))
    (hv : ∀ s u th, s.acts h u th → P s u th (v s u th)) : gives i h d P := by
  intro s u th ha
  refine ⟨_, _, hexec s, compute_get_of_acts ha _ _, fun n hn => ?_, fun _ hk hp => ?_⟩
  · rw [laneStep_reg_of_names ha.2.2 rfl hn]
    exact hv s u th ha
  · rw [hp, laneStep_latch ha.2.2 rfl hk]
    exact hv s u th ha

theorem setsPred_of_value {p : BitVec 3} {P : State → Nat → Thread → Bool → Prop} {v : Nat → Thread → Bool}
    (hexec : ∀ s, exec i s = .next (compute h false d (fun u th => { pred := some (p, v u th) }) s))
    (hv : ∀ s u th, P s u th (v u th)) : setsPred i h p P := by
  intro s u th ha hp
  refine ⟨_, _, hexec s, compute_get_of_acts ha _ _, ?_⟩
  rw [laneStep_pred ha.2.2 hp rfl]
  exact hv s u th

/-! ### The fields of a full word -/

theorem codedAs_encD {op : BitVec 9} {mod : BitVec 5} {a b : BitVec 8} {n m : Nat} (hi : encode i = [encD h op mod d a b])
    (hop : op.toNat = n) (hmod : mod.toNat = m) : codedAs i n m := by
  subst hop hmod
  exact ⟨_, hi, congrArg (fun f : Fields => f.op.toNat) (unpack_pack _),
    congrArg (fun f : Fields => f.mod.toNat) (unpack_pack _)⟩

theorem codedAs_bCode {op : BitVec 9} {w64 : Bool} {a b : BitVec 8} {n : Nat} (hi : encode i = [encD h op (bCode w64) d a b])
    (hop : op.toNat = n) : codedAs i n (if w64 then 15 else 14) :=
  codedAs_encD hi hop (by cases w64 <;> rfl)

/-! ### Bits of the model's words -/

theorem testBit_bits (w : Word) (lo n i : Nat) : (bits w lo n).testBit i = (decide (i < n) && w.getLsbD (lo + i)) := by
  rw [bits, Nat.testBit_mod_two_pow, Nat.testBit_shiftRight, BitVec.testBit_toNat]

theorem getLsbD_word (v i : Nat) : (word v).getLsbD i = (decide (i < 64) && v.testBit i) := BitVec.getLsbD_ofNat ..

theorem toNat_word_of_lt {v : Nat} (hv : v < 2 ^ 64) : (word v).toNat = v := by
  rw [word, BitVec.toNat_ofNat, Nat.mod_eq_of_lt hv]

theorem bW_le (w64 : Bool) : bW w64 ≤ 64 := by cases w64 <;> decide

theorem bW_pos (w64 : Bool) : 0 < bW w64 := by cases w64 <;> decide

theorem getLsbD_zext (w64 : Bool) (w : Word) (i : Nat) : (zext w64 w).getLsbD i = (decide (i < bW w64) && w.getLsbD i) := by
  cases w64 with
  | false =>
    simp only [zext, bW, Bool.false_eq_true, if_false, BitVec.getLsbD_setWidth]
    by_cases hi : i < 32 <;> simp [hi]
    omega
  | true =>
    by_cases hi : i < 64
    · simp [zext, bW, hi]
    · simp [zext, bW, hi, BitVec.getLsbD_of_ge w i (by omega)]

end Sys2Proof.Machine
end

section
/-! PROOFS. Results of the logic and shift instructions (R158, R162). A word is compared bit by bit where the operation is
bitwise, and as an integer where the shift is arithmetic. -/
namespace Sys2Proof.Machine

open Sys2Proof

/-! ### Logic -/

/-- A b32 or b64 form that acts bit by bit, as g, is the operation on whole words that acts so, cut to n bits. -/
theorem bMap_eq_zext {w64 : Bool} {f : Nat → Nat → Nat} {a b r : Word} (g : Bool → Bool → Bool)
    (hf : ∀ x y i, i < bW w64 → (f x y).testBit i = g (x.testBit i) (y.testBit i))
    (hr : ∀ i, i < 64 → r.getLsbD i = g (a.getLsbD i) (b.getLsbD i)) : bMap w64 f a b = zext w64 r := by
  refine BitVec.eq_of_getLsbD_eq fun i hi => ?_
  rw [bMap, getLsbD_word, getLsbD_zext, Nat.testBit_mod_two_pow]
  by_cases hn : i < bW w64
  · simp only [hi, hn, decide_true, Bool.true_and, hf _ _ _ hn, testBit_bits, Nat.zero_add, hr i hi]
  · simp [hn]

theorem testBit_xor_ones {n i : Nat} (hi : i < n) (x : Nat) : (x ^^^ (2 ^ n - 1)).testBit i = !x.testBit i := by
  simp [Nat.testBit_xor, Nat.testBit_two_pow_sub_one, hi]

theorem getLsbD_not_of_lt {i : Nat} (hi : i < 64) (w : Word) : (~~~w).getLsbD i = !w.getLsbD i := by
  rw [BitVec.getLsbD_not, decide_eq_true hi, Bool.true_and]

section
variable (w64 : Bool) (a b : Word)

theorem bMap_and : bMap w64 (fun x y => x &&& y) a b = zext w64 (a &&& b) :=
  bMap_eq_zext (· && ·) (fun _ _ _ _ => Nat.testBit_and ..) fun _ _ => BitVec.getLsbD_and

theorem bMap_or : bMap w64 (fun x y => x ||| y) a b = zext w64 (a ||| b) :=
  bMap_eq_zext (· || ·) (fun _ _ _ _ => Nat.testBit_or ..) fun _ _ => BitVec.getLsbD_or

theorem bMap_xor : bMap w64 (fun x y => x ^^^ y) a b = zext w64 (a ^^^ b) :=
  bMap_eq_zext (· ^^ ·) (fun _ _ _ _ => Nat.testBit_xor ..) fun _ _ => BitVec.getLsbD_xor

theorem bMap_not : bMap w64 (fun x _ => x ^^^ (2 ^ bW w64 - 1)) a b = zext w64 (~~~a) :=
  bMap_eq_zext (fun x _ => !x) (fun x _ _ hi => testBit_xor_ones hi x) fun _ hi => getLsbD_not_of_lt hi a

theorem bMap_andn : bMap w64 (fun x y => x &&& (y ^^^ (2 ^ bW w64 - 1))) a b = zext w64 (a &&& ~~~b) :=
  bMap_eq_zext (fun x y => x && !y) (fun x y _ hi => by rw [Nat.testBit_and, testBit_xor_ones hi])
    fun _ hi => by rw [BitVec.getLsbD_and, getLsbD_not_of_lt hi]

theorem word_bits_zero_eq_zext : word (bits a 0 (bW w64)) = zext w64 a := by
  refine BitVec.eq_of_getLsbD_eq fun i hi => ?_
  simp only [getLsbD_word, getLsbD_zext, testBit_bits, hi, decide_true, Bool.true_and, Nat.zero_add]

end

/-! ### Logical shifts and the rotate -/

theorem shlW_eq_zext (w64 : Bool) (a b : Word) : shlW (bW w64) a b = zext w64 (a <<< (b.toNat % bW w64)) := by
  refine BitVec.eq_of_getLsbD_eq fun i hi => ?_
  rw [shlW, shiftCount, getLsbD_word, getLsbD_zext, Nat.testBit_mod_two_pow, Nat.testBit_shiftLeft, testBit_bits,
    BitVec.getLsbD_shiftLeft]
  generalize b.toNat % bW w64 = k
  by_cases hn : i < bW w64
  · have hk : i - k < bW w64 := by omega
    by_cases hki : k ≤ i <;> simp [hi, hn, hk, hki]
  · simp [hn]

theorem shrW_eq_zext_shiftRight (w64 : Bool) (a b : Word) : shrW (bW w64) a b = zext w64 a >>> (b.toNat % bW w64) := by
  refine BitVec.eq_of_getLsbD_eq fun i hi => ?_
  simp only [shrW, shiftCount, getLsbD_word, Nat.testBit_shiftRight, testBit_bits, BitVec.getLsbD_ushiftRight, getLsbD_zext,
    hi, decide_true, Bool.true_and, Nat.zero_add]

theorem getLsbD_rotlW {n : Nat} (hn : 0 < n) (hn64 : n ≤ 64) (a b : Word) (i : Nat) :
    (rotlW n a b).getLsbD i = if i < n then a.getLsbD ((i + n - b.toNat % n) % n) else false := by
  rw [rotlW, shiftCount, getLsbD_word, Nat.testBit_mod_two_pow, Nat.testBit_or, Nat.testBit_shiftLeft, Nat.testBit_shiftRight,
    testBit_bits, testBit_bits]
  have hk : b.toNat % n < n := Nat.mod_lt _ hn
  generalize b.toNat % n = k at hk
  by_cases hi : i < n
  · have hi64 : i < 64 := by omega
    by_cases hki : k ≤ i
    · have hmod : (i + n - k) % n = i - k := by
        rw [show i + n - k = i - k + n by omega, Nat.add_mod_right, Nat.mod_eq_of_lt (by omega)]
      have hlow : i - k < n := by omega
      have hhigh : ¬ n - k + i < n := by omega
      simp [hi, hi64, hki, hmod, hlow, hhigh]
    · have hmod : (i + n - k) % n = n - k + i := by
        rw [show i + n - k = n - k + i by omega, Nat.mod_eq_of_lt (by omega)]
      have hhigh : n - k + i < n := by omega
      simp [hi, hi64, hki, hmod, hhigh]
  · simp [hi]

/-! ### The arithmetic shift -/

theorem toInt_bounds {n v : Nat} (hn : 0 < n) (hv : v < 2 ^ n) :
    -(2 ^ (n - 1) : Int) ≤ toInt n true v ∧ toInt n true v < 2 ^ (n - 1) := by
  have hpow : (2 ^ n : Int) = 2 * 2 ^ (n - 1) := (mul_pow_sub_one hn.ne' 2).symm
  have hv' : (v : Int) < 2 ^ n := by exact_mod_cast hv
  by_cases hneg : 2 ^ (n - 1) ≤ v
  · have hneg' : (2 ^ (n - 1) : Int) ≤ v := by exact_mod_cast hneg
    rw [toInt, if_pos (by simpa using hneg)]
    omega
  · have hpos' : (v : Int) < 2 ^ (n - 1) := by exact_mod_cast Nat.lt_of_not_le hneg
    rw [toInt, if_neg (by simpa using hneg)]
    omega

/-- A signed n-bit integer is what its register image reads back as (R42, R44). -/
theorem toInt_fill_wrapN {n : Nat} {x : Int} (hn : 0 < n) (hn64 : n ≤ 64) (hlo : -(2 ^ (n - 1) : Int) ≤ x)
    (hhi : x < 2 ^ (n - 1)) : (fill n true (wrapN n x)).toInt = x := by
  have hpow : 2 ^ n = 2 * 2 ^ (n - 1) := (mul_pow_sub_one hn.ne' 2).symm
  rw [fill_signed n _ hn hn64 (wrapN_lt n x), toInt_wrapN_signed n hn, Int.bmod_eq_of_le]
  · rw [hpow]; push_cast; omega
  · rw [hpow]; push_cast; omega

theorem toInt_sarW {n : Nat} (hn : 0 < n) (hn64 : n ≤ 64) (a b : Word) :
    (sarW n a b).toInt = toInt n true (bits a 0 n) / 2 ^ (b.toNat % n) := by
  obtain ⟨hlo, hhi⟩ := toInt_bounds hn (bits_lt a 0 n)
  rw [sarW, shiftCount]
  generalize toInt n true (bits a 0 n) = x at hlo hhi
  generalize b.toNat % n = k
  have hk : (0 : Int) < 2 ^ k := by positivity
  have hscale : (2 ^ (n - 1) : Int) ≤ 2 ^ (n - 1) * 2 ^ k := le_mul_of_one_le_right (by positivity) hk
  rw [Int.fdiv_eq_ediv_of_nonneg _ hk.le]
  refine toInt_fill_wrapN hn hn64 ?_ ?_
  · rw [Int.le_ediv_iff_mul_le hk]
    linarith
  · rw [Int.ediv_lt_iff_lt_mul hk]
    linarith

/-- Settles O10: the logic instructions act bit by bit on the low n bits, and so do the shifts and the rotate that move
bits; sar is the division of the signed operand by a power of two, rounded down. -/
theorem logicAndShiftResults : Obligations.LogicAndShiftResults := by
  unfold Obligations.LogicAndShiftResults
  refine ⟨fun h w64 d a b => ?_, fun h w64 d a b => ?_, fun h w64 d a b => ?_⟩
  · exact ⟨codedAs_bCode rfl rfl, codedAs_bCode rfl rfl, codedAs_bCode rfl rfl, codedAs_bCode rfl rfl, codedAs_bCode rfl rfl,
      codedAs_bCode rfl rfl, codedAs_bCode rfl rfl, codedAs_encD rfl rfl (by cases w64 <;> rfl), codedAs_bCode rfl rfl⟩
  · exact ⟨gives_of_value (fun _ => rfl) fun _ _ _ _ => bMap_and .., gives_of_value (fun _ => rfl) fun _ _ _ _ => bMap_or ..,
      gives_of_value (fun _ => rfl) fun _ _ _ _ => bMap_xor .., gives_of_value (fun _ => rfl) fun _ _ _ _ => bMap_not ..,
      gives_of_value (fun _ => rfl) fun _ _ _ _ => bMap_andn ..,
      gives_of_value (fun _ => rfl) fun _ _ _ _ => word_bits_zero_eq_zext ..⟩
  · exact ⟨gives_of_value (fun _ => rfl) fun _ _ _ _ => shlW_eq_zext ..,
      gives_of_value (fun _ => rfl) fun _ _ _ _ => shrW_eq_zext_shiftRight ..,
      gives_of_value (fun _ => rfl) fun _ _ _ _ => toInt_sarW (bW_pos _) (bW_le _) ..,
      gives_of_value (fun _ => rfl) fun _ _ _ _ => getLsbD_rotlW (bW_pos _) (bW_le _) _ _⟩

end Sys2Proof.Machine
end

section
/-! PROOFS. Results of the bit-field, bit-count, reversal and byte-selection instructions (R159-R161). -/
namespace Sys2Proof.Machine

open Sys2Proof

/-! ### Bit fields -/

/-- Replacing the n bits from lo on leaves the bits below and above. -/
theorem getLsbD_putBits (w : Word) (lo n v : Nat) {i : Nat} (hi : i < 64) :
    (putBits w lo n v).getLsbD i = if lo ≤ i ∧ i < lo + n then v.testBit (i - lo) else w.getLsbD i := by
  have hlow : w.toNat % 2 ^ lo < 2 ^ lo := Nat.mod_lt _ (by positivity)
  have hmid : 2 ^ lo * (v % 2 ^ n) + w.toNat % 2 ^ lo < 2 ^ (lo + n) := by
    rw [pow_add]
    have := Nat.mul_le_mul_left (2 ^ lo) (show v % 2 ^ n + 1 ≤ 2 ^ n from Nat.mod_lt _ (by positivity))
    rw [Nat.mul_succ] at this
    omega
  have hsum : putBits w lo n v =
      word (2 ^ (lo + n) * (w.toNat >>> (lo + n)) + (2 ^ lo * (v % 2 ^ n) + w.toNat % 2 ^ lo)) := by
    rw [putBits, word, Nat.shiftLeft_eq, Nat.shiftLeft_eq]
    congr 1
    ring
  rw [hsum, getLsbD_word, Nat.testBit_two_pow_mul_add _ hmid, Nat.testBit_two_pow_mul_add _ hlow]
  simp only [hi, decide_true, Bool.true_and, Nat.testBit_mod_two_pow, Nat.testBit_shiftRight, BitVec.testBit_toNat]
  by_cases h1 : i < lo
  · simp [h1, show i < lo + n by omega, show ¬ lo ≤ i by omega]
  · by_cases h2 : i < lo + n
    · simp [h1, h2, show lo ≤ i by omega, show i - lo < n by omega]
    · simp [h2, show lo + n + (i - (lo + n)) = i by omega]

theorem cmpShape_width_le (ty : CmpTy) : (cmpShape ty).1 ≤ 64 := by cases ty <;> decide

/-- A field of len bits, sign-extended to n bits and then to the register, reads back as the field's own integer. -/
theorem toInt_fill_field {n len v : Nat} (hlen : 0 < len) (hle : len ≤ n) (hn64 : n ≤ 64) (hv : v < 2 ^ len) :
    (fill n true (if 2 ^ (len - 1) ≤ v then wrapN n ((v : Int) - 2 ^ len) else v)).toInt = toInt len true v := by
  obtain ⟨hlo, hhi⟩ := toInt_bounds hlen hv
  have hvn : v < 2 ^ n := hv.trans_le (Nat.pow_le_pow_right (by omega) hle)
  have hm : (2 : Int) ^ (len - 1) ≤ 2 ^ (n - 1) := pow_le_pow_right₀ (by omega) (by omega)
  have hnat : wrapN n (v : Int) = v := by
    rw [wrapN, Int.emod_eq_of_lt (by omega) (by exact_mod_cast hvn), Int.toNat_natCast]
  have hpat : (if 2 ^ (len - 1) ≤ v then wrapN n ((v : Int) - 2 ^ len) else v) = wrapN n (toInt len true v) := by
    by_cases hneg : 2 ^ (len - 1) ≤ v <;> simp [toInt, hneg, hnat]
  rw [hpat]
  exact toInt_fill_wrapN (by omega) hn64 (by omega) (by omega)

/-- An empty field of bfx: its length is zero, or it begins at or above the type's width. -/
theorem bfxW_of_empty {ty : CmpTy} {a b : Word} (he : bits b 8 8 = 0 ∨ (cmpShape ty).1 ≤ bits b 0 8) : bfxW ty a b = 0 :=
  if_pos he

/-- A field of bfx that is not empty, its length cut at the width: its bits read as an integer of that length. -/
theorem bfxW_of_not_empty {ty : CmpTy} {a b : Word} (he : ¬ (bits b 8 8 = 0 ∨ (cmpShape ty).1 ≤ bits b 0 8)) :
    let len := min (bits b 8 8) ((cmpShape ty).1 - bits b 0 8)
    if (cmpShape ty).2 then (bfxW ty a b).toInt = toInt len true (bits a (bits b 0 8) len)
    else (bfxW ty a b).toNat = bits a (bits b 0 8) len := by
  intro len
  have hn64 := cmpShape_width_le ty
  have hle : len ≤ (cmpShape ty).1 := by omega
  have hv : bits a (bits b 0 8) len < 2 ^ len := bits_lt ..
  have hdef : bfxW ty a b = fill (cmpShape ty).1 (cmpShape ty).2
      (if (cmpShape ty).2 && 2 ^ (len - 1) ≤ bits a (bits b 0 8) len
        then wrapN (cmpShape ty).1 ((bits a (bits b 0 8) len : Int) - 2 ^ len) else bits a (bits b 0 8) len) := if_neg he
  rw [hdef]
  cases (cmpShape ty).2 with
  | false => exact toNat_word_of_lt (hv.trans_le (Nat.pow_le_pow_right (by omega) (hle.trans hn64)))
  | true => simpa using toInt_fill_field (by omega) hle hn64 hv

theorem getLsbD_bfiW (w64 : Bool) (a b d : Word) (i : Nat) :
    (bfiW w64 a b d).getLsbD i =
      if bW w64 ≤ i then false
      else if bits b 0 8 ≤ i ∧ i < bits b 0 8 + bits b 8 8 then a.getLsbD (i - bits b 0 8) else d.getLsbD i := by
  have hn64 := bW_le w64
  unfold bfiW
  simp only [word_bits_zero_eq_zext]
  generalize bits b 0 8 = pos
  generalize bits b 8 8 = len
  by_cases he : len = 0 ∨ bW w64 ≤ pos
  · rw [if_pos he, getLsbD_zext]
    by_cases hi : bW w64 ≤ i
    · simp [hi]
    · simp [hi, show i < bW w64 by omega, show ¬ (pos ≤ i ∧ i < pos + len) by omega]
  · rw [if_neg he]
    by_cases hi64 : i < 64
    · rw [getLsbD_putBits _ _ _ _ hi64, getLsbD_zext, testBit_bits, Nat.zero_add]
      by_cases hi : bW w64 ≤ i
      · simp [hi, show ¬ i < pos + min len (bW w64 - pos) by omega]
      · by_cases hin : pos ≤ i ∧ i < pos + len
        · simp [hi, hin, show i < pos + min len (bW w64 - pos) by omega, show i - pos < min len (bW w64 - pos) by omega]
        · simp [hi, hin, show i < bW w64 by omega, show ¬ (pos ≤ i ∧ i < pos + min len (bW w64 - pos)) by omega]
    · rw [BitVec.getLsbD_of_ge _ _ (by omega), if_pos (by omega)]

/-! ### Lists of bits -/

theorem bitList_length (n v : Nat) : (bitList n v).length = n := by simp [bitList]

theorem bitList_getD {n i : Nat} (hi : i < n) (v : Nat) (x : Bool) : (bitList n v).getD i x = v.testBit i := by
  simp [bitList, hi]

theorem bitList_reverse_getD {n i : Nat} (hi : i < n) (v : Nat) (x : Bool) :
    (bitList n v).reverse.getD i x = v.testBit (n - 1 - i) := by
  simp [bitList, hi]

theorem testBit_ofBits (l : List Bool) (i : Nat) : (ofBits l).testBit i = l.getD i false := by
  induction l generalizing i with
  | nil => simp [ofBits]
  | cons b l ih =>
    have hcons : ofBits (b :: l) = 2 * ofBits l + b.toNat := rfl
    cases i with
    | zero => cases b <;> simp [hcons]
    | succ i =>
      have hdiv : (2 * ofBits l + b.toNat) / 2 = ofBits l := by
        rw [Nat.mul_add_div (by decide), Nat.div_eq_of_lt (Bool.toNat_lt b), Nat.add_zero]
      rw [hcons, Nat.testBit_succ, hdiv, ih, List.getD_cons_succ]

theorem testBit_reversed (n v i : Nat) :
    (ofBits (bitList n v).reverse).testBit i = if i < n then v.testBit (n - 1 - i) else false := by
  rw [testBit_ofBits]
  by_cases hi : i < n
  · rw [if_pos hi, bitList_reverse_getD hi]
  · rw [if_neg hi, List.getD_eq_default _ _ (by rw [List.length_reverse, bitList_length]; omega)]

theorem getLsbD_brevW {n : Nat} (hn64 : n ≤ 64) (a : Word) (i : Nat) :
    (brevW n a).getLsbD i = if i < n then a.getLsbD (n - 1 - i) else false := by
  rw [brevW, getLsbD_word, testBit_reversed, BitVec.testBit_toNat]
  by_cases hi : i < n
  · simp [hi, show i < 64 by omega]
  · simp [hi]

/-! ### Bit counts -/

/-- The number of false values that a list begins with. -/
def falsesBefore (l : List Bool) : Nat := (l.takeWhile (!·)).length

theorem falsesBefore_le_length (l : List Bool) : falsesBefore l ≤ l.length := (List.takeWhile_sublist _).length_le

theorem getD_of_lt_falsesBefore {l : List Bool} {i : Nat} (hi : i < falsesBefore l) : l.getD i true = false := by
  induction l generalizing i with
  | nil => exact absurd hi (Nat.not_lt_zero i)
  | cons x l ih =>
    cases x with
    | true => exact absurd hi (Nat.not_lt_zero i)
    | false =>
      cases i with
      | zero => rfl
      | succ i => exact ih (Nat.lt_of_succ_lt_succ hi)

theorem getD_falsesBefore {l : List Bool} (hl : falsesBefore l < l.length) : l.getD (falsesBefore l) false = true := by
  induction l with
  | nil => exact absurd hl (Nat.not_lt_zero _)
  | cons x l ih =>
    cases x with
    | true => rfl
    | false => exact ih (Nat.lt_of_succ_lt_succ hl)

/-- r counts the zeros at the start of the n bits f 0, f 1, …: all n, or those before the first one. -/
def CountsZeros (n : Nat) (f : Nat → Bool) (r : Nat) : Prop :=
  r ≤ n ∧ (∀ i, i < r → f i = false) ∧ (r < n → f r = true)

theorem falsesBefore_countsZeros {n : Nat} {l : List Bool} {f : Nat → Bool} (hl : l.length = n)
    (hf : ∀ i x, i < n → l.getD i x = f i) : CountsZeros n f (falsesBefore l) := by
  have hle : falsesBefore l ≤ n := hl ▸ falsesBefore_le_length l
  refine ⟨hle, fun i hi => ?_, fun hlt => ?_⟩
  · rw [← hf i true (hi.trans_le hle), getD_of_lt_falsesBefore hi]
  · rw [← hf _ false hlt, getD_falsesBefore (hl.symm ▸ hlt)]

theorem toNat_word_of_le_width {r n : Nat} (hr : r ≤ n) (hn64 : n ≤ 64) : (word r).toNat = r :=
  toNat_word_of_lt (by omega)

theorem ctzW_countsZeros {n : Nat} (hn64 : n ≤ 64) (a : Word) : CountsZeros n a.getLsbD (ctzW n a).toNat := by
  have hc : CountsZeros n a.getLsbD (falsesBefore (bitList n a.toNat)) :=
    falsesBefore_countsZeros (bitList_length ..) fun i x hi => by rw [bitList_getD hi, BitVec.testBit_toNat]
  rwa [← toNat_word_of_le_width hc.1 hn64] at hc

theorem clzW_countsZeros {n : Nat} (hn64 : n ≤ 64) (a : Word) :
    CountsZeros n (fun i => a.getLsbD (n - 1 - i)) (clzW n a).toNat := by
  have hc : CountsZeros n (fun i => a.getLsbD (n - 1 - i)) (falsesBefore (bitList n a.toNat).reverse) :=
    falsesBefore_countsZeros (by rw [List.length_reverse, bitList_length]) fun i x hi => by
      rw [bitList_reverse_getD hi, BitVec.testBit_toNat]
  rwa [← toNat_word_of_le_width hc.1 hn64] at hc

theorem toNat_popcW {n : Nat} (hn64 : n ≤ 64) (a : Word) :
    (popcW n a).toNat = ((List.range n).filter fun i => a.getLsbD i).length := by
  have hlen : ((bitList n a.toNat).filter id).length = ((List.range n).filter fun i => a.getLsbD i).length := by
    rw [bitList, List.filter_map, List.length_map]
    rfl
  have hle : ((List.range n).filter fun i => a.getLsbD i).length ≤ n :=
    (List.length_filter_le ..).trans_eq List.length_range
  rw [popcW, hlen, toNat_word_of_le_width hle hn64]

/-! ### Byte selection -/

/-- Bit j of the byte that the selector picks out of the eight of a and the eight of b, its bits reversed where the selector
asks for that (R161). -/
def selectedBit (a b : Word) (sel j : Nat) : Bool :=
  let k := sel % 16
  let j := if sel.testBit 6 then 7 - j else j
  if k < 8 then a.getLsbD (8 * k + j) else b.getLsbD (8 * (k - 8) + j)

theorem testBit_sub_byte (w : Word) (k : Nat) {j : Nat} (hj : j < 8) : (sub_ w 8 k).testBit j = w.getLsbD (8 * k + j) := by
  rw [sub_, testBit_bits, decide_eq_true hj, Bool.true_and]

/-- The zeroing bit comes before the sign fill, and the sign fill reads the byte after any reversal (R161). -/
theorem testBit_bselByte (a b : Word) (sel : Nat) {j : Nat} (hj : j < 8) :
    (bselByte a b sel).testBit j =
      if sel.testBit 4 then false else if sel.testBit 5 then selectedBit a b sel 7 else selectedBit a b sel j := by
  have hbyte : ∀ i, i < 8 → (if sel.testBit 6 then ofBits (bitList 8
      (if sel % 16 < 8 then sub_ a 8 (sel % 16) else sub_ b 8 (sel % 16 - 8))).reverse
      else (if sel % 16 < 8 then sub_ a 8 (sel % 16) else sub_ b 8 (sel % 16 - 8))).testBit i = selectedBit a b sel i := by
    intro i hi
    unfold selectedBit
    have hi' : 7 - i < 8 := by omega
    cases sel.testBit 6 <;> by_cases hk : sel % 16 < 8 <;>
      simp [hk, hi, hi', testBit_reversed, testBit_sub_byte, -BitVec.getLsbD_eq_getElem]
  have hfill : ∀ x : Bool, (if x then 255 else 0).testBit j = x := by
    intro x
    cases x with
    | false => simp
    | true => exact (Nat.testBit_two_pow_sub_one 8 j).trans (decide_eq_true hj)
  unfold bselByte
  dsimp only
  cases sel.testBit 4 with
  | true => simp
  | false =>
    cases sel.testBit 5 with
    | true => simp only [Bool.false_eq_true, if_false, if_true, hfill, hbyte 7 (by decide)]
    | false => simp only [Bool.false_eq_true, if_false, hbyte j hj]

theorem getLsbD_bselW (a b d : Word) {i j : Nat} (hi : i < 8) (hj : j < 8) :
    (bselW a b d).getLsbD (8 * i + j) = (bselByte a b (bits d (8 * i) 8)).testBit j := by
  rw [← testBit_sub_byte _ _ hj, bselW, sub_packN _ _ _ (by simp), Nat.testBit_mod_two_pow]
  simp [hi, hj, sub_]

/-- Settles O11: the fields of bfx and bfi bit by bit, the counts as list lengths, the reversal and the byte selection by
where each bit of the result comes from. -/
theorem bitFieldAndCountResults : Obligations.BitFieldAndCountResults := by
  unfold Obligations.BitFieldAndCountResults
  refine ⟨fun h ty w64 d a b => ?_, fun h ty w64 d a b => ⟨?bfx, ?bfi⟩, fun h w64 d a b => ?_⟩
  · exact ⟨codedAs_encD rfl rfl (by cases ty <;> rfl), codedAs_bCode rfl rfl, codedAs_bCode rfl rfl, codedAs_bCode rfl rfl,
      codedAs_bCode rfl rfl, codedAs_bCode rfl rfl, codedAs_encD rfl rfl rfl⟩
  case bfx =>
    refine gives_of_value (fun _ => rfl) fun _ u th _ => ?_
    dsimp only
    split
    · exact bfxW_of_empty ‹_›
    · exact bfxW_of_not_empty ‹_›
  case bfi => exact gives_of_value (fun _ => rfl) fun _ _ _ _ => getLsbD_bfiW _ _ _ _
  · exact ⟨gives_of_value (fun _ => rfl) fun _ _ _ _ => toNat_popcW (bW_le _) _,
      gives_of_value (fun _ => rfl) fun _ _ _ _ => clzW_countsZeros (bW_le _) _,
      gives_of_value (fun _ => rfl) fun _ _ _ _ => ctzW_countsZeros (bW_le _) _,
      gives_of_value (fun _ => rfl) fun _ _ _ _ => getLsbD_brevW (bW_le _) _,
      gives_of_value (fun _ => rfl) fun _ _ _ _ _ _ hi hj => (getLsbD_bselW _ _ _ hi hj).trans (testBit_bselByte _ _ _ hj)⟩

end Sys2Proof.Machine
end

section
/-! PROOFS. Results of moves, selection, comparison and lea (R162-R165), and the special registers of a lane thread (R9, R10). -/
namespace Sys2Proof.Machine

open Sys2Proof

/-! ### Comparison and addresses -/

theorem leaW_eq (sg : Bool) (k : Nat) (a b : Word) : leaW sg k a b = a + wordI (toInt 32 sg (bits b 0 32) * 2 ^ k) := by
  rw [leaW, wordI, BitVec.ofInt_add, BitVec.ofInt_natCast, BitVec.ofNat_toNat, BitVec.setWidth_eq, wordI]

theorem setpCond_iff (c : Cond) (ty : CmpTy) (a b : Word) :
    let n := (cmpShape ty).1
    let x := toInt n (cmpShape ty).2 (bits a 0 n)
    let y := toInt n (cmpShape ty).2 (bits b 0 n)
    setpCond c ty a b = true ↔ match c with
      | .eq => x = y | .ne => x ≠ y | .lt => x < y | .le => x ≤ y | .gt => y < x | .ge => y ≤ x
      | .tst => bits (a &&& b) 0 n ≠ 0 := by
  have hand : ∀ n, bits (a &&& b) 0 n = bits a 0 n &&& bits b 0 n := fun n => by
    rw [bits, bits, bits, BitVec.toNat_and, Nat.shiftRight_and_distrib, Nat.and_mod_two_pow]
  cases c <;> simp [setpCond, hand]

theorem sel_mod_toNat : ∀ p : BitVec 3, (p ++ (0 : BitVec 2)).toNat = 4 * p.toNat := by decide

/-! ### The special registers of a lane thread -/

theorem engOf_of_lane {u : Nat} (hk : kindOf u = .lane) : engOf u = u / 1024 ∧ clusterOf (u / 1024) = u / 1024 / 8 := by
  have hu : u < condBase := by
    unfold kindOf at hk
    by_contra hu
    rw [if_neg hu] at hk
    split at hk <;> cases hk
  have he : u / 1024 < 768 := by unfold condBase at hu; omega
  exact ⟨if_pos hu, if_pos he⟩

theorem bit_word_eq_decide (v : Nat) {i : Nat} (hi : i < 64) : bit (word v) i = decide (v / 2 ^ i % 2 = 1) := by
  rw [bit, getLsbD_word, decide_eq_true hi, Bool.true_and, Nat.testBit_eq_decide_div_mod_eq]

theorem statusWord_sum (frames warp copy resumed empty absent depth : Nat) :
    frames * 2 ^ 13 + warp * 256 + copy * 128 + resumed * 64 + empty * 32 + absent * 16 + depth =
      (frames * 64 + warp * 2 + copy) * 128 + resumed * 64 + empty * 32 + absent * 16 + depth := by omega

/-- The low seven bits of %status, whatever stands above them (R10). -/
theorem status_fields {v high depth : Nat} {absent empty resumed : Bool} (hd : depth < 16)
    (hv : v = high * 128 + resumed.toNat * 64 + empty.toNat * 32 + absent.toNat * 16 + depth) :
    bits (word v) 0 4 = depth ∧ bit (word v) 4 = absent ∧ bit (word v) 5 = empty ∧ bit (word v) 6 = resumed := by
  have hbit : ∀ (b : Bool) (x : Nat), x = b.toNat → decide (x = 1) = b := by rintro (_ | _) _ rfl <;> rfl
  have ha := Bool.toNat_lt absent
  have he := Bool.toNat_lt empty
  have hr := Bool.toNat_lt resumed
  refine ⟨?_, ?_, ?_, ?_⟩
  · rw [bits, word, BitVec.toNat_ofNat, Nat.shiftRight_zero]
    omega
  all_goals
    rw [bit_word_eq_decide _ (by decide)]
    exact hbit _ _ (by omega)

theorem statusWord_fields {s : State} {u : Nat} {th : Thread} (hk : kindOf u = .lane) (hget : tget? s.threads u = some th)
    (hd : th.traps.length ≤ 4) :
    bits (statusWord s u) 0 4 = th.traps.length ∧ bit (statusWord s u) 4 = th.absent ∧ bit (statusWord s u) 5 = th.empty ∧
      bit (statusWord s u) 6 = th.resumed := by
  obtain rfl : s.thread u = th := thread_of_get s hget
  rw [statusWord, if_pos hk]
  exact status_fields (by omega) (statusWord_sum ..)

/-- What a lane thread's special registers hold (R9). -/
theorem sregVal_of_lane {s : State} {u : Nat} {th : Thread} (hk : kindOf u = .lane) (hget : tget? s.threads u = some th)
    (sr : SReg) :
    let bl := s.block th.block
    sregVal s u sr = match sr with
      | .lane => word (u % 32)
      | .warp => word (bl.warpNo (u / 32 % 32))
      | .tid => word (32 * bl.warpNo (u / 32 % 32) + u % 32)
      | .block => word bl.blk
      | .launch => word bl.lid
      | .core => word (u / 1024)
      | .cluster => word (u / 1024 / 8)
      | .stk => th.stk
      | .nblock => word (s.launch (gkey bl.asid bl.lid)).nblock
      | .job => word (s.launch (gkey bl.asid bl.lid)).job
      | .phase => (s.partOfEng (u / 1024)).elim 0 fun p => (s.part p).phase
      | .status => statusWord s u := by
  obtain rfl : s.thread u = th := thread_of_get s hget
  obtain ⟨heng, hcluster⟩ := engOf_of_lane hk
  cases sr
  case phase => rw [sregVal, heng]; cases s.partOfEng (u / 1024) <;> rfl
  all_goals simp [sregVal, hk, heng, hcluster, laneOf, slotOf]

/-- Settles O12: selection, lea and movl write their value outright; setp compares the operands as the type reads them; the
special registers are read off the thread, its block, its launch and its partition. -/
theorem moveSelectCompareResults : Obligations.MoveSelectCompareResults := by
  unfold Obligations.MoveSelectCompareResults
  intro h p sgn k c ty d a b imm
  refine ⟨codedAs_encD rfl rfl (sel_mod_toNat p), gives_of_value (fun _ => rfl) fun _ _ _ _ => rfl,
    gives_of_value (fun _ => rfl) fun _ _ _ _ => leaW_eq .., gives_of_value (fun _ => rfl) fun _ _ _ _ => rfl,
    setsPred_of_value (fun _ => rfl) fun _ _ _ => setpCond_iff .., fun sr => ?_⟩
  refine gives_of_value (fun _ => rfl) fun s u th _ hk hget => ?_
  have hval := sregVal_of_lane hk hget sr
  cases sr
  case status => exact statusWord_fields hk hget
  case phase =>
    intro _ p hp
    rw [hval, hp, Option.elim_some]
  all_goals exact hval

end Sys2Proof.Machine
end
